-- ==== Sys2Proof/Word.lean ====
section
/-! DEFINITION. The word types of the core (00_scope.md R9, R10) and the plainest arithmetic on
naturals that the rules use (R11). -/

namespace Sys2Proof

/-- One byte of a memory (20_memory.md R84: every access the core makes is one byte wide). -/
abbrev Byte := BitVec 8

/-- One host-visible register (00_scope.md R9: every register is 32 bits wide). -/
abbrev Word := BitVec 32

/-- `ceil(a / b)` of 00_scope.md R11. -/
def ceilDiv (a b : Nat) : Nat := (a + b - 1) / b

end Sys2Proof
end

