-- ==== Sys2Proof/Syntax.lean ====
section
/-! DEFINITION. The instructions of the core: one constructor of `Instr` per row of
spec/opcode_table.json, in the table's order. An instruction is an element kind of the input formats
or a command word (30_encoding.md R172). Extra bits are not operands: the rule of the row reads them
from the stream (30_encoding.md R125, R126). -/

namespace Sys2Proof

/-- The ten formats of 30_encoding.md R120..R129, DCODE being the distance part of R126. -/
inductive Format where
  | zhdr
  | blkhdr
  | stored
  | dynhdr
  | clsym
  | sym
  | dcode
  | row
  | pixel
  | cmdword
  deriving DecidableEq, Repr

/-- The instructions. -/
inductive Instr where
  /-- ZHDR with a legal container header (30_encoding.md R120). -/
  | zhdr (cmf flg : Byte)
  /-- ZHDR with any other container header. -/
  | zhdrBad (cmf flg : Byte)
  /-- BLKHDR with BTYPE = 0 (30_encoding.md R121). -/
  | blockStored (bfinal : Bool)
  /-- BLKHDR with BTYPE = 1. -/
  | blockFixed (bfinal : Bool)
  /-- BLKHDR with BTYPE = 2. -/
  | blockDynamic (bfinal : Bool)
  /-- BLKHDR with BTYPE = 3. -/
  | blockReserved (bfinal : Bool)
  /-- STORED: LEN and NLEN (30_encoding.md R122); the LEN data bytes follow in the stream. -/
  | stored (len nlen : BitVec 16)
  /-- DYNHDR: the three fields as they stand in the stream (30_encoding.md R123); the code lengths follow. -/
  | dynhdr (hlit hdist : BitVec 5) (hclen : BitVec 4)
  /-- CLSYM 0..15 (30_encoding.md R125). -/
  | clLen (len : BitVec 4)
  /-- CLSYM 16. -/
  | clRep16
  /-- CLSYM 17. -/
  | clRep17
  /-- CLSYM 18. -/
  | clRep18
  /-- SYM 0..255 (30_encoding.md R126). -/
  | lit (b : Byte)
  /-- SYM 256. -/
  | eob
  /-- SYM 257: a length symbol (30_encoding.md R131). -/
  | len257
  /-- SYM 258: a length symbol (30_encoding.md R131). -/
  | len258
  /-- SYM 259: a length symbol (30_encoding.md R131). -/
  | len259
  /-- SYM 260: a length symbol (30_encoding.md R131). -/
  | len260
  /-- SYM 261: a length symbol (30_encoding.md R131). -/
  | len261
  /-- SYM 262: a length symbol (30_encoding.md R131). -/
  | len262
  /-- SYM 263: a length symbol (30_encoding.md R131). -/
  | len263
  /-- SYM 264: a length symbol (30_encoding.md R131). -/
  | len264
  /-- SYM 265: a length symbol (30_encoding.md R131). -/
  | len265
  /-- SYM 266: a length symbol (30_encoding.md R131). -/
  | len266
  /-- SYM 267: a length symbol (30_encoding.md R131). -/
  | len267
  /-- SYM 268: a length symbol (30_encoding.md R131). -/
  | len268
  /-- SYM 269: a length symbol (30_encoding.md R131). -/
  | len269
  /-- SYM 270: a length symbol (30_encoding.md R131). -/
  | len270
  /-- SYM 271: a length symbol (30_encoding.md R131). -/
  | len271
  /-- SYM 272: a length symbol (30_encoding.md R131). -/
  | len272
  /-- SYM 273: a length symbol (30_encoding.md R131). -/
  | len273
  /-- SYM 274: a length symbol (30_encoding.md R131). -/
  | len274
  /-- SYM 275: a length symbol (30_encoding.md R131). -/
  | len275
  /-- SYM 276: a length symbol (30_encoding.md R131). -/
  | len276
  /-- SYM 277: a length symbol (30_encoding.md R131). -/
  | len277
  /-- SYM 278: a length symbol (30_encoding.md R131). -/
  | len278
  /-- SYM 279: a length symbol (30_encoding.md R131). -/
  | len279
  /-- SYM 280: a length symbol (30_encoding.md R131). -/
  | len280
  /-- SYM 281: a length symbol (30_encoding.md R131). -/
  | len281
  /-- SYM 282: a length symbol (30_encoding.md R131). -/
  | len282
  /-- SYM 283: a length symbol (30_encoding.md R131). -/
  | len283
  /-- SYM 284: a length symbol (30_encoding.md R131). -/
  | len284
  /-- SYM 285: a length symbol (30_encoding.md R131). -/
  | len285
  /-- SYM 286 (`odd` false) and 287 (`odd` true) (30_encoding.md R151). -/
  | symInvalid (odd : Bool)
  /-- DCODE 0 (30_encoding.md R132). -/
  | dist0
  /-- DCODE 1 (30_encoding.md R132). -/
  | dist1
  /-- DCODE 2 (30_encoding.md R132). -/
  | dist2
  /-- DCODE 3 (30_encoding.md R132). -/
  | dist3
  /-- DCODE 4 (30_encoding.md R132). -/
  | dist4
  /-- DCODE 5 (30_encoding.md R132). -/
  | dist5
  /-- DCODE 6 (30_encoding.md R132). -/
  | dist6
  /-- DCODE 7 (30_encoding.md R132). -/
  | dist7
  /-- DCODE 8 (30_encoding.md R132). -/
  | dist8
  /-- DCODE 9 (30_encoding.md R132). -/
  | dist9
  /-- DCODE 10 (30_encoding.md R132). -/
  | dist10
  /-- DCODE 11 (30_encoding.md R132). -/
  | dist11
  /-- DCODE 12 (30_encoding.md R132). -/
  | dist12
  /-- DCODE 13 (30_encoding.md R132). -/
  | dist13
  /-- DCODE 14 (30_encoding.md R132). -/
  | dist14
  /-- DCODE 15 (30_encoding.md R132). -/
  | dist15
  /-- DCODE 16 (30_encoding.md R132). -/
  | dist16
  /-- DCODE 17 (30_encoding.md R132). -/
  | dist17
  /-- DCODE 18 (30_encoding.md R132). -/
  | dist18
  /-- DCODE 19 (30_encoding.md R132). -/
  | dist19
  /-- DCODE 20 (30_encoding.md R132). -/
  | dist20
  /-- DCODE 21 (30_encoding.md R132). -/
  | dist21
  /-- DCODE 22 (30_encoding.md R132). -/
  | dist22
  /-- DCODE 23 (30_encoding.md R132). -/
  | dist23
  /-- DCODE 24 (30_encoding.md R132). -/
  | dist24
  /-- DCODE 25 (30_encoding.md R132). -/
  | dist25
  /-- DCODE 26 (30_encoding.md R132). -/
  | dist26
  /-- DCODE 27 (30_encoding.md R132). -/
  | dist27
  /-- DCODE 28 (30_encoding.md R132). -/
  | dist28
  /-- DCODE 29 (30_encoding.md R132). -/
  | dist29
  /-- DCODE 30 (`odd` false) and 31 (`odd` true) (30_encoding.md R152). -/
  | distInvalid (odd : Bool)
  /-- ROW with filter type 0 (30_encoding.md R127). -/
  | rowNone
  /-- ROW with filter type 1. -/
  | rowSub
  /-- ROW with filter type 2. -/
  | rowUp
  /-- ROW with filter type 3. -/
  | rowAverage
  /-- ROW with filter type 4. -/
  | rowPaeth
  /-- ROW with a filter type 5..255. -/
  | rowUnknown (ft : Byte)
  /-- PIXEL with DEPTH = 8, CTYPE = 3 (30_encoding.md R128). -/
  | pixelPalette
  /-- PIXEL with DEPTH = 8, CTYPE = 0. -/
  | pixelGray
  /-- PIXEL with DEPTH = 8, CTYPE = 4. -/
  | pixelGrayAlpha
  /-- PIXEL with DEPTH = 8, CTYPE = 2. -/
  | pixelRgb
  /-- PIXEL with DEPTH = 8, CTYPE = 6. -/
  | pixelRgba
  /-- PIXEL with any other DEPTH and CTYPE. -/
  | pixelUnsupported (depth ctype : Byte)
  /-- CMDWORD with OP = 0x1 (30_encoding.md R129). -/
  | cmdInflate
  /-- CMDWORD with OP = 0x2. -/
  | cmdDecodePng
  /-- CMDWORD with OP = 0x3. -/
  | cmdResume
  /-- CMDWORD with OP = 0xF. -/
  | cmdSoftReset
  /-- CMDWORD with any other OP. -/
  | cmdReserved (op : BitVec 4)
  deriving DecidableEq, Repr

end Sys2Proof
end

