-- ==== Sys2Proof/WellFormed.lean ====
section
/-! DEFINITION. Which terms of `Instr` are rows of the opcode table: the conditions on operands that
the types do not already enforce (30_encoding.md R120, R127, R128, R129, R172). -/

namespace Sys2Proof

/-- What is wrong with an ill-formed instruction term. -/
inductive IllFormed where
  /-- `zhdr` with a header that one of the three checks of 30_encoding.md R120 refuses. -/
  | illegalHeader
  /-- `zhdrBad` with a header that passes all three checks. -/
  | legalHeader
  /-- `rowUnknown` with one of the five filter types. -/
  | knownFilter
  /-- `pixelUnsupported` with a DEPTH and CTYPE that another row matches. -/
  | supportedPixel
  /-- `cmdReserved` with the OP of a command. -/
  | knownCommand
  deriving DecidableEq, Repr

/-- The legal container header of 30_encoding.md R120: CM = 8, FDICT = 0, and the 16-bit value
`CMF*256 + FLG` a multiple of 31. -/
def legalHeader (cmf flg : Byte) : Bool :=
  cmf.toNat % 16 == 8 && flg.toNat / 32 % 2 == 0 && (cmf.toNat * 256 + flg.toNat) % 31 == 0

/-- The colour types the assembler expands (30_encoding.md R128). -/
def legalColourType (ctype : Byte) : Bool :=
  ctype == 0 || ctype == 2 || ctype == 3 || ctype == 4 || ctype == 6

/-- The first check an instruction term fails, none for a row of the table. -/
def Instr.illFormed : Instr → Option IllFormed
  | .zhdr cmf flg => if legalHeader cmf flg then none else some .illegalHeader
  | .zhdrBad cmf flg => if legalHeader cmf flg then some .legalHeader else none
  | .rowUnknown ft => if ft.toNat ≤ 4 then some .knownFilter else none
  | .pixelUnsupported depth ctype =>
    if depth == 8 && legalColourType ctype then some .supportedPixel else none
  | .cmdReserved op =>
    if op == 1 || op == 2 || op == 3 || op == 15 then some .knownCommand else none
  | _ => none

/-- The instruction term is a row of the opcode table. -/
abbrev Instr.WellFormed (i : Instr) : Prop := i.illFormed = none

end Sys2Proof
end

