-- ==== Sys2Proof/Decode.lean ====
section
/-! DEFINITION. The decoder, total on every value of every format (30_encoding.md R150..R160, R172),
after it the encoder, written from the same tables, and the stream bits of the elements whose bits do
not depend on a dynamic table (30_encoding.md R120..R123, R141). -/

namespace Sys2Proof

/-! ### The decoder -/

/-- Why a value is no instruction. -/
inductive DecodeError where
  /-- The value has bits above the format's width. -/
  | valueTooWide (f : Format)
  /-- A code-length symbol above 18 (30_encoding.md R153: no other symbol exists). -/
  | noCodeLengthSymbol (v : Nat)
  /-- A literal/length symbol above 287 (30_encoding.md R126). -/
  | noSymbol (v : Nat)
  /-- A distance code above 31 (30_encoding.md R126). -/
  | noDistanceCode (v : Nat)
  deriving DecidableEq, Repr

/-- The length instructions in symbol order from 257 (30_encoding.md R131). -/
def lengthInstrs : List Instr :=
  [Instr.len257, Instr.len258, Instr.len259, Instr.len260, Instr.len261, Instr.len262] ++
  [Instr.len263, Instr.len264, Instr.len265, Instr.len266, Instr.len267, Instr.len268] ++
  [Instr.len269, Instr.len270, Instr.len271, Instr.len272, Instr.len273, Instr.len274] ++
  [Instr.len275, Instr.len276, Instr.len277, Instr.len278, Instr.len279, Instr.len280] ++
  [Instr.len281, Instr.len282, Instr.len283, Instr.len284, Instr.len285]

/-- The distance instructions in code order from 0 (30_encoding.md R132). -/
def distanceInstrs : List Instr :=
  [Instr.dist0, Instr.dist1, Instr.dist2, Instr.dist3, Instr.dist4, Instr.dist5] ++
  [Instr.dist6, Instr.dist7, Instr.dist8, Instr.dist9, Instr.dist10, Instr.dist11] ++
  [Instr.dist12, Instr.dist13, Instr.dist14, Instr.dist15, Instr.dist16, Instr.dist17] ++
  [Instr.dist18, Instr.dist19, Instr.dist20, Instr.dist21, Instr.dist22, Instr.dist23] ++
  [Instr.dist24, Instr.dist25, Instr.dist26, Instr.dist27, Instr.dist28, Instr.dist29]

/-- ZHDR: `v = CMF | FLG << 8`; the mask, the match and the condition of the row `zhdr` (R172). -/
def decodeZhdr (v : Nat) : Instr :=
  let cmf := BitVec.ofNat 8 (v % 256)
  let flg := BitVec.ofNat 8 (v / 256)
  if v &&& 0x200F = 0x8 ∧ (v % 256 * 256 + v / 256) % 31 = 0 then .zhdr cmf flg else .zhdrBad cmf flg

/-- BLKHDR: `v[0] = BFINAL`, `v[2:1] = BTYPE` (30_encoding.md R121, R150). -/
def decodeBlkhdr (v : Nat) : Instr :=
  let bfinal := v % 2 == 1
  match v / 2 with
  | 0 => .blockStored bfinal
  | 1 => .blockFixed bfinal
  | 2 => .blockDynamic bfinal
  | _ => .blockReserved bfinal

/-- STORED: LEN in bits 15:0, NLEN in bits 31:16 (30_encoding.md R122). -/
def decodeStored (v : Nat) : Instr :=
  .stored (BitVec.ofNat 16 (v % 65536)) (BitVec.ofNat 16 (v / 65536))

/-- DYNHDR: HLIT in bits 4:0, HDIST in bits 9:5, HCLEN in bits 13:10 (30_encoding.md R123). -/
def decodeDynhdr (v : Nat) : Instr :=
  .dynhdr (BitVec.ofNat 5 (v % 32)) (BitVec.ofNat 5 (v / 32 % 32)) (BitVec.ofNat 4 (v / 1024))

/-- CLSYM: the code-length symbol (30_encoding.md R125, R153). -/
def decodeClsym (v : Nat) : Except DecodeError Instr :=
  if v < 16 then .ok (.clLen (BitVec.ofNat 4 v))
  else if v = 16 then .ok .clRep16
  else if v = 17 then .ok .clRep17
  else if v = 18 then .ok .clRep18
  else .error (.noCodeLengthSymbol v)

/-- SYM: the literal/length symbol (30_encoding.md R126, R151). -/
def decodeSym (v : Nat) : Except DecodeError Instr :=
  if v < 256 then .ok (.lit (BitVec.ofNat 8 v))
  else if v = 256 then .ok .eob
  else if v < 286 then .ok (lengthInstrs.getD (v - 257) .eob)
  else if v < 288 then .ok (.symInvalid (v == 287))
  else .error (.noSymbol v)

/-- DCODE: the distance code (30_encoding.md R126, R152). -/
def decodeDcode (v : Nat) : Except DecodeError Instr :=
  if v < 30 then .ok (distanceInstrs.getD v .dist0)
  else if v < 32 then .ok (.distInvalid (v == 31))
  else .error (.noDistanceCode v)

/-- ROW: the filter-type byte (30_encoding.md R127, R154). -/
def decodeRow (v : Nat) : Instr :=
  match v with
  | 0 => .rowNone
  | 1 => .rowSub
  | 2 => .rowUp
  | 3 => .rowAverage
  | 4 => .rowPaeth
  | _ => .rowUnknown (BitVec.ofNat 8 v)

/-- PIXEL: DEPTH in bits 7:0, CTYPE in bits 15:8 (30_encoding.md R128, R155). -/
def decodePixel (v : Nat) : Instr :=
  let depth := BitVec.ofNat 8 (v % 256)
  let ctype := BitVec.ofNat 8 (v / 256)
  if v = 0x308 then .pixelPalette
  else if v = 0x008 then .pixelGray
  else if v = 0x408 then .pixelGrayAlpha
  else if v = 0x208 then .pixelRgb
  else if v = 0x608 then .pixelRgba
  else .pixelUnsupported depth ctype

/-- CMDWORD: OP in bits 3:0, bits 31:4 ignored (30_encoding.md R129, R160). -/
def decodeCmdword (v : Nat) : Instr :=
  match v % 16 with
  | 1 => .cmdInflate
  | 2 => .cmdDecodePng
  | 3 => .cmdResume
  | 15 => .cmdSoftReset
  | op => .cmdReserved (BitVec.ofNat 4 op)

/-- The width in bits of a format's value (30_encoding.md R172). The symbol formats have no width of
their own: their value is the symbol that GetCode returns, 16 bits of a table entry (10_state.md R46). -/
def Format.width : Format → Nat
  | .zhdr => 16
  | .blkhdr => 3
  | .stored => 32
  | .dynhdr => 14
  | .clsym => 16
  | .sym => 16
  | .dcode => 16
  | .row => 8
  | .pixel => 16
  | .cmdword => 32

/-- The instruction of format `f` with value `v` (30_encoding.md R172). -/
def decode (f : Format) (v : Nat) : Except DecodeError Instr :=
  if v < 2 ^ f.width then
    match f with
    | .zhdr => .ok (decodeZhdr v)
    | .blkhdr => .ok (decodeBlkhdr v)
    | .stored => .ok (decodeStored v)
    | .dynhdr => .ok (decodeDynhdr v)
    | .clsym => decodeClsym v
    | .sym => decodeSym v
    | .dcode => decodeDcode v
    | .row => .ok (decodeRow v)
    | .pixel => .ok (decodePixel v)
    | .cmdword => .ok (decodeCmdword v)
  else .error (.valueTooWide f)

/-! ### The encoder -/

/-- The format an instruction belongs to. -/
def Instr.format : Instr → Format
  | .zhdr _ _ | .zhdrBad _ _ => .zhdr
  | .blockStored _ | .blockFixed _ | .blockDynamic _ | .blockReserved _ => .blkhdr
  | .stored _ _ => .stored
  | .dynhdr _ _ _ => .dynhdr
  | .clLen _ | .clRep16 | .clRep17 | .clRep18 => .clsym
  | .lit _ | .eob | .symInvalid _ => .sym
  | .len257 | .len258 | .len259 | .len260 | .len261 | .len262 | .len263
  | .len264 | .len265 | .len266 | .len267 | .len268 | .len269 | .len270
  | .len271 | .len272 | .len273 | .len274 | .len275 | .len276 | .len277
  | .len278 | .len279 | .len280 | .len281 | .len282 | .len283 | .len284
  | .len285 => .sym
  | .dist0 | .dist1 | .dist2 | .dist3 | .dist4 | .dist5 | .dist6
  | .dist7 | .dist8 | .dist9 | .dist10 | .dist11 | .dist12 | .dist13
  | .dist14 | .dist15 | .dist16 | .dist17 | .dist18 | .dist19 | .dist20
  | .dist21 | .dist22 | .dist23 | .dist24 | .dist25 | .dist26 | .dist27
  | .dist28 | .dist29 => .dcode
  | .distInvalid _ => .dcode
  | .rowNone | .rowSub | .rowUp | .rowAverage | .rowPaeth | .rowUnknown _ => .row
  | .pixelPalette | .pixelGray | .pixelGrayAlpha | .pixelRgb | .pixelRgba => .pixel
  | .pixelUnsupported _ _ => .pixel
  | .cmdInflate | .cmdDecodePng | .cmdResume | .cmdSoftReset | .cmdReserved _ => .cmdword

/-- The value of an instruction in its format, the `match` of its row with the operands put into the
row's fields (30_encoding.md R172). -/
def encode : Instr → Nat
  | .zhdr cmf flg => cmf.toNat + flg.toNat * 256
  | .zhdrBad cmf flg => cmf.toNat + flg.toNat * 256
  | .blockStored f => f.toNat
  | .blockFixed f => 2 + f.toNat
  | .blockDynamic f => 4 + f.toNat
  | .blockReserved f => 6 + f.toNat
  | .stored len nlen => len.toNat + nlen.toNat * 65536
  | .dynhdr hlit hdist hclen => hlit.toNat + hdist.toNat * 32 + hclen.toNat * 1024
  | .clLen len => len.toNat
  | .clRep16 => 16
  | .clRep17 => 17
  | .clRep18 => 18
  | .lit b => b.toNat
  | .eob => 256
  | .len257 => 257
  | .len258 => 258
  | .len259 => 259
  | .len260 => 260
  | .len261 => 261
  | .len262 => 262
  | .len263 => 263
  | .len264 => 264
  | .len265 => 265
  | .len266 => 266
  | .len267 => 267
  | .len268 => 268
  | .len269 => 269
  | .len270 => 270
  | .len271 => 271
  | .len272 => 272
  | .len273 => 273
  | .len274 => 274
  | .len275 => 275
  | .len276 => 276
  | .len277 => 277
  | .len278 => 278
  | .len279 => 279
  | .len280 => 280
  | .len281 => 281
  | .len282 => 282
  | .len283 => 283
  | .len284 => 284
  | .len285 => 285
  | .symInvalid odd => 286 + odd.toNat
  | .dist0 => 0
  | .dist1 => 1
  | .dist2 => 2
  | .dist3 => 3
  | .dist4 => 4
  | .dist5 => 5
  | .dist6 => 6
  | .dist7 => 7
  | .dist8 => 8
  | .dist9 => 9
  | .dist10 => 10
  | .dist11 => 11
  | .dist12 => 12
  | .dist13 => 13
  | .dist14 => 14
  | .dist15 => 15
  | .dist16 => 16
  | .dist17 => 17
  | .dist18 => 18
  | .dist19 => 19
  | .dist20 => 20
  | .dist21 => 21
  | .dist22 => 22
  | .dist23 => 23
  | .dist24 => 24
  | .dist25 => 25
  | .dist26 => 26
  | .dist27 => 27
  | .dist28 => 28
  | .dist29 => 29
  | .distInvalid odd => 30 + odd.toNat
  | .rowNone => 0
  | .rowSub => 1
  | .rowUp => 2
  | .rowAverage => 3
  | .rowPaeth => 4
  | .rowUnknown ft => ft.toNat
  | .pixelPalette => 0x308
  | .pixelGray => 0x008
  | .pixelGrayAlpha => 0x408
  | .pixelRgb => 0x208
  | .pixelRgba => 0x608
  | .pixelUnsupported depth ctype => depth.toNat + ctype.toNat * 256
  | .cmdInflate => 0x1
  | .cmdDecodePng => 0x2
  | .cmdResume => 0x3
  | .cmdSoftReset => 0xF
  | .cmdReserved op => op.toNat

/-! ### Stream bits -/

/-- An `n`-bit field as the stream carries it: bit 0 first (00_scope.md R13). -/
def fieldBits : (n : Nat) → (v : Nat) → List Bool
  | 0, _ => []
  | n + 1, v => (v % 2 == 1) :: fieldBits n (v / 2)

/-- A Huffman code of `n` bits as the stream carries it: its most significant bit first (R13). -/
def codeBits (n c : Nat) : List Bool := (fieldBits n c).reverse

/-- The fixed literal/length code of symbol `v`, as its length and its value (30_encoding.md R141). -/
def fixedLitCode (v : Nat) : Nat × Nat :=
  if v < 144 then (8, 0x30 + v)
  else if v < 256 then (9, 0x190 + (v - 144))
  else if v < 280 then (7, v - 256)
  else (8, 0xC0 + (v - 280))

/-- The stream bits of an element in a block that needs no dynamic table: the headers' fields
(30_encoding.md R120..R123), and the fixed codes of the symbols and of distance codes 0..29 (R141).
None for a format that is not read from the stream bit by bit or whose code a dynamic table gives. -/
def encodeBits (i : Instr) : Option (List Bool) :=
  match i.format with
  | .zhdr => some (fieldBits 16 (encode i))
  | .blkhdr => some (fieldBits 3 (encode i))
  | .stored => some (fieldBits 32 (encode i))
  | .dynhdr => some (fieldBits 14 (encode i))
  | .sym => some (codeBits (fixedLitCode (encode i)).1 (fixedLitCode (encode i)).2)
  | .dcode => if encode i < 30 then some (codeBits 5 (encode i)) else none
  | .clsym | .row | .pixel | .cmdword => none

/-! ### The table's words -/

/-- The format a bare word of the opcode table is read in, from its width and value alone. The table
numbers values per format and the formats overlap (a BLKHDR, a CLSYM, a DCODE, a ROW and a CMDWORD
value are all small numbers); the machine knows the format from its state, a bare word does not carry
it. DESIGN CHOICE (log entry 8), safe: of the formats of one width the one with the most rows first,
then the next that has a row of its own for the value. The machine's step never calls this. -/
def formatOfWord (nbits w : Nat) : Format :=
  if nbits ≤ 8 then (if w < 32 then .dcode else .row)
  else if nbits ≤ 16 then
    if w < 288 then .sym
    else if w = 0x308 ∨ w = 0x408 ∨ w = 0x208 ∨ w = 0x608 then .pixel
    else .zhdr
  else if nbits ≤ 24 then .dynhdr
  else .stored

/-- The instruction the decoder reads from a bare word of the opcode table. -/
def decodeTableWord (nbits w : Nat) : Option Instr :=
  match decode (formatOfWord nbits w) w with
  | .ok i => some i
  | .error _ => none

end Sys2Proof
end

