-- ==== Sys2Proof/Config.lean ====
section
/-! DEFINITION. What one implementation fixes (00_scope.md R8, 20_memory.md R80) and the free
values: constants with no body, about which nothing can be proved. -/

namespace Sys2Proof

/-- The four byte memories of 10_state.md R50, each an address space of its own (20_memory.md R80). -/
inductive Space where
  | inp
  | out
  | pal
  | pix
  deriving DecidableEq, Repr

namespace Config

/-- `PAL_CAP`, the size of PAL in bytes (00_scope.md R8). -/
def palCap : Nat := 768

/-- `GB_MAX`, the largest bit count Refill and GetBits support (00_scope.md R8, 40_bitreader.md R201). -/
def gbMax : Nat := 16

/-- `IN_CAP` of the machine `State.reset` describes. The spec leaves it OPEN (00_scope.md R8).
DESIGN CHOICE (log entry 4), unsafe for a claim about `State.reset` alone: claims range over every
state, and so over every capacity. -/
def defaultInCap : Nat := 65536

/-- `OUT_CAP` of the machine `State.reset` describes. DESIGN CHOICE (log entry 4), as `defaultInCap`. -/
def defaultOutCap : Nat := 65536

/-- `PIX_CAP` of the machine `State.reset` describes. DESIGN CHOICE (log entry 4), as `defaultInCap`. -/
def defaultPixCap : Nat := 262144

/-- Where the platform puts the register block (20_memory.md R80: OPEN, no rule depends on it). -/
opaque regBase : Nat

/-- Where the platform puts the windows of IN, OUT, PAL and PIX, `IN_BASE`, `OUT_BASE`, `PAL_BASE`
and `PIX_BASE` (20_memory.md R80: OPEN, no rule depends on them). -/
opaque windowBase : Space → Nat

/-- FREE VALUE: the byte that address `a` of a memory holds while nobody has written it since draw
number `draw` (60_exceptions.md R612, 70_reset_and_hazards.md R702: any value, one draw per byte,
kept until written). DESIGN CHOICE of form (log entries 2 and 3), safe: nothing constrains it. -/
opaque freeByte : Space → (draw : Nat) → (a : Nat) → Byte

/-- FREE VALUE: the value OUT_LEN holds after the error whose draw number is `draw`
(60_exceptions.md R612). DESIGN CHOICE of form (log entry 2), safe: nothing constrains it. -/
opaque freeWord : (draw : Nat) → Word

end Config

end Sys2Proof
end

