-- ==== Sys2Proof/Machine/State.lean ====
section
/-! DEFINITION. The state of the core as plain data (10_state.md), the ways a step can stop, and the
state after reset (70_reset_and_hazards.md R700). -/

namespace Sys2Proof.Machine

/-! ### Parts of the state -/

/-- The control state (10_state.md R40). -/
inductive Fsm where
  | idle
  | zhdr
  | blkhdr
  | stored
  | dynhdr
  | symbol
  | blkend
  | pngstart
  | row
  | asmstart
  | pixel
  | done
  | error
  deriving DecidableEq, Repr

/-- The error kinds (60_exceptions.md R600), in the order of their codes from 1. -/
inductive ErrorKind where
  | badContainerHeader
  | reservedBlockType
  | invalidHuffmanTable
  | lengthCheckMismatch
  | invalidBackReference
  | unknownFilterType
  | paletteIndexOutOfRange
  | truncatedInput
  | invalidSymbol
  | unsupportedFormat
  | capacityExceeded
  deriving DecidableEq, Repr

/-- The bits BUSY, DONE and ERR of STATUS (10_state.md R32). SUSP is the state's `susp` (R41): it is
stored once. -/
structure Status where
  busy : Bool
  done : Bool
  err : Bool
  deriving DecidableEq, Repr

/-- The FORMAT register (10_state.md R38). Its reserved bits hold nothing. -/
structure FormatReg where
  depth : Byte
  ctype : Byte
  palPresent : Bool
  deriving DecidableEq, Repr

/-- A Huffman table entry (10_state.md R46): `entry[19:16]` is `len`, `entry[15:0]` is `sym`. -/
structure Entry where
  len : BitVec 4
  sym : BitVec 16
  deriving DecidableEq, Repr

/-- A Huffman table (10_state.md R45): `max` and the entries 0 .. 2^max - 1. The table with `max = 0`
lists no entry. -/
structure Table where
  max : Nat
  entries : List Entry
  deriving DecidableEq, Repr

/-- The table of a block that has none: `max = 0` (41_huffman.md R222). -/
abbrev Table.empty : Table := { max := 0, entries := [] }

/-- The PNG registers (10_state.md R47). -/
structure PngRegs where
  w : Nat
  h : Nat
  depth : Byte
  ctype : Byte
  chan : Nat
  bitsPp : Nat
  bpp : Nat
  stride : Nat
  rowlen : Nat
  npal : Nat
  row : Nat
  pixI : Nat
  deriving DecidableEq, Repr

/-- A memory: the bytes written since its last draw, by address, strictly rising. A byte it does not
list is one of draw number `draw` (70_reset_and_hazards.md R702). -/
structure Memory where
  cells : List Host.Cell
  draw : Nat
  deriving DecidableEq, Repr

/-- The sizes of IN, OUT and PIX (00_scope.md R8: arguments of the model). No rule writes them. -/
structure Caps where
  inCap : Nat
  outCap : Nat
  pixCap : Nat
  deriving DecidableEq, Repr

/-- The scratch of a dynamic header element (42_inflate_blocks.md R270): `HLIT`, `HDIST`, the code
lengths read so far and the code-length table. `hlit = 0` says that no header is being read. -/
structure DynScratch where
  hlit : Nat
  hdist : Nat
  lens : List Nat
  clt : Table
  deriving DecidableEq, Repr

/-- No dynamic header is being read. -/
abbrev DynScratch.empty : DynScratch := { hlit := 0, hdist := 0, lens := [], clt := Table.empty }

/-- The moves of 46_commands.md R460 as the host makes them. `engine` is the turn the host leaves to
the engine. -/
inductive HostMove where
  | engine
  | regWrite (off : Nat) (v : Word)
  | regRead (off : Nat)
  | memWrite (sp : Space) (a : Nat) (b : Byte)
  | memRead (sp : Space) (a : Nat)
  | reset
  deriving DecidableEq, Repr

/-- The register slots (10_state.md R30). -/
inductive Reg where
  | cmd
  | status
  | errcode
  | ctrl
  | inLen
  | outLen
  | width
  | height
  | format
  | palLen
  | reserved
  deriving DecidableEq, Repr

/-! ### The state -/

/-- The state of the machine: Part A, B and C of 10_state.md, the machine's parameters, the scratch of
one element and the model's own fields (INVENTORY.md, State). -/
structure State where
  /-- STATUS (R32). -/
  status : Status
  /-- ERRCODE bits 3:0 (R33). -/
  errcode : BitVec 4
  /-- CTRL bit 0 (R34). -/
  ckptEn : Bool
  /-- IN_LEN (R35). -/
  inLen : Word
  /-- WIDTH (R37). -/
  width : Word
  /-- HEIGHT (R37). -/
  height : Word
  /-- FORMAT (R38). -/
  format : FormatReg
  /-- PAL_LEN (R39). -/
  palLen : Word
  /-- `fsm` (R40). -/
  fsm : Fsm
  /-- `susp`, and STATUS.SUSP (R41, R32). -/
  susp : Bool
  /-- `susp_next` (R41). -/
  suspNext : Fsm
  /-- `in_pos` (R42). -/
  inPos : Nat
  /-- `acc` (R42). -/
  acc : BitVec 32
  /-- `cnt` (R42). -/
  cnt : Nat
  /-- `out_len`, and OUT_LEN (R43, R36). -/
  outLen : Nat
  /-- `bfinal` (R44). -/
  bfinal : Bool
  /-- `btype` (R44). -/
  btype : BitVec 2
  /-- `LLT` (R45). -/
  llt : Table
  /-- `DT` (R45). -/
  dt : Table
  /-- The PNG registers (R47). -/
  png : PngRegs
  /-- IN (R50). -/
  inp : Memory
  /-- OUT (R50). -/
  out : Memory
  /-- PAL (R50). -/
  pal : Memory
  /-- PIX (R50). -/
  pix : Memory
  /-- IN_CAP, OUT_CAP and PIX_CAP (00_scope.md R8). -/
  caps : Caps
  /-- Scratch of a SYMBOL element: the length of the match being read, 0 when none is
  (43_inflate_symbols.md R305). -/
  matchLen : Nat
  /-- Scratch of a DYNHDR element (42_inflate_blocks.md R270). -/
  dyn : DynScratch
  /-- The model's own: the number of the next draw of free values (log entry 2). -/
  draws : Nat
  /-- The model's own: the host moves still to come (log entry 1). -/
  moves : List HostMove
  /-- The host's: what its last read returned (log entry 18). -/
  hostData : Word
  deriving DecidableEq, Repr

/-! ### How a step can stop -/

/-- The faults. The errors of 60_exceptions.md are no faults: raising one is a next state. -/
inductive Fault where
  /-- Raised by the core's byte accesses (`readByte`, `writeByte`) at an address the memory does not
  have (20_memory.md R80, R82: no computed address can leave its memory). Safe: no run from reset
  reaches it (log entry 10). -/
  | addressOutsideMemory (sp : Space) (a : Nat)
  /-- Raised by an engine step whose control state, position or symbol names no element: BUSY in IDLE,
  DONE or ERROR, ROW with `row >= H`, PIXEL with `pix_i >= W*H`, a code-length symbol above 18. Safe:
  no run from reset reaches it (log entry 11). -/
  | noElement (fsm : Fsm)
  deriving DecidableEq, Repr

/-- The refusals. -/
inductive Refusal where
  /-- An instruction whose meaning has not been written yet. -/
  | notModelled (mnemonic : String)
  /-- Raised by a host register access at an offset that is no aligned word of the block
  (20_memory.md R86: refused). Safe (log entry 12). -/
  | registerOffset (off : Nat)
  /-- Raised by a host memory access at an address not below the memory's size (20_memory.md R85:
  refused). Safe (log entry 12). -/
  | hostAddress (sp : Space) (a : Nat)
  /-- Raised by a host memory access that 20_memory.md R94 does not allow while a command runs
  (70_reset_and_hazards.md R721: no such move). Safe (log entry 12). -/
  | hostWhileBusy (sp : Space) (a : Nat)
  /-- Raised by Refill and GetBits asked for more than 16 bits (40_bitreader.md R201: refused); no
  element asks. Safe (log entry 13). -/
  | wideBitCount (n : Nat)
  deriving DecidableEq, Repr

/-- The outcome of a step of this machine. -/
abbrev Outcome := Host.Outcome State Fault Refusal

/-- The result of a part of an element: a value and the state after it, an error raised in a state
(60_exceptions.md R610: nothing after it runs), or a stop. -/
inductive Res (α : Type) where
  | ok (a : α) (s : State)
  | err (k : ErrorKind) (s : State)
  | fault (f : Fault)
  | refused (r : Refusal)

/-- What the machine does next: run an instruction, whose own bits have been read, or something that
is no row of the opcode table and has ended already. -/
inductive Fetched where
  | instr (i : Instr) (s : State)
  | over (o : Outcome)

/-! ### Reset -/

/-- A memory after the reset signal, its bytes those of draw number `draw`
(70_reset_and_hazards.md R702). -/
abbrev Memory.drawn (draw : Nat) : Memory := { cells := [], draw := draw }

/-- The PNG registers after reset (R700). -/
abbrev PngRegs.reset : PngRegs :=
  { w := 0, h := 0, depth := 0, ctype := 0, chan := 0, bitsPp := 0, bpp := 0, stride := 0, rowlen := 0,
    npal := 0, row := 0, pixI := 0 }

/-- The machine right after the reset signal (70_reset_and_hazards.md R700, R701). The capacities
(log entry 4), the scratch (log entries 6 and 7) and the model's own fields (log entries 1, 2, 3 and
18) are DESIGN CHOICES. -/
def State.reset : State where
  status := { busy := false, done := false, err := false }
  errcode := 0
  ckptEn := false
  inLen := 0
  width := 0
  height := 0
  format := { depth := 0, ctype := 0, palPresent := false }
  palLen := 0
  fsm := .idle
  susp := false
  suspNext := .idle
  inPos := 0
  acc := 0
  cnt := 0
  outLen := 0
  bfinal := false
  btype := 0
  llt := Table.empty
  dt := Table.empty
  png := PngRegs.reset
  inp := Memory.drawn 0
  out := Memory.drawn 0
  pal := Memory.drawn 0
  pix := Memory.drawn 0
  caps := { inCap := Config.defaultInCap, outCap := Config.defaultOutCap, pixCap := Config.defaultPixCap }
  matchLen := 0
  dyn := DynScratch.empty
  draws := 1
  moves := []
  hostData := 0

end Sys2Proof.Machine
end

