-- ==== Sys2Proof/Machine/Ops.lean ====
section
/-! DEFINITION. The named operations every element is built from: sequencing, the byte memories
(20_memory.md), error entry and the end of a command (60_exceptions.md R610, 46_commands.md R467,
R470), the BitReader and the output primitives (40_bitreader.md). -/

namespace Sys2Proof.Machine

/-! ### Sequencing -/

/-- Run `k` after `r`, unless `r` raised an error or stopped (00_scope.md R12: no statement after a
`raise` runs). -/
def Res.bind {α β : Type} (r : Res α) (k : α → State → Res β) : Res β :=
  match r with
  | .ok a s => k a s
  | .err e s => .err e s
  | .fault f => .fault f
  | .refused q => .refused q

/-! ### Memories -/

/-- The byte written at address `a`, none if nobody has written it since the last draw. -/
def lookupCell (a : Nat) : List Host.Cell → Option Byte
  | [] => none
  | c :: rest => if a = c.1 then some c.2 else lookupCell a rest

/-- Write byte `b` at address `a` into a list whose addresses rise strictly. -/
def insertCell (a : Nat) (b : Byte) : List Host.Cell → List Host.Cell
  | [] => [(a, b)]
  | c :: rest =>
    if a < c.1 then (a, b) :: c :: rest
    else if a = c.1 then (a, b) :: rest
    else c :: insertCell a b rest

/-- The canonical form of a memory: its addresses rise strictly (log entry 3). -/
abbrev Memory.wf (m : Memory) : Prop := m.cells.Pairwise (fun c d => c.1 < d.1)

/-- Every listed address is below `cap`. -/
abbrev Memory.below (m : Memory) (cap : Nat) : Prop := ∀ c ∈ m.cells, c.1 < cap

/-- What an unlisted address reads as: a free byte of the memory's draw (70_reset_and_hazards.md R702,
60_exceptions.md R612; log entry 3). -/
def Memory.unlisted (m : Memory) (sp : Space) (a : Nat) : Byte := Config.freeByte sp m.draw a

/-- The byte at address `a` of memory `m`, which is space `sp`. -/
def Memory.read (m : Memory) (sp : Space) (a : Nat) : Byte :=
  (lookupCell a m.cells).getD (m.unlisted sp a)

/-- Memory `m` with byte `b` at address `a`. -/
def Memory.write (m : Memory) (a : Nat) (b : Byte) : Memory :=
  { m with cells := insertCell a b m.cells }

/-- The memory of a space. -/
def State.mem (s : State) : Space → Memory
  | .inp => s.inp
  | .out => s.out
  | .pal => s.pal
  | .pix => s.pix

/-- The state with another memory for a space. -/
def State.setMem (s : State) (sp : Space) (m : Memory) : State :=
  match sp with
  | .inp => { s with inp := m }
  | .out => { s with out := m }
  | .pal => { s with pal := m }
  | .pix => { s with pix := m }

/-- The size of a memory (10_state.md R50). -/
def Caps.size (c : Caps) : Space → Nat
  | .inp => c.inCap
  | .out => c.outCap
  | .pal => Config.palCap
  | .pix => c.pixCap

/-- The byte a space holds at an address. -/
def State.byteAt (s : State) (sp : Space) (a : Nat) : Byte := (s.mem sp).read sp a

/-- The state with byte `b` at address `a` of a space. -/
def State.putByte (s : State) (sp : Space) (a : Nat) (b : Byte) : State :=
  s.setMem sp ((s.mem sp).write a b)

/-- `MemRead(S, a, 1)` (00_scope.md R12). An address the memory does not have is a fault (log entry
10). -/
def readByte (sp : Space) (a : Nat) (s : State) : Res Byte :=
  if a < s.caps.size sp then .ok (s.byteAt sp a) s else .fault (.addressOutsideMemory sp a)

/-- `MemWrite(S, a, 1, b)` (00_scope.md R12), with the same fault. -/
def writeByte (sp : Space) (a : Nat) (b : Byte) (s : State) : Res Unit :=
  if a < s.caps.size sp then .ok () (s.putByte sp a b) else .fault (.addressOutsideMemory sp a)

/-! ### Error entry and the end of a command -/

/-- The code of an error kind (60_exceptions.md R600). -/
def ErrorKind.code : ErrorKind → BitVec 4
  | .badContainerHeader => 1
  | .reservedBlockType => 2
  | .invalidHuffmanTable => 3
  | .lengthCheckMismatch => 4
  | .invalidBackReference => 5
  | .unknownFilterType => 6
  | .paletteIndexOutOfRange => 7
  | .truncatedInput => 8
  | .invalidSymbol => 9
  | .unsupportedFormat => 10
  | .capacityExceeded => 11

/-- OUT, OUT_LEN and PIX take values nobody knows (60_exceptions.md R612): those of the next draw (log
entry 2). -/
def State.drawOutputs (s : State) : State :=
  { s with
    out := Memory.drawn s.draws
    pix := Memory.drawn s.draws
    outLen := (Config.freeWord s.draws).toNat
    draws := s.draws + 1 }

/-- The element's scratch is gone when the element is over (log entries 6 and 7). -/
def State.dropScratch (s : State) : State := { s with matchLen := 0, dyn := DynScratch.empty }

/-- ERROR ENTRY, `raise Error(kind)` (60_exceptions.md R610), with the outputs R612 leaves open. It saves
nothing but ERRCODE and STATUS (R613), and there is no return from it (R614): only a command or a
reset leaves ERROR (R611). -/
def State.raise (s : State) (k : ErrorKind) : State :=
  { s.drawOutputs.dropScratch with
    fsm := .error
    susp := false
    status := { busy := false, done := false, err := true }
    errcode := k.code }

/-- The end of a command without error (46_commands.md R467). -/
def State.finish (s : State) : State :=
  { s with fsm := .done, susp := false, status := { s.status with busy := false, done := true } }

/-- `fsm <- next`; if that is DONE the command ends (46_commands.md R467). -/
def State.goto (s : State) (next : Fsm) : State :=
  if next = .done then s.finish else { s with fsm := next }

/-- `checkpoint(next)` (46_commands.md R470). -/
def State.checkpoint (s : State) (next : Fsm) : State :=
  if s.ckptEn then { s with susp := true, suspNext := next } else s.goto next

/-- The outcome of an element: an error is entered (60_exceptions.md R610). -/
def Res.run (r : Res Unit) : Outcome :=
  match r with
  | .ok _ s => .next s
  | .err k s => .next (s.raise k)
  | .fault f => .fault f
  | .refused q => .refused q

/-- The outcome of an element whose last part `k` is an instruction of its own. -/
def Res.andThen {α : Type} (r : Res α) (k : α → State → Outcome) : Outcome :=
  match r with
  | .ok a s => k a s
  | .err e s => .next (s.raise e)
  | .fault f => .fault f
  | .refused q => .refused q

/-- The instruction whose bits have been read, or the outcome if reading them raised an error. -/
def Res.fetched (r : Res Instr) : Fetched :=
  match r with
  | .ok i s => .instr i s
  | .err k s => .over (.next (s.raise k))
  | .fault f => .over (.fault f)
  | .refused q => .over (.refused q)

/-! ### BitReader -/

/-- At most `k` rounds of the loop of `Refill(n)` (40_bitreader.md R200). -/
def refillLoop : (k : Nat) → (n : Nat) → State → Res Unit
  | 0, _, s => .ok () s
  | k + 1, n, s =>
    if s.cnt < n then
      if s.inLen.toNat ≤ s.inPos then .err .truncatedInput s
      else
        (readByte .inp s.inPos s).bind fun b s =>
          refillLoop k n
            { s with acc := s.acc ||| (b.setWidth 32 <<< s.cnt), cnt := s.cnt + 8, inPos := s.inPos + 1 }
    else .ok () s

/-- `Refill(n)` (40_bitreader.md R200). Two rounds are enough because `n` is at most 16; a larger `n` is
refused (R201; log entry 13). -/
def refill (n : Nat) (s : State) : Res Unit :=
  if n ≤ Config.gbMax then refillLoop 2 n s else .refused (.wideBitCount n)

/-- The state after `n` buffered bits are dropped. -/
def State.dropBits (s : State) (n : Nat) : State := { s with acc := s.acc >>> n, cnt := s.cnt - n }

/-- The low `n` bits of `acc`, `acc[n-1:0]`. -/
def State.lowBits (s : State) (n : Nat) : Nat := s.acc.toNat % 2 ^ n

/-- `GetBits(n)` (40_bitreader.md R201). -/
def getBits (n : Nat) (s : State) : Res Nat :=
  if n = 0 then .ok 0 s
  else (refill n s).bind fun _ s => .ok (s.lowBits n) (s.dropBits n)

/-- The entry that codes no symbol (10_state.md R46: L = 0). -/
def Entry.unfilled : Entry := { len := 0, sym := 0 }

/-- `T.entry[j]`. -/
def Table.entry (t : Table) (j : Nat) : Entry := t.entries.getD j Entry.unfilled

/-- `GetCode(T)` (40_bitreader.md R203). -/
def getCode (t : Table) (s : State) : Res Nat :=
  if t.max = 0 then .err .invalidHuffmanTable s
  else
    (refill t.max s).bind fun _ s =>
      let e := t.entry (s.lowBits t.max)
      if e.len = 0 then .err .invalidHuffmanTable s
      else .ok e.sym.toNat (s.dropBits e.len.toNat)

/-- `Align()` (40_bitreader.md R205). -/
def State.align (s : State) : State := s.dropBits (s.cnt % 8)

/-- The stream position, the index of the next unread bit of IN (40_bitreader.md R209). -/
def State.streamPos (s : State) : Int := 8 * s.inPos - s.cnt

/-! ### Output -/

/-- `OutAppend(b)` (40_bitreader.md R214). -/
def outAppend (b : Byte) (s : State) : Res Unit :=
  if s.caps.outCap ≤ s.outLen then .err .capacityExceeded s
  else (writeByte .out s.outLen b s).bind fun _ s => .ok () { s with outLen := s.outLen + 1 }

/-- `OutBack(dist)` (40_bitreader.md R216). -/
def outBack (dist : Nat) (s : State) : Res Byte := readByte .out (s.outLen - dist) s

/-- `len` rounds of `OutAppend(OutBack(dist))`, one byte at a time (43_inflate_symbols.md R302,
20_memory.md R90). -/
def copyBytes : (len : Nat) → (dist : Nat) → State → Res Unit
  | 0, _, s => .ok () s
  | len + 1, dist, s =>
    (outBack dist s).bind fun b s => (outAppend b s).bind fun _ s => copyBytes len dist s

/-- `Copy(len, dist)` (43_inflate_symbols.md R302). -/
def backCopy (len dist : Nat) (s : State) : Res Unit :=
  if s.outLen < dist then .err .invalidBackReference s else copyBytes len dist s

/-- `n` rounds of `OutAppend(GetBits(8))` (42_inflate_blocks.md R260). -/
def copyStored : (n : Nat) → State → Res Unit
  | 0, s => .ok () s
  | n + 1, s =>
    (getBits 8 s).bind fun b s =>
      (outAppend (BitVec.ofNat 8 b) s).bind fun _ s => copyStored n s

end Sys2Proof.Machine
end

