-- ==== Sys2Proof/Machine/Huffman.lean ====
section
/-! DEFINITION. BuildTable and the fixed tables (41_huffman.md). -/

namespace Sys2Proof.Machine

/-- `T.max`, the largest code length (41_huffman.md R221). -/
def maxLength (lens : List Nat) : Nat := lens.foldl Nat.max 0

/-- `count[L]`, the number of symbols of length `L`, with `count[0] = 0` (41_huffman.md R220). -/
def lengthCount (lens : List Nat) (L : Nat) : Nat := if L = 0 then 0 else lens.count L

/-- `left` after lengths 1 .. L of the validity check, none if it went negative
(41_huffman.md R220, R226). -/
def codesLeft (lens : List Nat) : (L : Nat) → Option Nat
  | 0 => some 1
  | L + 1 =>
    match codesLeft lens L with
    | none => none
    | some left =>
      if 2 * left < lengthCount lens (L + 1) then none else some (2 * left - lengthCount lens (L + 1))

/-- `next[L]` before any symbol takes a code: the first code of length `L` (41_huffman.md R223). -/
def firstCode (lens : List Nat) : (L : Nat) → Nat
  | 0 => 0
  | L + 1 => (firstCode lens L + lengthCount lens L) * 2

/-- `reverse(c, L)` (41_huffman.md R224): bit `i` of the result is bit `L-1-i` of `c`. -/
def reverseBits : (L : Nat) → (c : Nat) → Nat
  | 0, _ => 0
  | L + 1, c => c % 2 * 2 ^ L + reverseBits L (c / 2)

/-- A symbol with its code: its length and its code reversed (41_huffman.md R224). -/
structure SymbolCode where
  len : Nat
  rev : Nat
  sym : Nat
  deriving DecidableEq, Repr

/-- The codes of the symbols from `s` on, in ascending symbol order, `next` being the next code of each
length (41_huffman.md R220, R223). -/
def assignCodes (next : List Nat) (s : Nat) : (lens : List Nat) → List SymbolCode
  | [] => []
  | L :: rest =>
    if L = 0 then assignCodes next (s + 1) rest
    else
      { len := L, rev := reverseBits L (next.getD L 0), sym := s }
        :: assignCodes (next.set L (next.getD L 0 + 1)) (s + 1) rest

/-- Every symbol's code, for lengths up to `max`. -/
def symbolCodes (max : Nat) (lens : List Nat) : List SymbolCode :=
  assignCodes ((List.range (max + 1)).map (firstCode lens)) 0 lens

/-- Entry `j` after the slots of all codes are filled in symbol order: unfilled (41_huffman.md R227)
unless `j mod 2^L` is the reversed code of a symbol of length `L` (R225). -/
def filledEntry (codes : List SymbolCode) (j : Nat) : Entry :=
  codes.foldl
    (fun e c => if j % 2 ^ c.len = c.rev then { len := BitVec.ofNat 4 c.len, sym := BitVec.ofNat 16 c.sym } else e)
    Entry.unfilled

/-- `BuildTable(len, used)` (41_huffman.md R220); none where it raises InvalidHuffmanTable: a used
alphabet without codes (R222) or an oversubscribed one (R226). -/
def buildTable (lens : List Nat) (used : Bool) : Option Table :=
  let max := maxLength lens
  if max = 0 then (if used then none else some Table.empty)
  else
    match codesLeft lens max with
    | none => none
    | some _ =>
      let codes := symbolCodes max lens
      some { max := max, entries := (List.range (2 ^ max)).map (filledEntry codes) }

/-- BuildTable as a part of an element. It reads and writes no other state (41_huffman.md R220). -/
def buildTableStep (lens : List Nat) (used : Bool) (s : State) : Res Table :=
  match buildTable lens used with
  | none => .err .invalidHuffmanTable s
  | some t => .ok t s

/-- The fixed literal/length code lengths (41_huffman.md R230). -/
def fixedLitLengths : List Nat :=
  List.replicate 144 8 ++ List.replicate 112 9 ++ List.replicate 24 7 ++ List.replicate 8 8

/-- The fixed distance code lengths (41_huffman.md R231). -/
def fixedDistLengths : List Nat := List.replicate 30 5

/-- The fixed literal/length table (41_huffman.md R230, R233). -/
def fixedLitTable : Table := (buildTable fixedLitLengths true).getD Table.empty

/-- The fixed distance table (41_huffman.md R231, R233). -/
def fixedDistTable : Table := (buildTable fixedDistLengths false).getD Table.empty

end Sys2Proof.Machine
end

