-- ==== Sys2Proof/Machine/Operands.lean ====
section
/-! DEFINITION. Operand assembly: the counts and lengths of the dynamic header (30_encoding.md R124,
R130), the image quantities (44_png_unfilter.md R401), the filter predictors (R403, R410..R414), the
palette (45_pixel_assembler.md R433) and the source bytes of a pixel (R431). -/

namespace Sys2Proof.Machine

/-! ### Dynamic header -/

/-- `HLIT = GetBits(5) + 257` (30_encoding.md R130). -/
def litCount (field : BitVec 5) : Nat := field.toNat + 257

/-- `HDIST = GetBits(5) + 1`. -/
def distCount (field : BitVec 5) : Nat := field.toNat + 1

/-- `HCLEN = GetBits(4) + 4`. -/
def clCount (field : BitVec 4) : Nat := field.toNat + 4

/-- `CL_ORDER` (30_encoding.md R124). -/
def clOrder : List Nat := [16, 17, 18, 0, 8, 7, 9, 6, 10, 5, 11, 4, 12, 3, 13, 2, 14, 1, 15]

/-- Read `n` code-length code lengths of 3 bits each; the lengths in the order they are read
(42_inflate_blocks.md R270). -/
def readClLengths : (n : Nat) → State → Res (List Nat)
  | 0, s => .ok [] s
  | n + 1, s =>
    (getBits 3 s).bind fun v s => (readClLengths n s).bind fun rest s => .ok (v :: rest) s

/-- `cl[0..18]`: the `i`-th length read is the length of symbol `CL_ORDER[i]`, every other length is 0
(42_inflate_blocks.md R271). -/
def clLengths (read : List Nat) : List Nat :=
  (clOrder.zip read).foldl (fun cl p => cl.set p.1 p.2) (List.replicate 19 0)

/-! ### Image quantities -/

/-- The channel count of a colour type (44_png_unfilter.md R401). The colour types of R400's check are
the only ones it is asked for. -/
def channels (ctype : Byte) : Nat :=
  if ctype = 2 then 3 else if ctype = 4 then 2 else if ctype = 6 then 4 else 1

/-- `bits_pp` (44_png_unfilter.md R401). -/
def bitsPerPixel (depth ctype : Byte) : Nat := depth.toNat * channels ctype

/-- `bpp` (44_png_unfilter.md R401). -/
def bytesPerPixel (depth ctype : Byte) : Nat := ceilDiv (bitsPerPixel depth ctype) 8

/-- `stride` (44_png_unfilter.md R401). -/
def rowStride (w : Nat) (depth ctype : Byte) : Nat := ceilDiv (w * bitsPerPixel depth ctype) 8

/-- `npal` (45_pixel_assembler.md R433). -/
def paletteEntries (palPresent : Bool) (palLen : Nat) : Nat := if palPresent then palLen / 3 else 0

/-! ### Filters -/

/-- The five filter types (30_encoding.md R127). -/
inductive FilterType where
  | none
  | sub
  | up
  | average
  | paeth
  deriving DecidableEq, Repr

/-- `PaethPredictor(a, b, c)` (44_png_unfilter.md R414), in signed integers. -/
def paethPredictor (a b c : Nat) : Nat :=
  let p : Int := (a : Int) + b - c
  let pa := (p - a).natAbs
  let pb := (p - b).natAbs
  let pc := (p - c).natAbs
  if pa ≤ pb ∧ pa ≤ pc then a else if pb ≤ pc then b else c

/-- `Pred(FT, a, b, c)` (44_png_unfilter.md R403, R410..R414), computed exactly. -/
def predictor (ft : FilterType) (a b c : Nat) : Nat :=
  match ft with
  | .none => 0
  | .sub => a
  | .up => b
  | .average => (a + b) / 2
  | .paeth => paethPredictor a b c

/-- `(f + Pred(FT, a, b, c)) mod 256` (44_png_unfilter.md R402). -/
def reconstruct (ft : FilterType) (f a b c : Byte) : Byte :=
  BitVec.ofNat 8 ((f.toNat + predictor ft a.toNat b.toNat c.toNat) % 256)

/-- A neighbour byte of OUT, 0 where it is missing (44_png_unfilter.md R402). -/
def neighbour (present : Bool) (a : Nat) (s : State) : Res Byte :=
  if present then readByte .out a s else .ok 0 s

/-! ### Pixels -/

/-- A pixel of the PixelBuffer (45_pixel_assembler.md R432). -/
structure Pixel where
  r : Byte
  g : Byte
  b : Byte
  al : Byte
  deriving DecidableEq, Repr

/-- The address of the first source byte of pixel `pix_i` (45_pixel_assembler.md R431). -/
def pixelSource (p : PngRegs) : Nat := p.pixI / p.w * p.rowlen + 1 + p.pixI % p.w * p.bpp

/-- The address in PIX of channel `k` of pixel `pix_i` (45_pixel_assembler.md R431). -/
def pixelTarget (p : PngRegs) (k : Nat) : Nat := 4 * p.pixI + k

/-- The source byte `s[k]` of a pixel (45_pixel_assembler.md R431). -/
def sourceByte (src k : Nat) (s : State) : Res Byte := readByte .out (src + k) s

end Sys2Proof.Machine
end

