-- ==== Sys2Proof/Machine/Flags.lean ====
section
/-! DEFINITION. The conditions the elements test and the status bits: the checks of the container
header, of a stored block and of the image header (42_inflate_blocks.md R250, R260; 44_png_unfilter.md
R400), the block flags (10_state.md R44) and the words of STATUS, CTRL and FORMAT (R32, R34, R38). -/

namespace Sys2Proof.Machine

/-- The three checks of the container header (42_inflate_blocks.md R250). -/
def headerPasses (cmf flg : Byte) : Bool :=
  (cmf &&& 0x0F) == 8 && (cmf.toNat * 256 + flg.toNat) % 31 == 0 && (flg &&& 0x20) == 0

/-- `NLEN = ~LEN & 0xFFFF` (42_inflate_blocks.md R260). -/
def storedLengthPasses (len nlen : BitVec 16) : Bool := nlen == ~~~len

/-- The legal depths (44_png_unfilter.md R400). -/
def depthPasses (depth : Byte) : Bool :=
  depth == 1 || depth == 2 || depth == 4 || depth == 8 || depth == 16

/-- The legal colour types (44_png_unfilter.md R400). -/
def ctypePasses (ctype : Byte) : Bool :=
  ctype == 0 || ctype == 2 || ctype == 3 || ctype == 4 || ctype == 6

/-- `bfinal` and `btype` written by a block header (42_inflate_blocks.md R255, 10_state.md R44). -/
def State.setBlock (s : State) (bfinal : Bool) (btype : BitVec 2) : State :=
  { s with bfinal := bfinal, btype := btype }

/-- STATUS while a command runs and is not over (46_commands.md R461, R462). -/
def Status.running : Status := { busy := true, done := false, err := false }

/-- One bit of a register word at a bit position. -/
def bitAt (b : Bool) (n : Nat) : Word := (BitVec.ofBool b).setWidth 32 <<< n

/-- The word STATUS reads as (10_state.md R32). -/
def State.statusWord (s : State) : Word :=
  bitAt s.status.busy 0 ||| bitAt s.status.done 1 ||| bitAt s.status.err 2 ||| bitAt s.susp 3

/-- The word FORMAT reads as (10_state.md R38). -/
def FormatReg.word (f : FormatReg) : Word :=
  f.depth.setWidth 32 ||| (f.ctype.setWidth 32 <<< 8) ||| bitAt f.palPresent 16

/-- The FORMAT register after a word is written to it (10_state.md R38). -/
def FormatReg.ofWord (v : Word) : FormatReg :=
  { depth := v.extractLsb' 0 8, ctype := v.extractLsb' 8 8, palPresent := v.getLsbD 16 }

end Sys2Proof.Machine
end

