-- ==== Sys2Proof/Machine/Blocks.lean ====
section
/-! DEFINITION. The container header, the block headers, the stored body and the end of a block
(42_inflate_blocks.md R250..R260). An instruction's own bits have been read when its meaning runs. -/

namespace Sys2Proof.Machine

/-- `zhdr` (42_inflate_blocks.md R250). -/
def execZhdr (cmf flg : Byte) (s : State) : Outcome :=
  if headerPasses cmf flg then .next { s with fsm := .blkhdr } else .next (s.raise .badContainerHeader)

/-- `zhdr.bad`: BadContainerHeader (42_inflate_blocks.md R250). -/
def execZhdrBad (_cmf _flg : Byte) (s : State) : Outcome := .next (s.raise .badContainerHeader)

/-- `block.stored` (42_inflate_blocks.md R255). -/
def execBlockStored (bfinal : Bool) (s : State) : Outcome :=
  .next { s.setBlock bfinal 0 with fsm := .stored }

/-- `block.fixed` with FixedSetup (42_inflate_blocks.md R255, R256). -/
def execBlockFixed (bfinal : Bool) (s : State) : Outcome :=
  .next { s.setBlock bfinal 1 with llt := fixedLitTable, dt := fixedDistTable, fsm := .symbol }

/-- `block.dynamic` (42_inflate_blocks.md R255). -/
def execBlockDynamic (bfinal : Bool) (s : State) : Outcome :=
  .next { s.setBlock bfinal 2 with fsm := .dynhdr }

/-- `block.reserved`: ReservedBlockType (42_inflate_blocks.md R257). -/
def execBlockReserved (bfinal : Bool) (s : State) : Outcome :=
  .next ((s.setBlock bfinal 3).raise .reservedBlockType)

/-- The stored body after LEN and NLEN (42_inflate_blocks.md R260). -/
def storedBody (len nlen : BitVec 16) (s : State) : Res Unit :=
  if storedLengthPasses len nlen then
    (copyStored len.toNat s).bind fun _ s => .ok () { s with fsm := .blkend }
  else .err .lengthCheckMismatch s

/-- `stored` (42_inflate_blocks.md R260). -/
def execStored (len nlen : BitVec 16) (s : State) : Outcome := (storedBody len nlen s).run

/-- BLKEND (42_inflate_blocks.md R258). -/
def blockEnd (s : State) : State := s.checkpoint (if s.bfinal then .done else .blkhdr)

end Sys2Proof.Machine
end

