-- ==== Sys2Proof/Machine/Dynamic.lean ====
section
/-! DEFINITION. The dynamic block header and its code-length instructions (42_inflate_blocks.md
R270..R278). The header's HLIT, HDIST, `lens` and CLT stand in the state's scratch while the element
runs (log entry 7). -/

namespace Sys2Proof.Machine

/-- Append `n` code lengths of value `v` to `lens`. -/
def State.pushLengths (s : State) (n v : Nat) : State :=
  { s with dyn := { s.dyn with lens := s.dyn.lens ++ List.replicate n v } }

/-- `N = HLIT + HDIST`, the number of code lengths (42_inflate_blocks.md R270). -/
def State.lengthTotal (s : State) : Nat := s.dyn.hlit + s.dyn.hdist

/-- A repeat of `v`: `base` plus `extra` extra bits copies, no further than `N`
(42_inflate_blocks.md R273..R276). -/
def repeatLength (v base extra : Nat) (s : State) : Res Unit :=
  (getBits extra s).bind fun e s =>
    if s.lengthTotal < s.dyn.lens.length + (base + e) then .err .invalidHuffmanTable s
    else .ok () (s.pushLengths (base + e) v)

/-- CLSYM 0..15 (42_inflate_blocks.md R272). -/
def clLenStep (len : BitVec 4) (s : State) : Res Unit := .ok () (s.pushLengths 1 len.toNat)

/-- CLSYM 16 (42_inflate_blocks.md R273): without a previous length it raises before its extra bits are
read. -/
def clRep16Step (s : State) : Res Unit :=
  match s.dyn.lens.getLast? with
  | none => .err .invalidHuffmanTable s
  | some v => repeatLength v 3 2 s

/-- CLSYM 17 (42_inflate_blocks.md R274). -/
def clRep17Step (s : State) : Res Unit := repeatLength 0 3 3 s

/-- CLSYM 18 (42_inflate_blocks.md R275). -/
def clRep18Step (s : State) : Res Unit := repeatLength 0 11 7 s

/-- `cl.len` (42_inflate_blocks.md R272). -/
def execClLen (len : BitVec 4) (s : State) : Outcome := (clLenStep len s).run

/-- `cl.rep16` (42_inflate_blocks.md R273). -/
def execClRep16 (s : State) : Outcome := (clRep16Step s).run

/-- `cl.rep17` (42_inflate_blocks.md R274). -/
def execClRep17 (s : State) : Outcome := (clRep17Step s).run

/-- `cl.rep18` (42_inflate_blocks.md R275). -/
def execClRep18 (s : State) : Outcome := (clRep18Step s).run

/-- The code-length instruction with symbol `v`. No symbol above 18 exists (30_encoding.md R153). -/
def clStep (v : Nat) (s : State) : Res Unit :=
  if v < 16 then clLenStep (BitVec.ofNat 4 v) s
  else if v = 16 then clRep16Step s
  else if v = 17 then clRep17Step s
  else if v = 18 then clRep18Step s
  else .fault (.noElement s.fsm)

/-- The loop `while i < N` of 42_inflate_blocks.md R270, for at most `k` instructions. Each appends at
least one length, so `N` of them are enough. -/
def clLoop : (k : Nat) → State → Res Unit
  | 0, s => .ok () s
  | k + 1, s =>
    if s.dyn.lens.length < s.lengthTotal then
      (getCode s.dyn.clt s).bind fun v s => (clStep v s).bind fun _ s => clLoop k s
    else .ok () s

/-- The end of the header: both tables are built (42_inflate_blocks.md R277). -/
def dynamicTables (s : State) : Res Unit :=
  (buildTableStep (s.dyn.lens.take s.dyn.hlit) true s).bind fun llt s =>
    (buildTableStep (s.dyn.lens.drop s.dyn.hlit) false { s with llt := llt }).bind fun dt s =>
      .ok () { s with dt := dt, dyn := DynScratch.empty, fsm := .symbol }

/-- The header after its three fields (42_inflate_blocks.md R270, R271). -/
def dynamicHeader (hlit hdist : BitVec 5) (hclen : BitVec 4) (s : State) : Res Unit :=
  (readClLengths (clCount hclen) s).bind fun read s =>
    (buildTableStep (clLengths read) true s).bind fun clt s =>
      let s := { s with dyn := { hlit := litCount hlit, hdist := distCount hdist, lens := [], clt := clt } }
      (clLoop s.lengthTotal s).bind fun _ s => dynamicTables s

/-- `dynhdr` (42_inflate_blocks.md R270). -/
def execDynhdr (hlit hdist : BitVec 5) (hclen : BitVec 4) (s : State) : Outcome :=
  (dynamicHeader hlit hdist hclen s).run

end Sys2Proof.Machine
end

