-- ==== Sys2Proof/Machine/Commands.lean ====
section
/-! DEFINITION. The commands written to CMD (46_commands.md R461..R467). -/

namespace Sys2Proof.Machine

/-- The start of INFLATE before its capacity check (46_commands.md R461). -/
def State.startInflate (s : State) : State :=
  { s with
    errcode := 0, status := Status.running, susp := false
    inPos := 0, acc := 0, cnt := 0, outLen := 0
    bfinal := false, btype := 0, llt := Table.empty, dt := Table.empty }

/-- `cmd.inflate` (46_commands.md R461); ignored while BUSY (R466). -/
def execCmdInflate (s : State) : Outcome :=
  if s.status.busy then .next s
  else if s.caps.inCap < s.inLen.toNat then .next (s.startInflate.raise .capacityExceeded)
  else .next { s.startInflate with fsm := .zhdr }

/-- `cmd.decode_png` (46_commands.md R462); ignored while BUSY (R466). -/
def execCmdDecodePng (s : State) : Outcome :=
  if s.status.busy then .next s
  else .next { s with errcode := 0, status := Status.running, susp := false, fsm := .pngstart }

/-- `cmd.resume` (46_commands.md R463). -/
def execCmdResume (s : State) : Outcome :=
  if s.susp then .next (State.goto { s with susp := false } s.suspNext) else .next s

/-- The registers and the engine state at their reset values (70_reset_and_hazards.md R700). The
memories, the machine's parameters and the model's own fields stay (log entry 21). -/
def State.resetRegisters (s : State) : State :=
  { State.reset with
    inp := s.inp, out := s.out, pal := s.pal, pix := s.pix
    caps := s.caps, draws := s.draws, moves := s.moves, hostData := s.hostData }

/-- `cmd.soft_reset` (46_commands.md R464). -/
def execCmdSoftReset (s : State) : Outcome := .next s.resetRegisters

/-- `cmd.reserved`: no effect (46_commands.md R465). -/
def execCmdReserved (_op : BitVec 4) (s : State) : Outcome := .next s

end Sys2Proof.Machine
end

