-- ==== Sys2Proof/Machine/HostPort.lean ====
section
/-! DEFINITION. The host's side (10_state.md Part A, 20_memory.md R85, R86, R94, 46_commands.md R460,
70_reset_and_hazards.md R700, R720, R721). -/

namespace Sys2Proof.Machine

/-- The register at a byte offset (10_state.md R30); none at an offset that is no aligned word of the
block (20_memory.md R86). -/
def regAt (off : Nat) : Option Reg :=
  if off % 4 ≠ 0 ∨ 0x3C < off then none
  else
    match off / 4 with
    | 0 => some .cmd
    | 1 => some .status
    | 2 => some .errcode
    | 3 => some .ctrl
    | 4 => some .inLen
    | 5 => some .outLen
    | 6 => some .width
    | 7 => some .height
    | 8 => some .format
    | 9 => some .palLen
    | _ => some .reserved

/-- The word a register reads as (10_state.md R30..R39). OUT_LEN shows `out_len` (R36; log entry 16). -/
def State.readReg (s : State) : Reg → Word
  | .cmd => 0
  | .status => s.statusWord
  | .errcode => s.errcode.setWidth 32
  | .ctrl => bitAt s.ckptEn 0
  | .inLen => s.inLen
  | .outLen => BitVec.ofNat 32 s.outLen
  | .width => s.width
  | .height => s.height
  | .format => s.format.word
  | .palLen => s.palLen
  | .reserved => 0

/-- The state after a word is written to a configuration register while no command runs
(10_state.md R34..R39). -/
def State.setReg (s : State) (r : Reg) (v : Word) : State :=
  match r with
  | .ctrl => { s with ckptEn := v.getLsbD 0 }
  | .inLen => { s with inLen := v }
  | .outLen => { s with outLen := v.toNat }
  | .width => { s with width := v }
  | .height => { s with height := v }
  | .format => { s with format := FormatReg.ofWord v }
  | .palLen => { s with palLen := v }
  | .cmd | .status | .errcode | .reserved => s

/-- A host write to a register other than CMD (70_reset_and_hazards.md R720: ignored while BUSY). -/
def State.writeReg (s : State) (r : Reg) (v : Word) : State :=
  if s.status.busy then s else s.setReg r v

/-- The host may write a memory (20_memory.md R94). -/
def State.hostMayWrite (s : State) : Bool := !s.status.busy

/-- The host may read a memory (20_memory.md R94, 10_state.md R50). -/
def State.hostMayRead (s : State) (sp : Space) : Bool :=
  !s.status.busy || (s.susp && (sp == .out || sp == .pix))

/-- A host write of one byte (20_memory.md R85, R94). -/
def hostMemWrite (sp : Space) (a : Nat) (b : Byte) (s : State) : Outcome :=
  if s.caps.size sp ≤ a then .refused (.hostAddress sp a)
  else if s.hostMayWrite then .next (s.putByte sp a b)
  else .refused (.hostWhileBusy sp a)

/-- A host read of one byte (20_memory.md R85, R94). No read has a side effect on the core
(10_state.md R51); the byte goes to the host (log entry 18). -/
def hostMemRead (sp : Space) (a : Nat) (s : State) : Outcome :=
  if s.caps.size sp ≤ a then .refused (.hostAddress sp a)
  else if s.hostMayRead sp then .next { s with hostData := (s.byteAt sp a).setWidth 32 }
  else .refused (.hostWhileBusy sp a)

/-- A host read of a register (20_memory.md R86, R94). -/
def hostRegRead (off : Nat) (s : State) : Outcome :=
  match regAt off with
  | none => .refused (.registerOffset off)
  | some r => .next { s with hostData := s.readReg r }

/-- The reset signal (70_reset_and_hazards.md R700..R702): every register and all engine state at the
reset value, the memories those of a new draw. -/
def State.resetSignal (s : State) : State :=
  { s.resetRegisters with
    inp := Memory.drawn s.draws, out := Memory.drawn s.draws
    pal := Memory.drawn s.draws, pix := Memory.drawn s.draws
    draws := s.draws + 1 }

end Sys2Proof.Machine
end

