-- ==== Sys2Proof/Machine/Rows.lean ====
section
/-! DEFINITION. DECODE_PNG's entry and the scanlines (44_png_unfilter.md). -/

namespace Sys2Proof.Machine

/-- The image quantities latched by PNGSTART once its format and capacity checks have passed
(44_png_unfilter.md R400, R401, 45_pixel_assembler.md R433). -/
def PngRegs.derive (p : PngRegs) (npal : Nat) : PngRegs :=
  { p with
    chan := channels p.ctype
    bitsPp := bitsPerPixel p.depth p.ctype
    bpp := bytesPerPixel p.depth p.ctype
    stride := rowStride p.w p.depth p.ctype
    rowlen := 1 + rowStride p.w p.depth p.ctype
    npal := npal }

/-- The header registers PNGSTART latches first (44_png_unfilter.md R400). -/
def State.latchHeader (s : State) : State :=
  { s with
    png := { s.png with
      w := s.width.toNat, h := s.height.toNat, depth := s.format.depth, ctype := s.format.ctype } }

/-- The quantities PNGSTART computes after its format and capacity checks. -/
def State.latchDerived (s : State) : State :=
  { s with png := s.png.derive (paletteEntries s.format.palPresent s.palLen.toNat) }

/-- PNGSTART (44_png_unfilter.md R400), its checks in the rule's order. -/
def pngStart (s : State) : Res Unit :=
  let s := s.latchHeader
  if s.png.w = 0 ∨ s.png.h = 0 then .err .unsupportedFormat s
  else if !depthPasses s.png.depth then .err .unsupportedFormat s
  else if !ctypePasses s.png.ctype then .err .unsupportedFormat s
  else if s.caps.outCap < s.outLen then .err .capacityExceeded s
  else if s.format.palPresent ∧ Config.palCap < s.palLen.toNat then .err .capacityExceeded s
  else if s.caps.pixCap < s.png.w * s.png.h * 4 then .err .capacityExceeded s
  else
    let s := s.latchDerived
    if s.outLen < s.png.h * s.png.rowlen then .err .truncatedInput s
    else .ok () { s with png := { s.png with row := 0, pixI := 0 }, fsm := .row }

/-- The address of the filter-type byte of row `row` (44_png_unfilter.md R402). -/
def PngRegs.rowBase (p : PngRegs) : Nat := p.row * p.rowlen

/-- Reconstruct byte `x` of the row (44_png_unfilter.md R402). -/
def unfilterByte (ft : FilterType) (x : Nat) (s : State) : Res Unit :=
  let i := s.png.rowBase + 1 + x
  let inRow := decide (s.png.bpp ≤ x)
  let hasPrior := decide (1 ≤ s.png.row)
  (readByte .out i s).bind fun f s =>
    (neighbour inRow (i - s.png.bpp) s).bind fun a s =>
      (neighbour hasPrior (i - s.png.rowlen) s).bind fun b s =>
        (neighbour (hasPrior && inRow) (i - s.png.rowlen - s.png.bpp) s).bind fun c s =>
          writeByte .out i (reconstruct ft f a b c) s

/-- Reconstruct `n` bytes of the row from byte `x` on, in increasing `x` (44_png_unfilter.md R402). -/
def unfilterFrom (ft : FilterType) : (n : Nat) → (x : Nat) → State → Res Unit
  | 0, _, s => .ok () s
  | n + 1, x, s => (unfilterByte ft x s).bind fun _ s => unfilterFrom ft n (x + 1) s

/-- The row is done: the next row or the assembler, after a checkpoint (44_png_unfilter.md R402). -/
def State.rowDone (s : State) : State :=
  let s := { s with png := { s.png with row := s.png.row + 1 } }
  s.checkpoint (if s.png.row = s.png.h then .asmstart else .row)

/-- A ROW element after its filter-type byte is read (44_png_unfilter.md R402). -/
def unfilterRow (ft : FilterType) (s : State) : Res Unit :=
  (unfilterFrom ft s.png.stride 0 s).bind fun _ s => .ok () s.rowDone

/-- `row.none` (44_png_unfilter.md R410). -/
def execRowNone (s : State) : Outcome := (unfilterRow .none s).run

/-- `row.sub` (44_png_unfilter.md R411). -/
def execRowSub (s : State) : Outcome := (unfilterRow .sub s).run

/-- `row.up` (44_png_unfilter.md R412). -/
def execRowUp (s : State) : Outcome := (unfilterRow .up s).run

/-- `row.average` (44_png_unfilter.md R413). -/
def execRowAverage (s : State) : Outcome := (unfilterRow .average s).run

/-- `row.paeth` (44_png_unfilter.md R414). -/
def execRowPaeth (s : State) : Outcome := (unfilterRow .paeth s).run

/-- `row.unknown`: UnknownFilterType before any byte is written (44_png_unfilter.md R415). -/
def execRowUnknown (_ft : Byte) (s : State) : Outcome := .next (s.raise .unknownFilterType)

end Sys2Proof.Machine
end

