-- ==== Sys2Proof/Machine/Pixels.lean ====
section
/-! DEFINITION. The pixel assembler (45_pixel_assembler.md). -/

namespace Sys2Proof.Machine

/-- `pixel.unsupported`: UnsupportedFormat (45_pixel_assembler.md R430). -/
def execPixelUnsupported (_depth _ctype : Byte) (s : State) : Outcome :=
  .next (s.raise .unsupportedFormat)

/-- ASMSTART when it accepts the depth (45_pixel_assembler.md R430). -/
def asmStart (s : State) : State := { s with png := { s.png with pixI := 0 }, fsm := .pixel }

/-- Write the four bytes of pixel `pix_i` in the order R, G, B, A (45_pixel_assembler.md R431). -/
def writePixel (px : Pixel) (s : State) : Res Unit :=
  (writeByte .pix (pixelTarget s.png 0) px.r s).bind fun _ s =>
    (writeByte .pix (pixelTarget s.png 1) px.g s).bind fun _ s =>
      (writeByte .pix (pixelTarget s.png 2) px.b s).bind fun _ s =>
        writeByte .pix (pixelTarget s.png 3) px.al s

/-- The pixel is done: the next pixel or the end of DECODE_PNG (45_pixel_assembler.md R431). -/
def State.pixelDone (s : State) : State :=
  let s := { s with png := { s.png with pixI := s.png.pixI + 1 } }
  s.goto (if s.png.pixI = s.png.w * s.png.h then .done else .pixel)

/-- A PIXEL element with its expansion (45_pixel_assembler.md R431). -/
def assemblePixel (expand : (src : Nat) → State → Res Pixel) (s : State) : Res Unit :=
  (expand (pixelSource s.png) s).bind fun px s =>
    (writePixel px s).bind fun _ s => .ok () s.pixelDone

/-- Expand, Palette (45_pixel_assembler.md R434). -/
def expandPalette (src : Nat) (s : State) : Res Pixel :=
  (sourceByte src 0 s).bind fun idx s =>
    if s.png.npal ≤ idx.toNat then .err .paletteIndexOutOfRange s
    else
      (readByte .pal (3 * idx.toNat) s).bind fun r s =>
        (readByte .pal (3 * idx.toNat + 1) s).bind fun g s =>
          (readByte .pal (3 * idx.toNat + 2) s).bind fun b s => .ok { r := r, g := g, b := b, al := 255 } s

/-- Expand, Grayscale (45_pixel_assembler.md R435). -/
def expandGray (src : Nat) (s : State) : Res Pixel :=
  (sourceByte src 0 s).bind fun v s => .ok { r := v, g := v, b := v, al := 255 } s

/-- Expand, GrayscaleAlpha (45_pixel_assembler.md R436). -/
def expandGrayAlpha (src : Nat) (s : State) : Res Pixel :=
  (sourceByte src 0 s).bind fun v s =>
    (sourceByte src 1 s).bind fun al s => .ok { r := v, g := v, b := v, al := al } s

/-- Expand, RGB (45_pixel_assembler.md R437). -/
def expandRgb (src : Nat) (s : State) : Res Pixel :=
  (sourceByte src 0 s).bind fun r s =>
    (sourceByte src 1 s).bind fun g s =>
      (sourceByte src 2 s).bind fun b s => .ok { r := r, g := g, b := b, al := 255 } s

/-- Expand, RGBA (45_pixel_assembler.md R438). -/
def expandRgba (src : Nat) (s : State) : Res Pixel :=
  (sourceByte src 0 s).bind fun r s =>
    (sourceByte src 1 s).bind fun g s =>
      (sourceByte src 2 s).bind fun b s =>
        (sourceByte src 3 s).bind fun al s => .ok { r := r, g := g, b := b, al := al } s

/-- `pixel.palette` (45_pixel_assembler.md R434). -/
def execPixelPalette (s : State) : Outcome := (assemblePixel expandPalette s).run

/-- `pixel.gray` (45_pixel_assembler.md R435). -/
def execPixelGray (s : State) : Outcome := (assemblePixel expandGray s).run

/-- `pixel.gray_alpha` (45_pixel_assembler.md R436). -/
def execPixelGrayAlpha (s : State) : Outcome := (assemblePixel expandGrayAlpha s).run

/-- `pixel.rgb` (45_pixel_assembler.md R437). -/
def execPixelRgb (s : State) : Outcome := (assemblePixel expandRgb s).run

/-- `pixel.rgba` (45_pixel_assembler.md R438). -/
def execPixelRgba (s : State) : Outcome := (assemblePixel expandRgba s).run

end Sys2Proof.Machine
end

