-- ==== Sys2Proof/Machine/Distances.lean ====
section
/-! DEFINITION. The distance instructions (43_inflate_symbols.md R302, R305, R307, R340..R369). The
length of the match stands in the state's scratch while the element runs (log entry 6). -/

namespace Sys2Proof.Machine

/-- The last part of a match: the distance `base` plus `extra` extra bits, the copy of the latched
length, and the next symbol (43_inflate_symbols.md R305, R302). -/
def distancePart (base extra : Nat) (s : State) : Res Unit :=
  (getBits extra s).bind fun e s =>
    (backCopy s.matchLen (base + e) s).bind fun _ s => .ok () { s with matchLen := 0, fsm := .symbol }

/-- `dist0` (43_inflate_symbols.md R340). -/
def execDist0 (s : State) : Outcome := (distancePart 1 0 s).run

/-- `dist1` (43_inflate_symbols.md R341). -/
def execDist1 (s : State) : Outcome := (distancePart 2 0 s).run

/-- `dist2` (43_inflate_symbols.md R342). -/
def execDist2 (s : State) : Outcome := (distancePart 3 0 s).run

/-- `dist3` (43_inflate_symbols.md R343). -/
def execDist3 (s : State) : Outcome := (distancePart 4 0 s).run

/-- `dist4` (43_inflate_symbols.md R344). -/
def execDist4 (s : State) : Outcome := (distancePart 5 1 s).run

/-- `dist5` (43_inflate_symbols.md R345). -/
def execDist5 (s : State) : Outcome := (distancePart 7 1 s).run

/-- `dist6` (43_inflate_symbols.md R346). -/
def execDist6 (s : State) : Outcome := (distancePart 9 2 s).run

/-- `dist7` (43_inflate_symbols.md R347). -/
def execDist7 (s : State) : Outcome := (distancePart 13 2 s).run

/-- `dist8` (43_inflate_symbols.md R348). -/
def execDist8 (s : State) : Outcome := (distancePart 17 3 s).run

/-- `dist9` (43_inflate_symbols.md R349). -/
def execDist9 (s : State) : Outcome := (distancePart 25 3 s).run

/-- `dist10` (43_inflate_symbols.md R350). -/
def execDist10 (s : State) : Outcome := (distancePart 33 4 s).run

/-- `dist11` (43_inflate_symbols.md R351). -/
def execDist11 (s : State) : Outcome := (distancePart 49 4 s).run

/-- `dist12` (43_inflate_symbols.md R352). -/
def execDist12 (s : State) : Outcome := (distancePart 65 5 s).run

/-- `dist13` (43_inflate_symbols.md R353). -/
def execDist13 (s : State) : Outcome := (distancePart 97 5 s).run

/-- `dist14` (43_inflate_symbols.md R354). -/
def execDist14 (s : State) : Outcome := (distancePart 129 6 s).run

/-- `dist15` (43_inflate_symbols.md R355). -/
def execDist15 (s : State) : Outcome := (distancePart 193 6 s).run

/-- `dist16` (43_inflate_symbols.md R356). -/
def execDist16 (s : State) : Outcome := (distancePart 257 7 s).run

/-- `dist17` (43_inflate_symbols.md R357). -/
def execDist17 (s : State) : Outcome := (distancePart 385 7 s).run

/-- `dist18` (43_inflate_symbols.md R358). -/
def execDist18 (s : State) : Outcome := (distancePart 513 8 s).run

/-- `dist19` (43_inflate_symbols.md R359). -/
def execDist19 (s : State) : Outcome := (distancePart 769 8 s).run

/-- `dist20` (43_inflate_symbols.md R360). -/
def execDist20 (s : State) : Outcome := (distancePart 1025 9 s).run

/-- `dist21` (43_inflate_symbols.md R361). -/
def execDist21 (s : State) : Outcome := (distancePart 1537 9 s).run

/-- `dist22` (43_inflate_symbols.md R362). -/
def execDist22 (s : State) : Outcome := (distancePart 2049 10 s).run

/-- `dist23` (43_inflate_symbols.md R363). -/
def execDist23 (s : State) : Outcome := (distancePart 3073 10 s).run

/-- `dist24` (43_inflate_symbols.md R364). -/
def execDist24 (s : State) : Outcome := (distancePart 4097 11 s).run

/-- `dist25` (43_inflate_symbols.md R365). -/
def execDist25 (s : State) : Outcome := (distancePart 6145 11 s).run

/-- `dist26` (43_inflate_symbols.md R366). -/
def execDist26 (s : State) : Outcome := (distancePart 8193 12 s).run

/-- `dist27` (43_inflate_symbols.md R367). -/
def execDist27 (s : State) : Outcome := (distancePart 12289 12 s).run

/-- `dist28` (43_inflate_symbols.md R368). -/
def execDist28 (s : State) : Outcome := (distancePart 16385 13 s).run

/-- `dist29` (43_inflate_symbols.md R369). -/
def execDist29 (s : State) : Outcome := (distancePart 24577 13 s).run

/-- `dist.invalid`: InvalidSymbol (43_inflate_symbols.md R307). -/
def execDistInvalid (_odd : Bool) (s : State) : Outcome := .next (s.raise .invalidSymbol)

/-- The meanings of the distance codes 0..29, in code order. -/
def distanceMeanings : List (State → Outcome) :=
  [execDist0, execDist1, execDist2, execDist3, execDist4, execDist5,
   execDist6, execDist7, execDist8, execDist9, execDist10, execDist11,
   execDist12, execDist13, execDist14, execDist15, execDist16, execDist17,
   execDist18, execDist19, execDist20, execDist21, execDist22, execDist23,
   execDist24, execDist25, execDist26, execDist27, execDist28, execDist29]

/-- The distance instruction of code `d`; a code of 30 or more raises InvalidSymbol
(43_inflate_symbols.md R305, R307). -/
def runDistance (d : Nat) (s : State) : Outcome :=
  match distanceMeanings[d]? with
  | some meaning => meaning s
  | none => .next (s.raise .invalidSymbol)

end Sys2Proof.Machine
end

