-- ==== Sys2Proof/Machine/Symbols.lean ====
section
/-! DEFINITION. The literal/length symbols (43_inflate_symbols.md R300..R338). -/

namespace Sys2Proof.Machine

/-- `lit` (43_inflate_symbols.md R301). -/
def execLit (b : Byte) (s : State) : Outcome :=
  ((outAppend b s).bind fun _ s => .ok () { s with fsm := .symbol }).run

/-- `eob` (43_inflate_symbols.md R303). -/
def execEob (s : State) : Outcome := .next { s with fsm := .blkend }

/-- A match after its length code: the length `base` plus `extra` extra bits is latched, the distance
code is read, and the distance instruction ends the element (43_inflate_symbols.md R305). -/
def lengthPart (base extra : Nat) (s : State) : Outcome :=
  (getBits extra s).andThen fun e s =>
    (getCode s.dt { s with matchLen := base + e }).andThen fun d s => runDistance d s

/-- `len257` (43_inflate_symbols.md R310). -/
def execLen257 (s : State) : Outcome := lengthPart 3 0 s

/-- `len258` (43_inflate_symbols.md R311). -/
def execLen258 (s : State) : Outcome := lengthPart 4 0 s

/-- `len259` (43_inflate_symbols.md R312). -/
def execLen259 (s : State) : Outcome := lengthPart 5 0 s

/-- `len260` (43_inflate_symbols.md R313). -/
def execLen260 (s : State) : Outcome := lengthPart 6 0 s

/-- `len261` (43_inflate_symbols.md R314). -/
def execLen261 (s : State) : Outcome := lengthPart 7 0 s

/-- `len262` (43_inflate_symbols.md R315). -/
def execLen262 (s : State) : Outcome := lengthPart 8 0 s

/-- `len263` (43_inflate_symbols.md R316). -/
def execLen263 (s : State) : Outcome := lengthPart 9 0 s

/-- `len264` (43_inflate_symbols.md R317). -/
def execLen264 (s : State) : Outcome := lengthPart 10 0 s

/-- `len265` (43_inflate_symbols.md R318). -/
def execLen265 (s : State) : Outcome := lengthPart 11 1 s

/-- `len266` (43_inflate_symbols.md R319). -/
def execLen266 (s : State) : Outcome := lengthPart 13 1 s

/-- `len267` (43_inflate_symbols.md R320). -/
def execLen267 (s : State) : Outcome := lengthPart 15 1 s

/-- `len268` (43_inflate_symbols.md R321). -/
def execLen268 (s : State) : Outcome := lengthPart 17 1 s

/-- `len269` (43_inflate_symbols.md R322). -/
def execLen269 (s : State) : Outcome := lengthPart 19 2 s

/-- `len270` (43_inflate_symbols.md R323). -/
def execLen270 (s : State) : Outcome := lengthPart 23 2 s

/-- `len271` (43_inflate_symbols.md R324). -/
def execLen271 (s : State) : Outcome := lengthPart 27 2 s

/-- `len272` (43_inflate_symbols.md R325). -/
def execLen272 (s : State) : Outcome := lengthPart 31 2 s

/-- `len273` (43_inflate_symbols.md R326). -/
def execLen273 (s : State) : Outcome := lengthPart 35 3 s

/-- `len274` (43_inflate_symbols.md R327). -/
def execLen274 (s : State) : Outcome := lengthPart 43 3 s

/-- `len275` (43_inflate_symbols.md R328). -/
def execLen275 (s : State) : Outcome := lengthPart 51 3 s

/-- `len276` (43_inflate_symbols.md R329). -/
def execLen276 (s : State) : Outcome := lengthPart 59 3 s

/-- `len277` (43_inflate_symbols.md R330). -/
def execLen277 (s : State) : Outcome := lengthPart 67 4 s

/-- `len278` (43_inflate_symbols.md R331). -/
def execLen278 (s : State) : Outcome := lengthPart 83 4 s

/-- `len279` (43_inflate_symbols.md R332). -/
def execLen279 (s : State) : Outcome := lengthPart 99 4 s

/-- `len280` (43_inflate_symbols.md R333). -/
def execLen280 (s : State) : Outcome := lengthPart 115 4 s

/-- `len281` (43_inflate_symbols.md R334). -/
def execLen281 (s : State) : Outcome := lengthPart 131 5 s

/-- `len282` (43_inflate_symbols.md R335). -/
def execLen282 (s : State) : Outcome := lengthPart 163 5 s

/-- `len283` (43_inflate_symbols.md R336). -/
def execLen283 (s : State) : Outcome := lengthPart 195 5 s

/-- `len284` (43_inflate_symbols.md R337). -/
def execLen284 (s : State) : Outcome := lengthPart 227 5 s

/-- `len285` (43_inflate_symbols.md R338). -/
def execLen285 (s : State) : Outcome := lengthPart 258 0 s

/-- `sym.invalid`: InvalidSymbol (43_inflate_symbols.md R304). -/
def execSymInvalid (_odd : Bool) (s : State) : Outcome := .next (s.raise .invalidSymbol)

end Sys2Proof.Machine
end

