-- ==== Sys2Proof/Machine/Fetch.lean ====
section
/-! DEFINITION. Fetching: which instruction the state selects, its own bits read (46_commands.md R468),
and the elements and host moves that are no row of the opcode table (log entry 20). -/

namespace Sys2Proof.Machine

/-- The instruction of format `f` with value `v`. A literal/length symbol or distance code the table
has no row for raises InvalidSymbol, the `else` of 43_inflate_symbols.md R300 and R305 (log entry 14);
no other format refuses a value that is read for it. -/
def decoded (f : Format) (v : Nat) (s : State) : Res Instr :=
  match decode f v with
  | .ok i => .ok i s
  | .error (.noSymbol _) => .err .invalidSymbol s
  | .error (.noDistanceCode _) => .err .invalidSymbol s
  | .error (.noCodeLengthSymbol _) => .fault (.noElement s.fsm)
  | .error (.valueTooWide _) => .fault (.noElement s.fsm)

/-- ZHDR: CMF, then FLG (42_inflate_blocks.md R250). -/
def fetchZhdr (s : State) : Res Instr :=
  (getBits 8 s).bind fun cmf s => (getBits 8 s).bind fun flg s => decoded .zhdr (cmf + flg * 256) s

/-- BLKHDR: BFINAL, then BTYPE (42_inflate_blocks.md R255). `bfinal` is written before BTYPE is read
(log entry 17). -/
def fetchBlkhdr (s : State) : Res Instr :=
  (getBits 1 s).bind fun f s =>
    (getBits 2 { s with bfinal := f == 1 }).bind fun t s => decoded .blkhdr (f + t * 2) s

/-- STORED: Align, LEN, NLEN (42_inflate_blocks.md R260). -/
def fetchStored (s : State) : Res Instr :=
  (getBits 16 s.align).bind fun len s =>
    (getBits 16 s).bind fun nlen s => decoded .stored (len + nlen * 65536) s

/-- DYNHDR: HLIT, HDIST, HCLEN (42_inflate_blocks.md R270). -/
def fetchDynhdr (s : State) : Res Instr :=
  (getBits 5 s).bind fun hlit s =>
    (getBits 5 s).bind fun hdist s =>
      (getBits 4 s).bind fun hclen s => decoded .dynhdr (hlit + hdist * 32 + hclen * 1024) s

/-- CLSYM: a symbol of the header being read (42_inflate_blocks.md R270). -/
def fetchClsym (s : State) : Res Instr := (getCode s.dyn.clt s).bind fun v s => decoded .clsym v s

/-- SYM: a literal/length symbol (43_inflate_symbols.md R300). -/
def fetchSym (s : State) : Res Instr := (getCode s.llt s).bind fun v s => decoded .sym v s

/-- DCODE: the distance code of the match being read (43_inflate_symbols.md R305). -/
def fetchDcode (s : State) : Res Instr := (getCode s.dt s).bind fun v s => decoded .dcode v s

/-- ROW: the filter-type byte of row `row` (44_png_unfilter.md R402: only with `row < H`). -/
def fetchRow (s : State) : Res Instr :=
  if s.png.row < s.png.h then
    (readByte .out s.png.rowBase s).bind fun ft s => decoded .row ft.toNat s
  else .fault (.noElement s.fsm)

/-- PIXEL: the latched depth and colour type (45_pixel_assembler.md R431: only with `pix_i < W*H`). -/
def fetchPixel (s : State) : Res Instr :=
  if s.png.pixI < s.png.w * s.png.h then
    decoded .pixel (s.png.depth.toNat + s.png.ctype.toNat * 256) s
  else .fault (.noElement s.fsm)

/-- ASMSTART (45_pixel_assembler.md R430): a depth other than 8 is the row `pixel.unsupported`. -/
def fetchAsmstart (s : State) : Fetched :=
  if s.png.depth = 8 then .over (.next (asmStart s))
  else .instr (.pixelUnsupported s.png.depth s.png.ctype) s

/-- The DYNHDR state: the header's fields or, inside a header (log entry 7), its next code-length
symbol or its end. -/
def fetchDynamic (s : State) : Fetched :=
  if s.dyn.hlit = 0 then (fetchDynhdr s).fetched
  else if s.dyn.lens.length < s.lengthTotal then (fetchClsym s).fetched
  else .over (dynamicTables s).run

/-- The SYMBOL state: a literal/length symbol or, inside a match (log entry 6), its distance code. -/
def fetchSymbol (s : State) : Fetched :=
  if s.matchLen = 0 then (fetchSym s).fetched else (fetchDcode s).fetched

/-- The element named by `fsm` (46_commands.md R468). BUSY with `fsm` IDLE, DONE or ERROR names none
(log entry 11). -/
def fetchElement (s : State) : Fetched :=
  match s.fsm with
  | .zhdr => (fetchZhdr s).fetched
  | .blkhdr => (fetchBlkhdr s).fetched
  | .stored => (fetchStored s).fetched
  | .dynhdr => fetchDynamic s
  | .symbol => fetchSymbol s
  | .blkend => .over (.next (blockEnd s))
  | .pngstart => .over (pngStart s).run
  | .row => (fetchRow s).fetched
  | .asmstart => fetchAsmstart s
  | .pixel => (fetchPixel s).fetched
  | .idle | .done | .error => .over (.fault (.noElement s.fsm))

/-- The engine takes a step (46_commands.md R460 (a), R468). -/
def State.engineEnabled (s : State) : Bool := s.status.busy && !s.susp

/-- The engine's turn: the next element if it is enabled, else nothing happens. -/
def fetchEngine (s : State) : Fetched :=
  if s.engineEnabled then fetchElement s else .over (.next s)

/-- A host write to a register: a word for CMD is a command (46_commands.md R460 (b)). -/
def fetchRegWrite (off : Nat) (v : Word) (s : State) : Fetched :=
  match regAt off with
  | none => .over (.refused (.registerOffset off))
  | some .cmd => (decoded .cmdword v.toNat s).fetched
  | some r => .over (.next (s.writeReg r v))

/-- A host move (46_commands.md R460). -/
def fetchMove (m : HostMove) (s : State) : Fetched :=
  match m with
  | .engine => fetchEngine s
  | .regWrite off v => fetchRegWrite off v s
  | .regRead off => .over (hostRegRead off s)
  | .memWrite sp a b => .over (hostMemWrite sp a b s)
  | .memRead sp a => .over (hostMemRead sp a s)
  | .reset => .over (.next s.resetSignal)

/-- What the machine does next: the next host move, or the engine's turn when none is left (log entry
1). -/
def fetchNext (s : State) : Fetched :=
  match s.moves with
  | [] => fetchEngine s
  | m :: rest => fetchMove m { s with moves := rest }

/-! ### Placing a word -/

/-- A memory of the bytes given, from address 0. -/
def Memory.ofBytes (bytes : List Nat) : Memory :=
  { cells := (List.range bytes.length).zip (bytes.map (BitVec.ofNat 8)), draw := 0 }

/-- The bytes of `v` from the least significant on. -/
def bytesOf : (n : Nat) → (v : Nat) → List Nat
  | 0, _ => []
  | n + 1, v => v % 256 :: bytesOf n (v / 256)

/-- A table whose every code is one bit long and gives symbol `v`. -/
def Table.always (v : Nat) : Table :=
  { max := 1, entries := [{ len := 1, sym := BitVec.ofNat 16 v }, { len := 1, sym := BitVec.ofNat 16 v }] }

/-- The engine about to run in control state `f`. -/
def State.runAt (s : State) (f : Fsm) : State :=
  { s with
    status := Status.running, susp := false, fsm := f, matchLen := 0, dyn := DynScratch.empty
    moves := HostMove.engine :: s.moves }

/-- The stream from its first bit: the bytes given, then `more` bytes of zeros. -/
def State.withStream (s : State) (bytes : List Nat) (more : Nat) : State :=
  { s with
    inPos := 0, acc := 0, cnt := 0
    inLen := BitVec.ofNat 32 (bytes.length + more)
    inp := Memory.ofBytes (bytes ++ List.replicate more 0) }

/-- The state in which the next step reads value `v` in format `f` and runs its instruction (log entry
9): the control state of the format, and the value where the format is read from, a stream with zeros
after it, a table that gives the symbol, a one-row image in OUT, the latched pixel format, or a host
write to CMD. -/
def State.placeValue (s : State) (f : Format) (v : Nat) : State :=
  match f with
  | .zhdr => (s.runAt .zhdr).withStream (bytesOf 2 v) 2
  | .blkhdr => (s.runAt .blkhdr).withStream (bytesOf 1 v) 2
  | .stored => (s.runAt .stored).withStream (bytesOf 4 v) (v % 65536)
  | .dynhdr => (s.runAt .dynhdr).withStream (bytesOf 2 v) 64
  | .clsym =>
    { (s.runAt .dynhdr).withStream [] 2 with
      dyn := { hlit := 257, hdist := 1, lens := [0], clt := Table.always v } }
  | .sym => { (s.runAt .symbol).withStream [] 8 with llt := Table.always v, dt := Table.always 0 }
  | .dcode => { (s.runAt .symbol).withStream [] 4 with dt := Table.always v, matchLen := 3 }
  | .row =>
    { s.runAt .row with
      png := { s.png with h := 1, rowlen := 1, stride := 0, row := 0 }, out := Memory.ofBytes [v] }
  | .pixel =>
    { s.runAt .pixel with
      png := { s.png with
        w := 1, h := 1, depth := BitVec.ofNat 8 (v % 256), ctype := BitVec.ofNat 8 (v / 256)
        rowlen := 1, pixI := 0 }
      out := Memory.ofBytes [0, 0, 0, 0, 0] }
  | .cmdword => { s with moves := HostMove.regWrite 0 (BitVec.ofNat 32 v) :: s.moves }

end Sys2Proof.Machine
end

