-- ==== Sys2Proof/Machine/Dispatch.lean ====
section
/-! DEFINITION. The dispatch: one arm per constructor of `Instr`. -/

namespace Sys2Proof.Machine

/-- The meaning of an instruction in the state after its own bits are read. -/
def exec (i : Instr) (s : State) : Host.Outcome State Fault Refusal :=
  match i with
  | .zhdr cmf flg => Sys2Proof.Machine.execZhdr cmf flg s
  | .zhdrBad cmf flg => Sys2Proof.Machine.execZhdrBad cmf flg s
  | .blockStored f => Sys2Proof.Machine.execBlockStored f s
  | .blockFixed f => Sys2Proof.Machine.execBlockFixed f s
  | .blockDynamic f => Sys2Proof.Machine.execBlockDynamic f s
  | .blockReserved f => Sys2Proof.Machine.execBlockReserved f s
  | .stored len nlen => Sys2Proof.Machine.execStored len nlen s
  | .dynhdr hlit hdist hclen => Sys2Proof.Machine.execDynhdr hlit hdist hclen s
  | .clLen len => Sys2Proof.Machine.execClLen len s
  | .clRep16 => Sys2Proof.Machine.execClRep16 s
  | .clRep17 => Sys2Proof.Machine.execClRep17 s
  | .clRep18 => Sys2Proof.Machine.execClRep18 s
  | .lit b => Sys2Proof.Machine.execLit b s
  | .eob => Sys2Proof.Machine.execEob s
  | .len257 => Sys2Proof.Machine.execLen257 s
  | .len258 => Sys2Proof.Machine.execLen258 s
  | .len259 => Sys2Proof.Machine.execLen259 s
  | .len260 => Sys2Proof.Machine.execLen260 s
  | .len261 => Sys2Proof.Machine.execLen261 s
  | .len262 => Sys2Proof.Machine.execLen262 s
  | .len263 => Sys2Proof.Machine.execLen263 s
  | .len264 => Sys2Proof.Machine.execLen264 s
  | .len265 => Sys2Proof.Machine.execLen265 s
  | .len266 => Sys2Proof.Machine.execLen266 s
  | .len267 => Sys2Proof.Machine.execLen267 s
  | .len268 => Sys2Proof.Machine.execLen268 s
  | .len269 => Sys2Proof.Machine.execLen269 s
  | .len270 => Sys2Proof.Machine.execLen270 s
  | .len271 => Sys2Proof.Machine.execLen271 s
  | .len272 => Sys2Proof.Machine.execLen272 s
  | .len273 => Sys2Proof.Machine.execLen273 s
  | .len274 => Sys2Proof.Machine.execLen274 s
  | .len275 => Sys2Proof.Machine.execLen275 s
  | .len276 => Sys2Proof.Machine.execLen276 s
  | .len277 => Sys2Proof.Machine.execLen277 s
  | .len278 => Sys2Proof.Machine.execLen278 s
  | .len279 => Sys2Proof.Machine.execLen279 s
  | .len280 => Sys2Proof.Machine.execLen280 s
  | .len281 => Sys2Proof.Machine.execLen281 s
  | .len282 => Sys2Proof.Machine.execLen282 s
  | .len283 => Sys2Proof.Machine.execLen283 s
  | .len284 => Sys2Proof.Machine.execLen284 s
  | .len285 => Sys2Proof.Machine.execLen285 s
  | .symInvalid odd => Sys2Proof.Machine.execSymInvalid odd s
  | .dist0 => Sys2Proof.Machine.execDist0 s
  | .dist1 => Sys2Proof.Machine.execDist1 s
  | .dist2 => Sys2Proof.Machine.execDist2 s
  | .dist3 => Sys2Proof.Machine.execDist3 s
  | .dist4 => Sys2Proof.Machine.execDist4 s
  | .dist5 => Sys2Proof.Machine.execDist5 s
  | .dist6 => Sys2Proof.Machine.execDist6 s
  | .dist7 => Sys2Proof.Machine.execDist7 s
  | .dist8 => Sys2Proof.Machine.execDist8 s
  | .dist9 => Sys2Proof.Machine.execDist9 s
  | .dist10 => Sys2Proof.Machine.execDist10 s
  | .dist11 => Sys2Proof.Machine.execDist11 s
  | .dist12 => Sys2Proof.Machine.execDist12 s
  | .dist13 => Sys2Proof.Machine.execDist13 s
  | .dist14 => Sys2Proof.Machine.execDist14 s
  | .dist15 => Sys2Proof.Machine.execDist15 s
  | .dist16 => Sys2Proof.Machine.execDist16 s
  | .dist17 => Sys2Proof.Machine.execDist17 s
  | .dist18 => Sys2Proof.Machine.execDist18 s
  | .dist19 => Sys2Proof.Machine.execDist19 s
  | .dist20 => Sys2Proof.Machine.execDist20 s
  | .dist21 => Sys2Proof.Machine.execDist21 s
  | .dist22 => Sys2Proof.Machine.execDist22 s
  | .dist23 => Sys2Proof.Machine.execDist23 s
  | .dist24 => Sys2Proof.Machine.execDist24 s
  | .dist25 => Sys2Proof.Machine.execDist25 s
  | .dist26 => Sys2Proof.Machine.execDist26 s
  | .dist27 => Sys2Proof.Machine.execDist27 s
  | .dist28 => Sys2Proof.Machine.execDist28 s
  | .dist29 => Sys2Proof.Machine.execDist29 s
  | .distInvalid odd => Sys2Proof.Machine.execDistInvalid odd s
  | .rowNone => Sys2Proof.Machine.execRowNone s
  | .rowSub => Sys2Proof.Machine.execRowSub s
  | .rowUp => Sys2Proof.Machine.execRowUp s
  | .rowAverage => Sys2Proof.Machine.execRowAverage s
  | .rowPaeth => Sys2Proof.Machine.execRowPaeth s
  | .rowUnknown ft => Sys2Proof.Machine.execRowUnknown ft s
  | .pixelPalette => Sys2Proof.Machine.execPixelPalette s
  | .pixelGray => Sys2Proof.Machine.execPixelGray s
  | .pixelGrayAlpha => Sys2Proof.Machine.execPixelGrayAlpha s
  | .pixelRgb => Sys2Proof.Machine.execPixelRgb s
  | .pixelRgba => Sys2Proof.Machine.execPixelRgba s
  | .pixelUnsupported depth ctype => Sys2Proof.Machine.execPixelUnsupported depth ctype s
  | .cmdInflate => Sys2Proof.Machine.execCmdInflate s
  | .cmdDecodePng => Sys2Proof.Machine.execCmdDecodePng s
  | .cmdResume => Sys2Proof.Machine.execCmdResume s
  | .cmdSoftReset => Sys2Proof.Machine.execCmdSoftReset s
  | .cmdReserved op => Sys2Proof.Machine.execCmdReserved op s

end Sys2Proof.Machine
end

