-- ==== Sys2Proof/Machine/Step.lean ====
section
/-! DEFINITION. One step of the machine (46_commands.md R460, R468) and the host's placing of a word. -/

namespace Sys2Proof.Machine

/-- One step: the next host move or the engine's turn. If it selects an instruction, that instruction
runs. -/
def step (s : State) : Host.Outcome State Fault Refusal :=
  match fetchNext s with
  | .instr i s' => exec i s'
  | .over o => o

/-- `s` with the word placed where the next step reads it (log entry 9): read in the format
`formatOfWord` gives it (log entry 8). -/
def State.withFetchWord (s : State) (nbits w : Nat) : State := s.placeValue (formatOfWord nbits w) w

end Sys2Proof.Machine
end

