-- ==== Sys2Proof/Safety.lean ====
section
/-! DEFINITION. What claims use: the invariant of the machine and what a safe step is. -/

namespace Sys2Proof.Machine

/-- Control states in which a command runs (46_commands.md R468). -/
def Fsm.running : Fsm → Bool
  | .idle | .done | .error => false
  | _ => true

/-- Control states of INFLATE (10_state.md R40). -/
def Fsm.inflating : Fsm → Bool
  | .zhdr | .blkhdr | .stored | .dynhdr | .symbol | .blkend => true
  | _ => false

/-- Control states of DECODE_PNG after its entry checks (10_state.md R40). -/
def Fsm.imaging : Fsm → Bool
  | .row | .asmstart | .pixel => true
  | _ => false

/-- The control state the engine goes on in: `susp_next` while it is suspended (46_commands.md R463). -/
def State.point (s : State) : Fsm := if s.susp then s.suspNext else s.fsm

/-- A Huffman table as BuildTable leaves it (10_state.md R45, R46, 41_huffman.md R225): at most 15 bits,
2^max entries, no entry longer than `max`, no symbol above `maxSym`. -/
structure Table.Ok (t : Table) (maxSym : Nat) : Prop where
  maxBound : t.max ≤ 15
  size : t.max ≠ 0 → t.entries.length = 2 ^ t.max
  lens : ∀ e ∈ t.entries, e.len.toNat ≤ t.max
  syms : ∀ e ∈ t.entries, e.sym.toNat ≤ maxSym

/-! ### Canonical codes, in closed form -/

/-- The canonical code of symbol `v` (41_huffman.md R223): the codes of every shorter length come first,
each standing for `2^(L-l)` codes of length `L`, then those of the earlier symbols of the same length. -/
def canonicalCode (lens : List Nat) (v : Nat) : Nat :=
  ((lens.filter fun l => l ≠ 0 ∧ l < lens.getD v 0).map fun l => 2 ^ (lens.getD v 0 - l)).sum
    + (lens.take v).count (lens.getD v 0)

/-- Symbol `v` has a code, and the bits `b 0, b 1, ..` begin with it, most significant bit first
(00_scope.md R13, 41_huffman.md R224). -/
def codeBegins (lens : List Nat) (v : Nat) (b : Nat → Bool) : Prop :=
  v < lens.length ∧ lens.getD v 0 ≠ 0 ∧
    ∀ i < lens.getD v 0, b i = (canonicalCode lens v).testBit (lens.getD v 0 - 1 - i)

/-- The code lengths are legal: each is 0..15 and there are at most 288 (41_huffman.md R220). -/
def legalLengths (lens : List Nat) : Prop := lens.length ≤ 288 ∧ ∀ l ∈ lens, l ≤ 15

/-- `2^15` times the sum over the used symbols of `2^(-len)` (41_huffman.md R226). -/
def kraftSum (lens : List Nat) : Nat := ((lens.filter fun l => l ≠ 0).map fun l => 2 ^ (15 - l)).sum

/-! ### The stream a state has still to read -/

/-- Bit `k` of the input stream: bit `k mod 8` of IN byte `floor(k / 8)` (00_scope.md R13). -/
def State.inBit (s : State) (k : Nat) : Bool := (s.byteAt .inp (k / 8)).getLsbD (k % 8)

/-- The `k`-th bit still to be read: a buffered bit of `acc`, or a bit of IN from byte `in_pos` on
(10_state.md R42, 20_memory.md R83). -/
def State.nextBit (s : State) (k : Nat) : Bool :=
  if k < s.cnt then s.acc.getLsbD k else s.inBit (8 * s.inPos + (k - s.cnt))

/-- The `n`-bit field that starts `k` bits ahead, its first stream bit its bit 0 (00_scope.md R13). -/
def State.field (s : State) (k : Nat) : (n : Nat) → Nat
  | 0 => 0
  | n + 1 => (s.nextBit k).toNat + 2 * s.field (k + 1) n

/-- How many bits can still be read: the buffered ones and those of the bytes below IN_LEN
(40_bitreader.md R200). -/
def State.bitsLeft (s : State) : Nat := s.cnt + 8 * (s.inLen.toNat - s.inPos)

/-- How many bytes `Refill(n)` fetches (40_bitreader.md R200). -/
def State.fetches (s : State) (n : Nat) : Nat := ceilDiv (n - s.cnt) 8

/-- The state after `Refill(want)` and dropping `n` bits: the bytes fetched are counted, and `acc` holds
the bits of the stream that follow the dropped ones (40_bitreader.md R200, R201). -/
def State.afterRead (s : State) (want n : Nat) : State :=
  let cnt := s.cnt + 8 * s.fetches want - n
  { s with acc := BitVec.ofNat 32 (s.field n cnt), cnt := cnt, inPos := s.inPos + s.fetches want }

/-- The BitReader invariant (40_bitreader.md R207, 10_state.md R42). -/
structure State.BitsOk (s : State) : Prop where
  cntBound : s.cnt ≤ 23
  accBound : s.acc.toNat < 2 ^ s.cnt

/-- `n` bits can be read: the BitReader invariant holds, the bits are there, and every valid input
byte is a byte of IN (40_bitreader.md R200, 60_exceptions.md R630). -/
structure State.CanRead (s : State) (n : Nat) : Prop where
  bits : s.BitsOk
  enough : n ≤ s.bitsLeft
  inCapOk : s.inLen.toNat ≤ s.caps.inCap

/-- The memories: canonical, inside their spaces, and of draws already made. -/
structure State.MemsOk (s : State) : Prop where
  wf : ∀ sp, (s.mem sp).wf
  below : ∀ sp, (s.mem sp).below (s.caps.size sp)
  drawn : ∀ sp, (s.mem sp).draw < s.draws

/-- STATUS and ERRCODE agree with `fsm` (10_state.md R32, R33, 46_commands.md R467,
60_exceptions.md R610). -/
structure State.StatusOk (s : State) : Prop where
  busy : s.status.busy = s.fsm.running
  done : s.status.done = (s.fsm == .done)
  err : s.status.err = (s.fsm == .error)
  errcode : s.errcode ≠ 0 ↔ s.fsm = .error
  errcodeBound : s.errcode.toNat ≤ 11

/-- The suspension (10_state.md R41, 46_commands.md R470): only with CKPT_EN, only after a block or a
row, with one of the targets of the two checkpoints. -/
structure State.SuspOk (s : State) : Prop where
  enabled : s.susp = true → s.ckptEn = true
  target : s.susp = true →
    (s.fsm = .blkend ∧ (s.suspNext = .blkhdr ∨ s.suspNext = .done)) ∨
      (s.fsm = .row ∧ (s.suspNext = .row ∨ s.suspNext = .asmstart))

/-- The scratch is empty between elements (10_state.md R45; log entries 6 and 7). -/
structure State.ScratchOk (s : State) : Prop where
  noMatch : s.matchLen = 0
  noHeader : s.dyn = DynScratch.empty

/-- While INFLATE runs (10_state.md R42, R43, 40_bitreader.md R209, 60_exceptions.md R630): the buffered
bits are the bits of IN before byte `in_pos`. -/
structure State.StreamOk (s : State) : Prop where
  inCapOk : s.inLen.toNat ≤ s.caps.inCap
  inPosOk : s.inPos ≤ s.inLen.toNat
  cntOk : s.cnt ≤ 8 * s.inPos
  accOk : ∀ k < s.cnt, s.acc.getLsbD k = s.inBit (8 * s.inPos - s.cnt + k)
  outLenOk : s.outLen ≤ s.caps.outCap

/-- While DECODE_PNG runs after its entry checks (44_png_unfilter.md R400, R401). -/
structure State.ImageOk (s : State) : Prop where
  wPos : 0 < s.png.w
  hPos : 0 < s.png.h
  depthOk : depthPasses s.png.depth = true
  ctypeOk : ctypePasses s.png.ctype = true
  bppOk : s.png.bpp = bytesPerPixel s.png.depth s.png.ctype
  strideOk : s.png.stride = rowStride s.png.w s.png.depth s.png.ctype
  rowlenOk : s.png.rowlen = 1 + s.png.stride
  rowsOk : s.png.h * s.png.rowlen ≤ s.outLen
  outLenOk : s.outLen ≤ s.caps.outCap
  pixelsOk : s.png.w * s.png.h * 4 ≤ s.caps.pixCap
  npalOk : 3 * s.png.npal ≤ Config.palCap

/-! ### Rows -/

/-- The left neighbour of byte `x` of the row, in the reconstructed OUT `m`; 0 where it is missing
(44_png_unfilter.md R402). -/
def State.leftByte (s : State) (m : Memory) (x : Nat) : Nat :=
  if s.png.bpp ≤ x then (m.read .out (s.png.row * s.png.rowlen + 1 + x - s.png.bpp)).toNat else 0

/-- The byte above byte `x` of the row; 0 in row 0 (44_png_unfilter.md R402). -/
def State.upByte (s : State) (x : Nat) : Nat :=
  if 1 ≤ s.png.row then (s.byteAt .out (s.png.row * s.png.rowlen + 1 + x - s.png.rowlen)).toNat else 0

/-- The upper-left neighbour of byte `x` of the row; 0 where it is missing (44_png_unfilter.md R402). -/
def State.upLeftByte (s : State) (x : Nat) : Nat :=
  if 1 ≤ s.png.row ∧ s.png.bpp ≤ x then
    (s.byteAt .out (s.png.row * s.png.rowlen + 1 + x - s.png.rowlen - s.png.bpp)).toNat
  else 0

/-- THE INVARIANT of the machine: it holds after reset and every step keeps it. -/
structure State.Inv (s : State) : Prop where
  capsOk : 2 ≤ s.caps.inCap ∧ 1 ≤ s.caps.outCap ∧ 4 ≤ s.caps.pixCap
  bits : s.BitsOk
  mems : s.MemsOk
  status : s.StatusOk
  susp : s.SuspOk
  scratch : s.ScratchOk
  llt : s.llt.Ok 287
  dt : s.dt.Ok 31
  stream : s.fsm.inflating = true → s.StreamOk
  image : s.fsm.imaging = true → s.ImageOk
  atRow : s.point = .row → s.png.row < s.png.h
  atPixel : s.point = .pixel → s.png.depth = 8 ∧ s.png.pixI < s.png.w * s.png.h

/-- A step is safe if it does not fault: it goes on, or it refuses a host move the spec gives no
meaning. -/
def State.SafeStep (s : State) : Prop := ∀ f, step s ≠ .fault f

end Sys2Proof.Machine
end

