-- ==== Sys2Proof/Certificates/Slice0/Obligations.lean ====
section
/-! DEFINITION. The statements for the provers. `Sys2Proof.Claims` holds the words they use; each statement
is a `def Obligations.<Name> : Prop` whose docstring names the rules of spec/ it formalises. -/

namespace Sys2Proof.Claims

open Sys2Proof.Machine

/-! ### What the statements say of an outcome -/

/-- The outcome is the error entry of kind `k` from `s` (60_exceptions.md R610), but for the BitReader
registers, which keep what the element had fetched before the error. -/
def Raises (o : Outcome) (s : State) (k : ErrorKind) : Prop :=
  ∃ t, o = .next t ∧ t = { s.raise k with acc := t.acc, cnt := t.cnt, inPos := t.inPos }

/-- The engine has the turn, a command runs and is not suspended, and `fsm` is `f`
(46_commands.md R468). -/
structure AtElement (s : State) (f : Fsm) : Prop where
  turn : s.moves = []
  busy : s.status.busy = true
  running : s.susp = false
  fsm : s.fsm = f

/-- GetCode with table `t` reads symbol `v` in state `s` and leaves state `u` (40_bitreader.md R203). -/
def ReadsSymbol (t : Table) (s : State) (v : Nat) (u : State) : Prop :=
  t.max ≠ 0 ∧ t.max ≤ 15 ∧ s.CanRead t.max ∧
    (t.entry (s.field 0 t.max)).len ≠ 0 ∧ (t.entry (s.field 0 t.max)).len.toNat ≤ t.max ∧
    v = (t.entry (s.field 0 t.max)).sym.toNat ∧
    u = s.afterRead t.max (t.entry (s.field 0 t.max)).len.toNat

/-- `n` steps of the machine. -/
def steps : (n : Nat) → State → Outcome
  | 0, s => .next s
  | n + 1, s =>
    match step s with
    | .next t => steps n t
    | .fault f => .fault f
    | .refused q => .refused q

/-! ### The tables of the spec -/

/-- The length instructions with their base and their extra bits (30_encoding.md R131, the rules
43_inflate_symbols.md R310..R338). -/
def lengthTable : List (Instr × Nat × Nat) :=
  [(Instr.len257, 3, 0), (Instr.len258, 4, 0), (Instr.len259, 5, 0), (Instr.len260, 6, 0), (Instr.len261, 7, 0)] ++
  [(Instr.len262, 8, 0), (Instr.len263, 9, 0), (Instr.len264, 10, 0), (Instr.len265, 11, 1), (Instr.len266, 13, 1)] ++
  [(Instr.len267, 15, 1), (Instr.len268, 17, 1), (Instr.len269, 19, 2), (Instr.len270, 23, 2), (Instr.len271, 27, 2)] ++
  [(Instr.len272, 31, 2), (Instr.len273, 35, 3), (Instr.len274, 43, 3), (Instr.len275, 51, 3), (Instr.len276, 59, 3)] ++
  [(Instr.len277, 67, 4), (Instr.len278, 83, 4), (Instr.len279, 99, 4), (Instr.len280, 115, 4), (Instr.len281, 131, 5)] ++
  [(Instr.len282, 163, 5), (Instr.len283, 195, 5), (Instr.len284, 227, 5), (Instr.len285, 258, 0)]

/-- The distance instructions with their base and their extra bits, in code order (30_encoding.md R132,
the rules 43_inflate_symbols.md R340..R369). -/
def distanceTable : List (Instr × Nat × Nat) :=
  [(Instr.dist0, 1, 0), (Instr.dist1, 2, 0), (Instr.dist2, 3, 0), (Instr.dist3, 4, 0), (Instr.dist4, 5, 1)] ++
  [(Instr.dist5, 7, 1), (Instr.dist6, 9, 2), (Instr.dist7, 13, 2), (Instr.dist8, 17, 3), (Instr.dist9, 25, 3)] ++
  [(Instr.dist10, 33, 4), (Instr.dist11, 49, 4), (Instr.dist12, 65, 5), (Instr.dist13, 97, 5), (Instr.dist14, 129, 6)] ++
  [(Instr.dist15, 193, 6), (Instr.dist16, 257, 7), (Instr.dist17, 385, 7), (Instr.dist18, 513, 8), (Instr.dist19, 769, 8)] ++
  [(Instr.dist20, 1025, 9), (Instr.dist21, 1537, 9), (Instr.dist22, 2049, 10), (Instr.dist23, 3073, 10), (Instr.dist24, 4097, 11)] ++
  [(Instr.dist25, 6145, 11), (Instr.dist26, 8193, 12), (Instr.dist27, 12289, 12), (Instr.dist28, 16385, 13), (Instr.dist29, 24577, 13)]

/-- The error kinds with their codes (60_exceptions.md R600). -/
def errorCodes : List (ErrorKind × BitVec 4) :=
  [(.badContainerHeader, 1), (.reservedBlockType, 2), (.invalidHuffmanTable, 3), (.lengthCheckMismatch, 4),
   (.invalidBackReference, 5), (.unknownFilterType, 6), (.paletteIndexOutOfRange, 7), (.truncatedInput, 8),
   (.invalidSymbol, 9), (.unsupportedFormat, 10), (.capacityExceeded, 11)]

/-- The row instructions with their predictors of left, up and upper-left (44_png_unfilter.md
R410..R413; the fifth is R414's, which `Obligations.PaethPicksTheNearestNeighbour` is about). -/
def rowTable : List (Instr × (Nat → Nat → Nat → Nat)) :=
  [(.rowNone, fun _ _ _ => 0), (.rowSub, fun a _ _ => a), (.rowUp, fun _ b _ => b),
   (.rowAverage, fun a b _ => (a + b) / 2), (.rowPaeth, paethPredictor)]

/-- The pixel instructions that need no palette, with their colour type and the bytes R, G, B, A they
make of the source bytes (45_pixel_assembler.md R435..R438). -/
def pixelTable : List (Instr × Byte × ((Nat → Byte) → List Byte)) :=
  [(.pixelGray, 0, fun s => [s 0, s 0, s 0, 255]), (.pixelGrayAlpha, 4, fun s => [s 0, s 0, s 0, s 1]),
   (.pixelRgb, 2, fun s => [s 0, s 1, s 2, 255]), (.pixelRgba, 6, fun s => [s 0, s 1, s 2, s 3])]

/-- The registers by byte offset (10_state.md R30). -/
def registerMap : List (Nat × Reg) :=
  [(0x00, .cmd), (0x04, .status), (0x08, .errcode), (0x0C, .ctrl), (0x10, .inLen), (0x14, .outLen), (0x18, .width),
   (0x1C, .height), (0x20, .format), (0x24, .palLen)] ++
  [(0x28, .reserved), (0x2C, .reserved), (0x30, .reserved), (0x34, .reserved), (0x38, .reserved), (0x3C, .reserved)]

/-! ### The dynamic header -/

/-- The code-length code lengths (42_inflate_blocks.md R270, R271): symbol `v` stands at some place of
`CL_ORDER`; its length is the 3-bit field at that place if the header has it, else 0. -/
def codeLengthLengths (s : State) (hclen : Nat) : List Nat :=
  (List.range 19).map fun v =>
    if [16, 17, 18, 0, 8, 7, 9, 6, 10, 5, 11, 4, 12, 3, 13, 2, 14, 1, 15].idxOf v < hclen then
      s.field (3 * [16, 17, 18, 0, 8, 7, 9, 6, 10, 5, 11, 4, 12, 3, 13, 2, 14, 1, 15].idxOf v) 3
    else 0

/-- Turns of the loop of 42_inflate_blocks.md R270, from the lengths read so far to those read after them:
one constructor for each of R272..R275, each within the bound of R276. The loop is over when `total`
lengths are read. -/
inductive CodeLengths (clt : Table) (total : Nat) : State → List Nat → State → List Nat → Prop
  | none (s : State) (lens : List Nat) : CodeLengths clt total s lens s lens
  | literal {s u t : State} {lens all : List Nat} {v : Nat} (h : lens.length < total) (hs : ReadsSymbol clt s v u)
      (hv : v ≤ 15) (rest : CodeLengths clt total u (lens ++ [v]) t all) : CodeLengths clt total s lens t all
  | previous {s u t : State} {lens all : List Nat} {v : Nat} (h : lens.length < total) (hs : ReadsSymbol clt s 16 u)
      (hv : lens.getLast? = some v) (hr : u.CanRead 2) (hn : lens.length + (3 + u.field 0 2) ≤ total)
      (rest : CodeLengths clt total (u.afterRead 2 2) (lens ++ List.replicate (3 + u.field 0 2) v) t all) :
      CodeLengths clt total s lens t all
  | zeros {s u t : State} {lens all : List Nat} (h : lens.length < total) (hs : ReadsSymbol clt s 17 u)
      (hr : u.CanRead 3) (hn : lens.length + (3 + u.field 0 3) ≤ total)
      (rest : CodeLengths clt total (u.afterRead 3 3) (lens ++ List.replicate (3 + u.field 0 3) 0) t all) :
      CodeLengths clt total s lens t all
  | manyZeros {s u t : State} {lens all : List Nat} (h : lens.length < total) (hs : ReadsSymbol clt s 18 u)
      (hr : u.CanRead 7) (hn : lens.length + (11 + u.field 0 7) ≤ total)
      (rest : CodeLengths clt total (u.afterRead 7 7) (lens ++ List.replicate (11 + u.field 0 7) 0) t all) :
      CodeLengths clt total s lens t all

/-- The repeat symbols of a dynamic header with the base and the extra bits of their count
(42_inflate_blocks.md R273, R274, R275). -/
def repeatTable : List (Nat × Nat × Nat) := [(16, 3, 2), (17, 3, 3), (18, 11, 7)]

/-! ### The entry checks of DECODE_PNG -/

/-- The channel count of a legal colour type (44_png_unfilter.md R401). -/
def channelCount (ctype : Byte) : Nat :=
  match ctype.toNat with
  | 2 => 3
  | 4 => 2
  | 6 => 4
  | _ => 1

/-- `ceil(W * bits_pp / 8)` of the image header in the registers (44_png_unfilter.md R401). -/
def headerStride (s : State) : Nat :=
  (s.width.toNat * (s.format.depth.toNat * channelCount s.format.ctype) + 7) / 8

/-- The first check of 44_png_unfilter.md R400 that fails, in the rule's order. -/
def entryError (s : State) : Option ErrorKind :=
  if s.width.toNat = 0 ∨ s.height.toNat = 0 then some .unsupportedFormat
  else if s.format.depth.toNat ∉ [1, 2, 4, 8, 16] then some .unsupportedFormat
  else if s.format.ctype.toNat ∉ [0, 2, 3, 4, 6] then some .unsupportedFormat
  else if s.caps.outCap < s.outLen then some .capacityExceeded
  else if s.format.palPresent = true ∧ 768 < s.palLen.toNat then some .capacityExceeded
  else if s.caps.pixCap < s.width.toNat * s.height.toNat * 4 then some .capacityExceeded
  else if s.outLen < s.height.toNat * (1 + headerStride s) then some .truncatedInput
  else none

/-! ### Which instruction a state selects -/

/-- The instruction that the state's next step runs and the state it runs in, format by format: the
element's own bits are read, or the row's filter byte, the latched pixel format or the command word
(46_commands.md R468, 30_encoding.md R120..R129). `clsym` and `dcode` are steps of the model's form
(log entries 7 and 6), and so is `asmstart` as an instruction (log entry 20). -/
inductive Selects : State → Instr → State → Prop
  | zhdr {s : State} {i : Instr} (h : AtElement s .zhdr) (hr : s.CanRead 16)
      (hd : decode .zhdr (s.field 0 16) = .ok i) : Selects s i (s.afterRead 16 16)
  | blkhdr {s : State} {i : Instr} (h : AtElement s .blkhdr) (hr : s.CanRead 3)
      (hd : decode .blkhdr (s.field 0 3) = .ok i) : Selects s i { s.afterRead 3 3 with bfinal := s.nextBit 0 }
  | stored {s : State} {i : Instr} (h : AtElement s .stored) (hb : s.BitsOk) (hr : s.align.CanRead 32)
      (hd : decode .stored (s.align.field 0 32) = .ok i) : Selects s i (s.align.afterRead 32 32)
  | dynhdr {s : State} {i : Instr} (h : AtElement s .dynhdr) (hn : s.dyn.hlit = 0) (hr : s.CanRead 14)
      (hd : decode .dynhdr (s.field 0 14) = .ok i) : Selects s i (s.afterRead 14 14)
  | clsym {s u : State} {i : Instr} {v : Nat} (h : AtElement s .dynhdr) (hn : s.dyn.hlit ≠ 0)
      (hl : s.dyn.lens.length < s.lengthTotal) (hs : ReadsSymbol s.dyn.clt s v u) (hd : decode .clsym v = .ok i) :
      Selects s i u
  | sym {s u : State} {i : Instr} {v : Nat} (h : AtElement s .symbol) (hn : s.matchLen = 0)
      (hs : ReadsSymbol s.llt s v u) (hd : decode .sym v = .ok i) : Selects s i u
  | dcode {s u : State} {i : Instr} {v : Nat} (h : AtElement s .symbol) (hn : s.matchLen ≠ 0)
      (hs : ReadsSymbol s.dt s v u) (hd : decode .dcode v = .ok i) : Selects s i u
  | row {s : State} {i : Instr} (h : AtElement s .row) (hr : s.png.row < s.png.h)
      (ha : s.png.row * s.png.rowlen < s.caps.outCap)
      (hd : decode .row (s.byteAt .out (s.png.row * s.png.rowlen)).toNat = .ok i) : Selects s i s
  | pixel {s : State} {i : Instr} (h : AtElement s .pixel) (hp : s.png.pixI < s.png.w * s.png.h)
      (hd : decode .pixel (s.png.depth.toNat + s.png.ctype.toNat * 256) = .ok i) : Selects s i s
  | asmstart {s : State} (h : AtElement s .asmstart) (hd : s.png.depth ≠ 8) :
      Selects s (.pixelUnsupported s.png.depth s.png.ctype) s
  | cmdword {s : State} {i : Instr} {v : Word} {rest : List HostMove} (h : s.moves = .regWrite 0x00 v :: rest)
      (hd : decode .cmdword v.toNat = .ok i) : Selects s i { s with moves := rest }

/-- The stream a state has ahead begins with the given bits. -/
def BeginsWith (s : State) (bits : List Bool) : Prop := ∀ k < bits.length, s.nextBit k = bits.getD k false

end Sys2Proof.Claims

open Sys2Proof Sys2Proof.Machine Sys2Proof.Claims

/-! ### BitReader and output primitives -/

/-- R200: Refill(n). With enough bits left it fetches the fewest whole bytes and drops nothing, at most
two of them; with too few it takes what there is and raises TruncatedInput, and the bits already
buffered are still there. -/
def Obligations.RefillFetchesWholeBytes : Prop :=
  ∀ (s : State) (n : Nat), n ≤ 16 → s.BitsOk → s.inLen.toNat ≤ s.caps.inCap →
    s.fetches n ≤ 2 ∧ (n ≤ s.cnt → refill n s = .ok () s) ∧
    (n ≤ s.bitsLeft → refill n s = .ok () (s.afterRead n 0) ∧ n ≤ (s.afterRead n 0).cnt ∧
      ∀ k, (s.afterRead n 0).nextBit k = s.nextBit k) ∧
    (s.bitsLeft < n → ∃ t, refill n s = .err .truncatedInput t ∧
      t = { s with acc := t.acc, cnt := t.cnt, inPos := t.inPos } ∧ s.cnt ≤ t.cnt ∧
      ∀ k < s.cnt, t.acc.getLsbD k = s.acc.getLsbD k)

/-- R201: GetBits(n) returns the next `n` bits as an unsigned field, first bit lowest, and drops them;
GetBits(0) touches nothing; more than 16 bits are refused. -/
def Obligations.GetBitsReadsAndDropsAField : Prop :=
  ∀ (s : State) (n : Nat),
    (n ≤ 16 → s.CanRead n → getBits n s = .ok (s.field 0 n) (s.afterRead n n)) ∧
    (n ≤ 16 → s.CanRead n → s.field 0 n < 2 ^ n ∧ ∀ i < n, (s.field 0 n).testBit i = s.nextBit i) ∧
    (n ≤ 16 → s.BitsOk → s.inLen.toNat ≤ s.caps.inCap → s.bitsLeft < n → ∃ t, getBits n s = .err .truncatedInput t) ∧
    getBits 0 s = .ok 0 s ∧
    (16 < n → getBits n s = .refused (.wideBitCount n))

/-- R203: GetCode(T), its three errors in order and its result: it needs `T.max` bits and drops only the
decoded length. -/
def Obligations.GetCodeDropsTheDecodedLength : Prop :=
  ∀ (t : Table) (s : State), t.max ≤ 15 → s.BitsOk → s.inLen.toNat ≤ s.caps.inCap →
    (t.max = 0 → getCode t s = .err .invalidHuffmanTable s) ∧
    (t.max ≠ 0 → s.bitsLeft < t.max → ∃ u, getCode t s = .err .truncatedInput u) ∧
    (t.max ≠ 0 → t.max ≤ s.bitsLeft → (t.entry (s.field 0 t.max)).len = 0 →
      ∃ u, getCode t s = .err .invalidHuffmanTable u) ∧
    (∀ v u, ReadsSymbol t s v u → getCode t s = .ok v u)

/-- R205: Align() drops `cnt mod 8` bits and reads no input; whole buffered bytes stay, and the stream
position is then a multiple of 8. -/
def Obligations.AlignKeepsWholeBytes : Prop :=
  ∀ s : State, s.BitsOk →
    s.align = { s with acc := s.acc >>> (s.cnt % 8), cnt := 8 * (s.cnt / 8) } ∧
    (∀ k, s.align.nextBit k = s.nextBit (s.cnt % 8 + k)) ∧ s.align.streamPos % 8 = 0

/-- R207 and R209, for the primitives: each keeps the BitReader invariant and moves the stream position by
the bits it reads, so the bits ahead are the old ones moved. -/
def Obligations.ReadsMoveTheStreamPosition : Prop :=
  ∀ s : State, s.BitsOk → s.inLen.toNat ≤ s.caps.inCap →
    (∀ n u, refill n s = .ok () u → u.BitsOk ∧ u.streamPos = s.streamPos ∧ ∀ k, u.nextBit k = s.nextBit k) ∧
    (∀ n v u, getBits n s = .ok v u →
      u.BitsOk ∧ u.streamPos = s.streamPos + n ∧ ∀ k, u.nextBit k = s.nextBit (n + k)) ∧
    (∀ (t : Table) (m v : Nat) (u : State), t.Ok m → getCode t s = .ok v u →
      ∃ n, 1 ≤ n ∧ n ≤ t.max ∧ (t.entry (s.field 0 t.max)).len.toNat = n ∧
        u.BitsOk ∧ u.streamPos = s.streamPos + n ∧ ∀ k, u.nextBit k = s.nextBit (n + k)) ∧
    (s.align.BitsOk ∧ s.align.streamPos = s.streamPos + (s.cnt % 8 : Nat))

/-! ### Huffman tables -/

/-- R220, R222, R226: BuildTable refuses a legal length sequence exactly if it is oversubscribed, or if
every length is 0 and the alphabet is used; an unused alphabet without codes gives the empty table. -/
def Obligations.BuildTableRefusesExactlyTheInvalid : Prop :=
  ∀ (lens : List Nat) (used : Bool), legalLengths lens →
    (buildTable lens used = none ↔ (used = true ∧ ∀ l ∈ lens, l = 0) ∨ 2 ^ 15 < kraftSum lens) ∧
    ((∀ l ∈ lens, l = 0) → buildTable lens false = some Table.empty)

/-- R224, R225, R227, R228: in an accepted table, entry `j` is (L, symbol) for the one symbol whose
canonical code, most significant bit first, begins the bits of `j` from bit 0 on, and unfilled if no
code does; no two codes fight for an entry, and every filled entry has 1 <= L <= T.max. -/
def Obligations.BuildTableFillsTheSlotsOfEveryCode : Prop :=
  ∀ (lens : List Nat) (used : Bool) (t : Table), legalLengths lens → buildTable lens used = some t →
    (∀ l ∈ lens, l ≤ t.max) ∧ (t.max = 0 ∨ t.max ∈ lens) ∧ (t.max ≠ 0 → t.entries.length = 2 ^ t.max) ∧
    ∀ j < 2 ^ t.max,
      (∀ v w, codeBegins lens v j.testBit → codeBegins lens w j.testBit → v = w) ∧
      (∀ v, codeBegins lens v j.testBit →
        (t.entry j).len.toNat = lens.getD v 0 ∧ (t.entry j).sym.toNat = v ∧ 1 ≤ lens.getD v 0) ∧
      ((∀ v, ¬ codeBegins lens v j.testBit) → t.entry j = { len := 0, sym := 0 })

/-- R229: the round trip. The stream bits of a symbol's code followed by any bits, fed to GetCode, yield
that symbol and consume exactly its code length. -/
def Obligations.HuffmanCodesRoundTrip : Prop :=
  ∀ (lens : List Nat) (used : Bool) (t : Table) (s : State) (v : Nat), legalLengths lens →
    buildTable lens used = some t → codeBegins lens v s.nextBit → s.CanRead t.max →
      getCode t s = .ok v (s.afterRead t.max (lens.getD v 0))

/-- R230, R231: the fixed tables are built from the fixed lengths; `max` is 9 and 5; the literal/length
table is complete and has the codes of 30_encoding.md R141; distance code D is D in 5 bits; the entries
15 and 31 of the distance table are unfilled, and GetCode raises InvalidHuffmanTable on them. -/
def Obligations.FixedTablesHaveTheFixedCodes : Prop :=
  buildTable ((List.range 288).map fun v => if v < 144 then 8 else if v < 256 then 9 else if v < 280 then 7 else 8)
      true = some fixedLitTable ∧
    buildTable (List.replicate 30 5) false = some fixedDistTable ∧
    fixedLitTable.max = 9 ∧ fixedDistTable.max = 5 ∧
    (∀ j < 512, (fixedLitTable.entry j).len ≠ 0) ∧
    (∀ v < 288, ∀ j < 512,
      (∀ i < (fixedLitCode v).1, j.testBit i = (fixedLitCode v).2.testBit ((fixedLitCode v).1 - 1 - i)) →
        (fixedLitTable.entry j).len.toNat = (fixedLitCode v).1 ∧ (fixedLitTable.entry j).sym.toNat = v) ∧
    (∀ d < 30, ∀ j < 32, (∀ i < 5, j.testBit i = d.testBit (4 - i)) →
      (fixedDistTable.entry j).len.toNat = 5 ∧ (fixedDistTable.entry j).sym.toNat = d) ∧
    (fixedDistTable.entry 15).len = 0 ∧ (fixedDistTable.entry 31).len = 0 ∧
    ∀ s : State, s.CanRead 5 → s.field 0 5 = 15 ∨ s.field 0 5 = 31 →
      ∃ u, getCode fixedDistTable s = .err .invalidHuffmanTable u

/-! ### Container and block headers -/

/-- R250: the ZHDR element. CMF and FLG are the next two bytes of the stream; the three checks; on any of
them BadContainerHeader; TruncatedInput if the 16 bits are not there. -/
def Obligations.ContainerHeaderElement : Prop :=
  ∀ s : State, AtElement s .zhdr →
    (s.CanRead 16 → s.field 0 8 % 16 = 8 → (s.field 0 8 * 256 + s.field 8 8) % 31 = 0 → s.field 8 8 / 32 % 2 = 0 →
      step s = .next { s.afterRead 16 16 with fsm := .blkhdr } ∧
        (s.inPos = 0 → s.cnt = 0 → (s.afterRead 16 16).inPos = 2 ∧ (s.afterRead 16 16).cnt = 0)) ∧
    (s.CanRead 16 →
      s.field 0 8 % 16 ≠ 8 ∨ (s.field 0 8 * 256 + s.field 8 8) % 31 ≠ 0 ∨ s.field 8 8 / 32 % 2 = 1 →
      step s = .next ((s.afterRead 16 16).raise .badContainerHeader)) ∧
    (s.BitsOk → s.inLen.toNat ≤ s.caps.inCap → s.bitsLeft < 16 → Raises (step s) s .truncatedInput)

/-- R250 for the two instructions: `zhdr` goes to the block header and changes `fsm` alone, `zhdr.bad`
raises BadContainerHeader. -/
def Obligations.ContainerHeaderInstructions : Prop :=
  ∀ (cmf flg : Byte) (s : State),
    ((Instr.zhdr cmf flg).WellFormed → exec (.zhdr cmf flg) s = .next { s with fsm := .blkhdr }) ∧
    ((Instr.zhdrBad cmf flg).WellFormed → exec (.zhdrBad cmf flg) s = .next (s.raise .badContainerHeader))

/-- R255, R256, R257: the BLKHDR element. BFINAL is the next bit, BTYPE the two after it; each type goes
where the rule says, BTYPE 1 with the fixed tables, BTYPE 3 to ReservedBlockType. -/
def Obligations.BlockHeaderElement : Prop :=
  ∀ s : State, AtElement s .blkhdr →
    (s.CanRead 3 →
      (s.field 1 2 = 0 →
        step s = .next { s.afterRead 3 3 with bfinal := s.nextBit 0, btype := 0, fsm := .stored }) ∧
      (s.field 1 2 = 1 →
        step s = .next { s.afterRead 3 3 with
          bfinal := s.nextBit 0, btype := 1, llt := fixedLitTable, dt := fixedDistTable, fsm := .symbol }) ∧
      (s.field 1 2 = 2 →
        step s = .next { s.afterRead 3 3 with bfinal := s.nextBit 0, btype := 2, fsm := .dynhdr }) ∧
      (s.field 1 2 = 3 →
        step s = .next (({ s.afterRead 3 3 with bfinal := s.nextBit 0, btype := 3 } : State).raise
          .reservedBlockType))) ∧
    (s.BitsOk → s.inLen.toNat ≤ s.caps.inCap → s.bitsLeft < 3 →
      ∃ t, step s = .next t ∧ t.fsm = .error ∧ t.errcode = 8)

/-- The frame of the instructions that only set block registers, tables and `fsm` (42_inflate_blocks.md
R255, R256, R257; 43_inflate_symbols.md R303): every other field is unchanged. -/
def Obligations.BlockControlInstructions : Prop :=
  ∀ (f : Bool) (s : State),
    exec (.blockStored f) s = .next { s with bfinal := f, btype := 0, fsm := .stored } ∧
    exec (.blockFixed f) s =
      .next { s with bfinal := f, btype := 1, llt := fixedLitTable, dt := fixedDistTable, fsm := .symbol } ∧
    exec (.blockDynamic f) s = .next { s with bfinal := f, btype := 2, fsm := .dynhdr } ∧
    exec (.blockReserved f) s = .next (({ s with bfinal := f, btype := 3 } : State).raise .reservedBlockType) ∧
    exec .eob s = .next { s with fsm := .blkend }

/-- R258, R467, R470: the BLKEND element. The next state is DONE after the final block and BLKHDR after
any other; with CKPT_EN the engine suspends with it as target, without CKPT_EN it goes there, and
going to DONE ends the command. -/
def Obligations.BlockEndElement : Prop :=
  ∀ s : State, AtElement s .blkend →
    (s.ckptEn = true → s.bfinal = true → step s = .next { s with susp := true, suspNext := .done }) ∧
    (s.ckptEn = true → s.bfinal = false → step s = .next { s with susp := true, suspNext := .blkhdr }) ∧
    (s.ckptEn = false → s.bfinal = true →
      step s = .next { s with
        fsm := .done, susp := false, status := { s.status with busy := false, done := true } }) ∧
    (s.ckptEn = false → s.bfinal = false → step s = .next { s with fsm := .blkhdr })

/-- R260: STORED. Fewer than 32 bits after Align raise TruncatedInput at the step. The body: with NLEN the
complement of LEN, the LEN bytes ahead in the stream are appended to OUT verbatim and nothing else
changes but the BitReader, `out_len` and `fsm`; the errors are LengthCheckMismatch, TruncatedInput if
the input ends before OUT is full, and CapacityExceeded if OUT is full before the input ends. -/
def Obligations.StoredBlockCopiesItsBytes : Prop :=
  (∀ s : State, AtElement s .stored → s.BitsOk → s.inLen.toNat ≤ s.caps.inCap → s.align.bitsLeft < 32 →
    Raises (step s) s .truncatedInput) ∧
  ∀ (len nlen : BitVec 16) (s : State),
    (nlen = ~~~len → s.CanRead (8 * len.toNat) → s.outLen + len.toNat ≤ s.caps.outCap →
      ∃ t, exec (.stored len nlen) s = .next t ∧
        t = { s.afterRead (8 * len.toNat) (8 * len.toNat) with
          out := t.out, outLen := s.outLen + len.toNat, fsm := .blkend } ∧
        (∀ k < len.toNat, (t.byteAt .out (s.outLen + k)).toNat = s.field (8 * k) 8) ∧
        ∀ a, a < s.outLen ∨ s.outLen + len.toNat ≤ a → t.byteAt .out a = s.byteAt .out a) ∧
    (nlen ≠ ~~~len → exec (.stored len nlen) s = .next (s.raise .lengthCheckMismatch)) ∧
    (nlen = ~~~len → s.BitsOk → s.inLen.toNat ≤ s.caps.inCap → s.bitsLeft < 8 * len.toNat →
      s.outLen + s.bitsLeft / 8 ≤ s.caps.outCap → Raises (exec (.stored len nlen) s) s .truncatedInput) ∧
    (nlen = ~~~len → s.BitsOk → s.inLen.toNat ≤ s.caps.inCap → s.outLen ≤ s.caps.outCap →
      s.caps.outCap < s.outLen + len.toNat → s.caps.outCap < s.outLen + s.bitsLeft / 8 →
      Raises (exec (.stored len nlen) s) s .capacityExceeded)

/-! ### The dynamic header -/

/-- R270, R271, R277: the DYNHDR instruction. The code-length code is built from the HCLEN fields in
CL_ORDER, the HLIT + HDIST lengths are decoded with it, and the two tables are built from the first
HLIT and the last HDIST of them; nothing else changes but the BitReader and `fsm`. -/
def Obligations.DynamicHeaderBuildsBothTables : Prop :=
  ∀ (hlit hdist : BitVec 5) (hclen : BitVec 4) (s t : State) (lens : List Nat) (clt llt dt : Table),
    s.CanRead (3 * (hclen.toNat + 4)) →
    buildTable (codeLengthLengths s (hclen.toNat + 4)) true = some clt →
    CodeLengths clt (hlit.toNat + 257 + (hdist.toNat + 1))
      (s.afterRead (3 * (hclen.toNat + 4)) (3 * (hclen.toNat + 4))) [] t lens →
    lens.length = hlit.toNat + 257 + (hdist.toNat + 1) →
    buildTable (lens.take (hlit.toNat + 257)) true = some llt →
    buildTable (lens.drop (hlit.toNat + 257)) false = some dt →
      exec (.dynhdr hlit hdist hclen) s =
        .next { t with llt := llt, dt := dt, dyn := DynScratch.empty, fsm := .symbol }

/-- R270..R277: every error of DYNHDR. At the step, fewer than 14 header bits raise TruncatedInput (the
state is between elements: no header is being read, log entry 7). After them: too few bits for the
code-length fields; an invalid code-length code; in the loop, whatever it has read so far, too few bits
for a code-length code or an unfilled entry, a 16 with no length before it, too few extra bits, a repeat
past HLIT + HDIST; an invalid or empty literal/length code; an oversubscribed distance code. That LLT
is written before the distance code is built is the model's choice (log entry 15). -/
def Obligations.DynamicHeaderErrors : Prop :=
  (∀ s : State, AtElement s .dynhdr → s.dyn.hlit = 0 → s.BitsOk → s.inLen.toNat ≤ s.caps.inCap → s.bitsLeft < 14 →
    Raises (step s) s .truncatedInput) ∧
  ∀ (hlit hdist : BitVec 5) (hclen : BitVec 4) (s : State), s.BitsOk → s.inLen.toNat ≤ s.caps.inCap →
    (s.bitsLeft < 3 * (hclen.toNat + 4) → Raises (exec (.dynhdr hlit hdist hclen) s) s .truncatedInput) ∧
    (3 * (hclen.toNat + 4) ≤ s.bitsLeft →
      (buildTable (codeLengthLengths s (hclen.toNat + 4)) true = none →
        Raises (exec (.dynhdr hlit hdist hclen) s) s .invalidHuffmanTable) ∧
      ∀ (t : State) (lens : List Nat) (clt : Table),
        buildTable (codeLengthLengths s (hclen.toNat + 4)) true = some clt →
        CodeLengths clt (hlit.toNat + 257 + (hdist.toNat + 1))
          (s.afterRead (3 * (hclen.toNat + 4)) (3 * (hclen.toNat + 4))) [] t lens →
        (lens.length < hlit.toNat + 257 + (hdist.toNat + 1) →
          (t.bitsLeft < clt.max → Raises (exec (.dynhdr hlit hdist hclen) s) s .truncatedInput) ∧
          (clt.max ≤ t.bitsLeft → (clt.entry (t.field 0 clt.max)).len = 0 →
            Raises (exec (.dynhdr hlit hdist hclen) s) s .invalidHuffmanTable) ∧
          (∀ u, ReadsSymbol clt t 16 u → lens = [] →
            Raises (exec (.dynhdr hlit hdist hclen) s) s .invalidHuffmanTable) ∧
          ∀ r ∈ repeatTable, ∀ u, ReadsSymbol clt t r.1 u → (r.1 = 16 → lens ≠ []) →
            (u.bitsLeft < r.2.2 → Raises (exec (.dynhdr hlit hdist hclen) s) s .truncatedInput) ∧
            (r.2.2 ≤ u.bitsLeft →
              hlit.toNat + 257 + (hdist.toNat + 1) < lens.length + (r.2.1 + u.field 0 r.2.2) →
              Raises (exec (.dynhdr hlit hdist hclen) s) s .invalidHuffmanTable)) ∧
        (lens.length = hlit.toNat + 257 + (hdist.toNat + 1) →
          (buildTable (lens.take (hlit.toNat + 257)) true = none →
            Raises (exec (.dynhdr hlit hdist hclen) s) s .invalidHuffmanTable) ∧
          ∀ llt, buildTable (lens.take (hlit.toNat + 257)) true = some llt →
            buildTable (lens.drop (hlit.toNat + 257)) false = none →
            Raises (exec (.dynhdr hlit hdist hclen) s) { s with llt := llt } .invalidHuffmanTable))

/-- R278: with HCLEN = 4 a dynamic header never completes, whatever the state: if it goes on, it goes on
in ERROR with InvalidHuffmanTable or TruncatedInput. -/
def Obligations.ShortestDynamicHeaderNeverCompletes : Prop :=
  ∀ (hlit hdist : BitVec 5) (s t : State), exec (.dynhdr hlit hdist 0) s = .next t →
    t.fsm = .error ∧ (t.errcode = 3 ∨ t.errcode = 8)

/-- R272..R276 for the four code-length instructions, over the model's scratch of a header (log entry 7):
what each appends, what it reads, and when it raises. -/
def Obligations.CodeLengthInstructionsAppend : Prop :=
  ∀ s : State,
    (∀ len : BitVec 4, exec (.clLen len) s =
      .next { s with dyn := { s.dyn with lens := s.dyn.lens ++ [len.toNat] } }) ∧
    (∀ v, s.dyn.lens.getLast? = some v → s.CanRead 2 →
      s.dyn.lens.length + (3 + s.field 0 2) ≤ s.dyn.hlit + s.dyn.hdist →
      exec .clRep16 s = .next { s.afterRead 2 2 with
        dyn := { s.dyn with lens := s.dyn.lens ++ List.replicate (3 + s.field 0 2) v } }) ∧
    (s.CanRead 3 → s.dyn.lens.length + (3 + s.field 0 3) ≤ s.dyn.hlit + s.dyn.hdist →
      exec .clRep17 s = .next { s.afterRead 3 3 with
        dyn := { s.dyn with lens := s.dyn.lens ++ List.replicate (3 + s.field 0 3) 0 } }) ∧
    (s.CanRead 7 → s.dyn.lens.length + (11 + s.field 0 7) ≤ s.dyn.hlit + s.dyn.hdist →
      exec .clRep18 s = .next { s.afterRead 7 7 with
        dyn := { s.dyn with lens := s.dyn.lens ++ List.replicate (11 + s.field 0 7) 0 } }) ∧
    (s.dyn.lens = [] → exec .clRep16 s = .next (s.raise .invalidHuffmanTable)) ∧
    (s.dyn.lens ≠ [] → s.CanRead 2 → s.dyn.hlit + s.dyn.hdist < s.dyn.lens.length + (3 + s.field 0 2) →
      exec .clRep16 s = .next ((s.afterRead 2 2).raise .invalidHuffmanTable)) ∧
    (s.CanRead 3 → s.dyn.hlit + s.dyn.hdist < s.dyn.lens.length + (3 + s.field 0 3) →
      exec .clRep17 s = .next ((s.afterRead 3 3).raise .invalidHuffmanTable)) ∧
    (s.CanRead 7 → s.dyn.hlit + s.dyn.hdist < s.dyn.lens.length + (11 + s.field 0 7) →
      exec .clRep18 s = .next ((s.afterRead 7 7).raise .invalidHuffmanTable))

/-! ### Symbols -/

/-- R301, R214: a literal appends its byte at `out_len`; every other byte of OUT and every other field
but `out_len` and `fsm` is unchanged; with OUT full it raises CapacityExceeded. -/
def Obligations.LiteralAppendsItsByte : Prop :=
  ∀ (b : Byte) (s : State),
    (s.outLen < s.caps.outCap →
      ∃ t, exec (.lit b) s = .next t ∧ t = { s with out := t.out, outLen := s.outLen + 1, fsm := .symbol } ∧
        ∀ a, t.byteAt .out a = if a = s.outLen then b else s.byteAt .out a) ∧
    (s.caps.outCap ≤ s.outLen → exec (.lit b) s = .next (s.raise .capacityExceeded))

/-- R302, R305 with the tables of R131, R132: a match. Length extra bits, distance code, distance extra
bits are read in this order, and the last `dist` bytes are repeated to `len` bytes after OUT; nothing
else changes but the BitReader, `out_len` and `fsm`. -/
def Obligations.MatchRepeatsTheLastBytes : Prop :=
  ∀ e ∈ lengthTable, ∀ (s u : State) (d : Nat) (f : Instr × Nat × Nat), s.CanRead e.2.2 →
    ReadsSymbol s.dt (s.afterRead e.2.2 e.2.2) d u → distanceTable[d]? = some f → u.CanRead f.2.2 →
    f.2.1 + u.field 0 f.2.2 ≤ s.outLen → s.outLen + (e.2.1 + s.field 0 e.2.2) ≤ s.caps.outCap →
      ∃ t, exec e.1 s = .next t ∧
        t = { u.afterRead f.2.2 f.2.2 with
          out := t.out, outLen := s.outLen + (e.2.1 + s.field 0 e.2.2), matchLen := 0, fsm := .symbol } ∧
        (∀ k < e.2.1 + s.field 0 e.2.2, t.byteAt .out (s.outLen + k) =
          s.byteAt .out (s.outLen - (f.2.1 + u.field 0 f.2.2) + k % (f.2.1 + u.field 0 f.2.2))) ∧
        ∀ a, a < s.outLen ∨ s.outLen + (e.2.1 + s.field 0 e.2.2) ≤ a → t.byteAt .out a = s.byteAt .out a

/-- R300, R304, R305, R307, R302: the errors of SYMBOL, each when the bits before it could be read, in the
order the rules give. At the step, those of GetCode(LLT) and InvalidSymbol for 286 and 287 (the state
is between elements: no match is being read, log entry 6); then those of a match. -/
def Obligations.SymbolErrorsInStreamOrder : Prop :=
  (∀ s : State, AtElement s .symbol → s.matchLen = 0 → s.BitsOk → s.inLen.toNat ≤ s.caps.inCap → s.llt.Ok 287 →
    (s.llt.max = 0 → Raises (step s) s .invalidHuffmanTable) ∧
    (s.llt.max ≠ 0 → s.bitsLeft < s.llt.max → Raises (step s) s .truncatedInput) ∧
    (s.llt.max ≠ 0 → s.llt.max ≤ s.bitsLeft → (s.llt.entry (s.field 0 s.llt.max)).len = 0 →
      Raises (step s) s .invalidHuffmanTable) ∧
    ∀ v u, ReadsSymbol s.llt s v u → 286 ≤ v → Raises (step s) s .invalidSymbol) ∧
  ∀ e ∈ lengthTable, ∀ s : State, s.BitsOk → s.inLen.toNat ≤ s.caps.inCap → s.dt.Ok 31 →
    (s.bitsLeft < e.2.2 → Raises (exec e.1 s) s .truncatedInput) ∧
    (e.2.2 ≤ s.bitsLeft →
      (s.dt.max = 0 → Raises (exec e.1 s) s .invalidHuffmanTable) ∧
      (s.dt.max ≠ 0 → (s.afterRead e.2.2 e.2.2).bitsLeft < s.dt.max → Raises (exec e.1 s) s .truncatedInput) ∧
      (s.dt.max ≠ 0 → s.dt.max ≤ (s.afterRead e.2.2 e.2.2).bitsLeft →
        (s.dt.entry ((s.afterRead e.2.2 e.2.2).field 0 s.dt.max)).len = 0 →
        Raises (exec e.1 s) s .invalidHuffmanTable) ∧
      ∀ (u : State) (d : Nat), ReadsSymbol s.dt (s.afterRead e.2.2 e.2.2) d u →
        (30 ≤ d → Raises (exec e.1 s) s .invalidSymbol) ∧
        ∀ f, distanceTable[d]? = some f →
          (u.bitsLeft < f.2.2 → Raises (exec e.1 s) s .truncatedInput) ∧
          (f.2.2 ≤ u.bitsLeft → s.outLen < f.2.1 + u.field 0 f.2.2 →
            Raises (exec e.1 s) s .invalidBackReference) ∧
          (f.2.2 ≤ u.bitsLeft → f.2.1 + u.field 0 f.2.2 ≤ s.outLen → s.outLen ≤ s.caps.outCap →
            s.caps.outCap < s.outLen + (e.2.1 + s.field 0 e.2.2) → Raises (exec e.1 s) s .capacityExceeded))

/-- R302, R340..R369 for the distance instructions, over the model's scratch of a match (log entry 6):
they copy the latched length. -/
def Obligations.DistanceInstructionsCopy : Prop :=
  ∀ f ∈ distanceTable, ∀ s : State, s.CanRead f.2.2 → f.2.1 + s.field 0 f.2.2 ≤ s.outLen →
    s.outLen + s.matchLen ≤ s.caps.outCap →
      ∃ t, exec f.1 s = .next t ∧
        t = { s.afterRead f.2.2 f.2.2 with
          out := t.out, outLen := s.outLen + s.matchLen, matchLen := 0, fsm := .symbol } ∧
        (∀ k < s.matchLen, t.byteAt .out (s.outLen + k) =
          s.byteAt .out (s.outLen - (f.2.1 + s.field 0 f.2.2) + k % (f.2.1 + s.field 0 f.2.2))) ∧
        ∀ a, a < s.outLen ∨ s.outLen + s.matchLen ≤ a → t.byteAt .out a = s.byteAt .out a

/-- R304, R307, R415, R430: the instructions whose effect is an error raise it at once. -/
def Obligations.ErrorInstructionsRaise : Prop :=
  ∀ s : State,
    (∀ odd, exec (.symInvalid odd) s = .next (s.raise .invalidSymbol)) ∧
    (∀ odd, exec (.distInvalid odd) s = .next (s.raise .invalidSymbol)) ∧
    (∀ ft, exec (.rowUnknown ft) s = .next (s.raise .unknownFilterType)) ∧
    (∀ depth ctype, exec (.pixelUnsupported depth ctype) s = .next (s.raise .unsupportedFormat))

/-! ### DECODE_PNG -/

/-- R400, R401, R433: the PNGSTART element. The first check that fails, in the rule's order, is the error
raised; if none fails the PNG registers hold the latched and derived quantities, `row` and `pix_i`
are 0, and rows come next. No memory is written. -/
def Obligations.ImageEntryChecksInOrder : Prop :=
  ∀ s : State, AtElement s .pngstart →
    (∀ k, entryError s = some k → ∃ t, step s = .next t ∧ t = { s.raise k with png := t.png }) ∧
    (entryError s = none → step s = .next { s with
      png := {
        w := s.width.toNat, h := s.height.toNat, depth := s.format.depth, ctype := s.format.ctype
        chan := channelCount s.format.ctype
        bitsPp := s.format.depth.toNat * channelCount s.format.ctype
        bpp := (s.format.depth.toNat * channelCount s.format.ctype + 7) / 8
        stride := headerStride s, rowlen := 1 + headerStride s
        npal := if s.format.palPresent then s.palLen.toNat / 3 else 0, row := 0, pixI := 0 }
      fsm := .row })

/-- R402, R403, R410..R414: a row. Byte `x` becomes the filtered byte plus the predictor of its
neighbours, the left one already reconstructed, modulo 256; every other byte of OUT, the filter-type
byte among them, and every other field but `row`, `fsm` and the suspension is unchanged. -/
def Obligations.RowsAreReconstructed : Prop :=
  ∀ e ∈ rowTable, ∀ s : State, s.ImageOk → s.png.row < s.png.h →
    ∃ t, exec e.1 s = .next t ∧
      t = State.checkpoint { s with out := t.out, png := { s.png with row := s.png.row + 1 } }
        (if s.png.row + 1 = s.png.h then .asmstart else .row) ∧
      (∀ x < s.png.stride, (t.byteAt .out (s.png.row * s.png.rowlen + 1 + x)).toNat =
        ((s.byteAt .out (s.png.row * s.png.rowlen + 1 + x)).toNat
          + e.2 (s.leftByte t.out x) (s.upByte x) (s.upLeftByte x)) % 256) ∧
      ∀ a, a ≤ s.png.row * s.png.rowlen ∨ s.png.row * s.png.rowlen + s.png.stride < a →
        t.byteAt .out a = s.byteAt .out a

/-- R414: the Paeth predictor picks the neighbour nearest to `a + b - c`, computed in signed integers,
with ties broken in the order left, up, upper-left; in row 0 it predicts the left byte. -/
def Obligations.PaethPicksTheNearestNeighbour : Prop :=
  ∀ a b c : Nat,
    (paethPredictor a b c = a ∨ paethPredictor a b c = b ∨ paethPredictor a b c = c) ∧
    (∀ q : Nat, q = a ∨ q = b ∨ q = c →
      ((a : Int) + b - c - paethPredictor a b c).natAbs ≤ ((a : Int) + b - c - q).natAbs) ∧
    ((∀ q : Nat, q = b ∨ q = c → ((a : Int) + b - c - a).natAbs ≤ ((a : Int) + b - c - q).natAbs) →
      paethPredictor a b c = a) ∧
    (((a : Int) + b - c - b).natAbs < ((a : Int) + b - c - a).natAbs →
      ((a : Int) + b - c - b).natAbs ≤ ((a : Int) + b - c - c).natAbs → paethPredictor a b c = b) ∧
    paethPredictor a 0 0 = a

/-- R416: the filter round trip. A row filtered with any of the five types is reconstructed to the raw
row. -/
def Obligations.FilteredRowsRoundTrip : Prop :=
  ∀ e ∈ rowTable, ∀ (s : State) (raw : Nat → Byte), s.ImageOk → s.png.row < s.png.h →
    (∀ x < s.png.stride, ((s.byteAt .out (s.png.row * s.png.rowlen + 1 + x)).toNat : Int) =
      ((raw x).toNat - (e.2 (if s.png.bpp ≤ x then (raw (x - s.png.bpp)).toNat else 0)
        (s.upByte x) (s.upLeftByte x) : Int)) % 256) →
    ∃ t, exec e.1 s = .next t ∧
      ∀ x < s.png.stride, t.byteAt .out (s.png.row * s.png.rowlen + 1 + x) = raw x

/-- R402, R415: the ROW element reads the filter-type byte of row `row`; 0..4 run the five row
instructions in that order, any other value raises UnknownFilterType before a byte is written. -/
def Obligations.RowElementSelectsTheFilter : Prop :=
  ∀ s : State, AtElement s .row → s.ImageOk → s.png.row < s.png.h →
    (∀ k e, rowTable[k]? = some e → (s.byteAt .out (s.png.row * s.png.rowlen)).toNat = k → step s = exec e.1 s) ∧
    (4 < (s.byteAt .out (s.png.row * s.png.rowlen)).toNat → step s = .next (s.raise .unknownFilterType))

/-- R430: the ASMSTART element. -/
def Obligations.AssemblerAcceptsDepthEightOnly : Prop :=
  ∀ s : State, AtElement s .asmstart →
    (s.png.depth = 8 → step s = .next { s with png := { s.png with pixI := 0 }, fsm := .pixel }) ∧
    (s.png.depth ≠ 8 → step s = .next (s.raise .unsupportedFormat))

/-- R431, R435..R438: a pixel without palette. Its source bytes are expanded to R, G, B, A at
`4 * pix_i`; every other byte of PIX, all of OUT, and every other field but `pix_i`, `fsm` and STATUS
at the end is unchanged. -/
def Obligations.PixelsAreExpanded : Prop :=
  ∀ e ∈ pixelTable, ∀ s : State, s.ImageOk → s.png.depth = 8 → s.png.ctype = e.2.1 →
    s.png.pixI < s.png.w * s.png.h →
    ∃ t, exec e.1 s = .next t ∧
      t = State.goto { s with pix := t.pix, png := { s.png with pixI := s.png.pixI + 1 } }
        (if s.png.pixI + 1 = s.png.w * s.png.h then .done else .pixel) ∧
      (∀ k < 4, t.byteAt .pix (4 * s.png.pixI + k) =
        (e.2.2 fun j => s.byteAt .out
          (s.png.pixI / s.png.w * s.png.rowlen + 1 + s.png.pixI % s.png.w * s.png.bpp + j)).getD k 0) ∧
      ∀ a, a < 4 * s.png.pixI ∨ 4 * s.png.pixI + 4 ≤ a → t.byteAt .pix a = s.byteAt .pix a

/-- R431, R433, R434: a palette pixel. An index below `npal` gives its palette entry with alpha 255; any
other raises PaletteIndexOutOfRange before a byte is written. -/
def Obligations.PalettePixelsAreLookedUp : Prop :=
  ∀ s : State, s.ImageOk → s.png.depth = 8 → s.png.ctype = 3 → s.png.pixI < s.png.w * s.png.h →
    ∀ idx, (s.byteAt .out (s.png.pixI / s.png.w * s.png.rowlen + 1 + s.png.pixI % s.png.w)).toNat = idx →
    (idx < s.png.npal →
      ∃ t, exec .pixelPalette s = .next t ∧
        t = State.goto { s with pix := t.pix, png := { s.png with pixI := s.png.pixI + 1 } }
          (if s.png.pixI + 1 = s.png.w * s.png.h then .done else .pixel) ∧
        (∀ k < 3, t.byteAt .pix (4 * s.png.pixI + k) = s.byteAt .pal (3 * idx + k)) ∧
        t.byteAt .pix (4 * s.png.pixI + 3) = 255 ∧
        ∀ a, a < 4 * s.png.pixI ∨ 4 * s.png.pixI + 4 ≤ a → t.byteAt .pix a = s.byteAt .pix a) ∧
    (s.png.npal ≤ idx → exec .pixelPalette s = .next (s.raise .paletteIndexOutOfRange))

/-! ### Commands -/

/-- R461, R466: INFLATE. Ignored while BUSY; else the state it starts in, or CapacityExceeded if
IN_LEN > IN_CAP. -/
def Obligations.InflateCommandStarts : Prop :=
  ∀ s : State,
    (s.status.busy = true → exec .cmdInflate s = .next s) ∧
    (s.status.busy = false → s.inLen.toNat ≤ s.caps.inCap →
      ∃ t, exec .cmdInflate s = .next t ∧ t.llt.max = 0 ∧ t.dt.max = 0 ∧
        t = { s with
          errcode := 0, status := { busy := true, done := false, err := false }, susp := false
          inPos := 0, acc := 0, cnt := 0, outLen := 0, bfinal := false, btype := 0
          llt := t.llt, dt := t.dt, fsm := .zhdr }) ∧
    (s.status.busy = false → s.caps.inCap < s.inLen.toNat →
      ∃ t, exec .cmdInflate s = .next t ∧ t.llt.max = 0 ∧ t.dt.max = 0 ∧
        t = { s with
          errcode := 11, status := { busy := false, done := false, err := true }, susp := false
          inPos := 0, acc := 0, cnt := 0, outLen := t.outLen, bfinal := false, btype := 0
          llt := t.llt, dt := t.dt, fsm := .error, out := t.out, pix := t.pix
          matchLen := 0, dyn := DynScratch.empty, draws := s.draws + 1 })

/-- R462, R463, R464, R465, R466: the other command words: DECODE_PNG, RESUME, SOFT_RESET and the reserved
ones. -/
def Obligations.OtherCommandsAct : Prop :=
  ∀ s : State,
    (s.status.busy = true → exec .cmdDecodePng s = .next s) ∧
    (s.status.busy = false → exec .cmdDecodePng s = .next { s with
      errcode := 0, status := { busy := true, done := false, err := false }, susp := false, fsm := .pngstart }) ∧
    (s.susp = false → exec .cmdResume s = .next s) ∧
    (s.susp = true → s.suspNext ≠ .done → exec .cmdResume s = .next { s with susp := false, fsm := s.suspNext }) ∧
    (s.susp = true → s.suspNext = .done → exec .cmdResume s = .next { s with
      susp := false, fsm := .done, status := { s.status with busy := false, done := true } }) ∧
    (exec .cmdSoftReset s = .next { State.reset with
      inp := s.inp, out := s.out, pal := s.pal, pix := s.pix, caps := s.caps
      draws := s.draws, moves := s.moves, hostData := s.hostData }) ∧
    ∀ op, exec (.cmdReserved op) s = .next s

/-- R31, R129: a host write to CMD issues the command in bits 3:0 and ignores bits 31:4, at any time. -/
def Obligations.CommandWordUsesItsLowBits : Prop :=
  ∀ (s : State) (v : Word) (rest : List HostMove), s.moves = .regWrite 0x00 v :: rest →
    (v.toNat % 16 = 1 → step s = exec .cmdInflate { s with moves := rest }) ∧
    (v.toNat % 16 = 2 → step s = exec .cmdDecodePng { s with moves := rest }) ∧
    (v.toNat % 16 = 3 → step s = exec .cmdResume { s with moves := rest }) ∧
    (v.toNat % 16 = 15 → step s = exec .cmdSoftReset { s with moves := rest }) ∧
    (v.toNat % 16 ∉ [1, 2, 3, 15] → step s = .next { s with moves := rest })

/-- R470, R463: a suspended checkpoint followed by RESUME leaves what the same checkpoint leaves without
CKPT_EN, but for CKPT_EN and `susp_next`. -/
def Obligations.ResumeContinuesAtTheCheckpoint : Prop :=
  ∀ (s : State) (next : Fsm), s.susp = false →
    ∃ t, exec .cmdResume (State.checkpoint { s with ckptEn := true } next) = .next t ∧
      State.checkpoint { s with ckptEn := false } next = { t with ckptEn := false, suspNext := s.suspNext }

/-- R41, R468, R460: without a command, or suspended, the engine takes no step. -/
def Obligations.IdleAndSuspendedEngineWaits : Prop :=
  ∀ s : State, s.moves = [] → s.status.busy = false ∨ s.susp = true → step s = .next s

/-! ### Errors -/

/-- R610, R600, R612: error entry. `fsm`, `susp`, STATUS and ERRCODE as the rule says, with the code of
the kind; OUT, OUT_LEN and PIX take free values; the element's scratch is gone; nothing else
changes. -/
def Obligations.ErrorEntryRecordsTheKindOnly : Prop :=
  ∀ e ∈ errorCodes, ∀ s : State, s.raise e.1 = { s with
    fsm := .error, susp := false, status := { busy := false, done := false, err := true }, errcode := e.2
    out := (s.raise e.1).out, outLen := (s.raise e.1).outLen, pix := (s.raise e.1).pix
    matchLen := 0, dyn := DynScratch.empty, draws := s.draws + 1 }

/-- R611, R614: ERROR is quiescent. In a state of the invariant with `fsm` = ERROR the engine takes no
step and RESUME has no effect; the host's register reads show ERR alone and the code. -/
def Obligations.ErrorStateIsQuiescent : Prop :=
  ∀ s : State, s.Inv → s.fsm = .error →
    (s.moves = [] → step s = .next s) ∧ exec .cmdResume s = .next s ∧ s.readReg .status = 4 ∧
      1 ≤ (s.readReg .errcode).toNat ∧ (s.readReg .errcode).toNat ≤ 11

/-! ### Host interface -/

/-- R30, R86: the register block: which register stands at which offset, and every other offset is
refused. -/
def Obligations.RegisterBlockLayout : Prop :=
  (∀ e ∈ registerMap, regAt e.1 = some e.2) ∧
    ∀ off, (∀ r, (off, r) ∉ registerMap) →
      regAt off = none ∧
      ∀ (s : State) (v : Word) (rest : List HostMove),
        (s.moves = .regWrite off v :: rest → step s = .refused (.registerOffset off)) ∧
        (s.moves = .regRead off :: rest → step s = .refused (.registerOffset off))

/-- R30..R39, R460: a host write to a register other than CMD. The step that makes it is `writeReg`, which
changes no field but the seven configuration registers: `fsm`, the suspension, the BitReader, the block
and PNG registers, the tables and the memories are unchanged. What each register reads as after a write
while no command runs, and that a write to one register changes no other. -/
def Obligations.RegistersReadBack : Prop :=
  (∀ (s : State) (off : Nat) (r : Reg) (v : Word) (rest : List HostMove), (off, r) ∈ registerMap → r ≠ .cmd →
    s.moves = .regWrite off v :: rest → step s = .next (({ s with moves := rest } : State).writeReg r v)) ∧
  (∀ (s t : State) (r : Reg) (v : Word), s.writeReg r v = t →
    t = { s with
      ckptEn := t.ckptEn, inLen := t.inLen, outLen := t.outLen, width := t.width, height := t.height
      format := t.format, palLen := t.palLen } ∧
    (r ≠ .outLen → t.outLen = s.outLen)) ∧
  ∀ (s : State) (v : Word), s.status.busy = false →
    (s.writeReg .ctrl v).readReg .ctrl = v &&& 1 ∧
    (s.writeReg .inLen v).readReg .inLen = v ∧
    (s.writeReg .outLen v).readReg .outLen = v ∧ (s.writeReg .outLen v).outLen = v.toNat ∧
    (s.writeReg .width v).readReg .width = v ∧ (s.writeReg .height v).readReg .height = v ∧
    (s.writeReg .format v).readReg .format = v &&& 0x0001FFFF ∧
    (s.writeReg .palLen v).readReg .palLen = v ∧
    (∀ r ∈ [Reg.cmd, Reg.status, Reg.errcode, Reg.reserved], s.writeReg r v = s) ∧
    s.readReg .cmd = 0 ∧ s.readReg .reserved = 0 ∧
    ∀ r q, q ≠ r → (s.writeReg r v).readReg q = s.readReg q

/-- R32: the bits of STATUS; in every state of the invariant at most one of BUSY, DONE, ERR is 1, and SUSP
implies BUSY. -/
def Obligations.StatusBitsAreExclusive : Prop :=
  ∀ s : State,
    (s.readReg .status).getLsbD 0 = s.status.busy ∧ (s.readReg .status).getLsbD 1 = s.status.done ∧
    (s.readReg .status).getLsbD 2 = s.status.err ∧ (s.readReg .status).getLsbD 3 = s.susp ∧
    (∀ k, 4 ≤ k → (s.readReg .status).getLsbD k = false) ∧
    (s.Inv →
      ¬ (s.status.busy = true ∧ s.status.done = true) ∧ ¬ (s.status.busy = true ∧ s.status.err = true) ∧
      ¬ (s.status.done = true ∧ s.status.err = true) ∧ (s.susp = true → s.status.busy = true))

/-- R720: while BUSY a host write to any register but CMD changes nothing; a write to STATUS, ERRCODE or a
reserved offset changes nothing at any time. -/
def Obligations.RegisterWritesIgnoredWhileBusy : Prop :=
  ∀ (s : State) (off : Nat) (r : Reg) (v : Word) (rest : List HostMove), (off, r) ∈ registerMap → r ≠ .cmd →
    s.moves = .regWrite off v :: rest →
    s.status.busy = true ∨ r = .status ∨ r = .errcode ∨ r = .reserved →
      step s = .next { s with moves := rest }

/-- R51, R88: a host read returns the register's word or the memory's byte and changes nothing of the
core. -/
def Obligations.HostReadsHaveNoSideEffect : Prop :=
  ∀ (s : State) (rest : List HostMove),
    (∀ off r, (off, r) ∈ registerMap → s.moves = .regRead off :: rest →
      step s = .next { s with moves := rest, hostData := s.readReg r }) ∧
    (∀ sp a t, s.moves = .memRead sp a :: rest → step s = .next t →
      t = { s with moves := rest, hostData := (s.byteAt sp a).setWidth 32 })

/-- R85, R94, R721: when a host memory access is a move of the machine: below the memory's size, writes
while not BUSY, reads while not BUSY and, of OUT and PIX, while suspended; any other is refused. -/
def Obligations.HostMemoryAccessRules : Prop :=
  ∀ (s : State) (sp : Space) (a : Nat) (b : Byte) (rest : List HostMove),
    (s.moves = .memWrite sp a b :: rest →
      (a < s.caps.size sp → s.status.busy = false →
        ∃ t, step s = .next t ∧ (∀ tp x, t.byteAt tp x = if tp = sp ∧ x = a then b else s.byteAt tp x) ∧
          t = { s with moves := rest, inp := t.inp, out := t.out, pal := t.pal, pix := t.pix }) ∧
      (a < s.caps.size sp → s.status.busy = true → step s = .refused (.hostWhileBusy sp a)) ∧
      (s.caps.size sp ≤ a → step s = .refused (.hostAddress sp a))) ∧
    (s.moves = .memRead sp a :: rest →
      (a < s.caps.size sp → s.status.busy = false ∨ (s.susp = true ∧ (sp = .out ∨ sp = .pix)) →
        step s = .next { s with moves := rest, hostData := (s.byteAt sp a).setWidth 32 }) ∧
      (a < s.caps.size sp → s.status.busy = true → s.susp = false ∨ sp = .inp ∨ sp = .pal →
        step s = .refused (.hostWhileBusy sp a)) ∧
      (s.caps.size sp ≤ a → step s = .refused (.hostAddress sp a)))

/-! ### Reset -/

/-- R700, R464: the reset values of the state after reset; the reset signal gives them to every register
and leaves no written byte in any memory, SOFT_RESET gives them and keeps the memories. The
capacities, the moves, the host's data and the draw counter are the model's (log entries 1, 2, 4,
18). -/
def Obligations.ResetValues : Prop :=
  (∀ r, State.reset.readReg r = 0) ∧
  State.reset.fsm = .idle ∧ State.reset.susp = false ∧ State.reset.suspNext = .idle ∧
  State.reset.inPos = 0 ∧ State.reset.acc = 0 ∧ State.reset.cnt = 0 ∧ State.reset.outLen = 0 ∧
  State.reset.bfinal = false ∧ State.reset.btype = 0 ∧ State.reset.llt.max = 0 ∧ State.reset.dt.max = 0 ∧
  State.reset.png = { w := 0, h := 0, depth := 0, ctype := 0, chan := 0, bitsPp := 0, bpp := 0, stride := 0,
                      rowlen := 0, npal := 0, row := 0, pixI := 0 } ∧
  (∀ (s : State) (rest : List HostMove), s.moves = .reset :: rest →
    ∃ t, step s = .next t ∧ (∀ sp, (t.mem sp).cells = []) ∧
      t = { State.reset with
        inp := t.inp, out := t.out, pal := t.pal, pix := t.pix, caps := s.caps
        draws := s.draws + 1, moves := rest, hostData := s.hostData })

/-! ### Whole-machine rules -/

/-- R95, R98, R610, R720: no instruction writes IN or PAL, changes a capacity or a host move, and no
instruction but SOFT_RESET changes a configuration register (CTRL, IN_LEN, WIDTH, HEIGHT, FORMAT,
PAL_LEN). -/
def Obligations.InputPaletteAndConfigurationKept : Prop :=
  ∀ (i : Instr) (s t : State), exec i s = .next t →
    t.inp = s.inp ∧ t.pal = s.pal ∧ t.caps = s.caps ∧ t.moves = s.moves ∧ t.hostData = s.hostData ∧
    (i ≠ .cmdSoftReset →
      t.ckptEn = s.ckptEn ∧ t.inLen = s.inLen ∧ t.width = s.width ∧ t.height = s.height ∧ t.format = s.format ∧
      t.palLen = s.palLen)

/-- R97, R43: a step of INFLATE that raises no error appends to OUT and writes nothing else: the bytes
below the old and at or above the new `out_len` keep their contents, `out_len` never falls, and IN,
PAL and PIX are unchanged. -/
def Obligations.InflateOnlyAppendsToOut : Prop :=
  ∀ s t : State, s.Inv → s.moves = [] → s.fsm.inflating = true → step s = .next t → t.fsm ≠ .error →
    s.outLen ≤ t.outLen ∧ (∀ a, a < s.outLen ∨ t.outLen ≤ a → t.byteAt .out a = s.byteAt .out a) ∧
    t.inp = s.inp ∧ t.pal = s.pal ∧ t.pix = s.pix

/-- R98, R432: a step of DECODE_PNG that raises no error keeps IN, PAL, OUT_LEN, every filter-type byte and
every OUT byte at or above H*rowlen, and writes PIX below 4*W*H only. -/
def Obligations.DecodePngFootprint : Prop :=
  ∀ s t : State, s.Inv → s.moves = [] → s.fsm.imaging = true → step s = .next t → t.fsm ≠ .error →
    t.inp = s.inp ∧ t.pal = s.pal ∧ t.outLen = s.outLen ∧
    (∀ y < s.png.h, t.byteAt .out (y * s.png.rowlen) = s.byteAt .out (y * s.png.rowlen)) ∧
    (∀ a, s.png.h * s.png.rowlen ≤ a → t.byteAt .out a = s.byteAt .out a) ∧
    (∀ a, 4 * (s.png.w * s.png.h) ≤ a → t.byteAt .pix a = s.byteAt .pix a)

/-- R469: every element of INFLATE but BLKEND reads at least the stream bits the rule gives it, or raises
an error. -/
def Obligations.InflateElementsReadBits : Prop :=
  ∀ s t : State, s.Inv → AtElement s s.fsm → step s = .next t → t.fsm ≠ .error →
    (s.fsm = .zhdr → t.streamPos = s.streamPos + 16) ∧ (s.fsm = .blkhdr → t.streamPos = s.streamPos + 3) ∧
    (s.fsm = .stored → s.streamPos + 32 ≤ t.streamPos) ∧ (s.fsm = .dynhdr → s.streamPos + 26 ≤ t.streamPos) ∧
    (s.fsm = .symbol → s.streamPos + 1 ≤ t.streamPos)

/-- R468: every command reaches DONE or ERROR after finitely many steps when it is never suspended and
the host makes no move. -/
def Obligations.CommandsTerminate : Prop :=
  ∀ s : State, s.Inv → s.moves = [] → s.ckptEn = false →
    ∃ n t, steps n s = .next t ∧ t.status.busy = false

/-- The invariant holds after reset. -/
def Obligations.ResetMeetsTheInvariant : Prop := State.reset.Inv

/-- Every step keeps the invariant, whatever move it makes, from every state that meets it: memories
canonical, BitReader within its bounds and in step with IN, tables legal, STATUS in step with `fsm`,
the suspension legal, the image inside its memories (R32, R41, R42, R45, R207, R630). -/
def Obligations.StepKeepsTheInvariant : Prop := ∀ s t : State, s.Inv → step s = .next t → t.Inv

/-- R82, R630, R468: from every state that meets the invariant no step faults, so no computed address
leaves its memory, and a step of the engine always has a next state. -/
def Obligations.NoStepFaults : Prop :=
  ∀ s : State, s.Inv → s.SafeStep ∧ (s.moves = [] → ∃ t, step s = .next t)

/-- R259, R49: the input nobody reads. Over any number of engine steps: a byte of IN at or above IN_LEN, or
one that is not yet fetched when they end (at or above the `in_pos` they end with), changes nothing but
itself; a run that ends in DONE is the same with any IN_LEN that still holds every byte it fetched; and
after the final block neither the buffered bits, `in_pos`, IN_LEN nor any byte of IN is examined. -/
def Obligations.UnreadInputNeverMatters : Prop :=
  (∀ (n : Nat) (s t : State) (a : Nat) (b : Byte), s.moves = [] → steps n s = .next t →
    s.inLen.toNat ≤ a ∨ t.inPos ≤ a → steps n (s.putByte .inp a b) = .next (t.putByte .inp a b)) ∧
  (∀ (n : Nat) (s t : State) (l : Word), s.moves = [] → steps n s = .next t → t.fsm = .done → t.inPos ≤ l.toNat →
    steps n { s with inLen := l } = .next { t with inLen := l }) ∧
  ∀ (n : Nat) (s t : State) (x : BitVec 32) (c p : Nat) (l : Word) (m : Memory), s.moves = [] → s.bfinal = true →
    s.fsm = .blkend ∨ s.fsm = .done → steps n s = .next t →
    steps n { s with acc := x, cnt := c, inPos := p, inLen := l, inp := m } =
      .next { t with acc := x, cnt := c, inPos := p, inLen := l, inp := m }

/-! ### Decoding -/

/-- A step runs the decoded instruction, in the state after the instruction's own bits are read, for
every format and for a command word. The spec makes a whole dynamic header and a whole match one
element (R14, R270, R305): the steps that run one code-length symbol or one distance code alone, from a
state inside a header or a match, are the model's form (log entries 7 and 6), and no run from reset
makes them; that ASMSTART refuses a depth by running `pixel.unsupported` is too (log entry 20). -/
def Obligations.StepRunsTheDecodedInstruction : Prop :=
  ∀ (s u : State) (i : Instr), Selects s i u → step s = exec i u

/-- R172: decoding the encoding of a well-formed instruction gives it back, and the encoding is a value of
the instruction's format. -/
def Obligations.DecodeInvertsEncode : Prop :=
  ∀ i : Instr, i.WellFormed → encode i < 2 ^ i.format.width ∧ decode i.format (encode i) = .ok i

/-- R172: what the decoder reads is well formed and of the format it was read in, and its encoding is the
value it was read from; of a command word, its bits 3:0. -/
def Obligations.EncodeInvertsDecode : Prop :=
  ∀ (f : Format) (v : Nat) (i : Instr), decode f v = .ok i →
    i.WellFormed ∧ i.format = f ∧ encode i = if f = .cmdword then v % 16 else v

/-- R120..R123, R126, R141: a header or a code of the fixed tables written to the stream bit by bit is the
instruction the machine runs: a header's fields, a symbol of the fixed literal/length code, a distance
code of the fixed code. A distance code is no element of the spec's but a part of SYMBOL's (R14, R305):
the step that runs one alone, from a state inside a match, is the model's form (log entry 6). -/
def Obligations.StreamBitsSelectTheInstruction : Prop :=
  ∀ (i : Instr) (bits : List Bool) (s : State), i.WellFormed → encodeBits i = some bits →
    (i.format = .zhdr → AtElement s .zhdr → s.CanRead 16 → BeginsWith s bits →
      step s = exec i (s.afterRead 16 16)) ∧
    (i.format = .blkhdr → AtElement s .blkhdr → s.CanRead 3 → BeginsWith s bits →
      step s = exec i { s.afterRead 3 3 with bfinal := s.nextBit 0 }) ∧
    (i.format = .stored → AtElement s .stored → s.BitsOk → s.align.CanRead 32 → BeginsWith s.align bits →
      step s = exec i (s.align.afterRead 32 32)) ∧
    (i.format = .dynhdr → AtElement s .dynhdr → s.dyn.hlit = 0 → s.CanRead 14 → BeginsWith s bits →
      step s = exec i (s.afterRead 14 14)) ∧
    (i.format = .sym → AtElement s .symbol → s.matchLen = 0 → s.llt = fixedLitTable → s.CanRead 9 →
      BeginsWith s bits → step s = exec i (s.afterRead 9 bits.length)) ∧
    (i.format = .dcode → AtElement s .symbol → s.matchLen ≠ 0 → s.dt = fixedDistTable → s.CanRead 5 →
      BeginsWith s bits → step s = exec i (s.afterRead 5 5))

/-- Words written out from the encodings of 30_encoding.md R120..R129 and R172 decode to what they stand
for. -/
def Obligations.WrittenOutWordsDecode : Prop :=
  decode .zhdr 0x0178 = .ok (.zhdr 0x78 0x01) ∧ decode .zhdr 0x2078 = .ok (.zhdrBad 0x78 0x20) ∧
  decode .blkhdr 0b011 = .ok (.blockFixed true) ∧ decode .blkhdr 0b100 = .ok (.blockDynamic false) ∧
  decode .stored 0xFFED0012 = .ok (.stored 0x0012 0xFFED) ∧
  decode .dynhdr 0b1110_00001_00001 = .ok (.dynhdr 1 1 14) ∧
  decode .clsym 18 = .ok .clRep18 ∧ decode .sym 97 = .ok (.lit 0x61) ∧ decode .sym 285 = .ok .len285 ∧
  decode .dcode 29 = .ok .dist29 ∧ decode .row 4 = .ok .rowPaeth ∧ decode .pixel 0x0608 = .ok .pixelRgba ∧
  decode .cmdword 0xFFFFFFFF = .ok .cmdSoftReset
end

