-- ==== Sys2Proof/Laws/State.lean ====
section
/-! SUPPORT. One lemma per field of State and named update, so that no proof unfolds a record update. -/

namespace Sys2Proof.Machine

/-! ### Dropping bits, aligning, block flags, scratch -/

@[simp] theorem State.dropBits_status (s : State) (n : Nat) : (s.dropBits n).status = s.status := rfl
@[simp] theorem State.dropBits_errcode (s : State) (n : Nat) : (s.dropBits n).errcode = s.errcode := rfl
@[simp] theorem State.dropBits_ckptEn (s : State) (n : Nat) : (s.dropBits n).ckptEn = s.ckptEn := rfl
@[simp] theorem State.dropBits_inLen (s : State) (n : Nat) : (s.dropBits n).inLen = s.inLen := rfl
@[simp] theorem State.dropBits_width (s : State) (n : Nat) : (s.dropBits n).width = s.width := rfl
@[simp] theorem State.dropBits_height (s : State) (n : Nat) : (s.dropBits n).height = s.height := rfl
@[simp] theorem State.dropBits_format (s : State) (n : Nat) : (s.dropBits n).format = s.format := rfl
@[simp] theorem State.dropBits_palLen (s : State) (n : Nat) : (s.dropBits n).palLen = s.palLen := rfl
@[simp] theorem State.dropBits_fsm (s : State) (n : Nat) : (s.dropBits n).fsm = s.fsm := rfl
@[simp] theorem State.dropBits_susp (s : State) (n : Nat) : (s.dropBits n).susp = s.susp := rfl
@[simp] theorem State.dropBits_suspNext (s : State) (n : Nat) : (s.dropBits n).suspNext = s.suspNext := rfl
@[simp] theorem State.dropBits_inPos (s : State) (n : Nat) : (s.dropBits n).inPos = s.inPos := rfl
@[simp] theorem State.dropBits_acc (s : State) (n : Nat) : (s.dropBits n).acc = s.acc >>> n := rfl
@[simp] theorem State.dropBits_cnt (s : State) (n : Nat) : (s.dropBits n).cnt = s.cnt - n := rfl
@[simp] theorem State.dropBits_outLen (s : State) (n : Nat) : (s.dropBits n).outLen = s.outLen := rfl
@[simp] theorem State.dropBits_bfinal (s : State) (n : Nat) : (s.dropBits n).bfinal = s.bfinal := rfl
@[simp] theorem State.dropBits_btype (s : State) (n : Nat) : (s.dropBits n).btype = s.btype := rfl
@[simp] theorem State.dropBits_llt (s : State) (n : Nat) : (s.dropBits n).llt = s.llt := rfl
@[simp] theorem State.dropBits_dt (s : State) (n : Nat) : (s.dropBits n).dt = s.dt := rfl
@[simp] theorem State.dropBits_png (s : State) (n : Nat) : (s.dropBits n).png = s.png := rfl
@[simp] theorem State.dropBits_inp (s : State) (n : Nat) : (s.dropBits n).inp = s.inp := rfl
@[simp] theorem State.dropBits_out (s : State) (n : Nat) : (s.dropBits n).out = s.out := rfl
@[simp] theorem State.dropBits_pal (s : State) (n : Nat) : (s.dropBits n).pal = s.pal := rfl
@[simp] theorem State.dropBits_pix (s : State) (n : Nat) : (s.dropBits n).pix = s.pix := rfl
@[simp] theorem State.dropBits_caps (s : State) (n : Nat) : (s.dropBits n).caps = s.caps := rfl
@[simp] theorem State.dropBits_matchLen (s : State) (n : Nat) : (s.dropBits n).matchLen = s.matchLen := rfl
@[simp] theorem State.dropBits_dyn (s : State) (n : Nat) : (s.dropBits n).dyn = s.dyn := rfl
@[simp] theorem State.dropBits_draws (s : State) (n : Nat) : (s.dropBits n).draws = s.draws := rfl
@[simp] theorem State.dropBits_moves (s : State) (n : Nat) : (s.dropBits n).moves = s.moves := rfl
@[simp] theorem State.dropBits_hostData (s : State) (n : Nat) : (s.dropBits n).hostData = s.hostData := rfl

@[simp] theorem State.align_status (s : State) : (s.align).status = s.status := rfl
@[simp] theorem State.align_errcode (s : State) : (s.align).errcode = s.errcode := rfl
@[simp] theorem State.align_ckptEn (s : State) : (s.align).ckptEn = s.ckptEn := rfl
@[simp] theorem State.align_inLen (s : State) : (s.align).inLen = s.inLen := rfl
@[simp] theorem State.align_width (s : State) : (s.align).width = s.width := rfl
@[simp] theorem State.align_height (s : State) : (s.align).height = s.height := rfl
@[simp] theorem State.align_format (s : State) : (s.align).format = s.format := rfl
@[simp] theorem State.align_palLen (s : State) : (s.align).palLen = s.palLen := rfl
@[simp] theorem State.align_fsm (s : State) : (s.align).fsm = s.fsm := rfl
@[simp] theorem State.align_susp (s : State) : (s.align).susp = s.susp := rfl
@[simp] theorem State.align_suspNext (s : State) : (s.align).suspNext = s.suspNext := rfl
@[simp] theorem State.align_inPos (s : State) : (s.align).inPos = s.inPos := rfl
@[simp] theorem State.align_acc (s : State) : (s.align).acc = s.acc >>> (s.cnt % 8) := rfl
@[simp] theorem State.align_cnt (s : State) : (s.align).cnt = s.cnt - s.cnt % 8 := rfl
@[simp] theorem State.align_outLen (s : State) : (s.align).outLen = s.outLen := rfl
@[simp] theorem State.align_bfinal (s : State) : (s.align).bfinal = s.bfinal := rfl
@[simp] theorem State.align_btype (s : State) : (s.align).btype = s.btype := rfl
@[simp] theorem State.align_llt (s : State) : (s.align).llt = s.llt := rfl
@[simp] theorem State.align_dt (s : State) : (s.align).dt = s.dt := rfl
@[simp] theorem State.align_png (s : State) : (s.align).png = s.png := rfl
@[simp] theorem State.align_inp (s : State) : (s.align).inp = s.inp := rfl
@[simp] theorem State.align_out (s : State) : (s.align).out = s.out := rfl
@[simp] theorem State.align_pal (s : State) : (s.align).pal = s.pal := rfl
@[simp] theorem State.align_pix (s : State) : (s.align).pix = s.pix := rfl
@[simp] theorem State.align_caps (s : State) : (s.align).caps = s.caps := rfl
@[simp] theorem State.align_matchLen (s : State) : (s.align).matchLen = s.matchLen := rfl
@[simp] theorem State.align_dyn (s : State) : (s.align).dyn = s.dyn := rfl
@[simp] theorem State.align_draws (s : State) : (s.align).draws = s.draws := rfl
@[simp] theorem State.align_moves (s : State) : (s.align).moves = s.moves := rfl
@[simp] theorem State.align_hostData (s : State) : (s.align).hostData = s.hostData := rfl

@[simp] theorem State.setBlock_status (s : State) (f : Bool) (t : BitVec 2) : (s.setBlock f t).status = s.status := rfl
@[simp] theorem State.setBlock_errcode (s : State) (f : Bool) (t : BitVec 2) : (s.setBlock f t).errcode = s.errcode := rfl
@[simp] theorem State.setBlock_ckptEn (s : State) (f : Bool) (t : BitVec 2) : (s.setBlock f t).ckptEn = s.ckptEn := rfl
@[simp] theorem State.setBlock_inLen (s : State) (f : Bool) (t : BitVec 2) : (s.setBlock f t).inLen = s.inLen := rfl
@[simp] theorem State.setBlock_width (s : State) (f : Bool) (t : BitVec 2) : (s.setBlock f t).width = s.width := rfl
@[simp] theorem State.setBlock_height (s : State) (f : Bool) (t : BitVec 2) : (s.setBlock f t).height = s.height := rfl
@[simp] theorem State.setBlock_format (s : State) (f : Bool) (t : BitVec 2) : (s.setBlock f t).format = s.format := rfl
@[simp] theorem State.setBlock_palLen (s : State) (f : Bool) (t : BitVec 2) : (s.setBlock f t).palLen = s.palLen := rfl
@[simp] theorem State.setBlock_fsm (s : State) (f : Bool) (t : BitVec 2) : (s.setBlock f t).fsm = s.fsm := rfl
@[simp] theorem State.setBlock_susp (s : State) (f : Bool) (t : BitVec 2) : (s.setBlock f t).susp = s.susp := rfl
@[simp] theorem State.setBlock_suspNext (s : State) (f : Bool) (t : BitVec 2) : (s.setBlock f t).suspNext = s.suspNext := rfl
@[simp] theorem State.setBlock_inPos (s : State) (f : Bool) (t : BitVec 2) : (s.setBlock f t).inPos = s.inPos := rfl
@[simp] theorem State.setBlock_acc (s : State) (f : Bool) (t : BitVec 2) : (s.setBlock f t).acc = s.acc := rfl
@[simp] theorem State.setBlock_cnt (s : State) (f : Bool) (t : BitVec 2) : (s.setBlock f t).cnt = s.cnt := rfl
@[simp] theorem State.setBlock_outLen (s : State) (f : Bool) (t : BitVec 2) : (s.setBlock f t).outLen = s.outLen := rfl
@[simp] theorem State.setBlock_bfinal (s : State) (f : Bool) (t : BitVec 2) : (s.setBlock f t).bfinal = f := rfl
@[simp] theorem State.setBlock_btype (s : State) (f : Bool) (t : BitVec 2) : (s.setBlock f t).btype = t := rfl
@[simp] theorem State.setBlock_llt (s : State) (f : Bool) (t : BitVec 2) : (s.setBlock f t).llt = s.llt := rfl
@[simp] theorem State.setBlock_dt (s : State) (f : Bool) (t : BitVec 2) : (s.setBlock f t).dt = s.dt := rfl
@[simp] theorem State.setBlock_png (s : State) (f : Bool) (t : BitVec 2) : (s.setBlock f t).png = s.png := rfl
@[simp] theorem State.setBlock_inp (s : State) (f : Bool) (t : BitVec 2) : (s.setBlock f t).inp = s.inp := rfl
@[simp] theorem State.setBlock_out (s : State) (f : Bool) (t : BitVec 2) : (s.setBlock f t).out = s.out := rfl
@[simp] theorem State.setBlock_pal (s : State) (f : Bool) (t : BitVec 2) : (s.setBlock f t).pal = s.pal := rfl
@[simp] theorem State.setBlock_pix (s : State) (f : Bool) (t : BitVec 2) : (s.setBlock f t).pix = s.pix := rfl
@[simp] theorem State.setBlock_caps (s : State) (f : Bool) (t : BitVec 2) : (s.setBlock f t).caps = s.caps := rfl
@[simp] theorem State.setBlock_matchLen (s : State) (f : Bool) (t : BitVec 2) : (s.setBlock f t).matchLen = s.matchLen := rfl
@[simp] theorem State.setBlock_dyn (s : State) (f : Bool) (t : BitVec 2) : (s.setBlock f t).dyn = s.dyn := rfl
@[simp] theorem State.setBlock_draws (s : State) (f : Bool) (t : BitVec 2) : (s.setBlock f t).draws = s.draws := rfl
@[simp] theorem State.setBlock_moves (s : State) (f : Bool) (t : BitVec 2) : (s.setBlock f t).moves = s.moves := rfl
@[simp] theorem State.setBlock_hostData (s : State) (f : Bool) (t : BitVec 2) : (s.setBlock f t).hostData = s.hostData := rfl

@[simp] theorem State.dropScratch_status (s : State) : (s.dropScratch).status = s.status := rfl
@[simp] theorem State.dropScratch_errcode (s : State) : (s.dropScratch).errcode = s.errcode := rfl
@[simp] theorem State.dropScratch_ckptEn (s : State) : (s.dropScratch).ckptEn = s.ckptEn := rfl
@[simp] theorem State.dropScratch_inLen (s : State) : (s.dropScratch).inLen = s.inLen := rfl
@[simp] theorem State.dropScratch_width (s : State) : (s.dropScratch).width = s.width := rfl
@[simp] theorem State.dropScratch_height (s : State) : (s.dropScratch).height = s.height := rfl
@[simp] theorem State.dropScratch_format (s : State) : (s.dropScratch).format = s.format := rfl
@[simp] theorem State.dropScratch_palLen (s : State) : (s.dropScratch).palLen = s.palLen := rfl
@[simp] theorem State.dropScratch_fsm (s : State) : (s.dropScratch).fsm = s.fsm := rfl
@[simp] theorem State.dropScratch_susp (s : State) : (s.dropScratch).susp = s.susp := rfl
@[simp] theorem State.dropScratch_suspNext (s : State) : (s.dropScratch).suspNext = s.suspNext := rfl
@[simp] theorem State.dropScratch_inPos (s : State) : (s.dropScratch).inPos = s.inPos := rfl
@[simp] theorem State.dropScratch_acc (s : State) : (s.dropScratch).acc = s.acc := rfl
@[simp] theorem State.dropScratch_cnt (s : State) : (s.dropScratch).cnt = s.cnt := rfl
@[simp] theorem State.dropScratch_outLen (s : State) : (s.dropScratch).outLen = s.outLen := rfl
@[simp] theorem State.dropScratch_bfinal (s : State) : (s.dropScratch).bfinal = s.bfinal := rfl
@[simp] theorem State.dropScratch_btype (s : State) : (s.dropScratch).btype = s.btype := rfl
@[simp] theorem State.dropScratch_llt (s : State) : (s.dropScratch).llt = s.llt := rfl
@[simp] theorem State.dropScratch_dt (s : State) : (s.dropScratch).dt = s.dt := rfl
@[simp] theorem State.dropScratch_png (s : State) : (s.dropScratch).png = s.png := rfl
@[simp] theorem State.dropScratch_inp (s : State) : (s.dropScratch).inp = s.inp := rfl
@[simp] theorem State.dropScratch_out (s : State) : (s.dropScratch).out = s.out := rfl
@[simp] theorem State.dropScratch_pal (s : State) : (s.dropScratch).pal = s.pal := rfl
@[simp] theorem State.dropScratch_pix (s : State) : (s.dropScratch).pix = s.pix := rfl
@[simp] theorem State.dropScratch_caps (s : State) : (s.dropScratch).caps = s.caps := rfl
@[simp] theorem State.dropScratch_matchLen (s : State) : (s.dropScratch).matchLen = 0 := rfl
@[simp] theorem State.dropScratch_dyn (s : State) : (s.dropScratch).dyn = DynScratch.empty := rfl
@[simp] theorem State.dropScratch_draws (s : State) : (s.dropScratch).draws = s.draws := rfl
@[simp] theorem State.dropScratch_moves (s : State) : (s.dropScratch).moves = s.moves := rfl
@[simp] theorem State.dropScratch_hostData (s : State) : (s.dropScratch).hostData = s.hostData := rfl

@[simp] theorem State.pushLengths_status (s : State) (n v : Nat) : (s.pushLengths n v).status = s.status := rfl
@[simp] theorem State.pushLengths_errcode (s : State) (n v : Nat) : (s.pushLengths n v).errcode = s.errcode := rfl
@[simp] theorem State.pushLengths_ckptEn (s : State) (n v : Nat) : (s.pushLengths n v).ckptEn = s.ckptEn := rfl
@[simp] theorem State.pushLengths_inLen (s : State) (n v : Nat) : (s.pushLengths n v).inLen = s.inLen := rfl
@[simp] theorem State.pushLengths_width (s : State) (n v : Nat) : (s.pushLengths n v).width = s.width := rfl
@[simp] theorem State.pushLengths_height (s : State) (n v : Nat) : (s.pushLengths n v).height = s.height := rfl
@[simp] theorem State.pushLengths_format (s : State) (n v : Nat) : (s.pushLengths n v).format = s.format := rfl
@[simp] theorem State.pushLengths_palLen (s : State) (n v : Nat) : (s.pushLengths n v).palLen = s.palLen := rfl
@[simp] theorem State.pushLengths_fsm (s : State) (n v : Nat) : (s.pushLengths n v).fsm = s.fsm := rfl
@[simp] theorem State.pushLengths_susp (s : State) (n v : Nat) : (s.pushLengths n v).susp = s.susp := rfl
@[simp] theorem State.pushLengths_suspNext (s : State) (n v : Nat) : (s.pushLengths n v).suspNext = s.suspNext := rfl
@[simp] theorem State.pushLengths_inPos (s : State) (n v : Nat) : (s.pushLengths n v).inPos = s.inPos := rfl
@[simp] theorem State.pushLengths_acc (s : State) (n v : Nat) : (s.pushLengths n v).acc = s.acc := rfl
@[simp] theorem State.pushLengths_cnt (s : State) (n v : Nat) : (s.pushLengths n v).cnt = s.cnt := rfl
@[simp] theorem State.pushLengths_outLen (s : State) (n v : Nat) : (s.pushLengths n v).outLen = s.outLen := rfl
@[simp] theorem State.pushLengths_bfinal (s : State) (n v : Nat) : (s.pushLengths n v).bfinal = s.bfinal := rfl
@[simp] theorem State.pushLengths_btype (s : State) (n v : Nat) : (s.pushLengths n v).btype = s.btype := rfl
@[simp] theorem State.pushLengths_llt (s : State) (n v : Nat) : (s.pushLengths n v).llt = s.llt := rfl
@[simp] theorem State.pushLengths_dt (s : State) (n v : Nat) : (s.pushLengths n v).dt = s.dt := rfl
@[simp] theorem State.pushLengths_png (s : State) (n v : Nat) : (s.pushLengths n v).png = s.png := rfl
@[simp] theorem State.pushLengths_inp (s : State) (n v : Nat) : (s.pushLengths n v).inp = s.inp := rfl
@[simp] theorem State.pushLengths_out (s : State) (n v : Nat) : (s.pushLengths n v).out = s.out := rfl
@[simp] theorem State.pushLengths_pal (s : State) (n v : Nat) : (s.pushLengths n v).pal = s.pal := rfl
@[simp] theorem State.pushLengths_pix (s : State) (n v : Nat) : (s.pushLengths n v).pix = s.pix := rfl
@[simp] theorem State.pushLengths_caps (s : State) (n v : Nat) : (s.pushLengths n v).caps = s.caps := rfl
@[simp] theorem State.pushLengths_matchLen (s : State) (n v : Nat) : (s.pushLengths n v).matchLen = s.matchLen := rfl
@[simp] theorem State.pushLengths_draws (s : State) (n v : Nat) : (s.pushLengths n v).draws = s.draws := rfl
@[simp] theorem State.pushLengths_moves (s : State) (n v : Nat) : (s.pushLengths n v).moves = s.moves := rfl
@[simp] theorem State.pushLengths_hostData (s : State) (n v : Nat) : (s.pushLengths n v).hostData = s.hostData := rfl
@[simp] theorem State.pushLengths_lens (s : State) (n v : Nat) :
    (s.pushLengths n v).dyn.lens = s.dyn.lens ++ List.replicate n v := rfl
@[simp] theorem State.pushLengths_hlit (s : State) (n v : Nat) : (s.pushLengths n v).dyn.hlit = s.dyn.hlit := rfl
@[simp] theorem State.pushLengths_hdist (s : State) (n v : Nat) : (s.pushLengths n v).dyn.hdist = s.dyn.hdist := rfl
@[simp] theorem State.pushLengths_clt (s : State) (n v : Nat) : (s.pushLengths n v).dyn.clt = s.dyn.clt := rfl

/-! ### The outputs an error leaves open, error entry, the end of a command -/

@[simp] theorem State.drawOutputs_status (s : State) : (s.drawOutputs).status = s.status := rfl
@[simp] theorem State.drawOutputs_errcode (s : State) : (s.drawOutputs).errcode = s.errcode := rfl
@[simp] theorem State.drawOutputs_ckptEn (s : State) : (s.drawOutputs).ckptEn = s.ckptEn := rfl
@[simp] theorem State.drawOutputs_inLen (s : State) : (s.drawOutputs).inLen = s.inLen := rfl
@[simp] theorem State.drawOutputs_width (s : State) : (s.drawOutputs).width = s.width := rfl
@[simp] theorem State.drawOutputs_height (s : State) : (s.drawOutputs).height = s.height := rfl
@[simp] theorem State.drawOutputs_format (s : State) : (s.drawOutputs).format = s.format := rfl
@[simp] theorem State.drawOutputs_palLen (s : State) : (s.drawOutputs).palLen = s.palLen := rfl
@[simp] theorem State.drawOutputs_fsm (s : State) : (s.drawOutputs).fsm = s.fsm := rfl
@[simp] theorem State.drawOutputs_susp (s : State) : (s.drawOutputs).susp = s.susp := rfl
@[simp] theorem State.drawOutputs_suspNext (s : State) : (s.drawOutputs).suspNext = s.suspNext := rfl
@[simp] theorem State.drawOutputs_inPos (s : State) : (s.drawOutputs).inPos = s.inPos := rfl
@[simp] theorem State.drawOutputs_acc (s : State) : (s.drawOutputs).acc = s.acc := rfl
@[simp] theorem State.drawOutputs_cnt (s : State) : (s.drawOutputs).cnt = s.cnt := rfl
@[simp] theorem State.drawOutputs_outLen (s : State) : (s.drawOutputs).outLen = (Config.freeWord s.draws).toNat := rfl
@[simp] theorem State.drawOutputs_bfinal (s : State) : (s.drawOutputs).bfinal = s.bfinal := rfl
@[simp] theorem State.drawOutputs_btype (s : State) : (s.drawOutputs).btype = s.btype := rfl
@[simp] theorem State.drawOutputs_llt (s : State) : (s.drawOutputs).llt = s.llt := rfl
@[simp] theorem State.drawOutputs_dt (s : State) : (s.drawOutputs).dt = s.dt := rfl
@[simp] theorem State.drawOutputs_png (s : State) : (s.drawOutputs).png = s.png := rfl
@[simp] theorem State.drawOutputs_inp (s : State) : (s.drawOutputs).inp = s.inp := rfl
@[simp] theorem State.drawOutputs_out (s : State) : (s.drawOutputs).out = Memory.drawn s.draws := rfl
@[simp] theorem State.drawOutputs_pal (s : State) : (s.drawOutputs).pal = s.pal := rfl
@[simp] theorem State.drawOutputs_pix (s : State) : (s.drawOutputs).pix = Memory.drawn s.draws := rfl
@[simp] theorem State.drawOutputs_caps (s : State) : (s.drawOutputs).caps = s.caps := rfl
@[simp] theorem State.drawOutputs_matchLen (s : State) : (s.drawOutputs).matchLen = s.matchLen := rfl
@[simp] theorem State.drawOutputs_dyn (s : State) : (s.drawOutputs).dyn = s.dyn := rfl
@[simp] theorem State.drawOutputs_draws (s : State) : (s.drawOutputs).draws = s.draws + 1 := rfl
@[simp] theorem State.drawOutputs_moves (s : State) : (s.drawOutputs).moves = s.moves := rfl
@[simp] theorem State.drawOutputs_hostData (s : State) : (s.drawOutputs).hostData = s.hostData := rfl

@[simp] theorem State.raise_status (s : State) (k : ErrorKind) : (s.raise k).status = { busy := false, done := false, err := true } := rfl
@[simp] theorem State.raise_errcode (s : State) (k : ErrorKind) : (s.raise k).errcode = k.code := rfl
@[simp] theorem State.raise_ckptEn (s : State) (k : ErrorKind) : (s.raise k).ckptEn = s.ckptEn := rfl
@[simp] theorem State.raise_inLen (s : State) (k : ErrorKind) : (s.raise k).inLen = s.inLen := rfl
@[simp] theorem State.raise_width (s : State) (k : ErrorKind) : (s.raise k).width = s.width := rfl
@[simp] theorem State.raise_height (s : State) (k : ErrorKind) : (s.raise k).height = s.height := rfl
@[simp] theorem State.raise_format (s : State) (k : ErrorKind) : (s.raise k).format = s.format := rfl
@[simp] theorem State.raise_palLen (s : State) (k : ErrorKind) : (s.raise k).palLen = s.palLen := rfl
@[simp] theorem State.raise_fsm (s : State) (k : ErrorKind) : (s.raise k).fsm = .error := rfl
@[simp] theorem State.raise_susp (s : State) (k : ErrorKind) : (s.raise k).susp = false := rfl
@[simp] theorem State.raise_suspNext (s : State) (k : ErrorKind) : (s.raise k).suspNext = s.suspNext := rfl
@[simp] theorem State.raise_inPos (s : State) (k : ErrorKind) : (s.raise k).inPos = s.inPos := rfl
@[simp] theorem State.raise_acc (s : State) (k : ErrorKind) : (s.raise k).acc = s.acc := rfl
@[simp] theorem State.raise_cnt (s : State) (k : ErrorKind) : (s.raise k).cnt = s.cnt := rfl
@[simp] theorem State.raise_outLen (s : State) (k : ErrorKind) : (s.raise k).outLen = (Config.freeWord s.draws).toNat := rfl
@[simp] theorem State.raise_bfinal (s : State) (k : ErrorKind) : (s.raise k).bfinal = s.bfinal := rfl
@[simp] theorem State.raise_btype (s : State) (k : ErrorKind) : (s.raise k).btype = s.btype := rfl
@[simp] theorem State.raise_llt (s : State) (k : ErrorKind) : (s.raise k).llt = s.llt := rfl
@[simp] theorem State.raise_dt (s : State) (k : ErrorKind) : (s.raise k).dt = s.dt := rfl
@[simp] theorem State.raise_png (s : State) (k : ErrorKind) : (s.raise k).png = s.png := rfl
@[simp] theorem State.raise_inp (s : State) (k : ErrorKind) : (s.raise k).inp = s.inp := rfl
@[simp] theorem State.raise_out (s : State) (k : ErrorKind) : (s.raise k).out = Memory.drawn s.draws := rfl
@[simp] theorem State.raise_pal (s : State) (k : ErrorKind) : (s.raise k).pal = s.pal := rfl
@[simp] theorem State.raise_pix (s : State) (k : ErrorKind) : (s.raise k).pix = Memory.drawn s.draws := rfl
@[simp] theorem State.raise_caps (s : State) (k : ErrorKind) : (s.raise k).caps = s.caps := rfl
@[simp] theorem State.raise_matchLen (s : State) (k : ErrorKind) : (s.raise k).matchLen = 0 := rfl
@[simp] theorem State.raise_dyn (s : State) (k : ErrorKind) : (s.raise k).dyn = DynScratch.empty := rfl
@[simp] theorem State.raise_draws (s : State) (k : ErrorKind) : (s.raise k).draws = s.draws + 1 := rfl
@[simp] theorem State.raise_moves (s : State) (k : ErrorKind) : (s.raise k).moves = s.moves := rfl
@[simp] theorem State.raise_hostData (s : State) (k : ErrorKind) : (s.raise k).hostData = s.hostData := rfl

@[simp] theorem State.finish_status (s : State) : (s.finish).status = { s.status with busy := false, done := true } := rfl
@[simp] theorem State.finish_errcode (s : State) : (s.finish).errcode = s.errcode := rfl
@[simp] theorem State.finish_ckptEn (s : State) : (s.finish).ckptEn = s.ckptEn := rfl
@[simp] theorem State.finish_inLen (s : State) : (s.finish).inLen = s.inLen := rfl
@[simp] theorem State.finish_width (s : State) : (s.finish).width = s.width := rfl
@[simp] theorem State.finish_height (s : State) : (s.finish).height = s.height := rfl
@[simp] theorem State.finish_format (s : State) : (s.finish).format = s.format := rfl
@[simp] theorem State.finish_palLen (s : State) : (s.finish).palLen = s.palLen := rfl
@[simp] theorem State.finish_fsm (s : State) : (s.finish).fsm = .done := rfl
@[simp] theorem State.finish_susp (s : State) : (s.finish).susp = false := rfl
@[simp] theorem State.finish_suspNext (s : State) : (s.finish).suspNext = s.suspNext := rfl
@[simp] theorem State.finish_inPos (s : State) : (s.finish).inPos = s.inPos := rfl
@[simp] theorem State.finish_acc (s : State) : (s.finish).acc = s.acc := rfl
@[simp] theorem State.finish_cnt (s : State) : (s.finish).cnt = s.cnt := rfl
@[simp] theorem State.finish_outLen (s : State) : (s.finish).outLen = s.outLen := rfl
@[simp] theorem State.finish_bfinal (s : State) : (s.finish).bfinal = s.bfinal := rfl
@[simp] theorem State.finish_btype (s : State) : (s.finish).btype = s.btype := rfl
@[simp] theorem State.finish_llt (s : State) : (s.finish).llt = s.llt := rfl
@[simp] theorem State.finish_dt (s : State) : (s.finish).dt = s.dt := rfl
@[simp] theorem State.finish_png (s : State) : (s.finish).png = s.png := rfl
@[simp] theorem State.finish_inp (s : State) : (s.finish).inp = s.inp := rfl
@[simp] theorem State.finish_out (s : State) : (s.finish).out = s.out := rfl
@[simp] theorem State.finish_pal (s : State) : (s.finish).pal = s.pal := rfl
@[simp] theorem State.finish_pix (s : State) : (s.finish).pix = s.pix := rfl
@[simp] theorem State.finish_caps (s : State) : (s.finish).caps = s.caps := rfl
@[simp] theorem State.finish_matchLen (s : State) : (s.finish).matchLen = s.matchLen := rfl
@[simp] theorem State.finish_dyn (s : State) : (s.finish).dyn = s.dyn := rfl
@[simp] theorem State.finish_draws (s : State) : (s.finish).draws = s.draws := rfl
@[simp] theorem State.finish_moves (s : State) : (s.finish).moves = s.moves := rfl
@[simp] theorem State.finish_hostData (s : State) : (s.finish).hostData = s.hostData := rfl

/-! ### Starting INFLATE, resetting -/

@[simp] theorem State.startInflate_status (s : State) : (s.startInflate).status = Status.running := rfl
@[simp] theorem State.startInflate_errcode (s : State) : (s.startInflate).errcode = 0 := rfl
@[simp] theorem State.startInflate_ckptEn (s : State) : (s.startInflate).ckptEn = s.ckptEn := rfl
@[simp] theorem State.startInflate_inLen (s : State) : (s.startInflate).inLen = s.inLen := rfl
@[simp] theorem State.startInflate_width (s : State) : (s.startInflate).width = s.width := rfl
@[simp] theorem State.startInflate_height (s : State) : (s.startInflate).height = s.height := rfl
@[simp] theorem State.startInflate_format (s : State) : (s.startInflate).format = s.format := rfl
@[simp] theorem State.startInflate_palLen (s : State) : (s.startInflate).palLen = s.palLen := rfl
@[simp] theorem State.startInflate_fsm (s : State) : (s.startInflate).fsm = s.fsm := rfl
@[simp] theorem State.startInflate_susp (s : State) : (s.startInflate).susp = false := rfl
@[simp] theorem State.startInflate_suspNext (s : State) : (s.startInflate).suspNext = s.suspNext := rfl
@[simp] theorem State.startInflate_inPos (s : State) : (s.startInflate).inPos = 0 := rfl
@[simp] theorem State.startInflate_acc (s : State) : (s.startInflate).acc = 0 := rfl
@[simp] theorem State.startInflate_cnt (s : State) : (s.startInflate).cnt = 0 := rfl
@[simp] theorem State.startInflate_outLen (s : State) : (s.startInflate).outLen = 0 := rfl
@[simp] theorem State.startInflate_bfinal (s : State) : (s.startInflate).bfinal = false := rfl
@[simp] theorem State.startInflate_btype (s : State) : (s.startInflate).btype = 0 := rfl
@[simp] theorem State.startInflate_llt (s : State) : (s.startInflate).llt = Table.empty := rfl
@[simp] theorem State.startInflate_dt (s : State) : (s.startInflate).dt = Table.empty := rfl
@[simp] theorem State.startInflate_png (s : State) : (s.startInflate).png = s.png := rfl
@[simp] theorem State.startInflate_inp (s : State) : (s.startInflate).inp = s.inp := rfl
@[simp] theorem State.startInflate_out (s : State) : (s.startInflate).out = s.out := rfl
@[simp] theorem State.startInflate_pal (s : State) : (s.startInflate).pal = s.pal := rfl
@[simp] theorem State.startInflate_pix (s : State) : (s.startInflate).pix = s.pix := rfl
@[simp] theorem State.startInflate_caps (s : State) : (s.startInflate).caps = s.caps := rfl
@[simp] theorem State.startInflate_matchLen (s : State) : (s.startInflate).matchLen = s.matchLen := rfl
@[simp] theorem State.startInflate_dyn (s : State) : (s.startInflate).dyn = s.dyn := rfl
@[simp] theorem State.startInflate_draws (s : State) : (s.startInflate).draws = s.draws := rfl
@[simp] theorem State.startInflate_moves (s : State) : (s.startInflate).moves = s.moves := rfl
@[simp] theorem State.startInflate_hostData (s : State) : (s.startInflate).hostData = s.hostData := rfl

@[simp] theorem State.resetRegisters_status (s : State) : (s.resetRegisters).status = State.reset.status := rfl
@[simp] theorem State.resetRegisters_errcode (s : State) : (s.resetRegisters).errcode = State.reset.errcode := rfl
@[simp] theorem State.resetRegisters_ckptEn (s : State) : (s.resetRegisters).ckptEn = State.reset.ckptEn := rfl
@[simp] theorem State.resetRegisters_inLen (s : State) : (s.resetRegisters).inLen = State.reset.inLen := rfl
@[simp] theorem State.resetRegisters_width (s : State) : (s.resetRegisters).width = State.reset.width := rfl
@[simp] theorem State.resetRegisters_height (s : State) : (s.resetRegisters).height = State.reset.height := rfl
@[simp] theorem State.resetRegisters_format (s : State) : (s.resetRegisters).format = State.reset.format := rfl
@[simp] theorem State.resetRegisters_palLen (s : State) : (s.resetRegisters).palLen = State.reset.palLen := rfl
@[simp] theorem State.resetRegisters_fsm (s : State) : (s.resetRegisters).fsm = State.reset.fsm := rfl
@[simp] theorem State.resetRegisters_susp (s : State) : (s.resetRegisters).susp = State.reset.susp := rfl
@[simp] theorem State.resetRegisters_suspNext (s : State) : (s.resetRegisters).suspNext = State.reset.suspNext := rfl
@[simp] theorem State.resetRegisters_inPos (s : State) : (s.resetRegisters).inPos = State.reset.inPos := rfl
@[simp] theorem State.resetRegisters_acc (s : State) : (s.resetRegisters).acc = State.reset.acc := rfl
@[simp] theorem State.resetRegisters_cnt (s : State) : (s.resetRegisters).cnt = State.reset.cnt := rfl
@[simp] theorem State.resetRegisters_outLen (s : State) : (s.resetRegisters).outLen = State.reset.outLen := rfl
@[simp] theorem State.resetRegisters_bfinal (s : State) : (s.resetRegisters).bfinal = State.reset.bfinal := rfl
@[simp] theorem State.resetRegisters_btype (s : State) : (s.resetRegisters).btype = State.reset.btype := rfl
@[simp] theorem State.resetRegisters_llt (s : State) : (s.resetRegisters).llt = State.reset.llt := rfl
@[simp] theorem State.resetRegisters_dt (s : State) : (s.resetRegisters).dt = State.reset.dt := rfl
@[simp] theorem State.resetRegisters_png (s : State) : (s.resetRegisters).png = State.reset.png := rfl
@[simp] theorem State.resetRegisters_inp (s : State) : (s.resetRegisters).inp = s.inp := rfl
@[simp] theorem State.resetRegisters_out (s : State) : (s.resetRegisters).out = s.out := rfl
@[simp] theorem State.resetRegisters_pal (s : State) : (s.resetRegisters).pal = s.pal := rfl
@[simp] theorem State.resetRegisters_pix (s : State) : (s.resetRegisters).pix = s.pix := rfl
@[simp] theorem State.resetRegisters_caps (s : State) : (s.resetRegisters).caps = s.caps := rfl
@[simp] theorem State.resetRegisters_matchLen (s : State) : (s.resetRegisters).matchLen = State.reset.matchLen := rfl
@[simp] theorem State.resetRegisters_dyn (s : State) : (s.resetRegisters).dyn = State.reset.dyn := rfl
@[simp] theorem State.resetRegisters_draws (s : State) : (s.resetRegisters).draws = s.draws := rfl
@[simp] theorem State.resetRegisters_moves (s : State) : (s.resetRegisters).moves = s.moves := rfl
@[simp] theorem State.resetRegisters_hostData (s : State) : (s.resetRegisters).hostData = s.hostData := rfl

@[simp] theorem State.latchHeader_status (s : State) : (s.latchHeader).status = s.status := rfl
@[simp] theorem State.latchHeader_errcode (s : State) : (s.latchHeader).errcode = s.errcode := rfl
@[simp] theorem State.latchHeader_ckptEn (s : State) : (s.latchHeader).ckptEn = s.ckptEn := rfl
@[simp] theorem State.latchHeader_inLen (s : State) : (s.latchHeader).inLen = s.inLen := rfl
@[simp] theorem State.latchHeader_width (s : State) : (s.latchHeader).width = s.width := rfl
@[simp] theorem State.latchHeader_height (s : State) : (s.latchHeader).height = s.height := rfl
@[simp] theorem State.latchHeader_format (s : State) : (s.latchHeader).format = s.format := rfl
@[simp] theorem State.latchHeader_palLen (s : State) : (s.latchHeader).palLen = s.palLen := rfl
@[simp] theorem State.latchHeader_fsm (s : State) : (s.latchHeader).fsm = s.fsm := rfl
@[simp] theorem State.latchHeader_susp (s : State) : (s.latchHeader).susp = s.susp := rfl
@[simp] theorem State.latchHeader_suspNext (s : State) : (s.latchHeader).suspNext = s.suspNext := rfl
@[simp] theorem State.latchHeader_inPos (s : State) : (s.latchHeader).inPos = s.inPos := rfl
@[simp] theorem State.latchHeader_acc (s : State) : (s.latchHeader).acc = s.acc := rfl
@[simp] theorem State.latchHeader_cnt (s : State) : (s.latchHeader).cnt = s.cnt := rfl
@[simp] theorem State.latchHeader_outLen (s : State) : (s.latchHeader).outLen = s.outLen := rfl
@[simp] theorem State.latchHeader_bfinal (s : State) : (s.latchHeader).bfinal = s.bfinal := rfl
@[simp] theorem State.latchHeader_btype (s : State) : (s.latchHeader).btype = s.btype := rfl
@[simp] theorem State.latchHeader_llt (s : State) : (s.latchHeader).llt = s.llt := rfl
@[simp] theorem State.latchHeader_dt (s : State) : (s.latchHeader).dt = s.dt := rfl
@[simp] theorem State.latchHeader_png (s : State) : (s.latchHeader).png = { s.png with w := s.width.toNat, h := s.height.toNat, depth := s.format.depth, ctype := s.format.ctype } := rfl
@[simp] theorem State.latchHeader_inp (s : State) : (s.latchHeader).inp = s.inp := rfl
@[simp] theorem State.latchHeader_out (s : State) : (s.latchHeader).out = s.out := rfl
@[simp] theorem State.latchHeader_pal (s : State) : (s.latchHeader).pal = s.pal := rfl
@[simp] theorem State.latchHeader_pix (s : State) : (s.latchHeader).pix = s.pix := rfl
@[simp] theorem State.latchHeader_caps (s : State) : (s.latchHeader).caps = s.caps := rfl
@[simp] theorem State.latchHeader_matchLen (s : State) : (s.latchHeader).matchLen = s.matchLen := rfl
@[simp] theorem State.latchHeader_dyn (s : State) : (s.latchHeader).dyn = s.dyn := rfl
@[simp] theorem State.latchHeader_draws (s : State) : (s.latchHeader).draws = s.draws := rfl
@[simp] theorem State.latchHeader_moves (s : State) : (s.latchHeader).moves = s.moves := rfl
@[simp] theorem State.latchHeader_hostData (s : State) : (s.latchHeader).hostData = s.hostData := rfl

@[simp] theorem State.latchDerived_status (s : State) : (s.latchDerived).status = s.status := rfl
@[simp] theorem State.latchDerived_errcode (s : State) : (s.latchDerived).errcode = s.errcode := rfl
@[simp] theorem State.latchDerived_ckptEn (s : State) : (s.latchDerived).ckptEn = s.ckptEn := rfl
@[simp] theorem State.latchDerived_inLen (s : State) : (s.latchDerived).inLen = s.inLen := rfl
@[simp] theorem State.latchDerived_width (s : State) : (s.latchDerived).width = s.width := rfl
@[simp] theorem State.latchDerived_height (s : State) : (s.latchDerived).height = s.height := rfl
@[simp] theorem State.latchDerived_format (s : State) : (s.latchDerived).format = s.format := rfl
@[simp] theorem State.latchDerived_palLen (s : State) : (s.latchDerived).palLen = s.palLen := rfl
@[simp] theorem State.latchDerived_fsm (s : State) : (s.latchDerived).fsm = s.fsm := rfl
@[simp] theorem State.latchDerived_susp (s : State) : (s.latchDerived).susp = s.susp := rfl
@[simp] theorem State.latchDerived_suspNext (s : State) : (s.latchDerived).suspNext = s.suspNext := rfl
@[simp] theorem State.latchDerived_inPos (s : State) : (s.latchDerived).inPos = s.inPos := rfl
@[simp] theorem State.latchDerived_acc (s : State) : (s.latchDerived).acc = s.acc := rfl
@[simp] theorem State.latchDerived_cnt (s : State) : (s.latchDerived).cnt = s.cnt := rfl
@[simp] theorem State.latchDerived_outLen (s : State) : (s.latchDerived).outLen = s.outLen := rfl
@[simp] theorem State.latchDerived_bfinal (s : State) : (s.latchDerived).bfinal = s.bfinal := rfl
@[simp] theorem State.latchDerived_btype (s : State) : (s.latchDerived).btype = s.btype := rfl
@[simp] theorem State.latchDerived_llt (s : State) : (s.latchDerived).llt = s.llt := rfl
@[simp] theorem State.latchDerived_dt (s : State) : (s.latchDerived).dt = s.dt := rfl
@[simp] theorem State.latchDerived_png (s : State) : (s.latchDerived).png = s.png.derive (paletteEntries s.format.palPresent s.palLen.toNat) := rfl
@[simp] theorem State.latchDerived_inp (s : State) : (s.latchDerived).inp = s.inp := rfl
@[simp] theorem State.latchDerived_out (s : State) : (s.latchDerived).out = s.out := rfl
@[simp] theorem State.latchDerived_pal (s : State) : (s.latchDerived).pal = s.pal := rfl
@[simp] theorem State.latchDerived_pix (s : State) : (s.latchDerived).pix = s.pix := rfl
@[simp] theorem State.latchDerived_caps (s : State) : (s.latchDerived).caps = s.caps := rfl
@[simp] theorem State.latchDerived_matchLen (s : State) : (s.latchDerived).matchLen = s.matchLen := rfl
@[simp] theorem State.latchDerived_dyn (s : State) : (s.latchDerived).dyn = s.dyn := rfl
@[simp] theorem State.latchDerived_draws (s : State) : (s.latchDerived).draws = s.draws := rfl
@[simp] theorem State.latchDerived_moves (s : State) : (s.latchDerived).moves = s.moves := rfl
@[simp] theorem State.latchDerived_hostData (s : State) : (s.latchDerived).hostData = s.hostData := rfl

/-! ### A byte put into a memory: no register changes -/

@[simp] theorem State.putByte_status (s : State) (sp : Space) (a : Nat) (b : Byte) :
    (s.putByte sp a b).status = s.status := by cases sp <;> rfl
@[simp] theorem State.putByte_errcode (s : State) (sp : Space) (a : Nat) (b : Byte) :
    (s.putByte sp a b).errcode = s.errcode := by cases sp <;> rfl
@[simp] theorem State.putByte_ckptEn (s : State) (sp : Space) (a : Nat) (b : Byte) :
    (s.putByte sp a b).ckptEn = s.ckptEn := by cases sp <;> rfl
@[simp] theorem State.putByte_inLen (s : State) (sp : Space) (a : Nat) (b : Byte) :
    (s.putByte sp a b).inLen = s.inLen := by cases sp <;> rfl
@[simp] theorem State.putByte_width (s : State) (sp : Space) (a : Nat) (b : Byte) :
    (s.putByte sp a b).width = s.width := by cases sp <;> rfl
@[simp] theorem State.putByte_height (s : State) (sp : Space) (a : Nat) (b : Byte) :
    (s.putByte sp a b).height = s.height := by cases sp <;> rfl
@[simp] theorem State.putByte_format (s : State) (sp : Space) (a : Nat) (b : Byte) :
    (s.putByte sp a b).format = s.format := by cases sp <;> rfl
@[simp] theorem State.putByte_palLen (s : State) (sp : Space) (a : Nat) (b : Byte) :
    (s.putByte sp a b).palLen = s.palLen := by cases sp <;> rfl
@[simp] theorem State.putByte_fsm (s : State) (sp : Space) (a : Nat) (b : Byte) :
    (s.putByte sp a b).fsm = s.fsm := by cases sp <;> rfl
@[simp] theorem State.putByte_susp (s : State) (sp : Space) (a : Nat) (b : Byte) :
    (s.putByte sp a b).susp = s.susp := by cases sp <;> rfl
@[simp] theorem State.putByte_suspNext (s : State) (sp : Space) (a : Nat) (b : Byte) :
    (s.putByte sp a b).suspNext = s.suspNext := by cases sp <;> rfl
@[simp] theorem State.putByte_inPos (s : State) (sp : Space) (a : Nat) (b : Byte) :
    (s.putByte sp a b).inPos = s.inPos := by cases sp <;> rfl
@[simp] theorem State.putByte_acc (s : State) (sp : Space) (a : Nat) (b : Byte) :
    (s.putByte sp a b).acc = s.acc := by cases sp <;> rfl
@[simp] theorem State.putByte_cnt (s : State) (sp : Space) (a : Nat) (b : Byte) :
    (s.putByte sp a b).cnt = s.cnt := by cases sp <;> rfl
@[simp] theorem State.putByte_outLen (s : State) (sp : Space) (a : Nat) (b : Byte) :
    (s.putByte sp a b).outLen = s.outLen := by cases sp <;> rfl
@[simp] theorem State.putByte_bfinal (s : State) (sp : Space) (a : Nat) (b : Byte) :
    (s.putByte sp a b).bfinal = s.bfinal := by cases sp <;> rfl
@[simp] theorem State.putByte_btype (s : State) (sp : Space) (a : Nat) (b : Byte) :
    (s.putByte sp a b).btype = s.btype := by cases sp <;> rfl
@[simp] theorem State.putByte_llt (s : State) (sp : Space) (a : Nat) (b : Byte) :
    (s.putByte sp a b).llt = s.llt := by cases sp <;> rfl
@[simp] theorem State.putByte_dt (s : State) (sp : Space) (a : Nat) (b : Byte) :
    (s.putByte sp a b).dt = s.dt := by cases sp <;> rfl
@[simp] theorem State.putByte_png (s : State) (sp : Space) (a : Nat) (b : Byte) :
    (s.putByte sp a b).png = s.png := by cases sp <;> rfl
@[simp] theorem State.putByte_caps (s : State) (sp : Space) (a : Nat) (b : Byte) :
    (s.putByte sp a b).caps = s.caps := by cases sp <;> rfl
@[simp] theorem State.putByte_matchLen (s : State) (sp : Space) (a : Nat) (b : Byte) :
    (s.putByte sp a b).matchLen = s.matchLen := by cases sp <;> rfl
@[simp] theorem State.putByte_dyn (s : State) (sp : Space) (a : Nat) (b : Byte) :
    (s.putByte sp a b).dyn = s.dyn := by cases sp <;> rfl
@[simp] theorem State.putByte_draws (s : State) (sp : Space) (a : Nat) (b : Byte) :
    (s.putByte sp a b).draws = s.draws := by cases sp <;> rfl
@[simp] theorem State.putByte_moves (s : State) (sp : Space) (a : Nat) (b : Byte) :
    (s.putByte sp a b).moves = s.moves := by cases sp <;> rfl
@[simp] theorem State.putByte_hostData (s : State) (sp : Space) (a : Nat) (b : Byte) :
    (s.putByte sp a b).hostData = s.hostData := by cases sp <;> rfl

/-! ### Memories by space -/

@[simp] theorem State.mem_inp (s : State) : s.mem .inp = s.inp := rfl
@[simp] theorem State.mem_out (s : State) : s.mem .out = s.out := rfl
@[simp] theorem State.mem_pal (s : State) : s.mem .pal = s.pal := rfl
@[simp] theorem State.mem_pix (s : State) : s.mem .pix = s.pix := rfl

theorem State.mem_setMem (s : State) (sp tp : Space) (m : Memory) :
    (s.setMem sp m).mem tp = if tp = sp then m else s.mem tp := by
  cases sp <;> cases tp <;> rfl

theorem State.mem_putByte (s : State) (sp tp : Space) (a : Nat) (b : Byte) :
    (s.putByte sp a b).mem tp = if tp = sp then (s.mem sp).write a b else s.mem tp := by
  rw [State.putByte, State.mem_setMem]

end Sys2Proof.Machine
end

