-- ==== Sys2Proof/Laws/Memory.lean ====
section
/-! SUPPORT. The laws of a memory: every operation keeps the canonical form, a read after a write gives
the byte written, and a write leaves every other address alone. -/

namespace Sys2Proof.Machine

/-- An address in a written list is the one written or was there before. -/
theorem mem_insertCell {a : Nat} {b : Byte} {c : Host.Cell} {l : List Host.Cell}
    (h : c ∈ insertCell a b l) : c = (a, b) ∨ c ∈ l := by
  induction l with
  | nil => simp_all [insertCell]
  | cons d rest ih =>
    unfold insertCell at h
    split at h
    · simpa using h
    · split at h
      · rcases List.mem_cons.1 h with h | h
        · exact .inl h
        · exact .inr (List.mem_cons_of_mem _ h)
      · rcases List.mem_cons.1 h with h | h
        · exact .inr (h ▸ List.mem_cons_self)
        · exact (ih h).imp id (List.mem_cons_of_mem _)

/-- Writing keeps addresses strictly rising. -/
theorem insertCell_rises {a : Nat} {b : Byte} {l : List Host.Cell}
    (h : l.Pairwise (fun c d => c.1 < d.1)) : (insertCell a b l).Pairwise (fun c d => c.1 < d.1) := by
  induction l with
  | nil => simp [insertCell]
  | cons d rest ih =>
    obtain ⟨hd, hr⟩ := List.pairwise_cons.1 h
    unfold insertCell
    split
    · rename_i lt
      refine List.pairwise_cons.2 ⟨fun c hc => ?_, h⟩
      rcases List.mem_cons.1 hc with rfl | hc
      · exact lt
      · exact Nat.lt_trans lt (hd c hc)
    · split
      · rename_i eq
        exact List.pairwise_cons.2 ⟨fun c hc => by rw [eq]; exact hd c hc, hr⟩
      · refine List.pairwise_cons.2 ⟨fun c hc => ?_, ih hr⟩
        rcases mem_insertCell hc with rfl | hc
        · simp only; omega
        · exact hd c hc

/-- A read after a write to the same address gives the byte written. -/
theorem lookupCell_insertCell_same (a : Nat) (b : Byte) (l : List Host.Cell) :
    lookupCell a (insertCell a b l) = some b := by
  induction l with
  | nil => simp [insertCell, lookupCell]
  | cons d rest ih =>
    unfold insertCell
    split
    · simp [lookupCell]
    · split
      · simp [lookupCell]
      · rename_i ne; simp [lookupCell, ne, ih]

/-- A write leaves every other address alone. -/
theorem lookupCell_insertCell_other {a x : Nat} (b : Byte) (l : List Host.Cell) (h : x ≠ a) :
    lookupCell x (insertCell a b l) = lookupCell x l := by
  induction l with
  | nil => simp [insertCell, lookupCell, h]
  | cons d rest ih =>
    unfold insertCell
    split
    · simp [lookupCell, h]
    · split
      · rename_i eq; subst eq; simp [lookupCell, h]
      · simp only [lookupCell, ih]

@[simp] theorem Memory.write_draw (m : Memory) (a : Nat) (b : Byte) : (m.write a b).draw = m.draw := rfl

theorem Memory.write_wf {m : Memory} (h : m.wf) (a : Nat) (b : Byte) : (m.write a b).wf :=
  insertCell_rises h

theorem Memory.drawn_wf (d : Nat) : (Memory.drawn d).wf := List.Pairwise.nil

theorem Memory.drawn_below (d cap : Nat) : (Memory.drawn d).below cap := by
  intro c h; cases h

theorem Memory.write_below {m : Memory} {cap a : Nat} (h : m.below cap) (ha : a < cap) (b : Byte) :
    (m.write a b).below cap := by
  intro c hc
  rcases mem_insertCell hc with rfl | hc
  · exact ha
  · exact h c hc

theorem Memory.read_write_same (m : Memory) (sp : Space) (a : Nat) (b : Byte) :
    (m.write a b).read sp a = b := by
  simp [Memory.read, Memory.write, lookupCell_insertCell_same]

theorem Memory.read_write_other (m : Memory) (sp : Space) {a x : Nat} (b : Byte) (h : x ≠ a) :
    (m.write a b).read sp x = m.read sp x := by
  simp [Memory.read, Memory.write, Memory.unlisted, lookupCell_insertCell_other b m.cells h]

/-- A byte read after a byte put into any space. -/
theorem State.byteAt_putByte (s : State) (sp tp : Space) (a x : Nat) (b : Byte) :
    (s.putByte sp a b).byteAt tp x = if tp = sp ∧ x = a then b else s.byteAt tp x := by
  unfold State.byteAt
  rw [State.mem_putByte]
  by_cases ht : tp = sp
  · subst ht
    by_cases hx : x = a
    · subst hx; simp [Memory.read_write_same]
    · simp [hx, Memory.read_write_other _ _ b hx]
  · simp [ht]

theorem State.byteAt_putByte_same (s : State) (sp : Space) (a : Nat) (b : Byte) :
    (s.putByte sp a b).byteAt sp a = b := by simp [State.byteAt_putByte]

theorem State.byteAt_putByte_other (s : State) (sp : Space) {a x : Nat} (b : Byte) (h : x ≠ a) :
    (s.putByte sp a b).byteAt sp x = s.byteAt sp x := by simp [State.byteAt_putByte, h]

/-- Two states with the same memories hold the same bytes. -/
theorem State.byteAt_congr {s t : State} {sp : Space} (h : t.mem sp = s.mem sp) (a : Nat) :
    t.byteAt sp a = s.byteAt sp a := by
  unfold State.byteAt; rw [h]

/-- A byte put at an address the space has keeps the memories' invariant. -/
theorem State.MemsOk.putByte {s : State} (h : s.MemsOk) {sp : Space} {a : Nat} (ha : a < s.caps.size sp)
    (b : Byte) : (s.putByte sp a b).MemsOk where
  wf tp := by
    rw [State.mem_putByte]; split
    · exact Memory.write_wf (h.wf sp) a b
    · exact h.wf tp
  below tp := by
    rw [State.mem_putByte, State.putByte_caps]; split
    · rename_i e; subst e; exact Memory.write_below (h.below _) ha b
    · exact h.below tp
  drawn tp := by
    rw [State.mem_putByte, State.putByte_draws]; split
    · exact h.drawn sp
    · exact h.drawn tp

end Sys2Proof.Machine
end

