-- ==== Sys2Proof/Laws/Reader.lean ====
section
/-! SUPPORT. The BitReader: what Refill, GetBits, GetCode and Align do, said once in terms of the bits of
the stream that are still to be read (40_bitreader.md). -/

namespace Sys2Proof.Machine

/-! ### Fields -/

theorem State.field_lt (s : State) (k n : Nat) : s.field k n < 2 ^ n := by
  induction n generalizing k with
  | zero => simp [State.field]
  | succ n ih =>
    have h := ih (k + 1)
    have hb := Bool.toNat_le (s.nextBit k)
    simp only [State.field, Nat.pow_succ]
    omega

/-- Bit `i` of a field is the `i`-th stream bit of it. -/
theorem State.field_testBit (s : State) (k n i : Nat) :
    (s.field k n).testBit i = (decide (i < n) && s.nextBit (k + i)) := by
  induction n generalizing k i with
  | zero => simp [State.field]
  | succ n ih =>
    simp only [State.field]
    cases i with
    | zero => cases s.nextBit k <;> simp
    | succ i =>
      rw [Nat.testBit_succ]
      have : ((s.nextBit k).toNat + 2 * s.field (k + 1) n) / 2 = s.field (k + 1) n := by
        have hb := Bool.toNat_le (s.nextBit k)
        omega
      rw [this, ih, show k + 1 + i = k + (i + 1) by omega]
      simp

/-- Two states with the same bits ahead have the same fields ahead. -/
theorem State.field_congr {s t : State} {d : Nat} (h : ∀ k, t.nextBit k = s.nextBit (d + k)) (k n : Nat) :
    t.field k n = s.field (d + k) n := by
  induction n generalizing k with
  | zero => rfl
  | succ n ih => simp only [State.field, h k, ih (k + 1), Nat.add_assoc]

theorem State.field_low (s : State) (k n m : Nat) (h : n ≤ m) : s.field k m % 2 ^ n = s.field k n := by
  apply Nat.eq_of_testBit_eq
  intro i
  simp only [Nat.testBit_mod_two_pow, State.field_testBit]
  by_cases hi : i < n <;> simp [hi]
  intro _; omega

/-! ### The buffered bits -/

/-- Under the BitReader invariant `acc` is the field of the buffered bits. -/
theorem State.BitsOk.acc_eq {s : State} (h : s.BitsOk) : s.acc.toNat = s.field 0 s.cnt := by
  apply Nat.eq_of_testBit_eq
  intro i
  rw [State.field_testBit, Nat.zero_add]
  by_cases hi : i < s.cnt
  · simp [hi, State.nextBit, BitVec.getLsbD]
  · simp only [hi, decide_false, Bool.false_and]
    exact Nat.testBit_lt_two_pow (Nat.lt_of_lt_of_le h.accBound (Nat.pow_le_pow_right (by omega) (by omega)))

theorem State.BitsOk.lowBits_eq {s : State} (h : s.BitsOk) {n : Nat} (hn : n ≤ s.cnt) :
    s.lowBits n = s.field 0 n := by
  rw [State.lowBits, h.acc_eq, State.field_low _ _ _ _ hn]

/-! ### The state after a read -/

@[simp] theorem State.afterRead_cnt (s : State) (want n : Nat) :
    (s.afterRead want n).cnt = s.cnt + 8 * s.fetches want - n := rfl
@[simp] theorem State.afterRead_inPos (s : State) (want n : Nat) :
    (s.afterRead want n).inPos = s.inPos + s.fetches want := rfl
@[simp] theorem State.afterRead_inp (s : State) (want n : Nat) : (s.afterRead want n).inp = s.inp := rfl
@[simp] theorem State.afterRead_out (s : State) (want n : Nat) : (s.afterRead want n).out = s.out := rfl
@[simp] theorem State.afterRead_pix (s : State) (want n : Nat) : (s.afterRead want n).pix = s.pix := rfl
@[simp] theorem State.afterRead_pal (s : State) (want n : Nat) : (s.afterRead want n).pal = s.pal := rfl
@[simp] theorem State.afterRead_inLen (s : State) (want n : Nat) : (s.afterRead want n).inLen = s.inLen := rfl
@[simp] theorem State.afterRead_caps (s : State) (want n : Nat) : (s.afterRead want n).caps = s.caps := rfl
@[simp] theorem State.afterRead_outLen (s : State) (want n : Nat) : (s.afterRead want n).outLen = s.outLen := rfl
@[simp] theorem State.afterRead_dyn (s : State) (want n : Nat) : (s.afterRead want n).dyn = s.dyn := rfl
@[simp] theorem State.afterRead_llt (s : State) (want n : Nat) : (s.afterRead want n).llt = s.llt := rfl
@[simp] theorem State.afterRead_dt (s : State) (want n : Nat) : (s.afterRead want n).dt = s.dt := rfl
@[simp] theorem State.afterRead_matchLen (s : State) (want n : Nat) :
    (s.afterRead want n).matchLen = s.matchLen := rfl
@[simp] theorem State.afterRead_fsm (s : State) (want n : Nat) : (s.afterRead want n).fsm = s.fsm := rfl
@[simp] theorem State.afterRead_mem (s : State) (want n : Nat) (sp : Space) :
    (s.afterRead want n).mem sp = s.mem sp := by cases sp <;> rfl
@[simp] theorem State.afterRead_inBit (s : State) (want n k : Nat) :
    (s.afterRead want n).inBit k = s.inBit k := rfl

/-- Refill fetches enough bits, and no more than 7 too many. -/
theorem State.fetches_enough (s : State) (n : Nat) : n ≤ s.cnt + 8 * s.fetches n := by
  simp only [State.fetches, ceilDiv]; omega

theorem State.fetches_least (s : State) (n : Nat) : s.cnt + 8 * s.fetches n ≤ max s.cnt (n + 7) := by
  simp only [State.fetches, ceilDiv]; omega

theorem State.fetches_of_le {s : State} {n : Nat} (h : n ≤ s.cnt) : s.fetches n = 0 := by
  simp only [State.fetches, ceilDiv]; omega

/-- Dropping `n` bits moves every bit ahead `n` places nearer (40_bitreader.md R209). -/
theorem State.afterRead_nextBit (s : State) {want n : Nat} (hn : n ≤ s.cnt + 8 * s.fetches want)
    (hc : s.cnt + 8 * s.fetches want - n ≤ 32) (k : Nat) :
    (s.afterRead want n).nextBit k = s.nextBit (n + k) := by
  unfold State.nextBit
  rw [State.afterRead_cnt, State.afterRead_inPos, State.afterRead_inBit]
  by_cases hk : k < s.cnt + 8 * s.fetches want - n
  · rw [if_pos hk]
    have : (s.afterRead want n).acc.getLsbD k = s.nextBit (n + k) := by
      simp only [State.afterRead, BitVec.getLsbD_ofNat, State.field_testBit]
      simp [hk, show k < 32 by omega]
    rw [this]; rfl
  · rw [if_neg hk, if_neg (by omega)]
    congr 1; omega

theorem State.afterRead_bitsOk (s : State) {want n : Nat} (hc : s.cnt + 8 * s.fetches want - n ≤ 23) :
    (s.afterRead want n).BitsOk where
  cntBound := hc
  accBound := by
    simp only [State.afterRead, BitVec.toNat_ofNat]
    exact Nat.lt_of_le_of_lt (Nat.mod_le _ _) (State.field_lt _ _ _)

/-- A state is the state after a read if it differs from the state before in the three BitReader
registers only, the counters are right and the bits ahead are the old ones moved. -/
theorem State.eq_afterRead {s t : State} {want n : Nat} (hb : t.BitsOk)
    (hc : t.cnt = s.cnt + 8 * s.fetches want - n) (hp : t.inPos = s.inPos + s.fetches want)
    (hf : t = { s with acc := t.acc, cnt := t.cnt, inPos := t.inPos })
    (hk : ∀ k, t.nextBit k = s.nextBit (n + k)) : t = s.afterRead want n := by
  have ha : t.acc = BitVec.ofNat 32 (s.field n t.cnt) := by
    apply BitVec.eq_of_toNat_eq
    rw [hb.acc_eq, State.field_congr hk, BitVec.toNat_ofNat, Nat.add_zero, Nat.mod_eq_of_lt]
    exact Nat.lt_of_lt_of_le (State.field_lt _ _ _) (Nat.pow_le_pow_right (by omega) (by have := hb.cntBound; omega))
  rw [hf, ha, hp, hc]; rfl

/-- Nothing read, nothing changed. -/
theorem State.afterRead_zero {s : State} (h : s.BitsOk) {want : Nat} (hw : want ≤ s.cnt) :
    s.afterRead want 0 = s := by
  have hf : s.fetches want = 0 := State.fetches_of_le hw
  exact (State.eq_afterRead h (by simp [hf]) (by simp [hf]) rfl (by simp)).symm

/-- Dropping buffered bits is a read that fetches nothing. -/
theorem State.dropBits_eq {s : State} (h : s.BitsOk) {n want : Nat} (hn : n ≤ s.cnt) (hw : want ≤ s.cnt) :
    s.dropBits n = s.afterRead want n := by
  have hf : s.fetches want = 0 := State.fetches_of_le hw
  apply State.eq_afterRead
  · refine ⟨?_, ?_⟩
    · have := h.cntBound; simp only [State.dropBits_cnt]; omega
    · simp only [State.dropBits_acc, State.dropBits_cnt, BitVec.toNat_ushiftRight, Nat.shiftRight_eq_div_pow]
      rw [Nat.div_lt_iff_lt_mul (Nat.two_pow_pos n), ← Nat.pow_add, show s.cnt - n + n = s.cnt by omega]
      exact h.accBound
  · simp [hf]
  · simp [hf]
  · rfl
  · intro k
    unfold State.nextBit
    simp only [State.dropBits_cnt, State.dropBits_acc, State.dropBits_inPos, BitVec.getLsbD_ushiftRight]
    by_cases hk : k < s.cnt - n
    · simp [hk, show n + k < s.cnt by omega]
    · rw [if_neg hk, if_neg (by omega)]
      show s.inBit _ = s.inBit _
      congr 1; omega

/-- `Align` drops the bits of the byte that is partly read (40_bitreader.md R205). -/
theorem State.align_eq {s : State} (h : s.BitsOk) : s.align = s.afterRead 0 (s.cnt % 8) :=
  State.dropBits_eq h (Nat.mod_le _ _) (Nat.zero_le _)

/-- Two reads after one another are one read. -/
theorem State.afterRead_afterRead {s : State} (h : s.BitsOk) {m w n : Nat}
    (hn : n ≤ (s.afterRead m m).cnt + 8 * (s.afterRead m m).fetches w) (hw : n ≤ w) (hw' : w ≤ n + 16) :
    (s.afterRead m m).afterRead w n = s.afterRead (m + w) (m + n) := by
  have hc := h.cntBound
  have hm := s.fetches_least m
  have hm' := s.fetches_enough m
  have e : s.fetches m + (s.afterRead m m).fetches w = s.fetches (m + w) := by
    simp only [State.fetches, ceilDiv, State.afterRead_cnt] at *; omega
  have hl := (s.afterRead m m).fetches_least w
  simp only [State.afterRead_cnt] at *
  apply State.eq_afterRead
  · apply State.afterRead_bitsOk
    simp only [State.afterRead_cnt]; omega
  · simp only [State.afterRead_cnt]; omega
  · simp only [State.afterRead_inPos]; omega
  · rfl
  · intro k
    rw [State.afterRead_nextBit _ (by simp only [State.afterRead_cnt]; omega)
      (by simp only [State.afterRead_cnt]; omega),
      State.afterRead_nextBit _ (by omega) (by omega), Nat.add_assoc]

theorem State.afterRead_field {s : State} {want n : Nat} (hn : n ≤ s.cnt + 8 * s.fetches want)
    (hc : s.cnt + 8 * s.fetches want - n ≤ 32) (k m : Nat) :
    (s.afterRead want n).field k m = s.field (n + k) m :=
  State.field_congr (State.afterRead_nextBit s hn hc) k m

/-- Reading bits that are there leaves the rest of them. -/
theorem State.afterRead_bitsLeft {s : State} {want n : Nat} (h : want ≤ s.bitsLeft)
    (hn : n ≤ s.cnt + 8 * s.fetches want) : (s.afterRead want n).bitsLeft = s.bitsLeft - n := by
  simp only [State.bitsLeft, State.afterRead_cnt, State.afterRead_inPos, State.afterRead_inLen, State.fetches,
    ceilDiv] at *
  omega

/-- The stream position moves by the bits read (40_bitreader.md R209). -/
theorem State.afterRead_streamPos {s : State} {want n : Nat} (hn : n ≤ s.cnt + 8 * s.fetches want) :
    (s.afterRead want n).streamPos = s.streamPos + n := by
  simp only [State.streamPos, State.afterRead_cnt, State.afterRead_inPos]; omega

/-! ### Refill -/

/-- The state after one byte is fetched (the body of the loop of R200). -/
def State.fetchByte (s : State) : State :=
  { s with
    acc := s.acc ||| ((s.byteAt .inp s.inPos).setWidth 32 <<< s.cnt), cnt := s.cnt + 8, inPos := s.inPos + 1 }

theorem State.fetchByte_eq {s : State} (h : s.BitsOk) (hc : s.cnt ≤ 15) {n : Nat} (hn : s.cnt < n)
    (hn' : n ≤ s.cnt + 8) : s.fetchByte = s.afterRead n 0 := by
  have hf : s.fetches n = 1 := by simp only [State.fetches, ceilDiv]; omega
  have hsmall : ((s.byteAt .inp s.inPos).setWidth 32 <<< s.cnt).toNat < 2 ^ (s.cnt + 8) := by
    have hb := (s.byteAt .inp s.inPos).isLt
    rw [BitVec.toNat_shiftLeft, Nat.shiftLeft_eq]
    refine Nat.lt_of_le_of_lt (Nat.mod_le _ _) ?_
    rw [BitVec.toNat_setWidth, Nat.mod_eq_of_lt (Nat.lt_trans hb (by decide)), Nat.pow_add, Nat.mul_comm]
    exact Nat.mul_lt_mul_of_pos_left hb (Nat.two_pow_pos _)
  apply State.eq_afterRead
  · refine ⟨?_, ?_⟩
    · show s.cnt + 8 ≤ 23; omega
    · show (s.acc ||| _).toNat < 2 ^ (s.cnt + 8)
      rw [BitVec.toNat_or]
      exact Nat.or_lt_two_pow (Nat.lt_of_lt_of_le h.accBound (Nat.pow_le_pow_right (by omega) (by omega))) hsmall
  · show s.cnt + 8 = _; omega
  · show s.inPos + 1 = _; omega
  · rfl
  · intro k
    rw [Nat.zero_add]
    unfold State.nextBit
    show (if k < s.cnt + 8 then (s.acc ||| _).getLsbD k else s.inBit (8 * (s.inPos + 1) + (k - (s.cnt + 8)))) = _
    by_cases hk : k < s.cnt
    · have : k < s.cnt + 8 := by omega
      simp [hk, this]
    · have hz : s.acc.getLsbD k = false := by
        simp only [BitVec.getLsbD]
        exact Nat.testBit_lt_two_pow (Nat.lt_of_lt_of_le h.accBound (Nat.pow_le_pow_right (by omega) (by omega)))
      by_cases hk8 : k < s.cnt + 8
      · have h32 : k < 32 := by omega
        have hm : (8 * s.inPos + (k - s.cnt)) / 8 = s.inPos := by omega
        have hr : (8 * s.inPos + (k - s.cnt)) % 8 = k - s.cnt := by omega
        have hk32 : k - s.cnt < 32 := by omega
        simp only [hk, hk8, if_true, if_false, State.inBit, hm, hr, BitVec.getLsbD_or, hz, Bool.false_or,
          BitVec.getLsbD_shiftLeft, h32, BitVec.getLsbD_setWidth, hk32, decide_true, decide_false, Bool.not_false,
          Bool.true_and]
      · rw [if_neg hk8, if_neg hk]; congr 1; omega

theorem readByte_inp {s : State} {a : Nat} (h : a < s.caps.inCap) :
    readByte .inp a s = .ok (s.byteAt .inp a) s := by
  simp [readByte, Caps.size, h]

/-- Refill with the bits there: they are fetched and none is dropped (40_bitreader.md R200). -/
theorem refill_ok {s : State} {n : Nat} (h : s.CanRead n) (hn : n ≤ 16) :
    refill n s = .ok () (s.afterRead n 0) := by
  obtain ⟨hb, he, hi⟩ := h
  have one : ∀ {t : State} {k : Nat}, t.BitsOk → t.inLen.toNat ≤ t.caps.inCap → t.cnt < n → n ≤ t.bitsLeft →
      refillLoop (k + 1) n t = refillLoop k n t.fetchByte := by
    intro t k _ hi hc he
    have hp : t.inPos < t.inLen.toNat := by simp only [State.bitsLeft] at he; omega
    rw [refillLoop, if_pos hc, if_neg (by omega), readByte_inp (by omega)]
    rfl
  have done : ∀ {t : State} {k : Nat}, n ≤ t.cnt → refillLoop k n t = .ok () t := by
    intro t k hc
    cases k with
    | zero => rfl
    | succ k => rw [refillLoop, if_neg (by omega)]
  rw [refill, if_pos (show n ≤ Config.gbMax from hn)]
  by_cases h0 : n ≤ s.cnt
  · rw [done h0, State.afterRead_zero hb h0]
  · rw [one hb hi (by omega) he]
    have e1 : s.fetchByte = s.afterRead (min n (s.cnt + 8)) 0 :=
      State.fetchByte_eq hb (by omega) (by omega) (by omega)
    by_cases h1 : n ≤ s.cnt + 8
    · rw [done (show n ≤ s.fetchByte.cnt from h1), e1, Nat.min_eq_left h1]
    · have hf : s.fetches (min n (s.cnt + 8)) = 1 := by simp only [State.fetches, ceilDiv]; omega
      have hb1 : s.fetchByte.BitsOk := by
        rw [e1]; exact State.afterRead_bitsOk _ (by rw [hf]; omega)
      have hl : s.fetchByte.bitsLeft = s.bitsLeft := by
        rw [e1, State.afterRead_bitsLeft (by omega) (by omega)]; rfl
      rw [one hb1 hi (by show s.cnt + 8 < n; omega) (by rw [hl]; exact he)]
      have e2 : s.fetchByte.fetchByte = s.fetchByte.afterRead n 0 :=
        State.fetchByte_eq hb1 (by show s.cnt + 8 ≤ 15; omega) (by show s.cnt + 8 < n; omega)
          (by show n ≤ s.cnt + 8 + 8; omega)
      rw [done (show n ≤ s.cnt + 8 + 8 by omega), e2]
      congr 1
      have hff : s.fetches n = 2 := by simp only [State.fetches, ceilDiv]; omega
      have hfg : s.fetchByte.fetches n = 1 := by
        simp only [State.fetches, ceilDiv]; show (n - (s.cnt + 8) + 8 - 1) / 8 = 1; omega
      apply State.eq_afterRead
      · refine State.afterRead_bitsOk _ ?_
        rw [hfg]; show s.cnt + 8 + 8 * 1 - 0 ≤ 23; omega
      · rw [State.afterRead_cnt, hfg, hff]; show s.cnt + 8 + 8 * 1 - 0 = _; omega
      · rw [State.afterRead_inPos, hfg, hff]; show s.inPos + 1 + 1 = _; omega
      · rfl
      · intro k
        have hcnt : s.fetchByte.cnt = s.cnt + 8 := rfl
        rw [State.afterRead_nextBit _ (by omega) (by rw [hfg, hcnt]; omega), e1,
          State.afterRead_nextBit _ (by omega) (by rw [hf]; omega)]
        simp

/-- Refill with too few bits left: it takes every byte there is and raises TruncatedInput
(40_bitreader.md R200). -/
theorem refill_short {s : State} {n : Nat} (hb : s.BitsOk) (hi : s.inLen.toNat ≤ s.caps.inCap)
    (he : s.bitsLeft < n) (hn : n ≤ 16) :
    refill n s = .err .truncatedInput (s.afterRead s.bitsLeft 0) := by
  have hc : s.cnt < n := by simp only [State.bitsLeft] at he; omega
  rw [refill, if_pos (show n ≤ Config.gbMax from hn), show refillLoop 2 n s = refillLoop (1 + 1) n s from rfl, refillLoop, if_pos hc]
  by_cases hp : s.inLen.toNat ≤ s.inPos
  · rw [if_pos hp, State.afterRead_zero hb (by simp only [State.bitsLeft]; omega)]
  · rw [if_neg hp, readByte_inp (by omega)]
    show refillLoop 1 n s.fetchByte = _
    have hl : s.bitsLeft = s.cnt + 8 := by simp only [State.bitsLeft] at *; omega
    have e1 : s.fetchByte = s.afterRead s.bitsLeft 0 :=
      State.fetchByte_eq hb (by omega) (by omega) (by omega)
    rw [show refillLoop 1 n s.fetchByte = refillLoop (0 + 1) n s.fetchByte from rfl, refillLoop,
      if_pos (show s.fetchByte.cnt < n by show s.cnt + 8 < n; omega),
      if_pos (show s.fetchByte.inLen.toNat ≤ s.fetchByte.inPos by
        show s.inLen.toNat ≤ s.inPos + 1
        simp only [State.bitsLeft] at *; omega), e1]

/-! ### GetBits and GetCode -/

/-- GetBits with the bits there (40_bitreader.md R201). -/
theorem getBits_ok {s : State} {n : Nat} (h : s.CanRead n) (hn : n ≤ 16) :
    getBits n s = .ok (s.field 0 n) (s.afterRead n n) := by
  have hb := h.bits
  rw [getBits]
  by_cases h0 : n = 0
  · subst h0; rw [if_pos rfl, State.afterRead_zero hb (Nat.zero_le _)]; rfl
  · have hl := s.fetches_least n
    have he := s.fetches_enough n
    have hc := hb.cntBound
    have hb' : (s.afterRead n 0).BitsOk := State.afterRead_bitsOk _ (by omega)
    rw [if_neg h0, refill_ok h hn]
    show Res.ok _ _ = _
    congr 1
    · rw [hb'.lowBits_eq (by simp only [State.afterRead_cnt]; omega), State.afterRead_field (by omega) (by omega)]
    · rw [State.dropBits_eq hb' (n := n) (want := 0) (by simp only [State.afterRead_cnt]; omega) (by omega)]
      have hz : (s.afterRead n 0).fetches 0 = 0 := State.fetches_of_le (by omega)
      apply State.eq_afterRead
      · exact State.afterRead_bitsOk _ (by rw [hz, State.afterRead_cnt]; omega)
      · rw [State.afterRead_cnt, hz, State.afterRead_cnt]; omega
      · rw [State.afterRead_inPos, hz, State.afterRead_inPos]; omega
      · rfl
      · intro k
        rw [State.afterRead_nextBit _ (by rw [hz, State.afterRead_cnt]; omega)
          (by rw [hz, State.afterRead_cnt]; omega), State.afterRead_nextBit _ (by omega) (by omega)]
        simp

/-- GetBits with too few bits left (40_bitreader.md R200, R201). -/
theorem getBits_short {s : State} {n : Nat} (hb : s.BitsOk) (hi : s.inLen.toNat ≤ s.caps.inCap)
    (he : s.bitsLeft < n) (hn : n ≤ 16) :
    getBits n s = .err .truncatedInput (s.afterRead s.bitsLeft 0) := by
  rw [getBits, if_neg (by omega), refill_short hb hi he hn]; rfl

/-- GetCode with the bits there and a filled entry (40_bitreader.md R203). -/
theorem getCode_ok {t : Table} {s : State} (h : s.CanRead t.max) (h0 : t.max ≠ 0) (hn : t.max ≤ 16)
    {e : Entry} (he : t.entry (s.field 0 t.max) = e) (hl : e.len ≠ 0) (hle : e.len.toNat ≤ t.max) :
    getCode t s = .ok e.sym.toNat (s.afterRead t.max e.len.toNat) := by
  have hb := h.bits
  have hl' := s.fetches_least t.max
  have hen := s.fetches_enough t.max
  have hc := hb.cntBound
  have hb' : (s.afterRead t.max 0).BitsOk := State.afterRead_bitsOk _ (by omega)
  rw [getCode, if_neg h0, refill_ok h hn]
  have hlow : (s.afterRead t.max 0).lowBits t.max = s.field 0 t.max := by
    rw [hb'.lowBits_eq (by simp only [State.afterRead_cnt]; omega), State.afterRead_field (by omega) (by omega)]
  have hz : (s.afterRead t.max 0).fetches 0 = 0 := State.fetches_of_le (by omega)
  simp only [Res.bind, hlow, he, if_neg hl]
  congr 1
  rw [State.dropBits_eq hb' (want := 0) (by simp only [State.afterRead_cnt]; omega) (by omega)]
  apply State.eq_afterRead
  · exact State.afterRead_bitsOk _ (by rw [hz, State.afterRead_cnt]; omega)
  · rw [State.afterRead_cnt, hz, State.afterRead_cnt]; omega
  · rw [State.afterRead_inPos, hz, State.afterRead_inPos]; omega
  · rfl
  · intro k
    rw [State.afterRead_nextBit _ (by rw [hz, State.afterRead_cnt]; omega)
      (by rw [hz, State.afterRead_cnt]; omega), State.afterRead_nextBit _ (by omega) (by omega)]
    simp

/-- GetCode with an empty table (40_bitreader.md R203, 41_huffman.md R222). -/
theorem getCode_empty {t : Table} {s : State} (h0 : t.max = 0) : getCode t s = .err .invalidHuffmanTable s := by
  rw [getCode, if_pos h0]

/-- GetCode with too few bits left (40_bitreader.md R203). -/
theorem getCode_short {t : Table} {s : State} (hb : s.BitsOk) (hi : s.inLen.toNat ≤ s.caps.inCap)
    (he : s.bitsLeft < t.max) (hn : t.max ≤ 16) :
    getCode t s = .err .truncatedInput (s.afterRead s.bitsLeft 0) := by
  rw [getCode, if_neg (by omega), refill_short hb hi he hn]; rfl

/-- GetCode that reaches an unfilled entry (40_bitreader.md R203). -/
theorem getCode_unfilled {t : Table} {s : State} (h : s.CanRead t.max) (h0 : t.max ≠ 0) (hn : t.max ≤ 16)
    (he : (t.entry (s.field 0 t.max)).len = 0) :
    getCode t s = .err .invalidHuffmanTable (s.afterRead t.max 0) := by
  have hl' := s.fetches_least t.max
  have hen := s.fetches_enough t.max
  have hc := h.bits.cntBound
  have hb' : (s.afterRead t.max 0).BitsOk := State.afterRead_bitsOk _ (by omega)
  have hlow : (s.afterRead t.max 0).lowBits t.max = s.field 0 t.max := by
    rw [hb'.lowBits_eq (by simp only [State.afterRead_cnt]; omega), State.afterRead_field (by omega) (by omega)]
  rw [getCode, if_neg h0, refill_ok h hn]
  simp only [Res.bind, hlow, he, if_true]

end Sys2Proof.Machine
end

