-- ==== Sys2Proof/Laws/Flow.lean ====
section
/-! SUPPORT. What the operations of INFLATE can do, each said once: the BitReader and the output
primitives keep the machine's invariants, and change the fields of the stream, the output, the tables
and the scratch only. -/

namespace Sys2Proof.Machine

/-! ### Sequencing -/

/-- The result is `ok` with `P`, or an error with `E`; it is no stop. -/
def Res.Sat {α : Type} (r : Res α) (P : α → State → Prop) (E : ErrorKind → State → Prop) : Prop :=
  match r with
  | .ok a s => P a s
  | .err k s => E k s
  | .fault _ => False
  | .refused _ => False

theorem Res.Sat.bind {α β : Type} {r : Res α} {k : α → State → Res β} {P : α → State → Prop}
    {Q : β → State → Prop} {E : ErrorKind → State → Prop} (h : r.Sat P E)
    (hk : ∀ a s, P a s → (k a s).Sat Q E) : (r.bind k).Sat Q E := by
  cases r with
  | ok a s => exact hk a s h
  | err e s => exact h
  | fault f => exact h
  | refused q => exact h

theorem Res.Sat.mono {α : Type} {r : Res α} {P Q : α → State → Prop} {E F : ErrorKind → State → Prop}
    (h : r.Sat P E) (hp : ∀ a s, P a s → Q a s) (he : ∀ k s, E k s → F k s) : r.Sat Q F := by
  cases r with
  | ok a s => exact hp a s h
  | err e s => exact he e s h
  | fault f => exact h
  | refused q => exact h

/-! ### The bit stream in IN -/

/-- While INFLATE runs, the bits ahead are the bits of IN from the stream position on. -/
theorem State.StreamOk.nextBit_eq {s : State} (h : s.StreamOk) (k : Nat) :
    s.nextBit k = s.inBit (8 * s.inPos - s.cnt + k) := by
  have hc := h.cntOk
  unfold State.nextBit
  split
  · exact h.accOk k ‹_›
  · congr 1; omega

theorem State.byteAt_inp_congr {s t : State} (h : t.inp = s.inp) (k : Nat) : t.inBit k = s.inBit k := by
  simp [State.inBit, State.byteAt, h]

/-- The bits ahead depend on the BitReader registers and IN only. -/
theorem State.nextBit_congr {s t : State} (ha : t.acc = s.acc) (hc : t.cnt = s.cnt) (hp : t.inPos = s.inPos)
    (hi : t.inp = s.inp) (k : Nat) : t.nextBit k = s.nextBit k := by
  unfold State.nextBit
  rw [ha, hc, hp, State.byteAt_inp_congr hi]

/-! ### The good states of INFLATE -/

/-- The part of the machine's invariant that an element of INFLATE relies on. -/
structure State.Good (s : State) : Prop where
  bits : s.BitsOk
  mems : s.MemsOk
  llt : s.llt.Ok 287
  dt : s.dt.Ok 31
  stream : s.StreamOk

/-- What the BitReader and the output primitives do to a state: they change the BitReader registers and
the output alone, they keep `Good`, they move the stream position forward by at least `n`, and they
append to OUT. -/
structure State.Flows (s t : State) (n : Nat) : Prop where
  frame : t = { s with acc := t.acc, cnt := t.cnt, inPos := t.inPos, out := t.out, outLen := t.outLen }
  good : t.Good
  forward : s.streamPos + n ≤ t.streamPos
  grows : s.outLen ≤ t.outLen
  kept : ∀ a, a < s.outLen ∨ t.outLen ≤ a → t.byteAt .out a = s.byteAt .out a

theorem State.Flows.refl {s : State} (h : s.Good) : s.Flows s 0 :=
  ⟨rfl, h, by simp, Nat.le_refl _, fun _ _ => rfl⟩

theorem State.Flows.trans {s t u : State} {m n : Nat} (h : s.Flows t m) (g : t.Flows u n) :
    s.Flows u (m + n) where
  frame := by rw [g.frame, h.frame]
  good := g.good
  forward := by have := h.forward; have := g.forward; push_cast; omega
  grows := Nat.le_trans h.grows g.grows
  kept a ha := by
    have h1 := h.grows
    have h2 := g.grows
    rw [g.kept a (by omega), h.kept a (by omega)]

theorem State.Flows.weaken {s t : State} {m n : Nat} (h : s.Flows t m) (hn : n ≤ m) : s.Flows t n :=
  { h with forward := by have := h.forward; omega }

theorem State.Flows.fsm_eq {s t : State} {n : Nat} (h : s.Flows t n) : t.fsm = s.fsm := by rw [h.frame]
theorem State.Flows.dyn_eq {s t : State} {n : Nat} (h : s.Flows t n) : t.dyn = s.dyn := by rw [h.frame]
theorem State.Flows.matchLen_eq {s t : State} {n : Nat} (h : s.Flows t n) : t.matchLen = s.matchLen := by
  rw [h.frame]
theorem State.Flows.dt_eq {s t : State} {n : Nat} (h : s.Flows t n) : t.dt = s.dt := by rw [h.frame]
theorem State.Flows.llt_eq {s t : State} {n : Nat} (h : s.Flows t n) : t.llt = s.llt := by rw [h.frame]

/-- `Good` does not depend on the scratch, the block flags or `fsm`, and on the tables as far as they are
legal. -/
theorem State.Good.control {s : State} (h : s.Good) (llt dt : Table) (matchLen : Nat) (dyn : DynScratch)
    (bfinal : Bool) (btype : BitVec 2) (fsm : Fsm) (hl : llt.Ok 287) (hd : dt.Ok 31) :
    ({ s with
      llt := llt, dt := dt, matchLen := matchLen, dyn := dyn, bfinal := bfinal, btype := btype, fsm := fsm } : State).Good where
  bits := ⟨h.bits.cntBound, h.bits.accBound⟩
  mems := ⟨fun sp => by have := h.mems.wf sp; cases sp <;> exact this,
    fun sp => by have := h.mems.below sp; cases sp <;> exact this,
    fun sp => by have := h.mems.drawn sp; cases sp <;> exact this⟩
  llt := hl
  dt := hd
  stream := ⟨h.stream.inCapOk, h.stream.inPosOk, h.stream.cntOk, h.stream.accOk, h.stream.outLenOk⟩

theorem State.Good.setDyn {s : State} (h : s.Good) (d : DynScratch) : ({ s with dyn := d } : State).Good :=
  h.control s.llt s.dt s.matchLen d s.bfinal s.btype s.fsm h.llt h.dt

theorem State.Good.setMatchLen {s : State} (h : s.Good) (n : Nat) : ({ s with matchLen := n } : State).Good :=
  h.control s.llt s.dt n s.dyn s.bfinal s.btype s.fsm h.llt h.dt

theorem State.Good.setFsm {s : State} (h : s.Good) (f : Fsm) : ({ s with fsm := f } : State).Good :=
  h.control s.llt s.dt s.matchLen s.dyn s.bfinal s.btype f h.llt h.dt

/-- The scratch of a header does not show in a flow. -/
theorem State.Flows.dropDyn {s t : State} {d : DynScratch} {n : Nat} (h : ({ s with dyn := d } : State).Flows t n) :
    s.Flows { t with dyn := s.dyn } n where
  frame := by rw [h.frame]
  good := h.good.setDyn s.dyn
  forward := h.forward
  grows := h.grows
  kept := h.kept

theorem State.Flows.dropMatchLen {s t : State} {m n : Nat} (h : ({ s with matchLen := m } : State).Flows t n) :
    s.Flows { t with matchLen := s.matchLen } n where
  frame := by rw [h.frame]
  good := h.good.setMatchLen s.matchLen
  forward := h.forward
  grows := h.grows
  kept := h.kept

/-! ### Reading -/

theorem State.afterRead_flows {s : State} (h : s.Good) {want n : Nat} (hw : want ≤ s.bitsLeft)
    (hn : n ≤ s.cnt + 8 * s.fetches want) (hc : s.cnt + 8 * s.fetches want - n ≤ 23) :
    s.Flows (s.afterRead want n) n := by
  have hcnt := h.stream.cntOk
  refine ⟨rfl, ⟨State.afterRead_bitsOk _ hc, ?_, h.llt, h.dt, ?_⟩, ?_, Nat.le_refl _, fun _ _ => rfl⟩
  · refine ⟨fun sp => ?_, fun sp => ?_, fun sp => ?_⟩
    · rw [State.afterRead_mem]; exact h.mems.wf sp
    · rw [State.afterRead_mem]; exact h.mems.below sp
    · rw [State.afterRead_mem]; exact h.mems.drawn sp
  · refine ⟨h.stream.inCapOk, ?_, ?_, ?_, h.stream.outLenOk⟩
    · have := h.stream.inPosOk
      simp only [State.afterRead_inPos, State.afterRead_inLen, State.fetches, ceilDiv, State.bitsLeft] at *
      omega
    · rw [State.afterRead_cnt, State.afterRead_inPos]; omega
    · intro k hk
      have hb := State.afterRead_nextBit s hn (by omega) k
      rw [h.stream.nextBit_eq] at hb
      rw [State.afterRead_cnt] at hk
      have : (s.afterRead want n).nextBit k = (s.afterRead want n).acc.getLsbD k := by
        unfold State.nextBit; rw [State.afterRead_cnt, if_pos hk]
      rw [← this, hb, State.afterRead_inBit, State.afterRead_cnt, State.afterRead_inPos]
      congr 1; omega
  · rw [State.afterRead_streamPos hn]

/-- Too few bits: every byte is taken and no bit is dropped. -/
theorem State.afterRead_short_flows {s : State} (h : s.Good) (hw : s.bitsLeft < 16 ∨ s.bitsLeft ≤ 23) :
    s.Flows (s.afterRead s.bitsLeft 0) 0 := by
  have hl := s.fetches_least s.bitsLeft
  have hc := h.bits.cntBound
  apply State.afterRead_flows h (Nat.le_refl _) (by omega)
  simp only [State.fetches, ceilDiv, State.bitsLeft] at *; omega

/-- The error of an operation of INFLATE: the state before it flowed to the state it was raised in. -/
def FlowError (s : State) (_ : ErrorKind) (t : State) : Prop := s.Flows t 0

theorem State.Flows.error {s t u : State} {n : Nat} (h : s.Flows t n) (g : t.Flows u 0) : s.Flows u 0 :=
  (h.trans g).weaken (by omega)

theorem getBits_flows {s : State} (h : s.Good) {n : Nat} (hn : n ≤ 16) :
    (getBits n s).Sat (fun v t => v = s.field 0 n ∧ t = s.afterRead n n ∧ s.Flows t n) (FlowError s) := by
  have hl := s.fetches_least n
  have he := s.fetches_enough n
  have hc := h.bits.cntBound
  by_cases hb : n ≤ s.bitsLeft
  · rw [getBits_ok ⟨h.bits, hb, h.stream.inCapOk⟩ hn]
    exact ⟨rfl, rfl, State.afterRead_flows h hb (by omega) (by omega)⟩
  · rw [getBits_short h.bits h.stream.inCapOk (by omega) hn]
    exact State.afterRead_short_flows h (by omega)

/-- A looked-up entry is unfilled or one of the table's. -/
theorem Table.Ok.entry_ok {t : Table} {m : Nat} (h : t.Ok m) (j : Nat) :
    (t.entry j).len.toNat ≤ t.max ∧ (t.entry j).sym.toNat ≤ m := by
  unfold Table.entry
  by_cases hj : j < t.entries.length
  · rw [List.getD_eq_getElem _ _ hj]
    exact ⟨h.lens _ (List.getElem_mem hj), h.syms _ (List.getElem_mem hj)⟩
  · rw [List.getD_eq_default _ _ (by omega)]
    exact ⟨by simp [Entry.unfilled], by simp [Entry.unfilled]⟩

theorem getCode_flows {s : State} (h : s.Good) {t : Table} {m : Nat} (ht : t.Ok m) :
    (getCode t s).Sat
      (fun v u => v ≤ m ∧ v = (t.entry (s.field 0 t.max)).sym.toNat ∧
        u = s.afterRead t.max (t.entry (s.field 0 t.max)).len.toNat ∧ s.Flows u 1)
      (FlowError s) := by
  have hm := ht.maxBound
  have hl := s.fetches_least t.max
  have hen := s.fetches_enough t.max
  have hc := h.bits.cntBound
  by_cases h0 : t.max = 0
  · rw [getCode_empty h0]; exact State.Flows.refl h
  by_cases hb : t.max ≤ s.bitsLeft
  · have hr : s.CanRead t.max := ⟨h.bits, hb, h.stream.inCapOk⟩
    by_cases hu : (t.entry (s.field 0 t.max)).len = 0
    · rw [getCode_unfilled hr h0 (by omega) hu]
      exact State.afterRead_flows h hb (by omega) (by omega)
    · have he := ht.entry_ok (s.field 0 t.max)
      rw [getCode_ok hr h0 (by omega) rfl hu he.1]
      refine ⟨he.2, rfl, rfl, ?_⟩
      have hpos : 0 < (t.entry (s.field 0 t.max)).len.toNat := by
        rcases Nat.eq_zero_or_pos (t.entry (s.field 0 t.max)).len.toNat with hz | hz
        · exact absurd (BitVec.eq_of_toNat_eq (by simpa using hz)) hu
        · exact hz
      exact (State.afterRead_flows h hb (by omega) (by omega)).weaken hpos
  · rw [getCode_short h.bits h.stream.inCapOk (by omega) (by omega)]
    exact State.afterRead_short_flows h (by omega)

theorem State.align_flows {s : State} (h : s.Good) : s.Flows s.align 0 := by
  have hc := h.bits.cntBound
  have hz : s.fetches 0 = 0 := State.fetches_of_le (Nat.zero_le _)
  rw [State.align_eq h.bits]
  exact (State.afterRead_flows h (Nat.zero_le _) (by omega) (by omega)).weaken (by omega)

/-! ### Appending to OUT -/

/-- Another OUT and another `out_len`: all that an append or a copy changes. -/
def State.withOut (s : State) (m : Memory) (l : Nat) : State := { s with out := m, outLen := l }

@[simp] theorem State.withOut_out (s : State) (m : Memory) (l : Nat) : (s.withOut m l).out = m := rfl
@[simp] theorem State.withOut_outLen (s : State) (m : Memory) (l : Nat) : (s.withOut m l).outLen = l := rfl
@[simp] theorem State.withOut_caps (s : State) (m : Memory) (l : Nat) : (s.withOut m l).caps = s.caps := rfl
@[simp] theorem State.withOut_inLen (s : State) (m : Memory) (l : Nat) : (s.withOut m l).inLen = s.inLen := rfl
@[simp] theorem State.withOut_cnt (s : State) (m : Memory) (l : Nat) : (s.withOut m l).cnt = s.cnt := rfl
@[simp] theorem State.withOut_fetches (s : State) (m : Memory) (l n : Nat) :
    (s.withOut m l).fetches n = s.fetches n := rfl
@[simp] theorem State.withOut_bitsLeft (s : State) (m : Memory) (l : Nat) :
    (s.withOut m l).bitsLeft = s.bitsLeft := rfl
@[simp] theorem State.withOut_withOut (s : State) (m n : Memory) (l k : Nat) :
    (s.withOut m l).withOut n k = s.withOut n k := rfl
@[simp] theorem State.withOut_byteAt (s : State) (m : Memory) (l a : Nat) :
    (s.withOut m l).byteAt .out a = m.read .out a := rfl
theorem State.withOut_self (s : State) : s.withOut s.out s.outLen = s := rfl

/-- Changing OUT and `out_len` changes no bit ahead. -/
theorem State.withOut_nextBit (s : State) (m : Memory) (l k : Nat) : (s.withOut m l).nextBit k = s.nextBit k :=
  State.nextBit_congr (t := s.withOut m l) rfl rfl rfl rfl k

theorem State.withOut_field (s : State) (m : Memory) (l k n : Nat) : (s.withOut m l).field k n = s.field k n := by
  have := State.field_congr (t := s.withOut m l) (s := s) (d := 0)
    (fun k => by rw [Nat.zero_add]; exact State.withOut_nextBit s m l k) k n
  rwa [Nat.zero_add] at this

theorem State.withOut_afterRead (s : State) (m : Memory) (l want n : Nat) :
    (s.withOut m l).afterRead want n = (s.afterRead want n).withOut m l := by
  have := State.withOut_field s m l n (s.cnt + 8 * s.fetches want - n)
  unfold State.afterRead
  simp only [State.withOut_cnt, State.withOut_fetches, this]
  rfl

theorem State.withOut_canRead {s : State} {n : Nat} (h : s.CanRead n) (m : Memory) (l : Nat) :
    (s.withOut m l).CanRead n :=
  ⟨⟨h.bits.cntBound, h.bits.accBound⟩, h.enough, h.inCapOk⟩

/-- OutAppend with room (40_bitreader.md R214). -/
theorem outAppend_ok {s : State} (b : Byte) (h : s.outLen < s.caps.outCap) :
    outAppend b s = .ok () (s.withOut (s.out.write s.outLen b) (s.outLen + 1)) := by
  rw [outAppend, if_neg (by omega), writeByte, if_pos (show s.outLen < s.caps.size .out from h)]; rfl

/-- OutAppend without room (40_bitreader.md R214). -/
theorem outAppend_full {s : State} (b : Byte) (h : s.caps.outCap ≤ s.outLen) :
    outAppend b s = .err .capacityExceeded s := by
  rw [outAppend, if_pos h]

theorem outAppend_flows {s : State} (h : s.Good) (b : Byte) :
    (outAppend b s).Sat (fun _ t => t.outLen = s.outLen + 1 ∧ s.Flows t 0) (FlowError s) := by
  by_cases hc : s.outLen < s.caps.outCap
  · rw [outAppend_ok b hc]
    have hm := h.mems.putByte (sp := .out) hc b
    refine ⟨rfl, rfl, ⟨⟨h.bits.cntBound, h.bits.accBound⟩, ⟨?_, ?_, ?_⟩, h.llt, h.dt, ?_⟩, ?_, ?_, ?_⟩
    · intro sp; have := hm.wf sp; cases sp <;> exact this
    · intro sp; have := hm.below sp; cases sp <;> exact this
    · intro sp; have := hm.drawn sp; cases sp <;> exact this
    · exact ⟨h.stream.inCapOk, h.stream.inPosOk, h.stream.cntOk, h.stream.accOk, hc⟩
    · exact Int.le_of_eq (Int.add_zero _)
    · exact Nat.le_succ _
    · intro a ha
      have ha' : a < s.outLen ∨ s.outLen + 1 ≤ a := ha
      rw [State.withOut_byteAt, Memory.read_write_other _ _ _ (by omega)]; rfl
  · rw [outAppend_full b (by omega)]; exact State.Flows.refl h

theorem outBack_ok {s : State} {dist : Nat} (h1 : 1 ≤ dist) (h2 : dist ≤ s.outLen)
    (ho : s.outLen ≤ s.caps.outCap) : outBack dist s = .ok (s.byteAt .out (s.outLen - dist)) s := by
  rw [outBack, readByte, if_pos (by simp only [Caps.size]; omega)]

theorem copyBytes_flows {s : State} (h : s.Good) {len dist : Nat} (h1 : 1 ≤ dist) (h2 : dist ≤ s.outLen) :
    (copyBytes len dist s).Sat (fun _ t => s.Flows t 0) (FlowError s) := by
  induction len generalizing s with
  | zero => exact State.Flows.refl h
  | succ n ih =>
    rw [copyBytes, outBack_ok h1 h2 h.stream.outLenOk]
    refine (outAppend_flows h _).bind fun _ t ⟨hl, ht⟩ => ?_
    exact (ih ht.good (by omega)).mono (fun _ u hu => ht.trans hu) (fun _ u hu => ht.error hu)

theorem backCopy_flows {s : State} (h : s.Good) {len dist : Nat} (h1 : 1 ≤ dist) :
    (backCopy len dist s).Sat (fun _ t => s.Flows t 0) (FlowError s) := by
  rw [backCopy]
  split
  · exact State.Flows.refl h
  · exact copyBytes_flows h h1 (by omega)

theorem copyStored_flows {s : State} (h : s.Good) (n : Nat) :
    (copyStored n s).Sat (fun _ t => s.Flows t (8 * n)) (FlowError s) := by
  induction n generalizing s with
  | zero => exact State.Flows.refl h
  | succ n ih =>
    rw [copyStored]
    refine (getBits_flows h (by omega)).bind fun v t ⟨_, _, ht⟩ => ?_
    refine ((outAppend_flows ht.good _).mono (fun _ _ p => p) (fun _ _ p => ht.error p)).bind fun _ u ⟨_, hu⟩ => ?_
    exact (ih hu.good).mono
      (fun _ w hw => ((ht.trans hu).trans hw).weaken (by omega))
      (fun _ w hw => (ht.trans hu).error hw)

/-! ### What the copies write -/

/-- The bytes of a copy of `len` bytes from `dist` back (43_inflate_symbols.md R302): the last `dist`
bytes repeated. -/
theorem copyBytes_ok {s : State} {len dist : Nat} (h1 : 1 ≤ dist) (h2 : dist ≤ s.outLen)
    (hc : s.outLen + len ≤ s.caps.outCap) :
    ∃ m, copyBytes len dist s = .ok () (s.withOut m (s.outLen + len)) ∧
      (∀ k < len, m.read .out (s.outLen + k) = s.byteAt .out (s.outLen - dist + k % dist)) ∧
      ∀ a, a < s.outLen ∨ s.outLen + len ≤ a → m.read .out a = s.byteAt .out a := by
  induction len generalizing s with
  | zero => exact ⟨s.out, rfl, by simp, fun _ _ => rfl⟩
  | succ n ih =>
    rw [copyBytes, outBack_ok h1 h2 (by omega)]
    simp only [Res.bind]
    rw [outAppend_ok _ (by omega)]
    simp only
    obtain ⟨m, e, hk, ha⟩ := ih
      (s := s.withOut (s.out.write s.outLen (s.byteAt .out (s.outLen - dist))) (s.outLen + 1))
      (by rw [State.withOut_outLen]; omega) (by rw [State.withOut_outLen, State.withOut_caps]; omega)
    simp only [State.withOut_outLen, State.withOut_byteAt, State.withOut_withOut] at e hk ha
    have hread : ∀ a, (s.out.write s.outLen (s.byteAt .out (s.outLen - dist))).read .out a
        = if a = s.outLen then s.byteAt .out (s.outLen - dist) else s.byteAt .out a := by
      intro a
      by_cases hx : a = s.outLen
      · subst hx; rw [if_pos rfl, Memory.read_write_same]
      · rw [if_neg hx, Memory.read_write_other _ _ _ hx]; rfl
    refine ⟨m, ?_, ?_, ?_⟩
    · rw [e, Nat.add_assoc, Nat.add_comm 1 n]
    · intro k hk'
      cases k with
      | zero =>
        have := ha s.outLen (by omega)
        rw [hread, if_pos rfl] at this
        simpa using this
      | succ k =>
        have hthis := hk k (by omega)
        rw [hread] at hthis
        have hlt := Nat.mod_lt k (show 0 < dist by omega)
        rw [show s.outLen + (k + 1) = s.outLen + 1 + k by omega, hthis]
        by_cases hw : k % dist = dist - 1
        · have hz : (k + 1) % dist = 0 := by
            rw [Nat.add_mod, hw]
            by_cases h1' : dist = 1
            · subst h1'; omega
            · rw [Nat.mod_eq_of_lt (show 1 < dist by omega), show dist - 1 + 1 = dist by omega, Nat.mod_self]
          rw [if_pos (by omega), hz, Nat.add_zero]
        · have hz : (k + 1) % dist = k % dist + 1 := by
            rw [Nat.add_mod, Nat.mod_eq_of_lt (show 1 < dist by omega), Nat.mod_eq_of_lt (by omega)]
          rw [if_neg (by omega), hz]
          congr 1; omega
    · intro a ha'
      rw [ha a (by omega), hread, if_neg (by omega)]

/-- A copy that does not fit ends in CapacityExceeded (40_bitreader.md R214). -/
theorem copyBytes_full {s : State} {len dist : Nat} (h1 : 1 ≤ dist) (h2 : dist ≤ s.outLen)
    (ho : s.outLen ≤ s.caps.outCap) (hc : s.caps.outCap < s.outLen + len) :
    ∃ m n, copyBytes len dist s = .err .capacityExceeded (s.withOut m n) := by
  induction len generalizing s with
  | zero => omega
  | succ n ih =>
    rw [copyBytes, outBack_ok h1 h2 ho]
    simp only [Res.bind]
    by_cases hf : s.outLen < s.caps.outCap
    · rw [outAppend_ok _ hf]
      exact ih (s := s.withOut (s.out.write s.outLen (s.byteAt .out (s.outLen - dist))) (s.outLen + 1))
        (by rw [State.withOut_outLen]; omega) (by rw [State.withOut_outLen, State.withOut_caps]; omega)
        (by rw [State.withOut_outLen, State.withOut_caps]; omega)
    · rw [outAppend_full _ (by omega)]; exact ⟨s.out, s.outLen, rfl⟩

/-- The bytes of a stored block (42_inflate_blocks.md R260): the stream's, from the stream position on. -/
theorem copyStored_ok {s : State} {n : Nat} (h : s.CanRead (8 * n)) (hc : s.outLen + n ≤ s.caps.outCap) :
    ∃ m, copyStored n s = .ok () ((s.afterRead (8 * n) (8 * n)).withOut m (s.outLen + n)) ∧
      (∀ k < n, m.read .out (s.outLen + k) = BitVec.ofNat 8 (s.field (8 * k) 8)) ∧
      ∀ a, a < s.outLen ∨ s.outLen + n ≤ a → m.read .out a = s.byteAt .out a := by
  induction n generalizing s with
  | zero =>
    refine ⟨s.out, ?_, by simp, fun _ _ => rfl⟩
    rw [show 8 * 0 = 0 from rfl, State.afterRead_zero h.bits (Nat.zero_le _)]; rfl
  | succ n ih =>
    have hb := h.bits
    have hcnt := hb.cntBound
    have hl := s.fetches_least 8
    have he := s.fetches_enough 8
    have hen := h.enough
    have hok := State.afterRead_bitsOk s (want := 8) (n := 8) (by omega)
    have hleft := State.afterRead_bitsLeft (s := s) (want := 8) (n := 8) (by omega) (by omega)
    rw [copyStored, getBits_ok ⟨hb, by omega, h.inCapOk⟩ (by omega)]
    simp only [Res.bind]
    rw [outAppend_ok _ (by rw [State.afterRead_outLen, State.afterRead_caps]; omega)]
    simp only [State.afterRead_outLen, State.afterRead_out]
    obtain ⟨m, e, hk, ha⟩ := ih
      (s := (s.afterRead 8 8).withOut (s.out.write s.outLen (BitVec.ofNat 8 (s.field 0 8))) (s.outLen + 1))
      (State.withOut_canRead ⟨hok, by omega, h.inCapOk⟩ _ _)
      (by rw [State.withOut_outLen, State.withOut_caps, State.afterRead_caps]; omega)
    simp only [State.withOut_outLen, State.withOut_byteAt, State.withOut_withOut, State.withOut_field,
      State.withOut_afterRead] at e hk ha
    have hread : ∀ a, (s.out.write s.outLen (BitVec.ofNat 8 (s.field 0 8))).read .out a
        = if a = s.outLen then BitVec.ofNat 8 (s.field 0 8) else s.byteAt .out a := by
      intro a
      by_cases hx : a = s.outLen
      · subst hx; rw [if_pos rfl, Memory.read_write_same]
      · rw [if_neg hx, Memory.read_write_other _ _ _ hx]; rfl
    refine ⟨m, ?_, ?_, ?_⟩
    · rw [e, State.afterRead_afterRead hb (by
        simp only [State.fetches, ceilDiv, State.afterRead_cnt] at *; omega) (Nat.le_refl _) (by omega),
        show 8 + 8 * n = 8 * (n + 1) by omega, show s.outLen + 1 + n = s.outLen + (n + 1) by omega]
    · intro k hk'
      cases k with
      | zero =>
        have := ha s.outLen (by omega)
        rw [hread, if_pos rfl] at this
        simpa using this
      | succ k =>
        rw [show s.outLen + (k + 1) = s.outLen + 1 + k by omega, hk k (by omega),
          State.afterRead_field (by omega) (by omega), show 8 + 8 * k = 8 * (k + 1) by omega]
    · intro a ha'
      rw [ha a (by omega), hread, if_neg (by omega)]

end Sys2Proof.Machine
end

