-- ==== Sys2Proof/Laws/Huffman.lean ====
section
/-! SUPPORT. What BuildTable builds (41_huffman.md): when it accepts a length sequence, that canonical
codes are prefix-free, and which entry every index of the table holds. -/

namespace Sys2Proof.Machine

/-! ### First codes and counts -/

/-- Lengths below `L`, each as the number of codes of length `L` it stands for. -/
def shorterCodes (lens : List Nat) (L : Nat) : Nat :=
  ((lens.filter fun l => l ≠ 0 ∧ l < L).map fun l => 2 ^ (L - l)).sum

theorem shorterCodes_cons (l : Nat) (lens : List Nat) (L : Nat) :
    shorterCodes (l :: lens) L = (if l ≠ 0 ∧ l < L then 2 ^ (L - l) else 0) + shorterCodes lens L := by
  unfold shorterCodes
  rw [List.filter_cons]
  split <;> simp_all

theorem lengthCount_cons (l : Nat) (lens : List Nat) (L : Nat) :
    lengthCount (l :: lens) L = (if l ≠ 0 ∧ l = L then 1 else 0) + lengthCount lens L := by
  unfold lengthCount
  by_cases hL : L = 0
  · subst hL; simp
  · by_cases h : l = L
    · subst h; simp [hL]; omega
    · simp [hL, h]

theorem shorterCodes_succ (lens : List Nat) (L : Nat) :
    shorterCodes lens (L + 1) = (shorterCodes lens L + lengthCount lens L) * 2 := by
  induction lens with
  | nil => simp [shorterCodes, lengthCount]
  | cons l rest ih =>
    rw [shorterCodes_cons, shorterCodes_cons, lengthCount_cons, ih]
    by_cases h0 : l = 0
    · simp [h0]
    · by_cases hlt : l < L
      · have : 2 ^ (L + 1 - l) = 2 ^ (L - l) * 2 := by rw [show L + 1 - l = (L - l) + 1 by omega, Nat.pow_succ]
        simp [h0, hlt, show l < L + 1 by omega, show l ≠ L by omega, this]; omega
      · by_cases he : l = L
        · subst he; simp [h0]; omega
        · simp [h0, hlt, he, show ¬ l < L + 1 by omega]

/-- The first code of a length counts the codes of the shorter ones (41_huffman.md R223). -/
theorem firstCode_eq (lens : List Nat) (L : Nat) : firstCode lens L = shorterCodes lens L := by
  induction L with
  | zero =>
    unfold firstCode shorterCodes
    simp
  | succ L ih => rw [firstCode, ih, shorterCodes_succ]

/-- A later first code lies past every shorter code. -/
theorem firstCode_past (lens : List Nat) (L d : Nat) :
    (firstCode lens L + lengthCount lens L) * 2 ^ (d + 1) ≤ firstCode lens (L + (d + 1)) := by
  induction d with
  | zero => simp [firstCode]
  | succ d ih =>
    rw [show L + (d + 1 + 1) = (L + (d + 1)) + 1 by omega, firstCode, Nat.pow_succ, ← Nat.mul_assoc]
    exact Nat.mul_le_mul_right 2 (Nat.le_trans ih (Nat.le_add_right _ _))

/-- The validity check at length `L`: the codes up to that length fit (41_huffman.md R226). -/
theorem codesLeft_eq (lens : List Nat) (L : Nat) :
    codesLeft lens L = if firstCode lens L + lengthCount lens L ≤ 2 ^ L
      then some (2 ^ L - (firstCode lens L + lengthCount lens L)) else none := by
  induction L with
  | zero => simp [codesLeft, firstCode, lengthCount]
  | succ L ih =>
    have e1 : firstCode lens (L + 1) = (firstCode lens L + lengthCount lens L) * 2 := rfl
    have e2 : 2 ^ (L + 1) = 2 ^ L * 2 := Nat.pow_succ ..
    rw [codesLeft, ih]
    by_cases h : firstCode lens L + lengthCount lens L ≤ 2 ^ L
    · simp only [if_pos h]
      by_cases h2 : 2 * (2 ^ L - (firstCode lens L + lengthCount lens L)) < lengthCount lens (L + 1)
      · rw [if_pos h2, if_neg (by omega)]
      · rw [if_neg h2, if_pos (by omega)]; congr 1; omega
    · simp only [if_neg h]
      rw [if_neg (by omega)]

/-- The codes of every length fit if those of the longest do. -/
theorem fits_below {lens : List Nat} {L M : Nat} (h : firstCode lens M + lengthCount lens M ≤ 2 ^ M) (hL : L ≤ M) :
    firstCode lens L + lengthCount lens L ≤ 2 ^ L := by
  rcases Nat.eq_or_lt_of_le hL with rfl | hlt
  · exact h
  · have hp := firstCode_past lens L (M - L - 1)
    rw [show M - L - 1 + 1 = M - L by omega, show L + (M - L) = M by omega] at hp
    have : (firstCode lens L + lengthCount lens L) * 2 ^ (M - L) ≤ 2 ^ L * 2 ^ (M - L) := by
      rw [← Nat.pow_add, show L + (M - L) = M by omega]; omega
    exact Nat.le_of_mul_le_mul_right this (Nat.two_pow_pos _)

/-! ### The longest length -/

theorem foldl_max_ge (lens : List Nat) (m : Nat) : m ≤ lens.foldl Nat.max m := by
  induction lens generalizing m with
  | nil => simp
  | cons l rest ih => exact Nat.le_trans (Nat.le_max_left m l) (ih _)

theorem le_foldl_max {lens : List Nat} {l : Nat} (h : l ∈ lens) (m : Nat) : l ≤ lens.foldl Nat.max m := by
  induction lens generalizing m with
  | nil => cases h
  | cons k rest ih =>
    rcases List.mem_cons.1 h with rfl | h
    · exact Nat.le_trans (Nat.le_max_right m l) (foldl_max_ge _ _)
    · exact ih h _

theorem foldl_max_le {lens : List Nat} {b m : Nat} (hm : m ≤ b) (h : ∀ l ∈ lens, l ≤ b) :
    lens.foldl Nat.max m ≤ b := by
  induction lens generalizing m with
  | nil => exact hm
  | cons k rest ih =>
    exact ih (Nat.max_le.2 ⟨hm, h k List.mem_cons_self⟩) (fun l hl => h l (List.mem_cons_of_mem _ hl))

/-- No length is above the longest (41_huffman.md R221). -/
theorem le_maxLength {lens : List Nat} {l : Nat} (h : l ∈ lens) : l ≤ maxLength lens := le_foldl_max h 0

theorem maxLength_le {lens : List Nat} {b : Nat} (h : ∀ l ∈ lens, l ≤ b) : maxLength lens ≤ b :=
  foldl_max_le (Nat.zero_le _) h

/-- The longest length is 0 exactly when every length is (41_huffman.md R221). -/
theorem maxLength_eq_zero {lens : List Nat} : maxLength lens = 0 ↔ ∀ l ∈ lens, l = 0 :=
  ⟨fun h _ hl => Nat.le_zero.1 (h ▸ le_maxLength hl), fun h => Nat.le_zero.1 (maxLength_le fun l hl => Nat.le_of_eq (h l hl))⟩

/-! ### When BuildTable accepts -/

theorem kraftSum_eq {lens : List Nat} {M : Nat} (h : ∀ l ∈ lens, l ≤ M) (hM : M ≤ 15) :
    kraftSum lens = (shorterCodes lens M + lengthCount lens M) * 2 ^ (15 - M) := by
  induction lens with
  | nil => simp [kraftSum, shorterCodes, lengthCount]
  | cons l rest ih =>
    have hl := h l List.mem_cons_self
    have hr := ih fun k hk => h k (List.mem_cons_of_mem _ hk)
    have hk : kraftSum (l :: rest) = (if l ≠ 0 then 2 ^ (15 - l) else 0) + kraftSum rest := by
      unfold kraftSum; rw [List.filter_cons]; split <;> simp_all
    rw [hk, shorterCodes_cons, lengthCount_cons, hr]
    by_cases h0 : l = 0
    · simp [h0]
    · by_cases he : l = M
      · subst he; simp [h0]; ring
      · have : 2 ^ (15 - l) = 2 ^ (M - l) * 2 ^ (15 - M) := by rw [← Nat.pow_add]; congr 1; omega
        simp [h0, he, show l < M by omega, this]; ring

/-- The longest codes fit exactly when the sequence is not oversubscribed (41_huffman.md R226). -/
theorem fits_iff {lens : List Nat} (h : ∀ l ∈ lens, l ≤ 15) :
    firstCode lens (maxLength lens) + lengthCount lens (maxLength lens) ≤ 2 ^ maxLength lens ↔
      kraftSum lens ≤ 2 ^ 15 := by
  have hM := maxLength_le h
  rw [kraftSum_eq (M := maxLength lens) (fun l hl => le_maxLength hl) hM, firstCode_eq]
  conv => rhs; rhs; rw [show (15 : Nat) = maxLength lens + (15 - maxLength lens) by omega, Nat.pow_add]
  exact ⟨fun h => Nat.mul_le_mul_right _ h, fun h => Nat.le_of_mul_le_mul_right h (Nat.two_pow_pos _)⟩

/-- The table of an accepted sequence with a code. -/
def builtTable (lens : List Nat) : Table :=
  { max := maxLength lens, entries := (List.range (2 ^ maxLength lens)).map (filledEntry (symbolCodes (maxLength lens) lens)) }

/-- BuildTable on an alphabet with codes (41_huffman.md R220). -/
theorem buildTable_some {lens : List Nat} {used : Bool} (h0 : maxLength lens ≠ 0)
    (hf : firstCode lens (maxLength lens) + lengthCount lens (maxLength lens) ≤ 2 ^ maxLength lens) :
    buildTable lens used = some (builtTable lens) := by
  unfold buildTable builtTable
  simp only [if_neg h0, codesLeft_eq, if_pos hf]

theorem buildTable_empty {lens : List Nat} {used : Bool} (h0 : maxLength lens = 0) :
    buildTable lens used = if used then none else some Table.empty := by
  unfold buildTable
  simp only [if_pos h0]

theorem buildTable_over {lens : List Nat} {used : Bool} (h0 : maxLength lens ≠ 0)
    (hf : ¬ firstCode lens (maxLength lens) + lengthCount lens (maxLength lens) ≤ 2 ^ maxLength lens) :
    buildTable lens used = none := by
  unfold buildTable
  simp only [if_neg h0, codesLeft_eq, if_neg hf]

/-! ### The codes -/

/-- The code BuildTable gives to symbol `v` (41_huffman.md R223). -/
theorem canonicalCode_eq (lens : List Nat) (v : Nat) :
    canonicalCode lens v = firstCode lens (lens.getD v 0) + (lens.take v).count (lens.getD v 0) := by
  rw [firstCode_eq]; rfl

theorem count_take_lt {lens : List Nat} {v : Nat} (hv : v < lens.length) {L : Nat} (hL : lens.getD v 0 = L)
    (h0 : L ≠ 0) : (lens.take v).count L < lengthCount lens L := by
  unfold lengthCount
  rw [if_neg h0]
  have hv' : lens[v] = L := by rw [← hL, List.getD_eq_getElem _ _ hv]
  have h1 : (lens.take (v + 1)).count L = (lens.take v).count L + 1 := by
    rw [List.take_succ_eq_append_getElem hv, List.count_append, hv']; simp
  have h2 : (lens.take (v + 1)).count L ≤ lens.count L := (List.take_sublist _ _).count_le _
  omega

theorem count_take_mono {lens : List Nat} {v w : Nat} (hw : w ≤ lens.length) (hvw : v < w) {L : Nat}
    (hL : lens.getD v 0 = L) : (lens.take v).count L < (lens.take w).count L := by
  have hv : v < lens.length := by omega
  have hv' : lens[v] = L := by rw [← hL, List.getD_eq_getElem _ _ hv]
  have h1 : (lens.take (v + 1)).count L = (lens.take v).count L + 1 := by
    rw [List.take_succ_eq_append_getElem hv, List.count_append, hv']; simp
  have h2 : (lens.take (v + 1)).count L ≤ (lens.take w).count L :=
    (List.take_sublist_take_left (by omega)).count_le _
  omega

/-- Every code is a number of its length's bits. -/
theorem canonicalCode_lt {lens : List Nat} {v : Nat} (hv : v < lens.length) (h0 : lens.getD v 0 ≠ 0)
    (hf : firstCode lens (lens.getD v 0) + lengthCount lens (lens.getD v 0) ≤ 2 ^ lens.getD v 0) :
    canonicalCode lens v < 2 ^ lens.getD v 0 := by
  have := count_take_lt hv rfl h0
  rw [canonicalCode_eq]; omega

/-- Bits `b 0 .. b (n-1)` as a number, the first its most significant. -/
def msbFirst (b : Nat → Bool) : (n : Nat) → Nat
  | 0 => 0
  | n + 1 => 2 * msbFirst b n + (b n).toNat

theorem msbFirst_prefix (b : Nat → Bool) (n d : Nat) : msbFirst b (n + d) / 2 ^ d = msbFirst b n := by
  induction d with
  | zero => simp
  | succ d ih =>
    have hb := Bool.toNat_le (b (n + d))
    rw [show n + (d + 1) = (n + d) + 1 by omega, msbFirst, Nat.pow_succ, Nat.mul_comm (2 ^ d), ← Nat.div_div_eq_div_mul]
    rw [show (2 * msbFirst b (n + d) + (b (n + d)).toNat) / 2 = msbFirst b (n + d) by omega, ih]

theorem msbFirst_of_bits {b : Nat → Bool} {n c : Nat} (hc : c < 2 ^ n) (h : ∀ i < n, b i = c.testBit (n - 1 - i)) :
    msbFirst b n = c := by
  induction n generalizing c with
  | zero => simp at hc; simp [msbFirst, hc]
  | succ n ih =>
    have h2 : msbFirst b n = c / 2 := by
      apply ih (by rw [Nat.pow_succ] at hc; omega)
      intro i hi
      rw [h i (by omega), ← Nat.testBit_succ]
      congr 1; omega
    have h3 := h n (by omega)
    rw [show n + 1 - 1 - n = 0 by omega, Nat.testBit_zero] at h3
    rw [msbFirst, h2, h3]
    have := Nat.mod_two_eq_zero_or_one c
    rcases this with h | h <;> simp [h] <;> omega

/-- No code begins another (41_huffman.md R228). -/
theorem codes_prefix_free {lens : List Nat} {M : Nat}
    (hf : firstCode lens M + lengthCount lens M ≤ 2 ^ M) (hM : ∀ l ∈ lens, l ≤ M) {v w : Nat} {b : Nat → Bool}
    (hv : codeBegins lens v b) (hw : codeBegins lens w b) : v = w := by
  wlog hle : lens.getD v 0 ≤ lens.getD w 0 generalizing v w
  · exact (this hw hv (by omega)).symm
  obtain ⟨hvl, hv0, hvb⟩ := hv
  obtain ⟨hwl, hw0, hwb⟩ := hw
  have hmem : ∀ {u : Nat}, u < lens.length → lens.getD u 0 ≤ M := fun {u} hu => by
    rw [List.getD_eq_getElem _ _ hu]; exact hM _ (List.getElem_mem hu)
  have hcv := canonicalCode_lt hvl hv0 (fits_below hf (hmem hvl))
  have hcw := canonicalCode_lt hwl hw0 (fits_below hf (hmem hwl))
  have ev := msbFirst_of_bits hcv hvb
  have ew := msbFirst_of_bits hcw hwb
  have hp := msbFirst_prefix b (lens.getD v 0) (lens.getD w 0 - lens.getD v 0)
  rw [show lens.getD v 0 + (lens.getD w 0 - lens.getD v 0) = lens.getD w 0 by omega, ev, ew] at hp
  have ecv := canonicalCode_eq lens v
  have ecw := canonicalCode_eq lens w
  rcases Nat.eq_or_lt_of_le hle with he | hlt
  · rw [← he, Nat.sub_self, Nat.pow_zero, Nat.div_one] at hp
    rw [← he] at ecw
    have hcount : (lens.take v).count (lens.getD v 0) = (lens.take w).count (lens.getD v 0) := by omega
    rcases Nat.lt_trichotomy v w with h | h | h
    · have := count_take_mono (lens := lens) (by omega) h (rfl : lens.getD v 0 = _); omega
    · exact h
    · have := count_take_mono (lens := lens) (by omega) h (he.symm : lens.getD w 0 = _); omega
  · exfalso
    have hpast := firstCode_past lens (lens.getD v 0) (lens.getD w 0 - lens.getD v 0 - 1)
    rw [show lens.getD w 0 - lens.getD v 0 - 1 + 1 = lens.getD w 0 - lens.getD v 0 by omega,
      show lens.getD v 0 + (lens.getD w 0 - lens.getD v 0) = lens.getD w 0 by omega] at hpast
    have hct := count_take_lt hvl rfl hv0
    have : canonicalCode lens v + 1 ≤ canonicalCode lens w / 2 ^ (lens.getD w 0 - lens.getD v 0) := by
      rw [Nat.le_div_iff_mul_le (Nat.two_pow_pos _)]
      refine Nat.le_trans (Nat.mul_le_mul_right _ (?_ : _ ≤ firstCode lens (lens.getD v 0) + lengthCount lens (lens.getD v 0))) ?_
      · omega
      · omega
    omega

/-! ### The reversed codes -/

theorem reverseBits_lt (L c : Nat) : reverseBits L c < 2 ^ L := by
  induction L generalizing c with
  | zero => simp [reverseBits]
  | succ L ih =>
    have := ih (c / 2)
    have hm : c % 2 * 2 ^ L ≤ 1 * 2 ^ L := Nat.mul_le_mul_right _ (by omega)
    rw [reverseBits, Nat.pow_succ]; omega

/-- Bit `i` of the reversed code is bit `L-1-i` of the code (41_huffman.md R224). -/
theorem reverseBits_testBit (L c i : Nat) (hi : i < L) : (reverseBits L c).testBit i = c.testBit (L - 1 - i) := by
  induction L generalizing c i with
  | zero => omega
  | succ L ih =>
    have hlt := reverseBits_lt L (c / 2)
    rw [reverseBits, Nat.mul_comm, Nat.testBit_two_pow_mul_add _ hlt]
    by_cases h : i < L
    · rw [if_pos h, ih _ _ h, ← Nat.testBit_succ]; congr 1; omega
    · rw [if_neg h, show i - L = 0 by omega, show L + 1 - 1 - i = 0 by omega, Nat.testBit_zero, Nat.testBit_zero]
      simp

theorem mod_eq_reverse_iff (L c j : Nat) :
    j % 2 ^ L = reverseBits L c ↔ ∀ i < L, j.testBit i = c.testBit (L - 1 - i) := by
  constructor
  · intro h i hi
    rw [← reverseBits_testBit L c i hi, ← h, Nat.testBit_mod_two_pow]; simp [hi]
  · intro h
    apply Nat.eq_of_testBit_eq
    intro i
    rw [Nat.testBit_mod_two_pow]
    by_cases hi : i < L
    · simp [hi, h i hi, reverseBits_testBit L c i hi]
    · simp only [hi, decide_false, Bool.false_and]
      exact (Nat.testBit_lt_two_pow (Nat.lt_of_lt_of_le (reverseBits_lt L c) (Nat.pow_le_pow_right (by omega) (by omega)))).symm

/-! ### The assigned codes -/

/-- Which codes `assignCodes` lists: one for each symbol with a length, `next` advanced by the earlier
symbols of that length (41_huffman.md R220). -/
theorem mem_assignCodes {next : List Nat} {s : Nat} {lens : List Nat} (hn : ∀ l ∈ lens, l < next.length)
    {c : SymbolCode} : c ∈ assignCodes next s lens ↔
      ∃ i, i < lens.length ∧ lens.getD i 0 ≠ 0 ∧
        c = { len := lens.getD i 0,
              rev := reverseBits (lens.getD i 0) (next.getD (lens.getD i 0) 0 + (lens.take i).count (lens.getD i 0)),
              sym := s + i } := by
  induction lens generalizing next s with
  | nil => simp [assignCodes]
  | cons l rest ih =>
    have hl := hn l List.mem_cons_self
    have hr : ∀ k ∈ rest, k < next.length := fun k hk => hn k (List.mem_cons_of_mem _ hk)
    rw [assignCodes]
    by_cases h0 : l = 0
    · rw [if_pos h0, ih hr]
      constructor
      · rintro ⟨i, hi, hz, rfl⟩
        refine ⟨i + 1, by simpa using hi, by simpa using hz, ?_⟩
        have : (0 :: rest.take i).count (rest.getD i 0) = (rest.take i).count (rest.getD i 0) :=
          List.count_cons_of_ne (fun h => hz h.symm)
        simp only [List.getD_cons_succ, List.take_succ_cons, h0, this]
        rw [show s + 1 + i = s + (i + 1) by omega]
      · rintro ⟨i, hi, hz, rfl⟩
        cases i with
        | zero => simp [h0] at hz
        | succ i =>
          refine ⟨i, by simpa using hi, by simpa using hz, ?_⟩
          have hz' : rest.getD i 0 ≠ 0 := by simpa using hz
          have : (0 :: rest.take i).count (rest.getD i 0) = (rest.take i).count (rest.getD i 0) :=
            List.count_cons_of_ne (fun h => hz' h.symm)
          simp only [List.getD_cons_succ, List.take_succ_cons, h0, this]
          rw [show s + 1 + i = s + (i + 1) by omega]
    · rw [if_neg h0, List.mem_cons, ih (by simpa using hr)]
      have step : ∀ i, (next.set l (next.getD l 0 + 1)).getD (rest.getD i 0) 0 + (rest.take i).count (rest.getD i 0)
          = next.getD (rest.getD i 0) 0 + (l :: rest.take i).count (rest.getD i 0) := by
        intro i
        rw [List.count_cons]
        by_cases h : l = rest.getD i 0
        · rw [← h]
          simp only [List.getD_eq_getElem?_getD, List.getElem?_set_self hl, Option.getD_some, beq_self_eq_true, if_true]
          omega
        · have hb : (l == rest.getD i 0) = false := by simpa using h
          simp only [List.getD_eq_getElem?_getD] at h hb ⊢
          rw [List.getElem?_set_ne h, hb]; simp
      constructor
      · rintro (rfl | ⟨i, hi, hz, rfl⟩)
        · exact ⟨0, by simp, by simpa using h0, by simp⟩
        · refine ⟨i + 1, by simpa using hi, by simpa using hz, ?_⟩
          simp only [List.getD_cons_succ, List.take_succ_cons]
          rw [step i, show s + 1 + i = s + (i + 1) by omega]
      · rintro ⟨i, hi, hz, rfl⟩
        cases i with
        | zero => left; simp
        | succ i =>
          right
          refine ⟨i, by simpa using hi, by simpa using hz, ?_⟩
          simp only [List.getD_cons_succ, List.take_succ_cons]
          rw [step i, show s + 1 + i = s + (i + 1) by omega]

/-- The codes of a length sequence are its symbols' canonical codes, reversed. -/
theorem mem_symbolCodes {lens : List Nat} {M : Nat} (hM : ∀ l ∈ lens, l ≤ M) {c : SymbolCode} :
    c ∈ symbolCodes M lens ↔ ∃ v, v < lens.length ∧ lens.getD v 0 ≠ 0 ∧
      c = { len := lens.getD v 0, rev := reverseBits (lens.getD v 0) (canonicalCode lens v), sym := v } := by
  rw [symbolCodes, mem_assignCodes (by intro l hl; have := hM l hl; simp; omega)]
  have get : ∀ v, v < lens.length →
      ((List.range (M + 1)).map (firstCode lens)).getD (lens.getD v 0) 0 = firstCode lens (lens.getD v 0) := by
    intro v hv
    have : lens.getD v 0 ≤ M := by rw [List.getD_eq_getElem _ _ hv]; exact hM _ (List.getElem_mem hv)
    rw [List.getD_eq_getElem _ _ (by rw [List.length_map, List.length_range]; omega)]; simp
  constructor
  · rintro ⟨v, hv, h0, rfl⟩
    exact ⟨v, hv, h0, by rw [get v hv, canonicalCode_eq, Nat.zero_add]⟩
  · rintro ⟨v, hv, h0, rfl⟩
    exact ⟨v, hv, h0, by rw [get v hv, canonicalCode_eq, Nat.zero_add]⟩

/-! ### The entries -/

/-- A filled entry is that of a code whose slots it lies in, an unfilled one of none. -/
theorem filledEntry_cases (codes : List SymbolCode) (j : Nat) :
    (filledEntry codes j = Entry.unfilled ∧ ∀ c ∈ codes, j % 2 ^ c.len ≠ c.rev) ∨
    ∃ c ∈ codes, j % 2 ^ c.len = c.rev ∧
      filledEntry codes j = { len := BitVec.ofNat 4 c.len, sym := BitVec.ofNat 16 c.sym } := by
  unfold filledEntry
  generalize Entry.unfilled = e
  induction codes generalizing e with
  | nil => left; simp
  | cons c rest ih =>
    rw [List.foldl_cons]
    rcases ih (if j % 2 ^ c.len = c.rev then { len := BitVec.ofNat 4 c.len, sym := BitVec.ofNat 16 c.sym } else e)
      with ⟨h, hn⟩ | ⟨d, hd, hj, h⟩
    · by_cases hc : j % 2 ^ c.len = c.rev
      · right; exact ⟨c, List.mem_cons_self, hc, by rw [h, if_pos hc]⟩
      · left
        refine ⟨by rw [h, if_neg hc], fun d hd => ?_⟩
        rcases List.mem_cons.1 hd with rfl | hd
        · exact hc
        · exact hn d hd
    · right; exact ⟨d, List.mem_cons_of_mem _ hd, hj, h⟩

/-- BuildTable accepts a legal length sequence exactly if it is not oversubscribed and either has a code
or need not have one (41_huffman.md R222, R226). -/
theorem buildTable_eq_none {lens : List Nat} {used : Bool} (h : ∀ l ∈ lens, l ≤ 15) :
    buildTable lens used = none ↔ (used = true ∧ ∀ l ∈ lens, l = 0) ∨ 2 ^ 15 < kraftSum lens := by
  by_cases h0 : maxLength lens = 0
  · have hz := maxLength_eq_zero.1 h0
    have hk : kraftSum lens = 0 := by
      unfold kraftSum
      rw [List.filter_eq_nil_iff.2 (by intro l hl; simp [hz l hl])]; rfl
    rw [buildTable_empty h0, hk]
    cases used <;> simp
    exact hz
  · have hnz : ¬ ∀ l ∈ lens, l = 0 := fun hz => h0 (maxLength_eq_zero.2 hz)
    by_cases hf : firstCode lens (maxLength lens) + lengthCount lens (maxLength lens) ≤ 2 ^ maxLength lens
    · have := (fits_iff h).1 hf
      rw [buildTable_some h0 hf]; simp only [reduceCtorEq, false_iff, not_or, hnz, and_false, not_false_iff, true_and]
      omega
    · have : ¬ kraftSum lens ≤ 2 ^ 15 := fun hk => hf ((fits_iff h).2 hk)
      rw [buildTable_over h0 hf]; simp only [true_iff]; right; omega

/-- What an accepted table is (41_huffman.md R221, R225, R227, R228): `max` is the longest length, there
are `2^max` entries, and entry `j` is that of the one symbol whose code begins the bits of `j`, or
unfilled if there is none. -/
theorem buildTable_entry {lens : List Nat} {used : Bool} {t : Table}
    (hb : buildTable lens used = some t) :
    t.max = maxLength lens ∧ (t.max ≠ 0 → t.entries.length = 2 ^ t.max) ∧
    ∀ j < 2 ^ t.max, t.max ≠ 0 →
      (∀ v, codeBegins lens v j.testBit →
        t.entry j = { len := BitVec.ofNat 4 (lens.getD v 0), sym := BitVec.ofNat 16 v }) ∧
      ((∀ v, ¬ codeBegins lens v j.testBit) → t.entry j = Entry.unfilled) := by
  by_cases h0 : maxLength lens = 0
  · rw [buildTable_empty h0] at hb
    cases used <;> simp at hb
    subst hb
    exact ⟨h0.symm, fun h' => absurd rfl h', fun _ _ h' => absurd rfl h'⟩
  · by_cases hf : firstCode lens (maxLength lens) + lengthCount lens (maxLength lens) ≤ 2 ^ maxLength lens
    swap
    · rw [buildTable_over h0 hf] at hb; cases hb
    rw [buildTable_some h0 hf] at hb
    cases hb
    refine ⟨rfl, fun _ => by simp [builtTable], fun j hj _ => ?_⟩
    have hj' : j < 2 ^ maxLength lens := hj
    have hM : ∀ l ∈ lens, l ≤ maxLength lens := fun l hl => le_maxLength hl
    have he : (builtTable lens).entry j = filledEntry (symbolCodes (maxLength lens) lens) j := by
      unfold Table.entry builtTable
      rw [List.getD_eq_getElem _ _ (by simpa using hj')]; simp
    have hmatch : ∀ v, codeBegins lens v j.testBit ↔
        ∃ c ∈ symbolCodes (maxLength lens) lens, c.sym = v ∧ j % 2 ^ c.len = c.rev := by
      intro v
      constructor
      · rintro ⟨hv, hv0, hbits⟩
        exact ⟨_, (mem_symbolCodes hM).2 ⟨v, hv, hv0, rfl⟩, rfl, (mod_eq_reverse_iff _ _ _).2 hbits⟩
      · rintro ⟨c, hc, rfl, hj⟩
        obtain ⟨v, hv, hv0, rfl⟩ := (mem_symbolCodes hM).1 hc
        exact ⟨hv, hv0, (mod_eq_reverse_iff _ _ _).1 hj⟩
    rw [he]
    rcases filledEntry_cases (symbolCodes (maxLength lens) lens) j with ⟨hu, hn⟩ | ⟨c, hc, hcj, hce⟩
    · refine ⟨fun v hv => ?_, fun _ => hu⟩
      obtain ⟨c, hc, _, hcj⟩ := (hmatch v).1 hv
      exact absurd hcj (hn c hc)
    · refine ⟨fun v hv => ?_, fun hno => absurd ((hmatch c.sym).2 ⟨c, hc, rfl, hcj⟩) (hno _)⟩
      have : c.sym = v := codes_prefix_free hf hM ((hmatch c.sym).2 ⟨c, hc, rfl, hcj⟩) hv
      obtain ⟨w, _, _, rfl⟩ := (mem_symbolCodes hM).1 hc
      rw [hce]; simp only at this ⊢; rw [this]

/-- An accepted table is one of the tables the machine's invariant allows. -/
theorem buildTable_ok {lens : List Nat} {used : Bool} {t : Table} {m : Nat} (h : ∀ l ∈ lens, l ≤ 15)
    (hlen : lens.length ≤ m + 1) (hb : buildTable lens used = some t) : t.Ok m := by
  by_cases h0 : maxLength lens = 0
  · rw [buildTable_empty h0] at hb
    cases used <;> simp at hb
    subst hb
    exact ⟨Nat.zero_le _, fun h => absurd rfl h, by simp, by simp⟩
  · by_cases hf : firstCode lens (maxLength lens) + lengthCount lens (maxLength lens) ≤ 2 ^ maxLength lens
    swap
    · rw [buildTable_over h0 hf] at hb; cases hb
    rw [buildTable_some h0 hf] at hb
    cases hb
    have hM : ∀ l ∈ lens, l ≤ maxLength lens := fun l hl => le_maxLength hl
    have key : ∀ e ∈ (List.range (2 ^ maxLength lens)).map (filledEntry (symbolCodes (maxLength lens) lens)),
        e.len.toNat ≤ maxLength lens ∧ e.sym.toNat ≤ m := by
      intro e he
      obtain ⟨j, _, rfl⟩ := List.mem_map.1 he
      rcases filledEntry_cases (symbolCodes (maxLength lens) lens) j with ⟨hu, _⟩ | ⟨c, hc, _, hce⟩
      · rw [hu]; simp [Entry.unfilled]
      · obtain ⟨v, hv, _, rfl⟩ := (mem_symbolCodes hM).1 hc
        rw [hce]
        have hvl : lens.getD v 0 ≤ maxLength lens := by
          rw [List.getD_eq_getElem _ _ hv]; exact hM _ (List.getElem_mem hv)
        have h15 := maxLength_le h
        simp only [BitVec.toNat_ofNat]
        constructor
        · exact Nat.le_trans (Nat.mod_le _ _) hvl
        · exact Nat.le_trans (Nat.mod_le _ _) (by omega)
    exact ⟨maxLength_le h, fun _ => by simp [builtTable], fun e he => (key e he).1, fun e he => (key e he).2⟩

theorem buildTableStep_flows {lens : List Nat} {used : Bool} {s : State} (h : s.Good) {m : Nat}
    (hl : ∀ l ∈ lens, l ≤ 15) (hlen : lens.length ≤ m + 1) :
    (buildTableStep lens used s).Sat (fun t u => t.Ok m ∧ buildTable lens used = some t ∧ u = s) (FlowError s) := by
  rw [buildTableStep]
  cases hb : buildTable lens used with
  | none => exact State.Flows.refl h
  | some t => exact ⟨buildTable_ok hl hlen hb, rfl, rfl⟩

theorem fixedLitLengths_le : ∀ l ∈ fixedLitLengths, l ≤ 15 := by
  intro l hl
  simp only [fixedLitLengths, List.mem_append, List.mem_replicate] at hl
  omega

theorem fixedDistLengths_le : ∀ l ∈ fixedDistLengths, l ≤ 15 := by
  intro l hl
  simp only [fixedDistLengths, List.mem_replicate] at hl
  omega

theorem kraftSum_append (a b : List Nat) : kraftSum (a ++ b) = kraftSum a + kraftSum b := by
  simp [kraftSum]

theorem kraftSum_replicate (n l : Nat) (h : l ≠ 0) : kraftSum (List.replicate n l) = n * 2 ^ (15 - l) := by
  simp [kraftSum, h]

/-- The fixed tables (41_huffman.md R230, R231) are the ones BuildTable accepts. -/
theorem fixedLitTable_built : buildTable fixedLitLengths true = some fixedLitTable := by
  have : buildTable fixedLitLengths true ≠ none := by
    rw [Ne, buildTable_eq_none fixedLitLengths_le]
    have h8 : (8 : Nat) ∈ fixedLitLengths := by
      exact List.mem_append_right _ (List.mem_replicate.2 ⟨by decide, rfl⟩)
    have hk : kraftSum fixedLitLengths = 2 ^ 15 := by
      simp only [fixedLitLengths, kraftSum_append]
      rw [kraftSum_replicate _ _ (by omega), kraftSum_replicate _ _ (by omega), kraftSum_replicate _ _ (by omega),
        kraftSum_replicate _ _ (by omega)]
      norm_num
    rintro (⟨_, h⟩ | h)
    · have := h 8 h8; omega
    · omega
  unfold fixedLitTable
  cases h : buildTable fixedLitLengths true with
  | none => exact absurd h this
  | some t => rfl

theorem fixedDistTable_built : buildTable fixedDistLengths false = some fixedDistTable := by
  have : buildTable fixedDistLengths false ≠ none := by
    rw [Ne, buildTable_eq_none fixedDistLengths_le]
    have hk : kraftSum fixedDistLengths = 30 * 2 ^ 10 := by
      rw [fixedDistLengths, kraftSum_replicate _ _ (by omega)]
    rintro (⟨h, _⟩ | h)
    · cases h
    · omega
  unfold fixedDistTable
  cases h : buildTable fixedDistLengths false with
  | none => exact absurd h this
  | some t => rfl

theorem fixedLitTable_ok : fixedLitTable.Ok 287 :=
  buildTable_ok fixedLitLengths_le (by simp only [fixedLitLengths, List.length_append, List.length_replicate]; omega) fixedLitTable_built

theorem fixedDistTable_ok : fixedDistTable.Ok 31 :=
  buildTable_ok fixedDistLengths_le (by simp only [fixedDistLengths, List.length_replicate]; omega) fixedDistTable_built

end Sys2Proof.Machine
end

