-- ==== Sys2Proof/Laws/Inflate.lean ====
section
/-! SUPPORT. What the elements of INFLATE can do: the stored body, the dynamic header and the match, each
as one law over the operations it is built from. -/

namespace Sys2Proof.Machine

/-! ### Outcomes -/

/-- The outcome is a next state: one with `P`, or the error entry from a state with `E`. -/
def OutcomeSat (o : Outcome) (P : State → Prop) (E : ErrorKind → State → Prop) : Prop :=
  ∃ t, o = .next t ∧ (P t ∨ ∃ k u, E k u ∧ t = u.raise k)

theorem Res.Sat.run {r : Res Unit} {P : State → Prop} {E : ErrorKind → State → Prop}
    (h : r.Sat (fun _ s => P s) E) : OutcomeSat r.run P E := by
  cases r with
  | ok a s => exact ⟨s, rfl, .inl h⟩
  | err k s => exact ⟨s.raise k, rfl, .inr ⟨k, s, h, rfl⟩⟩
  | fault f => exact h.elim
  | refused q => exact h.elim

theorem Res.Sat.andThen {α : Type} {r : Res α} {k : α → State → Outcome} {P : α → State → Prop}
    {Q : State → Prop} {E : ErrorKind → State → Prop} (h : r.Sat P E)
    (hk : ∀ a s, P a s → OutcomeSat (k a s) Q E) : OutcomeSat (r.andThen k) Q E := by
  cases r with
  | ok a s => exact hk a s h
  | err e s => exact ⟨s.raise e, rfl, .inr ⟨e, s, h, rfl⟩⟩
  | fault f => exact h.elim
  | refused q => exact h.elim

theorem OutcomeSat.mono {o : Outcome} {P Q : State → Prop} {E F : ErrorKind → State → Prop}
    (h : OutcomeSat o P E) (hp : ∀ t, P t → Q t) (he : ∀ k u, E k u → F k u) : OutcomeSat o Q F := by
  obtain ⟨t, e, h | ⟨k, u, h, rfl⟩⟩ := h
  · exact ⟨t, e, .inl (hp t h)⟩
  · exact ⟨_, e, .inr ⟨k, u, he k u h, rfl⟩⟩

/-! ### Stored blocks -/

/-- A stored body reads its bytes and ends at BLKEND (42_inflate_blocks.md R260). -/
theorem storedBody_flows {s : State} (h : s.Good) (len nlen : BitVec 16) :
    (storedBody len nlen s).Sat
      (fun _ t => ∃ u, s.Flows u (8 * len.toNat) ∧ t = { u with fsm := .blkend }) (FlowError s) := by
  rw [storedBody]
  split
  · exact (copyStored_flows h len.toNat).bind fun _ t ht => ⟨t, ht, rfl⟩
  · exact State.Flows.refl h

/-! ### The dynamic header -/

theorem clOrder_nodup : clOrder.Nodup := by decide

/-- Setting the entries of distinct keys. -/
theorem foldl_set_getD (ks vs : List Nat) (hk : ks.Nodup) (hv : vs.length ≤ ks.length) (cl : List Nat)
    (hb : ∀ k ∈ ks, k < cl.length) (v : Nat) :
    ((ks.zip vs).foldl (fun cl p => cl.set p.1 p.2) cl).getD v 0 =
      if ks.idxOf v < vs.length then vs.getD (ks.idxOf v) 0 else cl.getD v 0 := by
  induction ks generalizing vs cl with
  | nil =>
    have : vs = [] := List.length_eq_zero_iff.1 (Nat.le_zero.1 hv)
    simp [this]
  | cons k rest ih =>
    cases vs with
    | nil => simp
    | cons w ws =>
      obtain ⟨hkr, hr⟩ := List.nodup_cons.1 hk
      have hb' : ∀ j ∈ rest, j < (cl.set k w).length := fun j hj => by
        rw [List.length_set]; exact hb j (List.mem_cons_of_mem _ hj)
      rw [List.zip_cons_cons, List.foldl_cons, ih ws hr (by simpa using hv) _ hb']
      by_cases hvk : k = v
      · subst hvk
        have hn : ¬ rest.idxOf k < ws.length := by
          rw [List.idxOf_eq_length hkr]; simp only [List.length_cons] at hv; omega
        rw [if_neg hn, List.idxOf_cons_self, if_pos (by simp)]
        rw [List.getD_eq_getElem?_getD, List.getElem?_set_self (hb k List.mem_cons_self)]; rfl
      · rw [List.idxOf_cons_ne _ hvk]
        simp only [List.length_cons, Nat.succ_eq_add_one, Nat.add_lt_add_iff_right, List.getD_cons_succ]
        split
        · rfl
        · rw [List.getD_eq_getElem?_getD, List.getElem?_set_ne hvk, ← List.getD_eq_getElem?_getD]

theorem foldl_set_length (ps : List (Nat × Nat)) (cl : List Nat) :
    (ps.foldl (fun cl p => cl.set p.1 p.2) cl).length = cl.length := by
  induction ps generalizing cl with
  | nil => rfl
  | cons p rest ih => rw [List.foldl_cons, ih, List.length_set]

/-- The code-length code lengths (42_inflate_blocks.md R271): symbol `v` has the length read at its place
in `CL_ORDER`, or 0. -/
theorem clLengths_eq {read : List Nat} (h : read.length ≤ 19) :
    clLengths read = (List.range 19).map fun v => if clOrder.idxOf v < read.length then read.getD (clOrder.idxOf v) 0 else 0 := by
  apply List.ext_getElem
  · rw [clLengths, foldl_set_length]; simp
  · intro v h1 h2
    have hv : v < 19 := by simpa using h2
    have := foldl_set_getD clOrder read clOrder_nodup h (List.replicate 19 0) (by decide) v
    rw [← List.getD_eq_getElem _ 0 h1]
    unfold clLengths
    rw [this]
    rw [List.getElem_map, List.getElem_range]
    split
    · rfl
    · rw [List.getD_eq_getElem _ _ (by rw [List.length_replicate]; exact hv), List.getElem_replicate]

theorem readClLengths_flows {s : State} (h : s.Good) (n : Nat) :
    (readClLengths n s).Sat (fun ls t => ls.length = n ∧ (∀ l ∈ ls, l ≤ 7) ∧ s.Flows t (3 * n)) (FlowError s) := by
  induction n generalizing s with
  | zero => exact ⟨rfl, by simp, State.Flows.refl h⟩
  | succ n ih =>
    rw [readClLengths]
    refine (getBits_flows h (by omega)).bind fun v t ⟨hv, _, ht⟩ => ?_
    refine ((ih ht.good).mono (fun _ _ p => p) (fun _ _ p => ht.error p)).bind fun ls u ⟨hl, hm, hu⟩ => ?_
    refine ⟨by simp [hl], ?_, (ht.trans hu).weaken (by omega)⟩
    intro l hl'
    rcases List.mem_cons.1 hl' with rfl | hl'
    · have := s.field_lt 0 3; omega
    · exact hm l hl'

/-- The code lengths read, as fields of the stream (42_inflate_blocks.md R270). -/
theorem readClLengths_ok {s : State} {n : Nat} (h : s.CanRead (3 * n)) :
    readClLengths n s = .ok ((List.range n).map fun i => s.field (3 * i) 3) (s.afterRead (3 * n) (3 * n)) := by
  induction n generalizing s with
  | zero => rw [readClLengths, show 3 * 0 = 0 from rfl, State.afterRead_zero h.bits (Nat.zero_le _)]; rfl
  | succ n ih =>
    have hb := h.bits
    have hcnt := hb.cntBound
    have hl := s.fetches_least 3
    have he := s.fetches_enough 3
    have hen := h.enough
    have hok := State.afterRead_bitsOk s (want := 3) (n := 3) (by omega)
    have hleft := State.afterRead_bitsLeft (s := s) (want := 3) (n := 3) (by omega) (by omega)
    rw [readClLengths, getBits_ok ⟨hb, by omega, h.inCapOk⟩ (by omega)]
    simp only [Res.bind]
    rw [ih ⟨hok, by omega, h.inCapOk⟩]
    simp only
    rw [State.afterRead_afterRead hb (by
      simp only [State.fetches, ceilDiv, State.afterRead_cnt] at *; omega) (Nat.le_refl _) (by omega),
      show 3 + 3 * n = 3 * (n + 1) by omega, List.range_succ_eq_map, List.map_cons, List.map_map]
    congr 2
    apply List.map_congr_left
    intro i _
    rw [State.afterRead_field (by omega) (by omega)]
    simp only [Function.comp_apply, Nat.succ_eq_add_one]
    congr 1; omega

/-- The scratch of a header being read: its counts, its lengths so far and its table are legal. -/
structure DynScratch.Ok (d : DynScratch) : Prop where
  lens : ∀ l ∈ d.lens, l ≤ 15
  short : d.lens.length ≤ d.hlit + d.hdist
  clt : d.clt.Ok 18
  hlit : d.hlit ≤ 288
  hdist : d.hdist ≤ 32

/-- What an instruction of a header does: it reads from the stream and appends at least one length. -/
structure Lengthens (s t : State) : Prop where
  flows : s.Flows { t with dyn := s.dyn } 0
  dyn : t.dyn = { s.dyn with lens := t.dyn.lens }
  longer : s.dyn.lens.length < t.dyn.lens.length
  ok : t.dyn.Ok

theorem Lengthens.good {s t : State} (h : Lengthens s t) : t.Good := h.flows.good.setDyn t.dyn

theorem pushLengths_lengthens {s u : State} {m : Nat} (hu : s.Flows u m) (hd : s.dyn.Ok) {n v : Nat} (hn : 1 ≤ n)
    (hv : v ≤ 15) (hl : s.dyn.lens.length + n ≤ s.dyn.hlit + s.dyn.hdist) : Lengthens s (u.pushLengths n v) where
  flows := by
    have e : ({ u.pushLengths n v with dyn := s.dyn } : State) = u := by
      show ({ u with dyn := s.dyn } : State) = u
      rw [← hu.dyn_eq]
    rw [e]; exact hu.weaken (Nat.zero_le _)
  dyn := by show _ = _; rw [show (u.pushLengths n v).dyn = { u.dyn with lens := u.dyn.lens ++ List.replicate n v } from rfl, hu.dyn_eq]
  longer := by
    rw [show (u.pushLengths n v).dyn = { u.dyn with lens := u.dyn.lens ++ List.replicate n v } from rfl, hu.dyn_eq]
    simp; omega
  ok := by
    rw [show (u.pushLengths n v).dyn = { u.dyn with lens := u.dyn.lens ++ List.replicate n v } from rfl, hu.dyn_eq]
    refine ⟨?_, by simpa using hl, hd.clt, hd.hlit, hd.hdist⟩
    intro l hl
    rcases List.mem_append.1 hl with hl | hl
    · exact hd.lens l hl
    · rw [(List.mem_replicate.1 hl).2]; exact hv

theorem repeatLength_lengthens {s : State} (h : s.Good) (hd : s.dyn.Ok) {v base extra : Nat} (hv : v ≤ 15)
    (hb : 1 ≤ base) (he : extra ≤ 16) :
    (repeatLength v base extra s).Sat (fun _ t => Lengthens s t) (FlowError s) := by
  rw [repeatLength]
  refine (getBits_flows h he).bind fun e u ⟨_, _, hu⟩ => ?_
  split
  · exact hu.weaken (Nat.zero_le _)
  · rename_i hn
    rw [State.lengthTotal, hu.dyn_eq] at hn
    exact pushLengths_lengthens hu hd (by omega) hv (by omega)

/-- A code-length instruction inside a header with lengths still missing (42_inflate_blocks.md
R272..R276). -/
theorem clStep_lengthens {s : State} (h : s.Good) (hd : s.dyn.Ok) (hm : s.dyn.lens.length < s.lengthTotal)
    {v : Nat} (hv : v ≤ 18) : (clStep v s).Sat (fun _ t => Lengthens s t) (FlowError s) := by
  rw [clStep]
  split
  · rw [clLenStep]
    refine pushLengths_lengthens (State.Flows.refl h) hd (Nat.le_refl _) ?_ hm
    have := (BitVec.ofNat 4 v).isLt; omega
  · split
    · rw [clRep16Step]
      split
      · exact State.Flows.refl h
      · rename_i w hw
        exact repeatLength_lengthens h hd (hd.lens w (List.mem_of_getLast? hw)) (by omega) (by omega)
    · split
      · exact repeatLength_lengthens h hd (by omega) (by omega) (by omega)
      · split
        · exact repeatLength_lengthens h hd (by omega) (by omega) (by omega)
        · omega

/-- The loop of a header ends with every length read (42_inflate_blocks.md R270). -/
theorem clLoop_flows {k : Nat} {s : State} (h : s.Good) (hd : s.dyn.Ok) (hk : s.lengthTotal ≤ s.dyn.lens.length + k) :
    (clLoop k s).Sat
      (fun _ t => s.Flows { t with dyn := s.dyn } 0 ∧ t.dyn = { s.dyn with lens := t.dyn.lens } ∧ t.dyn.Ok ∧
        t.dyn.lens.length = s.lengthTotal)
      (fun _ t => ∃ u d, s.Flows u 0 ∧ t = { u with dyn := d }) := by
  have stop : ∀ {s : State}, s.Good → s.dyn.Ok → ¬ s.dyn.lens.length < s.lengthTotal →
      s.Flows { s with dyn := s.dyn } 0 ∧ s.dyn = { s.dyn with lens := s.dyn.lens } ∧ s.dyn.Ok ∧
        s.dyn.lens.length = s.lengthTotal := fun h hd hn => by
    have := hd.short
    exact ⟨State.Flows.refl h, rfl, hd, by unfold State.lengthTotal at *; omega⟩
  induction k generalizing s with
  | zero => exact stop h hd (by omega)
  | succ k ih =>
    rw [clLoop]
    split
    · rename_i hlt
      refine ((getCode_flows h hd.clt).mono (fun _ _ p => p) (fun _ t p => ⟨t, s.dyn, p, by
        rw [← p.dyn_eq]⟩)).bind fun v t ⟨hv, _, _, ht⟩ => ?_
      have htd : t.dyn.Ok := by rw [ht.dyn_eq]; exact hd
      have htt : t.lengthTotal = s.lengthTotal := by unfold State.lengthTotal; rw [ht.dyn_eq]
      refine ((clStep_lengthens ht.good htd (by rw [htt, ht.dyn_eq]; exact hlt) hv).mono (fun _ _ p => p)
        (fun _ u p => ⟨u, s.dyn, ht.error p, by rw [← ht.dyn_eq, ← p.dyn_eq]⟩)).bind fun _ u hu => ?_
      have hut : u.lengthTotal = s.lengthTotal := by
        rw [← htt]; unfold State.lengthTotal; rw [hu.dyn]
      have hlen := hu.longer
      rw [ht.dyn_eq] at hlen
      have hsu : s.Flows { u with dyn := s.dyn } 0 := by
        have := (ht.trans hu.flows).weaken (Nat.zero_le _)
        rwa [ht.dyn_eq] at this
      refine (ih hu.good hu.ok (by rw [hut]; omega)).mono (fun _ w ⟨h1, h2, h3, h4⟩ => ?_) (fun _ w ⟨x, d, h1, h2⟩ => ?_)
      · refine ⟨?_, ?_, h3, by rw [h4, hut]⟩
        · have e : ({ ({ u with dyn := s.dyn } : State) with dyn := u.dyn } : State) = u := rfl
          rw [← e] at h1
          exact hsu.error h1.dropDyn
        · rw [h2, hu.dyn, ht.dyn_eq]
      · have e : ({ ({ u with dyn := s.dyn } : State) with dyn := u.dyn } : State) = u := rfl
        rw [← e] at h1
        exact ⟨_, d, hsu.error h1.dropDyn, by rw [h2]⟩
    · exact stop h hd ‹_›

/-- The error of a header: the state before it flowed to the state it was raised in, but for the scratch
and the literal/length table. -/
def HeaderError (s : State) (_ : ErrorKind) (t : State) : Prop :=
  ∃ u d l, s.Flows u 0 ∧ l.Ok 287 ∧ t = { u with dyn := d, llt := l }

theorem FlowError.header {s t : State} {k : ErrorKind} (h : FlowError s k t) : HeaderError s k t :=
  ⟨t, t.dyn, t.llt, h, h.good.llt, rfl⟩

/-- The end of a header (42_inflate_blocks.md R277). -/
theorem dynamicTables_flows {s : State} (h : s.Good) (hd : s.dyn.Ok) :
    (dynamicTables s).Sat
      (fun _ t => ∃ l d, l.Ok 287 ∧ d.Ok 31 ∧ t = { s with llt := l, dt := d, dyn := DynScratch.empty, fsm := .symbol })
      (HeaderError s) := by
  rw [dynamicTables]
  have h1 : ∀ l ∈ s.dyn.lens.take s.dyn.hlit, l ≤ 15 := fun l hl => hd.lens l (List.mem_of_mem_take hl)
  have h2 : ∀ l ∈ s.dyn.lens.drop s.dyn.hlit, l ≤ 15 := fun l hl => hd.lens l (List.mem_of_mem_drop hl)
  have n1 : (s.dyn.lens.take s.dyn.hlit).length ≤ 287 + 1 := by
    have := hd.hlit; rw [List.length_take]; omega
  have n2 : (s.dyn.lens.drop s.dyn.hlit).length ≤ 31 + 1 := by
    have := hd.hdist; have := hd.short; rw [List.length_drop]; omega
  refine ((buildTableStep_flows h h1 n1).mono (fun _ _ p => p) (fun _ _ p => p.header)).bind fun l u ⟨hl, _, hu⟩ => ?_
  subst hu
  have hg := h.control l u.dt u.matchLen u.dyn u.bfinal u.btype u.fsm hl h.dt
  refine ((buildTableStep_flows hg h2 n2).mono (fun _ _ p => p) (fun _ v p => ?_)).bind fun d v ⟨hdt, _, hv⟩ => ?_
  · refine ⟨{ v with llt := u.llt }, v.dyn, v.llt, ⟨by rw [p.frame], ?_, p.forward, p.grows, p.kept⟩, p.good.llt, rfl⟩
    exact p.good.control u.llt v.dt v.matchLen v.dyn v.bfinal v.btype v.fsm h.llt p.good.dt
  · subst hv; exact ⟨l, d, hl, hdt, rfl⟩

/-- A dynamic header (42_inflate_blocks.md R270): it reads at least 12 bits after its 14 field bits, and
leaves tables its rules allow. -/
theorem dynamicHeader_flows {s : State} (h : s.Good) (hlit hdist : BitVec 5) (hclen : BitVec 4) :
    (dynamicHeader hlit hdist hclen s).Sat
      (fun _ t => ∃ u l d, s.Flows u 12 ∧ l.Ok 287 ∧ d.Ok 31 ∧
        t = { u with llt := l, dt := d, dyn := DynScratch.empty, fsm := .symbol })
      (HeaderError s) := by
  rw [dynamicHeader]
  refine ((readClLengths_flows h _).mono (fun _ _ p => p) (fun _ _ p => p.header)).bind fun ls t ⟨hlen, hle, ht⟩ => ?_
  have hc : clCount hclen ≤ 19 := by have := hclen.isLt; unfold clCount; omega
  have hc4 : 4 ≤ clCount hclen := by unfold clCount; omega
  have hcl : ∀ l ∈ clLengths ls, l ≤ 15 := by
    rw [clLengths_eq (by omega)]
    intro l hl
    obtain ⟨v, _, rfl⟩ := List.mem_map.1 hl
    split
    · rw [List.getD_eq_getElem _ _ ‹_›]
      exact Nat.le_trans (hle _ (List.getElem_mem _)) (by omega)
    · omega
  have hcn : (clLengths ls).length ≤ 18 + 1 := by rw [clLengths_eq (by omega)]; simp
  refine ((buildTableStep_flows ht.good hcl hcn).mono (fun _ _ p => p)
    (fun k _ p => FlowError.header (k := k) (ht.error p))).bind fun clt u ⟨hclt, _, hu⟩ => ?_
  subst hu
  have hl1 : litCount hlit ≤ 288 := by have := hlit.isLt; unfold litCount; omega
  have hl2 : distCount hdist ≤ 32 := by have := hdist.isLt; unfold distCount; omega
  have hd : ({ hlit := litCount hlit, hdist := distCount hdist, lens := [], clt := clt } : DynScratch).Ok :=
    ⟨by simp, by simp, hclt, hl1, hl2⟩
  refine ((clLoop_flows (ht.good.setDyn _) hd (by simp [State.lengthTotal])).mono (fun _ _ p => p)
    (fun _ w ⟨x, d, p, e⟩ => ?_)).bind fun _ w ⟨h1, _, h3, _⟩ => ?_
  rotate_left
  · exact ⟨_, d, x.llt, ht.error p.dropDyn, p.good.llt, by rw [e]⟩
  · have hf := ht.trans h1.dropDyn
    refine (dynamicTables_flows (h1.good.setDyn w.dyn) h3).mono (fun _ z ⟨l, d, p, q, e⟩ => ?_)
      (fun _ z ⟨x, d, l, p, q, e⟩ => ?_)
    · exact ⟨_, l, d, hf.weaken (by omega), p, q, e⟩
    · have e2 : ({ ({ w with dyn := u.dyn } : State) with dyn := w.dyn } : State) = w := rfl
      have p' : ({ ({ w with dyn := u.dyn } : State) with dyn := w.dyn } : State).Flows x 0 := p
      exact ⟨_, d, l, hf.error p'.dropDyn, q, by rw [e]⟩

/-! ### Matches -/

/-- The last part of a match (43_inflate_symbols.md R302, R305). -/
theorem distancePart_flows {s : State} (h : s.Good) {base extra : Nat} (hb : 1 ≤ base) (he : extra ≤ 16) :
    (distancePart base extra s).Sat (fun _ t => ∃ u, s.Flows u 0 ∧ t = { u with matchLen := 0, fsm := .symbol })
      (FlowError s) := by
  rw [distancePart]
  refine ((getBits_flows h he).mono (fun _ _ p => p) (fun _ _ p => p)).bind fun e t ⟨_, _, ht⟩ => ?_
  refine ((backCopy_flows ht.good (by omega)).mono (fun _ _ p => p) (fun _ _ p => ht.error p)).bind fun _ u hu => ?_
  exact ⟨u, (ht.trans hu).weaken (by omega), rfl⟩

/-- A distance code of the table: its instruction, or InvalidSymbol (43_inflate_symbols.md R305, R307). -/
theorem runDistance_flows {s : State} (h : s.Good) (d : Nat) :
    OutcomeSat (runDistance d s) (fun t => ∃ u, s.Flows u 0 ∧ t = { u with matchLen := 0, fsm := .symbol })
      (FlowError s) := by
  rw [runDistance]
  by_cases hd : d < 30
  · interval_cases d <;> exact (distancePart_flows h (by omega) (by omega)).run
  · rw [List.getElem?_eq_none (by simp [distanceMeanings]; omega)]
    exact ⟨_, rfl, .inr ⟨_, _, State.Flows.refl h, rfl⟩⟩

/-- A match after its length code (43_inflate_symbols.md R305). -/
theorem lengthPart_flows {s : State} (h : s.Good) (base : Nat) {extra : Nat} (he : extra ≤ 16) :
    OutcomeSat (lengthPart base extra s) (fun t => ∃ u, s.Flows u 0 ∧ t = { u with matchLen := 0, fsm := .symbol })
      (fun _ t => ∃ u m, s.Flows u 0 ∧ t = { u with matchLen := m }) := by
  rw [lengthPart]
  refine ((getBits_flows h he).mono (fun _ _ p => p)
    (fun _ t p => ⟨t, t.matchLen, p, rfl⟩)).andThen fun e t ⟨_, _, ht⟩ => ?_
  refine ((getCode_flows (ht.good.setMatchLen (base + e)) (m := 31) (by rw [ht.dt_eq]; exact h.dt)).mono (fun _ _ p => p)
    (fun _ u p => ⟨_, u.matchLen, ht.error p.dropMatchLen, rfl⟩)).andThen fun d u ⟨_, _, _, hu⟩ => ?_
  have hf := ht.trans hu.dropMatchLen
  refine (runDistance_flows hu.good d).mono (fun v ⟨w, hw, e⟩ => ?_) (fun _ v p => ?_)
  · have e2 : ({ ({ u with matchLen := t.matchLen } : State) with matchLen := u.matchLen } : State) = u := rfl
    rw [← e2] at hw
    exact ⟨_, (hf.trans hw.dropMatchLen).weaken (Nat.zero_le _), by rw [e]⟩
  · have e2 : ({ ({ u with matchLen := t.matchLen } : State) with matchLen := u.matchLen } : State) = u := rfl
    have p' : u.Flows v 0 := p
    rw [← e2] at p'
    exact ⟨_, v.matchLen, hf.error p'.dropMatchLen, rfl⟩

/-! ### The scratch and the BitReader do not meet -/

/-- Another scratch of a header. -/
def State.withDyn (s : State) (d : DynScratch) : State := { s with dyn := d }

/-- Another latched match length. -/
def State.withMatchLen (s : State) (n : Nat) : State := { s with matchLen := n }

theorem State.withDyn_field (s : State) (d : DynScratch) (k n : Nat) : (s.withDyn d).field k n = s.field k n := by
  have := State.field_congr (t := s.withDyn d) (s := s) (d := 0)
    (fun k => by rw [Nat.zero_add]; exact State.nextBit_congr (t := s.withDyn d) rfl rfl rfl rfl k) k n
  rwa [Nat.zero_add] at this

theorem State.withMatchLen_field (s : State) (m k n : Nat) : (s.withMatchLen m).field k n = s.field k n := by
  have := State.field_congr (t := s.withMatchLen m) (s := s) (d := 0)
    (fun k => by rw [Nat.zero_add]; exact State.nextBit_congr (t := s.withMatchLen m) rfl rfl rfl rfl k) k n
  rwa [Nat.zero_add] at this

theorem State.withDyn_afterRead (s : State) (d : DynScratch) (want n : Nat) :
    (s.withDyn d).afterRead want n = (s.afterRead want n).withDyn d := by
  unfold State.afterRead; simp only [State.withDyn_field]; rfl

theorem State.withMatchLen_afterRead (s : State) (m want n : Nat) :
    (s.withMatchLen m).afterRead want n = (s.afterRead want n).withMatchLen m := by
  unfold State.afterRead; simp only [State.withMatchLen_field]; rfl

theorem State.withDyn_canRead {s : State} {n : Nat} (h : s.CanRead n) (d : DynScratch) : (s.withDyn d).CanRead n :=
  ⟨⟨h.bits.cntBound, h.bits.accBound⟩, h.enough, h.inCapOk⟩

theorem State.withMatchLen_canRead {s : State} {n : Nat} (h : s.CanRead n) (m : Nat) : (s.withMatchLen m).CanRead n :=
  ⟨⟨h.bits.cntBound, h.bits.accBound⟩, h.enough, h.inCapOk⟩

/-- The last part of a match, with room and a reachable distance: the last `dist` bytes repeated to the
latched length (43_inflate_symbols.md R302). -/
theorem distancePart_ok {s : State} {base extra : Nat} (hr : s.CanRead extra) (he : extra ≤ 16) (hb : 1 ≤ base)
    (h1 : base + s.field 0 extra ≤ s.outLen) (h2 : s.outLen + s.matchLen ≤ s.caps.outCap) :
    ∃ m, distancePart base extra s = .ok () { (s.afterRead extra extra).withOut m (s.outLen + s.matchLen) with
        matchLen := 0, fsm := .symbol } ∧
      (∀ k < s.matchLen, m.read .out (s.outLen + k) =
        s.byteAt .out (s.outLen - (base + s.field 0 extra) + k % (base + s.field 0 extra))) ∧
      ∀ a, a < s.outLen ∨ s.outLen + s.matchLen ≤ a → m.read .out a = s.byteAt .out a := by
  rw [distancePart, getBits_ok hr he]
  simp only [Res.bind]
  rw [backCopy, if_neg (show ¬ (s.afterRead extra extra).outLen < base + s.field 0 extra from Nat.not_lt.2 h1)]
  obtain ⟨m, e, hk, ha⟩ := copyBytes_ok (s := s.afterRead extra extra) (len := s.matchLen)
    (dist := base + s.field 0 extra) (by omega) h1 h2
  rw [show (s.afterRead extra extra).matchLen = s.matchLen from rfl, e]
  exact ⟨m, rfl, hk, ha⟩

end Sys2Proof.Machine
end

