-- ==== Sys2Proof/Laws/Image.lean ====
section
/-! SUPPORT. What the elements of DECODE_PNG can do: the entry checks, a row and a pixel
(44_png_unfilter.md, 45_pixel_assembler.md). -/

namespace Sys2Proof.Machine

theorem readByte_ok {sp : Space} {a : Nat} {s : State} (h : a < s.caps.size sp) :
    readByte sp a s = .ok (s.byteAt sp a) s := by rw [readByte, if_pos h]

theorem writeByte_ok {sp : Space} {a : Nat} {b : Byte} {s : State} (h : a < s.caps.size sp) :
    writeByte sp a b s = .ok () (s.putByte sp a b) := by rw [writeByte, if_pos h]

/-! ### Rows -/

theorem State.putByte_out (s : State) (a : Nat) (b : Byte) :
    s.putByte .out a b = s.withOut (s.out.write a b) s.outLen := rfl

theorem neighbour_ok {p : Bool} {a : Nat} {s : State} (h : p = true → a < s.caps.outCap) :
    neighbour p a s = .ok (if p then s.byteAt .out a else 0) s := by
  unfold neighbour
  cases p with
  | false => rfl
  | true => simp only [if_true]; exact readByte_ok (h rfl)

/-- The byte of a row is replaced by its reconstruction (44_png_unfilter.md R402). -/
theorem unfilterByte_ok {s : State} (ft : FilterType) {x : Nat} (h : s.png.row * s.png.rowlen + 1 + x < s.caps.outCap) :
    unfilterByte ft x s = .ok () (s.putByte .out (s.png.row * s.png.rowlen + 1 + x)
      (BitVec.ofNat 8 (((s.byteAt .out (s.png.row * s.png.rowlen + 1 + x)).toNat
        + predictor ft (s.leftByte s.out x) (s.upByte x) (s.upLeftByte x)) % 256))) := by
  unfold unfilterByte
  simp only [PngRegs.rowBase]
  rw [readByte_ok (show _ < s.caps.size .out from h)]
  simp only [Res.bind]
  rw [neighbour_ok (fun _ => by omega)]
  simp only
  rw [neighbour_ok (fun _ => by omega)]
  simp only
  rw [neighbour_ok (fun _ => by omega)]
  simp only
  rw [writeByte_ok (show _ < s.caps.size .out from h)]
  congr 2
  unfold reconstruct State.leftByte State.upByte State.upLeftByte
  congr 3
  by_cases h1 : s.png.bpp ≤ x <;> by_cases h2 : 1 ≤ s.png.row <;> simp [h1, h2, State.byteAt]

/-- The bytes of a row from `x` to `x + n`, reconstructed in increasing order (44_png_unfilter.md R402). -/
theorem unfilterFrom_ok {s : State} (ft : FilterType) {n x : Nat} (hb : 1 ≤ s.png.bpp)
    (hr : x + n + 1 ≤ s.png.rowlen) (h : s.png.row * s.png.rowlen + 1 + x + n ≤ s.caps.outCap) :
    ∃ m, unfilterFrom ft n x s = .ok () (s.withOut m s.outLen) ∧
      (∀ y, x ≤ y → y < x + n → m.read .out (s.png.row * s.png.rowlen + 1 + y) =
        BitVec.ofNat 8 (((s.byteAt .out (s.png.row * s.png.rowlen + 1 + y)).toNat
          + predictor ft (s.leftByte m y) (s.upByte y) (s.upLeftByte y)) % 256)) ∧
      (∀ a, a < s.png.row * s.png.rowlen + 1 + x ∨ s.png.row * s.png.rowlen + 1 + x + n ≤ a →
        m.read .out a = s.byteAt .out a) ∧
      (m.draw = s.out.draw) ∧ (s.out.wf → m.wf) ∧ (s.out.below s.caps.outCap → m.below s.caps.outCap) := by
  induction n generalizing x s with
  | zero => exact ⟨s.out, rfl, by intros; omega, fun _ _ => rfl, rfl, id, id⟩
  | succ n ih =>
    rw [unfilterFrom, unfilterByte_ok ft (by omega)]
    simp only [Res.bind]
    generalize hv : BitVec.ofNat 8 _ = v
    rw [State.putByte_out]
    obtain ⟨m, e, hm, ha, hd, hw, hbl⟩ := ih (s := s.withOut (s.out.write (s.png.row * s.png.rowlen + 1 + x) v) s.outLen)
      (x := x + 1) hb (by show x + 1 + n + 1 ≤ s.png.rowlen; omega)
      (by show s.png.row * s.png.rowlen + 1 + (x + 1) + n ≤ s.caps.outCap; omega)
    have ep : (s.withOut (s.out.write (s.png.row * s.png.rowlen + 1 + x) v) s.outLen).png = s.png := rfl
    have ec : (s.withOut (s.out.write (s.png.row * s.png.rowlen + 1 + x) v) s.outLen).caps = s.caps := rfl
    simp only [ep, State.withOut_outLen, State.withOut_out, ec] at hm ha hd hw hbl e
    have hread : ∀ a, (s.withOut (s.out.write (s.png.row * s.png.rowlen + 1 + x) v) s.outLen).byteAt .out a
        = if a = s.png.row * s.png.rowlen + 1 + x then v else s.byteAt .out a := by
      intro a
      rw [State.withOut_byteAt]
      by_cases hx : a = s.png.row * s.png.rowlen + 1 + x
      · subst hx; rw [if_pos rfl, Memory.read_write_same]
      · rw [if_neg hx, Memory.read_write_other _ _ _ hx]; rfl
    have hrow : 1 ≤ s.png.row → s.png.rowlen ≤ s.png.row * s.png.rowlen := fun h => by
      have := Nat.mul_le_mul_right s.png.rowlen h; omega
    refine ⟨m, e, ?_, ?_, hd, fun h => hw (Memory.write_wf h _ _), fun h => hbl (Memory.write_below h (by omega) _)⟩
    · intro y hxy hy
      by_cases he : y = x
      · subst he
        rw [ha _ (by omega), hread, if_pos rfl, ← hv]
        have : s.leftByte m y = s.leftByte s.out y := by
          unfold State.leftByte
          by_cases hbp : s.png.bpp ≤ y
          · rw [if_pos hbp, if_pos hbp, ha _ (by omega), hread, if_neg (by omega)]; rfl
          · rw [if_neg hbp, if_neg hbp]
        rw [this]
      · rw [hm y (by omega) (by omega), hread, if_neg (by omega)]
        have h1 : State.leftByte (s.withOut (s.out.write (s.png.row * s.png.rowlen + 1 + x) v) s.outLen) m y
            = s.leftByte m y := rfl
        have h2 : State.upByte (s.withOut (s.out.write (s.png.row * s.png.rowlen + 1 + x) v) s.outLen) y
            = s.upByte y := by
          unfold State.upByte
          simp only [ep, hread]
          split
          · rename_i hp; have := hrow hp; rw [if_neg (by omega)]
          · rfl
        have h3 : State.upLeftByte (s.withOut (s.out.write (s.png.row * s.png.rowlen + 1 + x) v) s.outLen) y
            = s.upLeftByte y := by
          unfold State.upLeftByte
          simp only [ep, hread]
          split
          · rename_i hp; have := hrow hp.1; rw [if_neg (by omega)]
          · rfl
        rw [h1, h2, h3]
    · intro a ha'
      rw [ha a (by omega), hread, if_neg (by omega)]

/-! ### Pixels -/

/-- Another PIX: all that writing a pixel changes. -/
def State.withPix (s : State) (m : Memory) : State := { s with pix := m }

/-- The four bytes of a pixel are written, and no other byte (45_pixel_assembler.md R431). -/
theorem writePixel_ok {s : State} (px : Pixel) (h : 4 * s.png.pixI + 4 ≤ s.caps.pixCap) :
    ∃ m, writePixel px s = .ok () (s.withPix m) ∧
      m.read .pix (4 * s.png.pixI) = px.r ∧ m.read .pix (4 * s.png.pixI + 1) = px.g ∧
      m.read .pix (4 * s.png.pixI + 2) = px.b ∧ m.read .pix (4 * s.png.pixI + 3) = px.al ∧
      (∀ a, a < 4 * s.png.pixI ∨ 4 * s.png.pixI + 4 ≤ a → m.read .pix a = s.byteAt .pix a) ∧
      m.draw = s.pix.draw ∧ (s.pix.wf → m.wf) ∧ (s.pix.below s.caps.pixCap → m.below s.caps.pixCap) := by
  refine ⟨(((s.pix.write (4 * s.png.pixI + 0) px.r).write (4 * s.png.pixI + 1) px.g).write
    (4 * s.png.pixI + 2) px.b).write (4 * s.png.pixI + 3) px.al, ?_, ?_, ?_, ?_, ?_, ?_, rfl, ?_, ?_⟩
  · unfold writePixel
    rw [writeByte_ok (by simp only [pixelTarget, Caps.size]; omega)]
    simp only [Res.bind]
    rw [writeByte_ok (by simp only [pixelTarget, Caps.size, State.putByte_png, State.putByte_caps]; omega)]
    simp only
    rw [writeByte_ok (by simp only [pixelTarget, Caps.size, State.putByte_png, State.putByte_caps]; omega)]
    simp only
    rw [writeByte_ok (by simp only [pixelTarget, Caps.size, State.putByte_png, State.putByte_caps]; omega)]
    rfl
  · rw [Memory.read_write_other _ _ _ (by omega), Memory.read_write_other _ _ _ (by omega),
      Memory.read_write_other _ _ _ (by omega), Nat.add_zero, Memory.read_write_same]
  · rw [Memory.read_write_other _ _ _ (by omega), Memory.read_write_other _ _ _ (by omega), Memory.read_write_same]
  · rw [Memory.read_write_other _ _ _ (by omega), Memory.read_write_same]
  · rw [Memory.read_write_same]
  · intro a ha
    rw [Memory.read_write_other _ _ _ (by omega), Memory.read_write_other _ _ _ (by omega),
      Memory.read_write_other _ _ _ (by omega), Memory.read_write_other _ _ _ (by omega)]; rfl
  · intro hw
    exact Memory.write_wf (Memory.write_wf (Memory.write_wf (Memory.write_wf hw _ _) _ _) _ _) _ _
  · intro hb
    exact Memory.write_below (Memory.write_below (Memory.write_below (Memory.write_below hb (by omega) _)
      (by omega) _) (by omega) _) (by omega) _

/-- A pixel whose expansion gives `px` (45_pixel_assembler.md R431). -/
theorem assemblePixel_ok {s : State} {expand : Nat → State → Res Pixel} {px : Pixel}
    (he : expand (pixelSource s.png) s = .ok px s) (h : 4 * s.png.pixI + 4 ≤ s.caps.pixCap) :
    ∃ m, assemblePixel expand s = .ok () (s.withPix m).pixelDone ∧
      m.read .pix (4 * s.png.pixI) = px.r ∧ m.read .pix (4 * s.png.pixI + 1) = px.g ∧
      m.read .pix (4 * s.png.pixI + 2) = px.b ∧ m.read .pix (4 * s.png.pixI + 3) = px.al ∧
      (∀ a, a < 4 * s.png.pixI ∨ 4 * s.png.pixI + 4 ≤ a → m.read .pix a = s.byteAt .pix a) ∧
      m.draw = s.pix.draw ∧ (s.pix.wf → m.wf) ∧ (s.pix.below s.caps.pixCap → m.below s.caps.pixCap) := by
  obtain ⟨m, e, r⟩ := writePixel_ok px h
  refine ⟨m, ?_, r⟩
  rw [assemblePixel, he]
  simp only [Res.bind, e]

/-! ### Image quantities -/

theorem ceilDiv_pos {a b : Nat} (ha : 1 ≤ a) (hb : 1 ≤ b) : 1 ≤ ceilDiv a b := by
  unfold ceilDiv; rw [Nat.le_div_iff_mul_le hb]; omega

theorem depthPasses_pos {d : Byte} (h : depthPasses d = true) : 1 ≤ d.toNat := by
  unfold depthPasses at h
  simp only [Bool.or_eq_true, beq_iff_eq] at h
  rcases h with (((rfl | rfl) | rfl) | rfl) | rfl <;> decide

theorem channels_pos (c : Byte) : 1 ≤ channels c := by unfold channels; split <;> (try split) <;> (try split) <;> omega

theorem State.ImageOk.bpp_pos {s : State} (h : s.ImageOk) : 1 ≤ s.png.bpp := by
  rw [h.bppOk]
  exact ceilDiv_pos (Nat.mul_le_mul (depthPasses_pos h.depthOk) (channels_pos _)) (by omega)

/-- A row of the image lies below OUT_LEN, and so in OUT. -/
theorem State.ImageOk.row_fits {s : State} (h : s.ImageOk) {row : Nat} (hr : row < s.png.h) :
    row * s.png.rowlen + s.png.rowlen ≤ s.caps.outCap := by
  have h1 : (row + 1) * s.png.rowlen ≤ s.png.h * s.png.rowlen := Nat.mul_le_mul_right _ hr
  have h2 := h.rowsOk
  have h3 := h.outLenOk
  rw [Nat.add_mul, Nat.one_mul] at h1
  omega

/-- At depth 8 a row is `W * bpp` bytes long. -/
theorem State.ImageOk.stride8 {s : State} (h : s.ImageOk) (hd : s.png.depth = 8) :
    s.png.bpp = channels s.png.ctype ∧ s.png.stride = s.png.w * s.png.bpp := by
  have hb : s.png.bpp = channels s.png.ctype := by
    rw [h.bppOk, bytesPerPixel, bitsPerPixel, hd, ceilDiv]
    show (8 * _ + 8 - 1) / 8 = _
    omega
  refine ⟨hb, ?_⟩
  rw [h.strideOk, hb, rowStride, bitsPerPixel, hd, ceilDiv]
  show (s.png.w * (8 * channels s.png.ctype) + 8 - 1) / 8 = s.png.w * channels s.png.ctype
  rw [show s.png.w * (8 * channels s.png.ctype) = 8 * (s.png.w * channels s.png.ctype) by ring]
  omega

/-- The source bytes of a pixel lie in OUT (20_memory.md R82). -/
theorem State.ImageOk.source_fits {s : State} (h : s.ImageOk) (hd : s.png.depth = 8)
    (hp : s.png.pixI < s.png.w * s.png.h) {k : Nat} (hk : k < s.png.bpp) :
    pixelSource s.png + k < s.caps.outCap := by
  have hw := h.wPos
  have hy : s.png.pixI / s.png.w < s.png.h := by
    rw [Nat.div_lt_iff_lt_mul hw, Nat.mul_comm]; exact hp
  have hx := Nat.mod_lt s.png.pixI hw
  have hr := h.row_fits hy
  have hs := (h.stride8 hd).2
  have hl := h.rowlenOk
  have : (s.png.pixI % s.png.w + 1) * s.png.bpp ≤ s.png.w * s.png.bpp := Nat.mul_le_mul_right _ hx
  rw [Nat.add_mul, Nat.one_mul] at this
  unfold pixelSource
  omega

theorem sourceByte_ok {s : State} {src k : Nat} (h : src + k < s.caps.outCap) :
    sourceByte src k s = .ok (s.byteAt .out (src + k)) s := readByte_ok h

/-! ### The entry checks -/

/-- PNGSTART (44_png_unfilter.md R400): it latches the registers and the image then fits, or it raises an
error; it changes the PNG registers and `fsm` alone. -/
theorem pngStart_sat (s : State) :
    (pngStart s).Sat (fun _ t => t.ImageOk ∧ t = { s with png := t.png, fsm := .row } ∧ t.png.row = 0)
      (fun _ t => t = { s with png := t.png }) := by
  unfold pngStart
  simp only
  split
  · exact rfl
  rename_i h1
  split
  · exact rfl
  rename_i h2
  split
  · exact rfl
  rename_i h3
  split
  · exact rfl
  rename_i h4
  split
  · exact rfl
  rename_i h5
  split
  · exact rfl
  rename_i h6
  split
  · exact rfl
  rename_i h7
  refine ⟨⟨?_, ?_, ?_, ?_, rfl, rfl, rfl, ?_, ?_, ?_, ?_⟩, rfl, rfl⟩
  · exact Nat.pos_of_ne_zero fun h => h1 (.inl h)
  · exact Nat.pos_of_ne_zero fun h => h1 (.inr h)
  · show depthPasses s.format.depth = true; simpa using h2
  · show ctypePasses s.format.ctype = true; simpa using h3
  · exact Nat.le_of_not_lt h7
  · exact Nat.le_of_not_lt h4
  · exact Nat.le_of_not_lt h6
  · show 3 * paletteEntries s.format.palPresent s.palLen.toNat ≤ 768
    have h5' : ¬ (s.format.palPresent = true ∧ 768 < s.palLen.toNat) := h5
    unfold paletteEntries
    cases hp : s.format.palPresent
    · simp
    · have : ¬ 768 < s.palLen.toNat := fun h => h5' ⟨hp, h⟩
      simp only [if_true]; omega

end Sys2Proof.Machine
end

