-- ==== Sys2Proof/Laws/Engine.lean ====
section
/-! SUPPORT. What the engine's turn can do in a state of the machine's invariant, said once for INFLATE and
once for DECODE_PNG: the claims about every step cite these and unfold no element. -/

namespace Sys2Proof.Machine

/-! ### From the invariant to the element -/

theorem State.Inv.good {s : State} (h : s.Inv) (hf : s.fsm.inflating = true) : s.Good :=
  ⟨h.bits, h.mems, h.llt, h.dt, h.stream hf⟩

/-- What is run of what was fetched. -/
def Fetched.outcome (f : Fetched) : Outcome :=
  match f with
  | .instr i s => exec i s
  | .over o => o

theorem step_eq (s : State) : step s = (fetchNext s).outcome := rfl

/-- Without a host move, with a command running and not suspended, the step is the element of `fsm`. -/
theorem step_element {s : State} (hm : s.moves = []) (hb : s.status.busy = true) (hs : s.susp = false) :
    step s = (fetchElement s).outcome := by
  simp [step_eq, fetchNext, hm, fetchEngine, State.engineEnabled, hb, hs]

/-- Reading an instruction and running it. -/
theorem fetched_run (r : Res Instr) : r.fetched.outcome = r.andThen exec := by
  cases r <;> rfl

/-! ### INFLATE -/

/-- The next state of an INFLATE element that raises no error: `s` flowed on by at least `n` bits, then
tables, block flags, scratch and `fsm` were set. -/
def InflateNext (s : State) (n : Nat) (t : State) : Prop :=
  ∃ u l d b ty f, s.Flows u n ∧ l.Ok 287 ∧ d.Ok 31 ∧ f.inflating = true ∧
    t = { u with
      llt := l, dt := d, bfinal := b, btype := ty, matchLen := 0, dyn := DynScratch.empty, fsm := f }

/-- The state an INFLATE element raises its error in. -/
def InflateError (s : State) (_ : ErrorKind) (t : State) : Prop :=
  ∃ u l b ty m d, s.Flows u 0 ∧ l.Ok 287 ∧
    t = { u with llt := l, bfinal := b, btype := ty, matchLen := m, dyn := d }

theorem State.Flows.toError {s t : State} {n : Nat} (h : s.Flows t n) (k : ErrorKind) : InflateError s k t :=
  ⟨t, t.llt, t.bfinal, t.btype, t.matchLen, t.dyn, h.weaken (Nat.zero_le _), h.good.llt, rfl⟩

theorem FlowError.toError {s t : State} {k : ErrorKind} (h : FlowError s k t) : InflateError s k t :=
  State.Flows.toError h k

/-- A flow that then sets `fsm` alone. -/
theorem State.Flows.toNext {s u : State} {n : Nat} (h : s.Flows u n) (hs : s.ScratchOk) {f : Fsm}
    (hf : f.inflating = true) : InflateNext s n { u with fsm := f } :=
  ⟨u, u.llt, u.dt, u.bfinal, u.btype, f, h, h.good.llt, h.good.dt, hf, by
    rw [← hs.noMatch, ← hs.noHeader, ← h.matchLen_eq, ← h.dyn_eq]⟩

/-- A match's end: `fsm` is set and the latched length is gone. -/
theorem State.Flows.toNextMatch {s u : State} {n : Nat} (h : s.Flows u n) (hs : s.ScratchOk) :
    InflateNext s n { u with matchLen := 0, fsm := .symbol } :=
  ⟨u, u.llt, u.dt, u.bfinal, u.btype, .symbol, h, h.good.llt, h.good.dt, rfl, by
    rw [← hs.noHeader, ← h.dyn_eq]⟩

theorem zhdr_step {s : State} (h : s.Good) (hs : s.ScratchOk) :
    OutcomeSat ((fetchZhdr s).andThen exec) (InflateNext s 16) (InflateError s) := by
  refine Res.Sat.andThen (P := fun i t => s.Flows t 16 ∧ ∃ v, i = decodeZhdr v) ?_ ?_
  · refine ((getBits_flows h (n := 8) (by omega)).mono (fun _ _ p => p) (fun k _ p => FlowError.toError (k := k) p)).bind
      fun c t ⟨hc, _, ht⟩ => ?_
    refine ((getBits_flows ht.good (n := 8) (by omega)).mono (fun _ _ p => p)
      (fun k _ p => (ht.error p).toError k)).bind fun g u ⟨hg, _, hu⟩ => ?_
    have h1 := s.field_lt 0 8
    have h2 := t.field_lt 0 8
    have hd : decode .zhdr (c + g * 256) = .ok (decodeZhdr (c + g * 256)) :=
      if_pos (show c + g * 256 < 2 ^ 16 by omega)
    rw [decoded, hd]
    exact ⟨(ht.trans hu).weaken (by omega), _, rfl⟩
  · rintro i t ⟨ht, v, rfl⟩
    rw [decodeZhdr]
    split
    · show OutcomeSat (execZhdr _ _ t) _ _
      rw [execZhdr]
      split
      · exact ⟨_, rfl, .inl (ht.toNext hs rfl)⟩
      · exact ⟨_, rfl, .inr ⟨_, _, ht.toError .badContainerHeader, rfl⟩⟩
    · exact ⟨_, rfl, .inr ⟨_, _, ht.toError .badContainerHeader, rfl⟩⟩

theorem State.Flows.dropBfinal {s t : State} {b : Bool} {n : Nat} (h : ({ s with bfinal := b } : State).Flows t n) :
    s.Flows { t with bfinal := s.bfinal } n where
  frame := by rw [h.frame]
  good := h.good.control t.llt t.dt t.matchLen t.dyn s.bfinal t.btype t.fsm h.good.llt h.good.dt
  forward := h.forward
  grows := h.grows
  kept := h.kept

theorem blkhdr_step {s : State} (h : s.Good) (hs : s.ScratchOk) :
    OutcomeSat ((fetchBlkhdr s).andThen exec) (InflateNext s 3) (InflateError s) := by
  refine Res.Sat.andThen (P := fun i t => (∃ u b, s.Flows u 3 ∧ t = { u with bfinal := b }) ∧ ∃ v, i = decodeBlkhdr v) ?_ ?_
  · refine ((getBits_flows h (n := 1) (by omega)).mono (fun _ _ p => p) (fun k _ p => FlowError.toError (k := k) p)).bind
      fun c t ⟨hc, _, ht⟩ => ?_
    have hg : ({ t with bfinal := c == 1 } : State).Good :=
      ht.good.control t.llt t.dt t.matchLen t.dyn (c == 1) t.btype t.fsm ht.good.llt ht.good.dt
    refine ((getBits_flows hg (n := 2) (by omega)).mono (fun _ _ p => p)
      (fun k u p => ⟨_, u.llt, u.bfinal, u.btype, u.matchLen, u.dyn, ht.error (State.Flows.dropBfinal p), p.good.llt, rfl⟩)).bind fun g u ⟨hgg, _, hu⟩ => ?_
    have h1 := s.field_lt 0 1
    have h2 := ({ t with bfinal := c == 1 } : State).field_lt 0 2
    have hd : decode .blkhdr (c + g * 2) = .ok (decodeBlkhdr (c + g * 2)) :=
      if_pos (show c + g * 2 < 2 ^ 3 by omega)
    rw [decoded, hd]
    exact ⟨⟨_, u.bfinal, (ht.trans hu.dropBfinal).weaken (by omega), rfl⟩, _, rfl⟩
  · rintro i t ⟨⟨u, b, ht, rfl⟩, v, rfl⟩
    have hml : u.matchLen = 0 := by rw [ht.matchLen_eq]; exact hs.noMatch
    have hdy : u.dyn = DynScratch.empty := by rw [ht.dyn_eq]; exact hs.noHeader
    have e : ({ u with matchLen := 0, dyn := DynScratch.empty } : State) = u := by rw [← hml, ← hdy]
    rw [decodeBlkhdr]
    split
    · exact ⟨_, rfl, .inl ⟨u, u.llt, u.dt, _, 0, .stored, ht, ht.good.llt, ht.good.dt, rfl, by rw [← hml, ← hdy]; rfl⟩⟩
    · exact ⟨_, rfl, .inl ⟨u, fixedLitTable, fixedDistTable, _, 1, .symbol, ht, fixedLitTable_ok, fixedDistTable_ok, rfl, by
        rw [← hml, ← hdy]; rfl⟩⟩
    · exact ⟨_, rfl, .inl ⟨u, u.llt, u.dt, _, 2, .dynhdr, ht, ht.good.llt, ht.good.dt, rfl, by rw [← hml, ← hdy]; rfl⟩⟩
    · exact ⟨_, rfl, .inr ⟨_, _, ⟨u, u.llt, _, 3, u.matchLen, u.dyn, ht.weaken (by omega), ht.good.llt, rfl⟩, rfl⟩⟩

theorem stored_step {s : State} (h : s.Good) (hs : s.ScratchOk) :
    OutcomeSat ((fetchStored s).andThen exec) (InflateNext s 32) (InflateError s) := by
  have ha := State.align_flows h
  refine Res.Sat.andThen (P := fun i t => s.Flows t 32 ∧ ∃ v, i = decodeStored v) ?_ ?_
  · refine ((getBits_flows ha.good (n := 16) (by omega)).mono (fun _ _ p => p)
      (fun k _ p => (ha.error p).toError k)).bind fun c t ⟨hc, _, ht⟩ => ?_
    refine ((getBits_flows ht.good (n := 16) (by omega)).mono (fun _ _ p => p)
      (fun k _ p => (ha.error (ht.error p)).toError k)).bind fun g u ⟨hg, _, hu⟩ => ?_
    have h1 := s.align.field_lt 0 16
    have h2 := t.field_lt 0 16
    have hd : decode .stored (c + g * 65536) = .ok (decodeStored (c + g * 65536)) :=
      if_pos (show c + g * 65536 < 2 ^ 32 by omega)
    rw [decoded, hd]
    exact ⟨(ha.trans (ht.trans hu)).weaken (by omega), _, rfl⟩
  · rintro i t ⟨ht, v, rfl⟩
    refine ((storedBody_flows ht.good _ _).mono (fun _ _ p => p)
      (fun k _ p => (ht.error p).toError k)).run.mono (fun t ⟨u, hu, e⟩ => ?_) (fun k u p => p)
    subst e
    exact ((ht.trans hu).weaken (by omega)).toNext hs rfl

theorem dynhdr_step {s : State} (h : s.Good) (hs : s.ScratchOk) :
    OutcomeSat ((fetchDynhdr s).andThen exec) (InflateNext s 26) (InflateError s) := by
  refine Res.Sat.andThen (P := fun i t => s.Flows t 14 ∧ ∃ v, i = decodeDynhdr v) ?_ ?_
  · refine ((getBits_flows h (n := 5) (by omega)).mono (fun _ _ p => p)
      (fun k _ p => FlowError.toError (k := k) p)).bind fun a t ⟨_, _, ht⟩ => ?_
    refine ((getBits_flows ht.good (n := 5) (by omega)).mono (fun _ _ p => p)
      (fun k _ p => (ht.error p).toError k)).bind fun b u ⟨_, _, hu⟩ => ?_
    refine ((getBits_flows hu.good (n := 4) (by omega)).mono (fun _ _ p => p)
      (fun k _ p => (ht.error (hu.error p)).toError k)).bind fun c w ⟨_, _, hw⟩ => ?_
    have h1 := s.field_lt 0 5
    have h2 := t.field_lt 0 5
    have h3 := u.field_lt 0 4
    have hd : decode .dynhdr (a + b * 32 + c * 1024) = .ok (decodeDynhdr (a + b * 32 + c * 1024)) :=
      if_pos (show a + b * 32 + c * 1024 < 2 ^ 14 by omega)
    rw [decoded, hd]
    exact ⟨(ht.trans (hu.trans hw)).weaken (by omega), _, rfl⟩
  · rintro i t ⟨ht, v, rfl⟩
    refine (dynamicHeader_flows ht.good _ _ _).run.mono (fun t' ⟨u, l, d, hu, hl, hd, e⟩ => ?_)
      (fun k w ⟨u, d, l, hu, hl, e⟩ => ?_)
    · subst e
      have hf := ht.trans hu
      exact ⟨u, l, d, u.bfinal, u.btype, .symbol, hf.weaken (by omega), hl, hd, rfl, by
        rw [← hs.noMatch, ← hf.matchLen_eq]⟩
    · subst e
      exact ⟨u, l, u.bfinal, u.btype, u.matchLen, d, ht.error hu, hl, rfl⟩

/-- Every literal/length symbol of the table (43_inflate_symbols.md R300). -/
theorem symbol_run {s : State} (h : s.Good) {v : Nat} (hv : v ≤ 287) :
    OutcomeSat ((decoded .sym v s).andThen exec)
      (fun t => ∃ u f m, s.Flows u 0 ∧ f.inflating = true ∧ (m = 0 ∨ m = s.matchLen) ∧ t = { u with matchLen := m, fsm := f })
      (fun _ t => ∃ u m, s.Flows u 0 ∧ t = { u with matchLen := m }) := by
  have hr := State.Flows.refl h
  have hlen : ∀ base extra, extra ≤ 16 → OutcomeSat (lengthPart base extra s)
      (fun t => ∃ u f m, s.Flows u 0 ∧ f.inflating = true ∧ (m = 0 ∨ m = s.matchLen) ∧ t = { u with matchLen := m, fsm := f })
      (fun _ t => ∃ u m, s.Flows u 0 ∧ t = { u with matchLen := m }) := fun base extra he =>
    (lengthPart_flows h base he).mono (fun t ⟨u, hu, e⟩ => ⟨u, .symbol, 0, hu, rfl, .inl rfl, e⟩) (fun _ _ p => p)
  have hd : decode .sym v = decodeSym v :=
    if_pos (show v < 2 ^ 16 by omega)
  rw [decoded, hd, decodeSym]
  by_cases h1 : v < 256
  · rw [if_pos h1]
    show OutcomeSat (execLit (BitVec.ofNat 8 v) s) _ _
    rw [execLit]
    refine Res.Sat.run (((outAppend_flows h (BitVec.ofNat 8 v)).mono (fun _ _ p => p)
      (fun _ t p => ⟨t, t.matchLen, p, rfl⟩)).bind fun _ u ⟨_, hu⟩ => ?_)
    exact ⟨u, .symbol, s.matchLen, hu, rfl, .inr rfl, by rw [← hu.matchLen_eq]⟩
  · rw [if_neg h1]
    by_cases h2 : v = 256
    · rw [if_pos h2]
      exact ⟨_, rfl, .inl ⟨s, .blkend, s.matchLen, hr, rfl, .inr rfl, rfl⟩⟩
    · rw [if_neg h2]
      by_cases h3 : v < 286
      · rw [if_pos h3]
        interval_cases v <;> first | exact absurd rfl h2 | exact hlen _ 0 (by decide) | exact hlen _ _ (by decide)
      · rw [if_neg h3, if_pos (by omega)]
        exact ⟨_, rfl, .inr ⟨_, s, ⟨s, s.matchLen, hr, rfl⟩, rfl⟩⟩

theorem symbol_step {s : State} (h : s.Good) (hs : s.ScratchOk) :
    OutcomeSat ((fetchSym s).andThen exec) (InflateNext s 1) (InflateError s) := by
  have e : (fetchSym s).andThen exec = (getCode s.llt s).andThen fun v t => (decoded .sym v t).andThen exec := by
    rw [fetchSym]; cases getCode s.llt s <;> rfl
  rw [e]
  refine ((getCode_flows h h.llt).mono (fun _ _ p => p) (fun k _ p => FlowError.toError (k := k) p)).andThen
    fun v t ⟨hv, _, _, ht⟩ => ?_
  refine (symbol_run ht.good hv).mono (fun w ⟨u, f, m, hu, hf, hm, e⟩ => ?_) (fun k w ⟨u, m, hu, e⟩ => ?_)
  · have hsu := ht.trans hu
    have hm' : m = 0 := by
      rcases hm with hm | hm
      · exact hm
      · rw [hm, ht.matchLen_eq]; exact hs.noMatch
    subst e hm'
    exact ⟨u, u.llt, u.dt, u.bfinal, u.btype, f, hsu.weaken (by omega), hu.good.llt, hu.good.dt, hf, by
      rw [← hs.noHeader, ← hsu.dyn_eq]⟩
  · subst e
    exact ⟨u, u.llt, u.bfinal, u.btype, m, u.dyn, ht.error hu, hu.good.llt, rfl⟩

/-- The bits an element of INFLATE reads at least (46_commands.md R469). -/
def Fsm.minBits : Fsm → Nat
  | .zhdr => 16
  | .blkhdr => 3
  | .stored => 32
  | .dynhdr => 26
  | .symbol => 1
  | _ => 0

/-- Every element of INFLATE but BLKEND. -/
theorem inflate_step {s : State} (h : s.Inv) (hf : s.fsm.inflating = true) (he : s.fsm ≠ .blkend) :
    OutcomeSat (fetchElement s).outcome (InflateNext s s.fsm.minBits) (InflateError s) := by
  have hg := h.good hf
  unfold fetchElement
  cases hx : s.fsm <;> simp only [hx] at hf he ⊢ <;> try (first | exact absurd rfl he | cases hf; done)
  · rw [fetched_run]; exact zhdr_step hg h.scratch
  · rw [fetched_run]; exact blkhdr_step hg h.scratch
  · rw [fetched_run]; exact stored_step hg h.scratch
  · rw [fetchDynamic, if_pos (by rw [h.scratch.noHeader]), fetched_run]; exact dynhdr_step hg h.scratch
  · rw [fetchSymbol, if_pos h.scratch.noMatch, fetched_run]; exact symbol_step hg h.scratch

theorem blkend_step {s : State} (hf : s.fsm = .blkend) :
    (fetchElement s).outcome = .next (s.checkpoint (if s.bfinal then .done else .blkhdr)) := by
  unfold fetchElement
  rw [hf]
  rfl

/-! ### DECODE_PNG -/

/-- What a row does to OUT: nothing but the row's filtered bytes change, and the memory stays legal. -/
structure RowWrites (s : State) (m : Memory) : Prop where
  kept : ∀ a, a ≤ s.png.row * s.png.rowlen ∨ s.png.row * s.png.rowlen + s.png.stride < a →
    m.read .out a = s.byteAt .out a
  draw : m.draw = s.out.draw
  wf : s.out.wf → m.wf
  below : s.out.below s.caps.outCap → m.below s.caps.outCap

theorem unfilterRow_ok {s : State} (h : s.ImageOk) (hr : s.png.row < s.png.h) (ft : FilterType) :
    ∃ m, unfilterRow ft s = .ok () (s.withOut m s.outLen).rowDone ∧ RowWrites s m := by
  have hfit := h.row_fits hr
  have hl := h.rowlenOk
  obtain ⟨m, e, -, ha, hd, hw, hb⟩ := unfilterFrom_ok (s := s) ft (n := s.png.stride) (x := 0) h.bpp_pos
    (by omega) (by omega)
  refine ⟨m, ?_, ⟨fun a hx => ha a (by omega), hd, hw, hb⟩⟩
  rw [unfilterRow, e]; rfl

/-- A ROW element. -/
theorem row_step {s : State} (hi : s.ImageOk) (hf : s.fsm = .row) (hr : s.png.row < s.png.h) :
    OutcomeSat (fetchElement s).outcome (fun t => ∃ m, RowWrites s m ∧ t = (s.withOut m s.outLen).rowDone)
      (fun k t => k = .unknownFilterType ∧ t = s) := by
  have hfit := hi.row_fits hr
  have hl := hi.rowlenOk
  have run : ∀ ft, OutcomeSat (unfilterRow ft s).run
      (fun t => ∃ m, RowWrites s m ∧ t = (s.withOut m s.outLen).rowDone) (fun k t => k = .unknownFilterType ∧ t = s) := by
    intro ft
    obtain ⟨m, e, hw⟩ := unfilterRow_ok hi hr ft
    rw [e]
    exact ⟨_, rfl, .inl ⟨m, hw, rfl⟩⟩
  unfold fetchElement
  rw [hf]
  simp only
  rw [fetched_run, fetchRow, if_pos hr, readByte_ok (show s.png.rowBase < s.caps.outCap by unfold PngRegs.rowBase; omega)]
  simp only [Res.bind]
  have hd : decode .row (s.byteAt .out s.png.rowBase).toNat = .ok (decodeRow (s.byteAt .out s.png.rowBase).toNat) :=
    if_pos (s.byteAt .out s.png.rowBase).isLt
  rw [decoded, hd]
  show OutcomeSat (exec (decodeRow _) s) _ _
  unfold decodeRow
  split
  · exact run .none
  · exact run .sub
  · exact run .up
  · exact run .average
  · exact run .paeth
  · exact ⟨_, rfl, .inr ⟨.unknownFilterType, s, ⟨rfl, rfl⟩, rfl⟩⟩

/-- What a pixel does to PIX: nothing but its four bytes change, and the memory stays legal. -/
structure PixelWrites (s : State) (m : Memory) : Prop where
  kept : ∀ a, a < 4 * s.png.pixI ∨ 4 * s.png.pixI + 4 ≤ a → m.read .pix a = s.byteAt .pix a
  draw : m.draw = s.pix.draw
  wf : s.pix.wf → m.wf
  below : s.pix.below s.caps.pixCap → m.below s.caps.pixCap

/-- The pixel in PIX (20_memory.md R82). -/
theorem State.ImageOk.target_fits {s : State} (h : s.ImageOk) (hp : s.png.pixI < s.png.w * s.png.h) :
    4 * s.png.pixI + 4 ≤ s.caps.pixCap := by
  have := h.pixelsOk; omega

/-- A legal colour type is one of the five. -/
theorem ctypePasses_cases {c : Byte} (h : ctypePasses c = true) : c = 0 ∨ c = 2 ∨ c = 3 ∨ c = 4 ∨ c = 6 := by
  unfold ctypePasses at h
  simp only [Bool.or_eq_true, beq_iff_eq] at h
  tauto

/-- A PIXEL element. -/
theorem pixel_step {s : State} (hi : s.ImageOk) (hf : s.fsm = .pixel) (hd : s.png.depth = 8)
    (hp : s.png.pixI < s.png.w * s.png.h) :
    OutcomeSat (fetchElement s).outcome (fun t => ∃ m, PixelWrites s m ∧ t = (s.withPix m).pixelDone)
      (fun k t => k = .paletteIndexOutOfRange ∧ t = s) := by
  have hbpp := (hi.stride8 hd).1
  have hsrc : ∀ k, k < s.png.bpp → sourceByte (pixelSource s.png) k s = .ok (s.byteAt .out (pixelSource s.png + k)) s :=
    fun k hk => sourceByte_ok (hi.source_fits hd hp hk)
  have run : ∀ (expand : Nat → State → Res Pixel) (px : Pixel), expand (pixelSource s.png) s = .ok px s →
      OutcomeSat (assemblePixel expand s).run (fun t => ∃ m, PixelWrites s m ∧ t = (s.withPix m).pixelDone)
        (fun k t => k = .paletteIndexOutOfRange ∧ t = s) := by
    intro expand px he
    obtain ⟨m, e, -, -, -, -, ha, hdr, hw, hbl⟩ := assemblePixel_ok he (hi.target_fits hp)
    rw [e]
    exact ⟨_, rfl, .inl ⟨m, ⟨ha, hdr, hw, hbl⟩, rfl⟩⟩
  unfold fetchElement
  rw [hf]
  simp only
  rw [fetched_run, fetchPixel, if_pos hp, hd]
  rcases ctypePasses_cases hi.ctypeOk with hc | hc | hc | hc | hc <;> rw [hc] at hbpp ⊢
  · rw [decoded, show decode .pixel ((8 : Byte).toNat + (0 : Byte).toNat * 256) = .ok .pixelGray by decide +kernel]
    refine run expandGray ⟨s.byteAt .out (pixelSource s.png + 0), s.byteAt .out (pixelSource s.png + 0), s.byteAt .out (pixelSource s.png + 0), 255⟩ ?_
    rw [expandGray, hsrc 0 (by rw [hbpp]; decide)]; rfl
  · rw [decoded, show decode .pixel ((8 : Byte).toNat + (2 : Byte).toNat * 256) = .ok .pixelRgb by decide +kernel]
    refine run expandRgb ⟨s.byteAt .out (pixelSource s.png + 0), s.byteAt .out (pixelSource s.png + 1), s.byteAt .out (pixelSource s.png + 2), 255⟩ ?_
    rw [expandRgb, hsrc 0 (by rw [hbpp]; decide)]
    simp only [Res.bind]
    rw [hsrc 1 (by rw [hbpp]; decide)]
    simp only
    rw [hsrc 2 (by rw [hbpp]; decide)]
  · rw [decoded, show decode .pixel ((8 : Byte).toNat + (3 : Byte).toNat * 256) = .ok .pixelPalette by decide +kernel]
    show OutcomeSat (assemblePixel expandPalette s).run _ _
    by_cases hx : s.png.npal ≤ (s.byteAt .out (pixelSource s.png + 0)).toNat
    · have e : assemblePixel expandPalette s = .err .paletteIndexOutOfRange s := by
        rw [assemblePixel, expandPalette, hsrc 0 (by rw [hbpp]; decide)]
        simp only [Res.bind]
        rw [if_pos hx]
      rw [e]
      exact ⟨_, rfl, .inr ⟨_, s, ⟨rfl, rfl⟩, rfl⟩⟩
    · have hn : 3 * s.png.npal ≤ 768 := hi.npalOk
      refine run expandPalette ⟨s.byteAt .pal (3 * (s.byteAt .out (pixelSource s.png + 0)).toNat),
      s.byteAt .pal (3 * (s.byteAt .out (pixelSource s.png + 0)).toNat + 1), s.byteAt .pal (3 * (s.byteAt .out (pixelSource s.png + 0)).toNat + 2), 255⟩ ?_
      rw [expandPalette, hsrc 0 (by rw [hbpp]; decide)]
      simp only [Res.bind]
      rw [if_neg hx, readByte_ok (show _ < 768 by omega)]
      simp only
      rw [readByte_ok (show _ < 768 by omega)]
      simp only
      rw [readByte_ok (show _ < 768 by omega)]
  · rw [decoded, show decode .pixel ((8 : Byte).toNat + (4 : Byte).toNat * 256) = .ok .pixelGrayAlpha by decide +kernel]
    refine run expandGrayAlpha ⟨s.byteAt .out (pixelSource s.png + 0), s.byteAt .out (pixelSource s.png + 0), s.byteAt .out (pixelSource s.png + 0), s.byteAt .out (pixelSource s.png + 1)⟩ ?_
    rw [expandGrayAlpha, hsrc 0 (by rw [hbpp]; decide)]
    simp only [Res.bind]
    rw [hsrc 1 (by rw [hbpp]; decide)]
  · rw [decoded, show decode .pixel ((8 : Byte).toNat + (6 : Byte).toNat * 256) = .ok .pixelRgba by decide +kernel]
    refine run expandRgba ⟨s.byteAt .out (pixelSource s.png + 0),
      s.byteAt .out (pixelSource s.png + 1), s.byteAt .out (pixelSource s.png + 2), s.byteAt .out (pixelSource s.png + 3)⟩ ?_
    rw [expandRgba, hsrc 0 (by rw [hbpp]; decide)]
    simp only [Res.bind]
    rw [hsrc 1 (by rw [hbpp]; decide)]
    simp only
    rw [hsrc 2 (by rw [hbpp]; decide)]
    simp only
    rw [hsrc 3 (by rw [hbpp]; decide)]

/-- An ASMSTART element. -/
theorem asmstart_step {s : State} (hf : s.fsm = .asmstart) :
    (fetchElement s).outcome = if s.png.depth = 8 then .next (asmStart s) else .next (s.raise .unsupportedFormat) := by
  unfold fetchElement
  rw [hf]
  simp only [fetchAsmstart]
  split <;> rfl

/-- The PNGSTART element. -/
theorem pngstart_step {s : State} (hf : s.fsm = .pngstart) : (fetchElement s).outcome = (pngStart s).run := by
  unfold fetchElement
  rw [hf]
  rfl

end Sys2Proof.Machine
end

