-- ==== Sys2Proof/Laws/PerInstr.lean ====
section
/-! SUPPORT. The per-instruction family RoundTrip: a well-formed instruction is what its format's decoder
reads from its encoding (30_encoding.md R172). One lemma per constructor. -/

namespace Sys2Proof.Laws.RoundTrip

theorem decode_zhdr {v : Nat} (h : v < 65536) : decode .zhdr v = .ok (decodeZhdr v) := if_pos h
theorem decode_stored {v : Nat} (h : v < 4294967296) : decode .stored v = .ok (decodeStored v) := if_pos h
theorem decode_dynhdr {v : Nat} (h : v < 16384) : decode .dynhdr v = .ok (decodeDynhdr v) := if_pos h
theorem decode_clsym {v : Nat} (h : v < 65536) : decode .clsym v = decodeClsym v := if_pos h
theorem decode_sym {v : Nat} (h : v < 65536) : decode .sym v = decodeSym v := if_pos h
theorem decode_row {v : Nat} (h : v < 256) : decode .row v = .ok (decodeRow v) := if_pos h
theorem decode_pixel {v : Nat} (h : v < 65536) : decode .pixel v = .ok (decodePixel v) := if_pos h
theorem decode_cmdword {v : Nat} (h : v < 4294967296) : decode .cmdword v = .ok (decodeCmdword v) := if_pos h

theorem decodeZhdr_eq (cmf flg : Byte) : decodeZhdr (cmf.toNat + flg.toNat * 256) =
    if (cmf.toNat + flg.toNat * 256) &&& 0x200F = 0x8 ∧ (cmf.toNat * 256 + flg.toNat) % 31 = 0
      then .zhdr cmf flg else .zhdrBad cmf flg := by
  have h1 := cmf.isLt
  have h2 := flg.isLt
  unfold decodeZhdr
  rw [show (cmf.toNat + flg.toNat * 256) % 256 = cmf.toNat by omega,
    show (cmf.toNat + flg.toNat * 256) / 256 = flg.toNat by omega]
  simp

theorem land_header (v : Nat) : v &&& 0x200F = 8 ↔ v % 16 = 8 ∧ v / 8192 % 2 = 0 := by
  rw [show (0x200F : Nat) = 2 ^ 13 ||| (2 ^ 4 - 1) from rfl, Nat.and_or_distrib_left, Nat.and_two_pow_sub_one_eq_mod,
    Nat.and_two_pow, Nat.testBit_eq_decide_div_mod_eq]
  rw [show (2 : Nat) ^ 13 = 8192 from rfl, show (2 : Nat) ^ 4 = 16 from rfl]
  rcases Nat.mod_two_eq_zero_or_one (v / 8192) with h | h
  · simp [h]
  · have : 8192 ≤ 8192 ||| v % 16 := Nat.left_le_or
    simp only [h, decide_true, Bool.toNat_true, Nat.one_mul]
    omega

/-- The row's mask, match and condition are the three checks of 30_encoding.md R120. -/
theorem decodeZhdr_legal (cmf flg : Byte) :
    ((cmf.toNat + flg.toNat * 256) &&& 0x200F = 0x8 ∧ (cmf.toNat * 256 + flg.toNat) % 31 = 0) ↔
      legalHeader cmf flg = true := by
  have h1 := cmf.isLt
  have h2 := flg.isLt
  rw [land_header, show (cmf.toNat + flg.toNat * 256) % 16 = cmf.toNat % 16 by omega,
    show (cmf.toNat + flg.toNat * 256) / 8192 % 2 = flg.toNat / 32 % 2 by omega]
  simp only [legalHeader, Bool.and_eq_true, beq_iff_eq]

/-- Decoding the encoding of a well-formed instruction gives it back. -/
def Statement (i : Instr) : Prop := i.WellFormed → decode i.format (encode i) = .ok i

theorem zhdr (cmf flg : Byte) : Statement (.zhdr cmf flg) := by
  intro h
  have hl : legalHeader cmf flg = true := by
    by_contra hn; simp [Instr.WellFormed, Instr.illFormed, hn] at h
  have hm := (decodeZhdr_legal cmf flg).2 hl
  show decode .zhdr (cmf.toNat + flg.toNat * 256) = _
  rw [decode_zhdr (by have := cmf.isLt; have := flg.isLt; omega), decodeZhdr_eq, if_pos hm]

theorem zhdrBad (cmf flg : Byte) : Statement (.zhdrBad cmf flg) := by
  intro h
  have hl : ¬ legalHeader cmf flg = true := by
    intro hn; simp [Instr.WellFormed, Instr.illFormed, hn] at h
  have hm := mt (decodeZhdr_legal cmf flg).1 hl
  show decode .zhdr (cmf.toNat + flg.toNat * 256) = _
  rw [decode_zhdr (by have := cmf.isLt; have := flg.isLt; omega), decodeZhdr_eq, if_neg hm]

theorem blockStored (bfinal : Bool) : Statement (.blockStored bfinal) := by cases bfinal <;> exact fun _ => rfl

theorem blockFixed (bfinal : Bool) : Statement (.blockFixed bfinal) := by cases bfinal <;> exact fun _ => rfl

theorem blockDynamic (bfinal : Bool) : Statement (.blockDynamic bfinal) := by cases bfinal <;> exact fun _ => rfl

theorem blockReserved (bfinal : Bool) : Statement (.blockReserved bfinal) := by cases bfinal <;> exact fun _ => rfl

theorem stored (len nlen : BitVec 16) : Statement (.stored len nlen) := by
  intro _
  have h1 := len.isLt
  have h2 := nlen.isLt
  show decode .stored (len.toNat + nlen.toNat * 65536) = _
  rw [decode_stored (by omega), decodeStored, show (len.toNat + nlen.toNat * 65536) % 65536 = len.toNat by omega,
    show (len.toNat + nlen.toNat * 65536) / 65536 = nlen.toNat by omega]
  simp

theorem dynhdr (hlit hdist : BitVec 5) (hclen : BitVec 4) : Statement (.dynhdr hlit hdist hclen) := by
  intro _
  have h1 := hlit.isLt
  have h2 := hdist.isLt
  have h3 := hclen.isLt
  show decode .dynhdr (hlit.toNat + hdist.toNat * 32 + hclen.toNat * 1024) = _
  rw [decode_dynhdr (by omega), decodeDynhdr, show (hlit.toNat + hdist.toNat * 32 + hclen.toNat * 1024) % 32 = hlit.toNat by omega,
    show (hlit.toNat + hdist.toNat * 32 + hclen.toNat * 1024) / 32 % 32 = hdist.toNat by omega,
    show (hlit.toNat + hdist.toNat * 32 + hclen.toNat * 1024) / 1024 = hclen.toNat by omega]
  simp

theorem clLen (len : BitVec 4) : Statement (.clLen len) := by
  intro _
  have h := len.isLt
  show decode .clsym len.toNat = _
  rw [decode_clsym (by omega), decodeClsym, if_pos (by omega)]; simp

theorem clRep16 : Statement .clRep16 := fun _ => rfl

theorem clRep17 : Statement .clRep17 := fun _ => rfl

theorem clRep18 : Statement .clRep18 := fun _ => rfl

theorem lit (b : Byte) : Statement (.lit b) := by
  intro _
  have h := b.isLt
  show decode .sym b.toNat = _
  rw [decode_sym (by omega), decodeSym, if_pos (by omega)]; simp

theorem eob : Statement .eob := fun _ => rfl

theorem len257 : Statement .len257 := fun _ => rfl

theorem len258 : Statement .len258 := fun _ => rfl

theorem len259 : Statement .len259 := fun _ => rfl

theorem len260 : Statement .len260 := fun _ => rfl

theorem len261 : Statement .len261 := fun _ => rfl

theorem len262 : Statement .len262 := fun _ => rfl

theorem len263 : Statement .len263 := fun _ => rfl

theorem len264 : Statement .len264 := fun _ => rfl

theorem len265 : Statement .len265 := fun _ => rfl

theorem len266 : Statement .len266 := fun _ => rfl

theorem len267 : Statement .len267 := fun _ => rfl

theorem len268 : Statement .len268 := fun _ => rfl

theorem len269 : Statement .len269 := fun _ => rfl

theorem len270 : Statement .len270 := fun _ => rfl

theorem len271 : Statement .len271 := fun _ => rfl

theorem len272 : Statement .len272 := fun _ => rfl

theorem len273 : Statement .len273 := fun _ => rfl

theorem len274 : Statement .len274 := fun _ => rfl

theorem len275 : Statement .len275 := fun _ => rfl

theorem len276 : Statement .len276 := fun _ => rfl

theorem len277 : Statement .len277 := fun _ => rfl

theorem len278 : Statement .len278 := fun _ => rfl

theorem len279 : Statement .len279 := fun _ => rfl

theorem len280 : Statement .len280 := fun _ => rfl

theorem len281 : Statement .len281 := fun _ => rfl

theorem len282 : Statement .len282 := fun _ => rfl

theorem len283 : Statement .len283 := fun _ => rfl

theorem len284 : Statement .len284 := fun _ => rfl

theorem len285 : Statement .len285 := fun _ => rfl

theorem symInvalid (odd : Bool) : Statement (.symInvalid odd) := by cases odd <;> exact fun _ => rfl

theorem dist0 : Statement .dist0 := fun _ => rfl

theorem dist1 : Statement .dist1 := fun _ => rfl

theorem dist2 : Statement .dist2 := fun _ => rfl

theorem dist3 : Statement .dist3 := fun _ => rfl

theorem dist4 : Statement .dist4 := fun _ => rfl

theorem dist5 : Statement .dist5 := fun _ => rfl

theorem dist6 : Statement .dist6 := fun _ => rfl

theorem dist7 : Statement .dist7 := fun _ => rfl

theorem dist8 : Statement .dist8 := fun _ => rfl

theorem dist9 : Statement .dist9 := fun _ => rfl

theorem dist10 : Statement .dist10 := fun _ => rfl

theorem dist11 : Statement .dist11 := fun _ => rfl

theorem dist12 : Statement .dist12 := fun _ => rfl

theorem dist13 : Statement .dist13 := fun _ => rfl

theorem dist14 : Statement .dist14 := fun _ => rfl

theorem dist15 : Statement .dist15 := fun _ => rfl

theorem dist16 : Statement .dist16 := fun _ => rfl

theorem dist17 : Statement .dist17 := fun _ => rfl

theorem dist18 : Statement .dist18 := fun _ => rfl

theorem dist19 : Statement .dist19 := fun _ => rfl

theorem dist20 : Statement .dist20 := fun _ => rfl

theorem dist21 : Statement .dist21 := fun _ => rfl

theorem dist22 : Statement .dist22 := fun _ => rfl

theorem dist23 : Statement .dist23 := fun _ => rfl

theorem dist24 : Statement .dist24 := fun _ => rfl

theorem dist25 : Statement .dist25 := fun _ => rfl

theorem dist26 : Statement .dist26 := fun _ => rfl

theorem dist27 : Statement .dist27 := fun _ => rfl

theorem dist28 : Statement .dist28 := fun _ => rfl

theorem dist29 : Statement .dist29 := fun _ => rfl

theorem distInvalid (odd : Bool) : Statement (.distInvalid odd) := by cases odd <;> exact fun _ => rfl

theorem rowNone : Statement .rowNone := fun _ => rfl

theorem rowSub : Statement .rowSub := fun _ => rfl

theorem rowUp : Statement .rowUp := fun _ => rfl

theorem rowAverage : Statement .rowAverage := fun _ => rfl

theorem rowPaeth : Statement .rowPaeth := fun _ => rfl

theorem rowUnknown (ft : Byte) : Statement (.rowUnknown ft) := by
  intro h
  have hl : ¬ ft.toNat ≤ 4 := by
    intro hn; simp [Instr.WellFormed, Instr.illFormed, hn] at h
  have h1 := ft.isLt
  show decode .row ft.toNat = _
  rw [decode_row (by omega), decodeRow]
  · simp
  all_goals omega

theorem pixelPalette : Statement .pixelPalette := fun _ => rfl

theorem pixelGray : Statement .pixelGray := fun _ => rfl

theorem pixelGrayAlpha : Statement .pixelGrayAlpha := fun _ => rfl

theorem pixelRgb : Statement .pixelRgb := fun _ => rfl

theorem pixelRgba : Statement .pixelRgba := fun _ => rfl

theorem pixelUnsupported (depth ctype : Byte) : Statement (.pixelUnsupported depth ctype) := by
  intro h
  have h1 := depth.isLt
  have h2 := ctype.isLt
  have hn : ¬ (depth.toNat = 8 ∧ (ctype.toNat = 0 ∨ ctype.toNat = 2 ∨ ctype.toNat = 3 ∨ ctype.toNat = 4 ∨ ctype.toNat = 6)) := by
    rintro ⟨hd, hc⟩
    have hd' : depth = 8 := BitVec.eq_of_toNat_eq hd
    have hc' : ctype = 0 ∨ ctype = 2 ∨ ctype = 3 ∨ ctype = 4 ∨ ctype = 6 := by
      rcases hc with h | h | h | h | h
      · exact .inl (BitVec.eq_of_toNat_eq h)
      · exact .inr (.inl (BitVec.eq_of_toNat_eq h))
      · exact .inr (.inr (.inl (BitVec.eq_of_toNat_eq h)))
      · exact .inr (.inr (.inr (.inl (BitVec.eq_of_toNat_eq h))))
      · exact .inr (.inr (.inr (.inr (BitVec.eq_of_toNat_eq h))))
    subst hd'
    rcases hc' with rfl | rfl | rfl | rfl | rfl <;> exact absurd h (by decide)
  show decode .pixel (depth.toNat + ctype.toNat * 256) = _
  rw [decode_pixel (by omega)]
  simp only [decodePixel]
  rw [if_neg (by omega), if_neg (by omega), if_neg (by omega), if_neg (by omega), if_neg (by omega),
    show (depth.toNat + ctype.toNat * 256) % 256 = depth.toNat by omega,
    show (depth.toNat + ctype.toNat * 256) / 256 = ctype.toNat by omega]
  simp

theorem cmdInflate : Statement .cmdInflate := fun _ => rfl

theorem cmdDecodePng : Statement .cmdDecodePng := fun _ => rfl

theorem cmdResume : Statement .cmdResume := fun _ => rfl

theorem cmdSoftReset : Statement .cmdSoftReset := fun _ => rfl

theorem cmdReserved (op : BitVec 4) : Statement (.cmdReserved op) := by
  intro h
  have key : ∀ op : BitVec 4, (Instr.cmdReserved op).illFormed = none →
      decodeCmdword op.toNat = .cmdReserved op := by decide
  have h1 := op.isLt
  show decode .cmdword op.toNat = _
  rw [decode_cmdword (by omega), key op h]

end Sys2Proof.Laws.RoundTrip
end

