-- ==== Sys2Proof/Laws/Unread.lean ====
section
/-! SUPPORT. What the engine does not depend on: bytes of IN it does not fetch. Said once for each way an
element is built, and so for every element and for a step. -/

namespace Sys2Proof.Machine

/-! ### Two states that differ in the input -/

/-- Another IN and another IN_LEN. -/
def State.withIn (s : State) (m : Memory) (l : Word) : State := { s with inp := m, inLen := l }

/-- IN and IN_LEN agree with `m` and `l` on the bytes of the stream below `p`. -/
def State.AgreesBelow (s : State) (m : Memory) (l : Word) (p : Nat) : Prop :=
  ∀ a < p, a < s.inLen.toNat → a < l.toNat ∧ m.read .inp a = s.byteAt .inp a

/-- From `s` to `t`: IN, IN_LEN and the host moves are kept, and `in_pos` does not fall. -/
structure State.Fetches (s t : State) : Prop where
  inp : t.inp = s.inp
  inLen : t.inLen = s.inLen
  moves : t.moves = s.moves
  inPos : s.inPos ≤ t.inPos

theorem State.Fetches.refl (s : State) : s.Fetches s := ⟨rfl, rfl, rfl, Nat.le_refl _⟩

theorem State.Fetches.trans {s t u : State} (h : s.Fetches t) (g : t.Fetches u) : s.Fetches u :=
  ⟨g.inp.trans h.inp, g.inLen.trans h.inLen, g.moves.trans h.moves, Nat.le_trans h.inPos g.inPos⟩

/-- Agreement up to where a later state has fetched holds for an earlier state, and up to where it has. -/
theorem State.AgreesBelow.mono {s : State} {m : Memory} {l : Word} {p q : Nat} (h : s.AgreesBelow m l q) (hp : p ≤ q) :
    s.AgreesBelow m l p := fun a ha hl => h a (Nat.lt_of_lt_of_le ha hp) hl

theorem State.AgreesBelow.later {s t : State} {m : Memory} {l : Word} {p : Nat} (h : s.AgreesBelow m l p)
    (f : s.Fetches t) : t.AgreesBelow m l p := fun a ha hl => by
  rw [f.inLen] at hl
  have := h a ha hl
  rwa [State.byteAt, State.mem_inp, f.inp]

/-! ### Parts of an element -/

/-- A part of an element depends only on the bytes of IN it fetches; its errors also on IN_LEN. -/
structure Unread {α : Type} (f : State → Res α) : Prop where
  ok : ∀ {s a t}, f s = .ok a t →
    s.Fetches t ∧ ∀ m l, s.AgreesBelow m l t.inPos → f (s.withIn m l) = .ok a (t.withIn m l)
  err : ∀ {s k t}, f s = .err k t →
    s.Fetches t ∧ ∀ m, s.AgreesBelow m s.inLen t.inPos → f (s.withIn m s.inLen) = .err k (t.withIn m s.inLen)

theorem Unread.bind {α β : Type} {f : State → Res α} {k : α → State → Res β} (hf : Unread f) (hk : ∀ a, Unread (k a)) :
    Unread fun s => (f s).bind k where
  ok {s b u} h := by
    cases hfs : f s with
    | ok a t =>
      rw [hfs] at h
      obtain ⟨h1, e1⟩ := hf.ok hfs
      obtain ⟨h2, e2⟩ := (hk a).ok h
      exact ⟨h1.trans h2, fun m l ha => by rw [e1 m l (ha.mono h2.inPos)]; exact e2 m l (ha.later h1)⟩
    | err e t => rw [hfs] at h; cases h
    | fault q => rw [hfs] at h; cases h
    | refused q => rw [hfs] at h; cases h
  err {s e u} h := by
    cases hfs : f s with
    | ok a t =>
      rw [hfs] at h
      obtain ⟨h1, e1⟩ := hf.ok hfs
      obtain ⟨h2, e2⟩ := (hk a).err h
      refine ⟨h1.trans h2, fun m ha => ?_⟩
      rw [e1 m _ (ha.mono h2.inPos)]
      rw [← h1.inLen] at ha ⊢
      exact e2 m (ha.later h1)
    | err e t =>
      rw [hfs] at h
      cases h
      obtain ⟨h1, e1⟩ := hf.err hfs
      exact ⟨h1, fun m ha => by rw [e1 m ha]; rfl⟩
    | fault q => rw [hfs] at h; cases h
    | refused q => rw [hfs] at h; cases h

/-- A part that changes neither IN, IN_LEN nor `in_pos`, and does not depend on them. -/
theorem Unread.update {α : Type} {a : α} {g : State → State} (h : ∀ s : State, s.Fetches (g s))
    (hc : ∀ s m l, g (s.withIn m l) = (g s).withIn m l) : Unread fun s => .ok a (g s) where
  ok {s b t} e := by cases e; exact ⟨h s, fun m l _ => by rw [hc]⟩
  err e := by cases e

theorem Unread.pure {α : Type} (a : α) : Unread fun s => .ok a s := .update State.Fetches.refl fun _ _ _ => rfl

theorem Unread.error {α : Type} (k : ErrorKind) : Unread fun s => (.err k s : Res α) where
  ok e := by cases e
  err {s _ _} e := by cases e; exact ⟨State.Fetches.refl s, fun _ _ => rfl⟩

theorem Unread.fault {α : Type} (g : State → Fault) : Unread fun s => (.fault (g s) : Res α) where
  ok e := by cases e
  err e := by cases e

theorem Unread.refused {α : Type} (q : Refusal) : Unread fun _ => (.refused q : Res α) where
  ok e := by cases e
  err e := by cases e

/-- A part that depends on a value of the state that the input has no part in. -/
theorem Unread.on {α γ : Type} (g : State → γ) {f : γ → State → Res α} (hg : ∀ s m l, g (s.withIn m l) = g s)
    (h : ∀ x, Unread (f x)) : Unread fun s => f (g s) s where
  ok {s a t} e := by
    obtain ⟨h1, e1⟩ := (h (g s)).ok e
    exact ⟨h1, fun m l ha => by rw [hg]; exact e1 m l ha⟩
  err {s a t} e := by
    obtain ⟨h1, e1⟩ := (h (g s)).err e
    exact ⟨h1, fun m ha => by rw [hg]; exact e1 m ha⟩

/-- A choice that the input has no part in. -/
theorem Unread.ite {α : Type} {c : State → Prop} [∀ s, Decidable (c s)] {f g : State → Res α}
    (hc : ∀ s m l, c (s.withIn m l) ↔ c s) (hf : Unread f) (hg : Unread g) : Unread fun s => if c s then f s else g s := by
  have e : (fun s => if c s then f s else g s) = fun s => if decide (c s) = true then f s else g s := by
    funext s; simp
  rw [e]
  refine Unread.on (fun s => decide (c s)) (f := fun b s => if b = true then f s else g s)
    (fun s m l => by simp [hc]) fun b => ?_
  cases b
  · simpa using hg
  · simpa using hf

/-! ### The memories and the BitReader -/

theorem readByte_unread {sp : Space} (hs : sp ≠ .inp) (a : Nat) : Unread (readByte sp a) := by
  have h : ∀ (s : State) m l, (s.withIn m l).byteAt sp a = s.byteAt sp a := fun s m l => by cases sp <;> first | rfl | exact absurd rfl hs
  refine Unread.ite (fun _ _ _ => Iff.rfl) ?_ (Unread.fault fun _ => _)
  exact Unread.on (fun s => s.byteAt sp a) h Unread.pure

theorem writeByte_unread {sp : Space} (hs : sp ≠ .inp) (a : Nat) (b : Byte) : Unread (writeByte sp a b) := by
  refine Unread.ite (fun _ _ _ => Iff.rfl) (Unread.update (fun s => ?_) fun s m l => ?_) (Unread.fault fun _ => _)
  · cases sp <;> first | exact ⟨rfl, rfl, rfl, Nat.le_refl _⟩ | exact absurd rfl hs
  · cases sp <;> first | rfl | exact absurd rfl hs

/-- One round of the loop of Refill that fetches a byte (40_bitreader.md R200). -/
theorem refillLoop_fetch {k n : Nat} {s : State} (h : s.cnt < n) (hl : s.inPos < s.inLen.toNat)
    (hc : s.inPos < s.caps.size .inp) : refillLoop (k + 1) n s = refillLoop k n { s with
      acc := s.acc ||| ((s.byteAt .inp s.inPos).setWidth 32 <<< s.cnt), cnt := s.cnt + 8, inPos := s.inPos + 1 } := by
  rw [refillLoop, if_pos h, if_neg (Nat.not_le.2 hl), readByte, if_pos hc]; rfl

theorem refillLoop_unread (k n : Nat) : Unread (refillLoop k n) := by
  induction k with
  | zero => exact Unread.pure ()
  | succ k ih =>
    have enough : ∀ s : State, ¬ s.cnt < n → refillLoop (k + 1) n s = .ok () s := fun s h => by rw [refillLoop, if_neg h]
    have ended : ∀ s : State, s.cnt < n → s.inLen.toNat ≤ s.inPos → refillLoop (k + 1) n s = .err .truncatedInput s :=
      fun s h hl => by rw [refillLoop, if_pos h, if_pos hl]
    have outside : ∀ s : State, s.cnt < n → ¬ s.inLen.toNat ≤ s.inPos → ¬ s.inPos < s.caps.size .inp →
        refillLoop (k + 1) n s = .fault (.addressOutsideMemory .inp s.inPos) := fun s h hl hc => by
      rw [refillLoop, if_pos h, if_neg hl, readByte, if_neg hc]; rfl
    have fetch : ∀ (s : State) m l, s.cnt < n → s.inPos < s.inLen.toNat → s.inPos < s.caps.size .inp →
        ∀ p, s.inPos + 1 ≤ p → s.AgreesBelow m l p → refillLoop (k + 1) n (s.withIn m l) =
          refillLoop k n (State.withIn { s with
            acc := s.acc ||| ((s.byteAt .inp s.inPos).setWidth 32 <<< s.cnt), cnt := s.cnt + 8, inPos := s.inPos + 1 } m l) := by
      intro s m l h hl hc p hp ha
      obtain ⟨a1, a2⟩ := ha s.inPos hp hl
      rw [refillLoop_fetch (s := s.withIn m l) h a1 hc]
      rw [show (s.withIn m l).byteAt .inp (s.withIn m l).inPos = s.byteAt .inp s.inPos from a2]; rfl
    constructor
    · intro s a t e
      by_cases h : s.cnt < n
      · by_cases hl : s.inLen.toNat ≤ s.inPos
        · rw [ended s h hl] at e; cases e
        · by_cases hc : s.inPos < s.caps.size .inp
          · rw [refillLoop_fetch h (Nat.lt_of_not_le hl) hc] at e
            obtain ⟨h2, e2⟩ := ih.ok e
            exact ⟨⟨h2.inp, h2.inLen, h2.moves, Nat.le_of_succ_le h2.inPos⟩, fun m l ha => by
              rw [fetch s m l h (Nat.lt_of_not_le hl) hc _ h2.inPos ha]; exact e2 m l ha⟩
          · rw [outside s h hl hc] at e; cases e
      · rw [enough s h] at e
        cases e
        exact ⟨State.Fetches.refl s, fun m l _ => enough (s.withIn m l) h⟩
    · intro s a t e
      by_cases h : s.cnt < n
      · by_cases hl : s.inLen.toNat ≤ s.inPos
        · rw [ended s h hl] at e
          cases e
          exact ⟨State.Fetches.refl s, fun m _ => ended (s.withIn m s.inLen) h hl⟩
        · by_cases hc : s.inPos < s.caps.size .inp
          · rw [refillLoop_fetch h (Nat.lt_of_not_le hl) hc] at e
            obtain ⟨h2, e2⟩ := ih.err e
            exact ⟨⟨h2.inp, h2.inLen, h2.moves, Nat.le_of_succ_le h2.inPos⟩, fun m ha => by
              rw [fetch s m s.inLen h (Nat.lt_of_not_le hl) hc _ h2.inPos ha]; exact e2 m ha⟩
          · rw [outside s h hl hc] at e; cases e
      · rw [enough s h] at e; cases e

theorem refill_unread (n : Nat) : Unread (refill n) :=
  Unread.ite (fun _ _ _ => Iff.rfl) (refillLoop_unread 2 n) (Unread.refused _)

/-- GetBits and GetCode depend only on the bytes they fetch. -/
theorem getBits_unread (n : Nat) : Unread (getBits n) :=
  .ite (fun _ _ _ => Iff.rfl) (.pure 0) <| (refill_unread n).bind fun _ =>
    .on (fun s => s.lowBits n) (f := fun v s => .ok v (s.dropBits n)) (fun _ _ _ => rfl) fun _ =>
      .update (fun _ => ⟨rfl, rfl, rfl, Nat.le_refl _⟩) fun _ _ _ => rfl

theorem getCode_unread (t : Table) : Unread (getCode t) := by
  refine .ite (c := fun _ => t.max = 0) (fun _ _ _ => Iff.rfl) (.error _) <| (refill_unread t.max).bind fun _ =>
    .on (fun s => t.entry (s.lowBits t.max))
      (f := fun e s => if e.len = 0 then .err .invalidHuffmanTable s else .ok e.sym.toNat (s.dropBits e.len.toNat))
      (fun _ _ _ => rfl) fun e => ?_
  exact .ite (c := fun _ => e.len = 0) (fun _ _ _ => Iff.rfl) (.error _)
    (.update (fun _ => ⟨rfl, rfl, rfl, Nat.le_refl _⟩) fun _ _ _ => rfl)

/-- A part run after an update of the state that the input has no part in. -/
theorem Unread.after {α : Type} {g : State → State} {f : State → Res α} (hf : Unread f)
    (h : ∀ s : State, s.Fetches (g s)) (hc : ∀ s m l, g (s.withIn m l) = (g s).withIn m l) : Unread fun s => f (g s) :=
  (Unread.update (a := ()) h hc).bind fun _ => hf

/-! ### The elements of INFLATE -/

theorem outAppend_unread (b : Byte) : Unread (outAppend b) :=
  .ite (fun _ _ _ => Iff.rfl) (.error _) <|
    Unread.bind (.on (fun s => s.outLen) (f := fun a s => writeByte .out a b s) (fun _ _ _ => rfl) fun a =>
      writeByte_unread (by decide) a b) fun _ => .update (fun _ => ⟨rfl, rfl, rfl, Nat.le_refl _⟩) fun _ _ _ => rfl

theorem outBack_unread (dist : Nat) : Unread (outBack dist) :=
  .on (fun s => s.outLen - dist) (f := fun a s => readByte .out a s) (fun _ _ _ => rfl) fun a => readByte_unread (by decide) a

theorem copyBytes_unread (len dist : Nat) : Unread (copyBytes len dist) := by
  induction len with
  | zero => exact .pure ()
  | succ n ih => exact (outBack_unread dist).bind fun b => (outAppend_unread b).bind fun _ => ih

theorem backCopy_unread (len dist : Nat) : Unread (backCopy len dist) :=
  .ite (fun _ _ _ => Iff.rfl) (.error _) (copyBytes_unread len dist)

theorem copyStored_unread (n : Nat) : Unread (copyStored n) := by
  induction n with
  | zero => exact .pure ()
  | succ n ih => exact (getBits_unread 8).bind fun b => (outAppend_unread _).bind fun _ => ih

theorem storedBody_unread (len nlen : BitVec 16) : Unread (storedBody len nlen) :=
  .ite (c := fun _ => storedLengthPasses len nlen = true) (fun _ _ _ => Iff.rfl)
    ((copyStored_unread _).bind fun _ => .update (fun _ => ⟨rfl, rfl, rfl, Nat.le_refl _⟩) fun _ _ _ => rfl) (.error _)

theorem buildTableStep_unread (lens : List Nat) (used : Bool) : Unread (buildTableStep lens used) := by
  unfold buildTableStep
  cases buildTable lens used with
  | none => exact .error _
  | some t => exact .pure t

theorem readClLengths_unread (n : Nat) : Unread (readClLengths n) := by
  induction n with
  | zero => exact .pure []
  | succ n ih => exact (getBits_unread 3).bind fun v => ih.bind fun rest => .pure (v :: rest)

theorem pushLengths_unread (n v : Nat) : Unread fun s => .ok () (s.pushLengths n v) :=
  .update (fun _ => ⟨rfl, rfl, rfl, Nat.le_refl _⟩) fun _ _ _ => rfl

theorem repeatLength_unread (v base extra : Nat) : Unread (repeatLength v base extra) :=
  (getBits_unread extra).bind fun _ => .ite (fun _ _ _ => Iff.rfl) (.error _) (pushLengths_unread _ v)

theorem clRep16Step_unread : Unread clRep16Step := by
  refine .on (fun s => s.dyn.lens.getLast?)
    (f := fun o s => match o with
      | none => .err .invalidHuffmanTable s
      | some v => repeatLength v 3 2 s) (fun _ _ _ => rfl) fun o => ?_
  cases o with
  | none => exact .error _
  | some v => exact repeatLength_unread v 3 2

theorem clStep_unread (v : Nat) : Unread (clStep v) :=
  .ite (c := fun _ => v < 16) (fun _ _ _ => Iff.rfl) (pushLengths_unread _ _) <|
    .ite (c := fun _ => v = 16) (fun _ _ _ => Iff.rfl) clRep16Step_unread <|
      .ite (c := fun _ => v = 17) (fun _ _ _ => Iff.rfl) (repeatLength_unread 0 3 3) <|
        .ite (c := fun _ => v = 18) (fun _ _ _ => Iff.rfl) (repeatLength_unread 0 11 7) (.fault _)

/-- GetCode with a table of the state. -/
theorem getCode_on {g : State → Table} (hg : ∀ s m l, g (s.withIn m l) = g s) : Unread fun s => getCode (g s) s :=
  .on g (f := getCode) hg getCode_unread

theorem clLoop_unread (k : Nat) : Unread (clLoop k) := by
  induction k with
  | zero => exact .pure ()
  | succ k ih =>
    exact .ite (fun _ _ _ => Iff.rfl)
      ((getCode_on fun _ _ _ => rfl).bind fun v => (clStep_unread v).bind fun _ => ih) (.pure ())

theorem dynamicTables_unread : Unread dynamicTables := by
  refine Unread.bind (.on (fun s => s.dyn.lens.take s.dyn.hlit) (f := fun ls s => buildTableStep ls true s)
    (fun _ _ _ => rfl) fun ls => buildTableStep_unread ls true) fun llt => ?_
  refine Unread.bind (.on (fun s => s.dyn.lens.drop s.dyn.hlit)
    (f := fun ls s => buildTableStep ls false { s with llt := llt }) (fun _ _ _ => rfl) fun ls =>
      (buildTableStep_unread ls false).after (fun _ => ⟨rfl, rfl, rfl, Nat.le_refl _⟩) fun _ _ _ => rfl) fun dt => ?_
  exact .update (fun _ => ⟨rfl, rfl, rfl, Nat.le_refl _⟩) fun _ _ _ => rfl

theorem dynamicHeader_unread (hlit hdist : BitVec 5) (hclen : BitVec 4) : Unread (dynamicHeader hlit hdist hclen) := by
  refine (readClLengths_unread _).bind fun read => (buildTableStep_unread _ true).bind fun clt => ?_
  refine Unread.bind (f := fun s => clLoop (litCount hlit + distCount hdist) { s with
    dyn := { hlit := litCount hlit, hdist := distCount hdist, lens := [], clt := clt } }) ?_ fun _ => dynamicTables_unread
  exact (clLoop_unread _).after (fun _ => ⟨rfl, rfl, rfl, Nat.le_refl _⟩) fun _ _ _ => rfl

theorem distancePart_unread (base extra : Nat) : Unread (distancePart base extra) := by
  refine (getBits_unread extra).bind fun e => Unread.bind (.on (fun s => s.matchLen)
    (f := fun len s => backCopy len (base + e) s) (fun _ _ _ => rfl) fun len => backCopy_unread len _) fun _ => ?_
  exact .update (fun _ => ⟨rfl, rfl, rfl, Nat.le_refl _⟩) fun _ _ _ => rfl

/-! ### The elements of DECODE_PNG -/

theorem neighbour_unread (p : Bool) (a : Nat) : Unread (neighbour p a) :=
  .ite (c := fun _ => p = true) (fun _ _ _ => Iff.rfl) (readByte_unread (by decide) a) (.pure 0)

theorem neighbour_on (p : Bool) (g : State → Nat) (hg : ∀ s m l, g (s.withIn m l) = g s) :
    Unread fun s => neighbour p (g s) s :=
  .on g (f := fun a s => neighbour p a s) hg (neighbour_unread p)

theorem unfilterByte_unread (ft : FilterType) (x : Nat) : Unread (unfilterByte ft x) := by
  refine show Unread fun s => unfilterByte ft x s from .on (fun s => s.png)
    (f := fun p s => (readByte .out (p.rowBase + 1 + x) s).bind fun f s =>
      (neighbour (decide (p.bpp ≤ x)) (p.rowBase + 1 + x - s.png.bpp) s).bind fun a s =>
        (neighbour (decide (1 ≤ p.row)) (p.rowBase + 1 + x - s.png.rowlen) s).bind fun b s =>
          (neighbour (decide (1 ≤ p.row) && decide (p.bpp ≤ x)) (p.rowBase + 1 + x - s.png.rowlen - s.png.bpp) s).bind
            fun c s => writeByte .out (p.rowBase + 1 + x) (reconstruct ft f a b c) s) (fun _ _ _ => rfl) fun p => ?_
  exact (readByte_unread (by decide) _).bind fun f => (neighbour_on _ _ fun _ _ _ => rfl).bind fun a =>
    (neighbour_on _ _ fun _ _ _ => rfl).bind fun b => (neighbour_on _ _ fun _ _ _ => rfl).bind fun c =>
      writeByte_unread (by decide) _ _

theorem unfilterFrom_unread (ft : FilterType) (n x : Nat) : Unread (unfilterFrom ft n x) := by
  induction n generalizing x with
  | zero => exact .pure ()
  | succ n ih => exact (unfilterByte_unread ft x).bind fun _ => ih (x + 1)

/-- Going on, with or without a checkpoint, does not depend on the input. -/
theorem State.goto_fetches (s : State) (f : Fsm) : s.Fetches (s.goto f) := by
  unfold State.goto State.finish; split <;> exact ⟨rfl, rfl, rfl, Nat.le_refl _⟩

theorem State.goto_withIn (s : State) (f : Fsm) (m : Memory) (l : Word) :
    (s.withIn m l).goto f = (s.goto f).withIn m l := by
  unfold State.goto State.finish; split <;> rfl

theorem State.checkpoint_fetches (s : State) (f : Fsm) : s.Fetches (s.checkpoint f) := by
  unfold State.checkpoint; split
  · exact ⟨rfl, rfl, rfl, Nat.le_refl _⟩
  · exact s.goto_fetches f

theorem State.checkpoint_withIn (s : State) (f : Fsm) (m : Memory) (l : Word) :
    (s.withIn m l).checkpoint f = (s.checkpoint f).withIn m l := by
  unfold State.checkpoint
  rw [show (s.withIn m l).ckptEn = s.ckptEn from rfl]
  split
  · rfl
  · exact s.goto_withIn f m l

theorem unfilterRow_unread (ft : FilterType) : Unread (unfilterRow ft) := by
  refine Unread.bind (.on (fun s => s.png.stride) (f := fun n s => unfilterFrom ft n 0 s) (fun _ _ _ => rfl) fun n =>
    unfilterFrom_unread ft n 0) fun _ => .update (fun s => ?_) fun s m l => ?_
  · exact State.Fetches.trans (t := { s with png := { s.png with row := s.png.row + 1 } })
      ⟨rfl, rfl, rfl, Nat.le_refl _⟩ (State.checkpoint_fetches _ _)
  · exact State.checkpoint_withIn { s with png := { s.png with row := s.png.row + 1 } } _ m l

theorem writePixel_unread (px : Pixel) : Unread (writePixel px) := by
  have h : ∀ k b, Unread fun s => writeByte .pix (pixelTarget s.png k) b s := fun k b =>
    .on (fun s => pixelTarget s.png k) (f := fun a s => writeByte .pix a b s) (fun _ _ _ => rfl) fun a =>
      writeByte_unread (by decide) a b
  exact (h 0 _).bind fun _ => (h 1 _).bind fun _ => (h 2 _).bind fun _ => h 3 _

theorem assemblePixel_unread {expand : Nat → State → Res Pixel} (h : ∀ src, Unread (expand src)) :
    Unread (assemblePixel expand) := by
  refine Unread.bind (.on (fun s => pixelSource s.png) (f := expand) (fun _ _ _ => rfl) h) fun px =>
    (writePixel_unread px).bind fun _ => .update (fun s => ?_) fun s m l => ?_
  · exact State.Fetches.trans (t := { s with png := { s.png with pixI := s.png.pixI + 1 } })
      ⟨rfl, rfl, rfl, Nat.le_refl _⟩ (State.goto_fetches _ _)
  · exact State.goto_withIn { s with png := { s.png with pixI := s.png.pixI + 1 } } _ m l

theorem sourceByte_unread (src k : Nat) : Unread (sourceByte src k) := readByte_unread (by decide) _

theorem expandPalette_unread (src : Nat) : Unread (expandPalette src) :=
  (sourceByte_unread src 0).bind fun idx => .ite (fun _ _ _ => Iff.rfl) (.error _) <|
    (readByte_unread (by decide) _).bind fun _ => (readByte_unread (by decide) _).bind fun _ =>
      (readByte_unread (by decide) _).bind fun _ => .pure _

theorem expandGray_unread (src : Nat) : Unread (expandGray src) := (sourceByte_unread src 0).bind fun _ => .pure _

theorem expandGrayAlpha_unread (src : Nat) : Unread (expandGrayAlpha src) :=
  (sourceByte_unread src 0).bind fun _ => (sourceByte_unread src 1).bind fun _ => .pure _

theorem expandRgb_unread (src : Nat) : Unread (expandRgb src) :=
  (sourceByte_unread src 0).bind fun _ => (sourceByte_unread src 1).bind fun _ => (sourceByte_unread src 2).bind fun _ =>
    .pure _

theorem expandRgba_unread (src : Nat) : Unread (expandRgba src) :=
  (sourceByte_unread src 0).bind fun _ => (sourceByte_unread src 1).bind fun _ => (sourceByte_unread src 2).bind fun _ =>
    (sourceByte_unread src 3).bind fun _ => .pure _

theorem pngStart_unread : Unread pngStart := by
  refine Unread.after (g := State.latchHeader) (f := fun s =>
    if s.png.w = 0 ∨ s.png.h = 0 then .err .unsupportedFormat s
    else if !depthPasses s.png.depth then .err .unsupportedFormat s
    else if !ctypePasses s.png.ctype then .err .unsupportedFormat s
    else if s.caps.outCap < s.outLen then .err .capacityExceeded s
    else if s.format.palPresent ∧ Config.palCap < s.palLen.toNat then .err .capacityExceeded s
    else if s.caps.pixCap < s.png.w * s.png.h * 4 then .err .capacityExceeded s
    else (fun s : State => if s.outLen < s.png.h * s.png.rowlen then .err .truncatedInput s
      else .ok () { s with png := { s.png with row := 0, pixI := 0 }, fsm := .row }) s.latchDerived) ?_
    (fun _ => ⟨rfl, rfl, rfl, Nat.le_refl _⟩) fun _ _ _ => rfl
  refine .ite (fun _ _ _ => Iff.rfl) (.error _) <| .ite (fun _ _ _ => Iff.rfl) (.error _) <|
    .ite (fun _ _ _ => Iff.rfl) (.error _) <| .ite (fun _ _ _ => Iff.rfl) (.error _) <|
      .ite (fun _ _ _ => Iff.rfl) (.error _) <| .ite (fun _ _ _ => Iff.rfl) (.error _) ?_
  refine Unread.after (g := State.latchDerived) (f := fun s : State =>
    if s.outLen < s.png.h * s.png.rowlen then .err .truncatedInput s
      else .ok () { s with png := { s.png with row := 0, pixI := 0 }, fsm := .row }) (.ite (fun _ _ _ => Iff.rfl) (.error _) ?_)
    (fun _ => ⟨rfl, rfl, rfl, Nat.le_refl _⟩) fun _ _ _ => rfl
  exact .update (fun _ => ⟨rfl, rfl, rfl, Nat.le_refl _⟩) fun _ _ _ => rfl

/-! ### Outcomes -/

/-- A whole element depends only on the bytes of IN it fetches and, if it ends in ERROR, on IN_LEN. -/
structure UnreadStep (f : State → Outcome) : Prop where
  next : ∀ {s t}, f s = .next t → s.Fetches t ∧
    ∀ m l, s.AgreesBelow m l t.inPos → l = s.inLen ∨ t.fsm ≠ .error → f (s.withIn m l) = .next (t.withIn m l)

theorem Unread.run {f : State → Res Unit} (h : Unread f) : UnreadStep fun s => (f s).run := by
  refine ⟨fun {s t} e => ?_⟩
  have e : (f s).run = .next t := e
  cases hf : f s with
  | ok a u =>
    rw [hf] at e; cases e
    obtain ⟨h1, e1⟩ := h.ok hf
    exact ⟨h1, fun m l ha _ => by show (f _).run = _; rw [e1 m l ha]; rfl⟩
  | err k u =>
    rw [hf] at e; cases e
    obtain ⟨h1, e1⟩ := h.err hf
    refine ⟨⟨h1.inp, h1.inLen, h1.moves, h1.inPos⟩, fun m l ha hl => ?_⟩
    obtain rfl := hl.resolve_right fun hn => hn rfl
    show (f _).run = _
    rw [e1 m ha]; rfl
  | fault q => rw [hf] at e; cases e
  | refused q => rw [hf] at e; cases e

theorem Unread.andThen {α : Type} {f : State → Res α} {k : α → State → Outcome} (h : Unread f)
    (hk : ∀ a, UnreadStep (k a)) : UnreadStep fun s => (f s).andThen k := by
  refine ⟨fun {s t} e => ?_⟩
  have e : (f s).andThen k = .next t := e
  cases hf : f s with
  | ok a u =>
    rw [hf] at e
    obtain ⟨h1, e1⟩ := h.ok hf
    obtain ⟨h2, e2⟩ := (hk a).next e
    refine ⟨h1.trans h2, fun m l ha hl => ?_⟩
    show (f _).andThen k = _
    rw [e1 m l (ha.mono h2.inPos)]
    exact e2 m l (ha.later h1) (by rw [h1.inLen]; exact hl)
  | err x u =>
    rw [hf] at e; cases e
    obtain ⟨h1, e1⟩ := h.err hf
    refine ⟨⟨h1.inp, h1.inLen, h1.moves, h1.inPos⟩, fun m l ha hl => ?_⟩
    obtain rfl := hl.resolve_right fun hn => hn rfl
    show (f _).andThen k = _
    rw [e1 m ha]; rfl
  | fault q => rw [hf] at e; cases e
  | refused q => rw [hf] at e; cases e

theorem UnreadStep.update {g : State → State} (h : ∀ s : State, s.Fetches (g s))
    (hc : ∀ s m l, g (s.withIn m l) = (g s).withIn m l) : UnreadStep fun s => .next (g s) :=
  (Unread.update (a := ()) h hc).run

theorem UnreadStep.raise (k : ErrorKind) : UnreadStep fun s => .next (s.raise k) :=
  .update (fun _ => ⟨rfl, rfl, rfl, Nat.le_refl _⟩) fun _ _ _ => rfl

theorem UnreadStep.on {γ : Type} (g : State → γ) {f : γ → State → Outcome} (hg : ∀ s m l, g (s.withIn m l) = g s)
    (h : ∀ x, UnreadStep (f x)) : UnreadStep fun s => f (g s) s := by
  refine ⟨fun {s t} e => ?_⟩
  obtain ⟨h1, e1⟩ := (h (g s)).next e
  exact ⟨h1, fun m l ha hl => by show f (g _) _ = _; rw [hg]; exact e1 m l ha hl⟩

theorem runDistance_unread (d : Nat) : UnreadStep (runDistance d) := by
  by_cases hd : d < 30
  · interval_cases d <;> exact (distancePart_unread _ _).run
  · have h : runDistance d = fun s => .next (s.raise .invalidSymbol) := by
      funext s
      rw [runDistance, List.getElem?_eq_none (by simp [distanceMeanings]; omega)]
    rw [h]; exact .raise _

theorem lengthPart_unread (base extra : Nat) : UnreadStep (lengthPart base extra) :=
  (getBits_unread extra).andThen fun e => Unread.andThen
    (Unread.after (g := fun s => { s with matchLen := base + e }) (f := fun s => getCode s.dt s)
      (getCode_on fun _ _ _ => rfl) (fun _ => ⟨rfl, rfl, rfl, Nat.le_refl _⟩) fun _ _ _ => rfl) runDistance_unread

/-- Every instruction but the commands. -/
theorem exec_unread (i : Instr) (h : i.format ≠ .cmdword) : UnreadStep (exec i) := by
  cases i
  case zhdr cmf flg =>
    show UnreadStep (execZhdr cmf flg)
    unfold execZhdr
    split
    · exact .update (fun _ => ⟨rfl, rfl, rfl, Nat.le_refl _⟩) fun _ _ _ => rfl
    · exact .raise _
  case zhdrBad => exact .raise _
  case blockStored => exact .update (fun _ => ⟨rfl, rfl, rfl, Nat.le_refl _⟩) fun _ _ _ => rfl
  case blockFixed f =>
    have h (l d : Table) : UnreadStep fun s => .next { s.setBlock f 1 with llt := l, dt := d, fsm := .symbol } :=
      .update (fun _ => ⟨rfl, rfl, rfl, Nat.le_refl _⟩) fun _ _ _ => rfl
    exact h _ _
  case blockDynamic => exact .update (fun _ => ⟨rfl, rfl, rfl, Nat.le_refl _⟩) fun _ _ _ => rfl
  case blockReserved f =>
    exact (Unread.after (g := fun s => s.setBlock f 3) (.error .reservedBlockType)
      (fun _ => ⟨rfl, rfl, rfl, Nat.le_refl _⟩) fun _ _ _ => rfl).run
  case stored => exact (storedBody_unread _ _).run
  case dynhdr => exact (dynamicHeader_unread _ _ _).run
  case clLen => exact (pushLengths_unread _ _).run
  case clRep16 => exact clRep16Step_unread.run
  case clRep17 => exact (repeatLength_unread 0 3 3).run
  case clRep18 => exact (repeatLength_unread 0 11 7).run
  case lit b =>
    exact ((outAppend_unread b).bind fun _ => .update (a := ()) (g := fun s => { s with fsm := .symbol })
      (fun _ => ⟨rfl, rfl, rfl, Nat.le_refl _⟩) fun _ _ _ => rfl).run
  case eob => exact .update (fun _ => ⟨rfl, rfl, rfl, Nat.le_refl _⟩) fun _ _ _ => rfl
  case symInvalid => exact .raise _
  case distInvalid => exact .raise _
  case rowUnknown => exact .raise _
  case pixelUnsupported => exact .raise _
  case pixelPalette => exact (assemblePixel_unread expandPalette_unread).run
  case pixelGray => exact (assemblePixel_unread expandGray_unread).run
  case pixelGrayAlpha => exact (assemblePixel_unread expandGrayAlpha_unread).run
  case pixelRgb => exact (assemblePixel_unread expandRgb_unread).run
  case pixelRgba => exact (assemblePixel_unread expandRgba_unread).run
  case len257 => exact lengthPart_unread 3 0
  case len258 => exact lengthPart_unread 4 0
  case len259 => exact lengthPart_unread 5 0
  case len260 => exact lengthPart_unread 6 0
  case len261 => exact lengthPart_unread 7 0
  case len262 => exact lengthPart_unread 8 0
  case len263 => exact lengthPart_unread 9 0
  case len264 => exact lengthPart_unread 10 0
  case len265 => exact lengthPart_unread 11 1
  case len266 => exact lengthPart_unread 13 1
  case len267 => exact lengthPart_unread 15 1
  case len268 => exact lengthPart_unread 17 1
  case len269 => exact lengthPart_unread 19 2
  case len270 => exact lengthPart_unread 23 2
  case len271 => exact lengthPart_unread 27 2
  case len272 => exact lengthPart_unread 31 2
  case len273 => exact lengthPart_unread 35 3
  case len274 => exact lengthPart_unread 43 3
  case len275 => exact lengthPart_unread 51 3
  case len276 => exact lengthPart_unread 59 3
  case len277 => exact lengthPart_unread 67 4
  case len278 => exact lengthPart_unread 83 4
  case len279 => exact lengthPart_unread 99 4
  case len280 => exact lengthPart_unread 115 4
  case len281 => exact lengthPart_unread 131 5
  case len282 => exact lengthPart_unread 163 5
  case len283 => exact lengthPart_unread 195 5
  case len284 => exact lengthPart_unread 227 5
  case len285 => exact lengthPart_unread 258 0
  case dist0 => exact (distancePart_unread 1 0).run
  case dist1 => exact (distancePart_unread 2 0).run
  case dist2 => exact (distancePart_unread 3 0).run
  case dist3 => exact (distancePart_unread 4 0).run
  case dist4 => exact (distancePart_unread 5 1).run
  case dist5 => exact (distancePart_unread 7 1).run
  case dist6 => exact (distancePart_unread 9 2).run
  case dist7 => exact (distancePart_unread 13 2).run
  case dist8 => exact (distancePart_unread 17 3).run
  case dist9 => exact (distancePart_unread 25 3).run
  case dist10 => exact (distancePart_unread 33 4).run
  case dist11 => exact (distancePart_unread 49 4).run
  case dist12 => exact (distancePart_unread 65 5).run
  case dist13 => exact (distancePart_unread 97 5).run
  case dist14 => exact (distancePart_unread 129 6).run
  case dist15 => exact (distancePart_unread 193 6).run
  case dist16 => exact (distancePart_unread 257 7).run
  case dist17 => exact (distancePart_unread 385 7).run
  case dist18 => exact (distancePart_unread 513 8).run
  case dist19 => exact (distancePart_unread 769 8).run
  case dist20 => exact (distancePart_unread 1025 9).run
  case dist21 => exact (distancePart_unread 1537 9).run
  case dist22 => exact (distancePart_unread 2049 10).run
  case dist23 => exact (distancePart_unread 3073 10).run
  case dist24 => exact (distancePart_unread 4097 11).run
  case dist25 => exact (distancePart_unread 6145 11).run
  case dist26 => exact (distancePart_unread 8193 12).run
  case dist27 => exact (distancePart_unread 12289 12).run
  case dist28 => exact (distancePart_unread 16385 13).run
  case dist29 => exact (distancePart_unread 24577 13).run
  case rowNone => exact (unfilterRow_unread .none).run
  case rowSub => exact (unfilterRow_unread .sub).run
  case rowUp => exact (unfilterRow_unread .up).run
  case rowAverage => exact (unfilterRow_unread .average).run
  case rowPaeth => exact (unfilterRow_unread .paeth).run
  all_goals exact absurd rfl h

/-! ### The engine's turn -/

/-- What a format's decoder reads is an instruction of the format. -/
theorem decode_format {f : Format} {v : Nat} {i : Instr} (h : decode f v = .ok i) : i.format = f := by
  unfold decode at h
  split at h
  · cases f
    case sym =>
      replace h : decodeSym v = .ok i := h
      unfold decodeSym at h
      split at h
      · cases h; rfl
      · split at h
        · cases h; rfl
        · split at h
          · have : ∀ n < 29, (lengthInstrs.getD n .eob).format = .sym := by decide +kernel
            exact Except.ok.inj h ▸ this _ (by omega)
          · split at h
            · cases h; rfl
            · cases h
    case dcode =>
      replace h : decodeDcode v = .ok i := h
      unfold decodeDcode at h
      split at h
      · have : ∀ n < 30, (distanceInstrs.getD n .dist0).format = .dcode := by decide +kernel
        exact Except.ok.inj h ▸ this _ (by omega)
      · split at h
        · cases h; rfl
        · cases h
    case clsym =>
      replace h : decodeClsym v = .ok i := h
      unfold decodeClsym at h
      repeat' split at h
      all_goals cases h <;> rfl
    case stored => cases h; rfl
    case dynhdr => cases h; rfl
    all_goals
      cases h
      simp only [decodeZhdr, decodeBlkhdr, decodeRow, decodePixel, decodeCmdword]
      repeat' split
    all_goals rfl
  · cases h

/-- Reading an instruction of the engine. -/
structure Selecting (f : State → Res Instr) : Prop where
  unread : Unread f
  format : ∀ {s i t}, f s = .ok i t → i.format ≠ .cmdword

theorem decoded_selecting {f : Format} (hf : f ≠ .cmdword) (v : Nat) : Selecting (decoded f v) := by
  unfold decoded
  cases h : decode f v with
  | ok i => exact ⟨.pure i, fun e => by cases e; rw [decode_format h]; exact hf⟩
  | error e => cases e <;> first | exact ⟨.error _, fun e => by cases e⟩ | exact ⟨.fault _, fun e => by cases e⟩

theorem Selecting.bind {α : Type} {f : State → Res α} {k : α → State → Res Instr} (hf : Unread f)
    (hk : ∀ a, Selecting (k a)) : Selecting fun s => (f s).bind k where
  unread := hf.bind fun a => (hk a).unread
  format {s i u} h := by
    cases hfs : f s with
    | ok a t => rw [hfs] at h; exact (hk a).format h
    | err e t => rw [hfs] at h; cases h
    | fault q => rw [hfs] at h; cases h
    | refused q => rw [hfs] at h; cases h

theorem Selecting.ite {c : State → Prop} [∀ s, Decidable (c s)] {f g : State → Res Instr}
    (hc : ∀ s m l, c (s.withIn m l) ↔ c s) (hf : Selecting f) (hg : Selecting g) :
    Selecting fun s => if c s then f s else g s where
  unread := .ite hc hf.unread hg.unread
  format {s i t} h := by
    by_cases hs : c s
    · rw [if_pos hs] at h; exact hf.format h
    · rw [if_neg hs] at h; exact hg.format h

/-- An instruction read and run. -/
theorem Selecting.run {f : State → Res Instr} (h : Selecting f) : UnreadStep fun s => (f s).fetched.outcome := by
  refine ⟨fun {s t} e => ?_⟩
  simp only [fetched_run] at e ⊢
  cases hf : f s with
  | ok i u =>
    rw [hf] at e
    obtain ⟨h1, e1⟩ := h.unread.ok hf
    obtain ⟨h2, e2⟩ := (exec_unread i (h.format hf)).next e
    refine ⟨h1.trans h2, fun m l ha hl => ?_⟩
    rw [e1 m l (ha.mono h2.inPos)]
    exact e2 m l (ha.later h1) (by rw [h1.inLen]; exact hl)
  | err x u =>
    rw [hf] at e; cases e
    obtain ⟨h1, e1⟩ := h.unread.err hf
    refine ⟨⟨h1.inp, h1.inLen, h1.moves, h1.inPos⟩, fun m l ha hl => ?_⟩
    obtain rfl := hl.resolve_right fun hn => hn rfl
    rw [e1 m ha]; rfl
  | fault q => rw [hf] at e; cases e
  | refused q => rw [hf] at e; cases e

theorem UnreadStep.ite {c : State → Prop} [∀ s, Decidable (c s)] {f g : State → Outcome}
    (hc : ∀ s m l, c (s.withIn m l) ↔ c s) (hf : UnreadStep f) (hg : UnreadStep g) :
    UnreadStep fun s => if c s then f s else g s := by
  refine ⟨fun {s t} e => ?_⟩
  by_cases hs : c s
  · have e : (if c s then f s else g s) = .next t := e
    rw [if_pos hs] at e
    obtain ⟨h1, e1⟩ := hf.next e
    exact ⟨h1, fun m l ha hl => by show (if _ then _ else _) = _; rw [if_pos ((hc s m l).2 hs)]; exact e1 m l ha hl⟩
  · have e : (if c s then f s else g s) = .next t := e
    rw [if_neg hs] at e
    obtain ⟨h1, e1⟩ := hg.next e
    exact ⟨h1, fun m l ha hl => by
      show (if _ then _ else _) = _; rw [if_neg (mt (hc s m l).1 hs)]; exact e1 m l ha hl⟩

theorem getBits_selecting (n : Nat) {k : Nat → State → Res Instr} (hk : ∀ v, Selecting (k v)) :
    Selecting fun s => (getBits n s).bind k := .bind (getBits_unread n) hk

theorem fetchBlkhdr_selecting : Selecting fetchBlkhdr :=
  getBits_selecting 1 fun f => .bind (f := fun s => getBits 2 { s with bfinal := f == 1 })
    ((getBits_unread 2).after (fun _ => ⟨rfl, rfl, rfl, Nat.le_refl _⟩) fun _ _ _ => rfl)
    fun t => decoded_selecting (by decide) _

theorem fetchStored_selecting : Selecting fetchStored :=
  .bind (f := fun s => getBits 16 s.align) ((getBits_unread 16).after (fun _ => ⟨rfl, rfl, rfl, Nat.le_refl _⟩) fun _ _ _ => rfl)
    fun len => getBits_selecting 16 fun nlen => decoded_selecting (by decide) _

theorem fetchRow_selecting : Selecting fetchRow :=
  .ite (fun _ _ _ => Iff.rfl)
    (.bind (.on (fun s => s.png.rowBase) (f := readByte .out) (fun _ _ _ => rfl) fun a => readByte_unread (by decide) a)
      fun ft => decoded_selecting (by decide) _)
    ⟨.fault _, fun e => by cases e⟩

theorem fetchPixel_selecting : Selecting fetchPixel := by
  refine .ite (fun _ _ _ => Iff.rfl) ⟨.on (fun s => s.png.depth.toNat + s.png.ctype.toNat * 256)
    (f := decoded .pixel) (fun _ _ _ => rfl) fun v => (decoded_selecting (by decide) v).unread,
    fun e => (decoded_selecting (f := .pixel) (by decide) _).format e⟩ ⟨.fault _, fun e => by cases e⟩

/-- The control state's element: DYNHDR, SYMBOL and ASMSTART choose by the scratch or the depth. -/
theorem fetchDynamic_unread : UnreadStep fun s => (fetchDynamic s).outcome := by
  have h : (fun s => (fetchDynamic s).outcome) = fun s => if s.dyn.hlit = 0 then (fetchDynhdr s).fetched.outcome
      else if s.dyn.lens.length < s.lengthTotal then (fetchClsym s).fetched.outcome else (dynamicTables s).run := by
    funext s; unfold fetchDynamic; split
    · rfl
    · split <;> rfl
  rw [h]
  refine .ite (fun _ _ _ => Iff.rfl) (Selecting.run ?_) (.ite (fun _ _ _ => Iff.rfl) (Selecting.run ?_) dynamicTables_unread.run)
  · exact getBits_selecting 5 fun _ => getBits_selecting 5 fun _ => getBits_selecting 4 fun _ => decoded_selecting (by decide) _
  · exact .bind (getCode_on fun _ _ _ => rfl) fun v => decoded_selecting (by decide) v

theorem fetchSymbol_unread : UnreadStep fun s => (fetchSymbol s).outcome := by
  have h : (fun s => (fetchSymbol s).outcome) = fun s =>
      if s.matchLen = 0 then (fetchSym s).fetched.outcome else (fetchDcode s).fetched.outcome := by
    funext s; unfold fetchSymbol; split <;> rfl
  rw [h]
  exact .ite (fun _ _ _ => Iff.rfl)
    (Selecting.run (.bind (getCode_on fun _ _ _ => rfl) fun v => decoded_selecting (by decide) v))
    (Selecting.run (.bind (getCode_on fun _ _ _ => rfl) fun v => decoded_selecting (by decide) v))

theorem fetchAsmstart_unread : UnreadStep fun s => (fetchAsmstart s).outcome := by
  have h : (fun s => (fetchAsmstart s).outcome) = fun s =>
      if s.png.depth = 8 then .next (asmStart s) else .next (s.raise .unsupportedFormat) := by
    funext s; unfold fetchAsmstart; split <;> rfl
  rw [h]
  exact .ite (fun _ _ _ => Iff.rfl) (.update (fun _ => ⟨rfl, rfl, rfl, Nat.le_refl _⟩) fun _ _ _ => rfl) (.raise _)

theorem fetchElement_unread : UnreadStep fun s => (fetchElement s).outcome := by
  have of (g : Fsm → State → Outcome) (hg : ∀ f, UnreadStep (g f)) (h : ∀ f s, s.fsm = f → (fetchElement s).outcome = g f s) :
      UnreadStep fun s => (fetchElement s).outcome := by
    rw [show (fun s => (fetchElement s).outcome) = fun s => g s.fsm s from funext fun s => h _ s rfl]
    exact .on (fun s => s.fsm) (f := g) (fun _ _ _ => rfl) hg
  refine of (fun f s => match f with
      | .zhdr => (fetchZhdr s).fetched.outcome
      | .blkhdr => (fetchBlkhdr s).fetched.outcome
      | .stored => (fetchStored s).fetched.outcome
      | .dynhdr => (fetchDynamic s).outcome
      | .symbol => (fetchSymbol s).outcome
      | .blkend => .next (blockEnd s)
      | .pngstart => (pngStart s).run
      | .row => (fetchRow s).fetched.outcome
      | .asmstart => (fetchAsmstart s).outcome
      | .pixel => (fetchPixel s).fetched.outcome
      | .idle | .done | .error => .fault (.noElement f)) (fun f => ?_) (fun f s hf => ?_)
  · cases f
    case zhdr =>
      exact Selecting.run (getBits_selecting 8 fun _ => getBits_selecting 8 fun _ => decoded_selecting (by decide) _)
    case blkhdr => exact fetchBlkhdr_selecting.run
    case stored => exact fetchStored_selecting.run
    case dynhdr => exact fetchDynamic_unread
    case symbol => exact fetchSymbol_unread
    case blkend =>
      exact .on (fun s => if s.bfinal then Fsm.done else .blkhdr) (f := fun f s => .next (s.checkpoint f))
        (fun _ _ _ => rfl) fun f => .update (fun s => s.checkpoint_fetches f) fun s m l => s.checkpoint_withIn f m l
    case pngstart => exact pngStart_unread.run
    case row => exact fetchRow_selecting.run
    case asmstart => exact fetchAsmstart_unread
    case pixel => exact fetchPixel_selecting.run
    all_goals exact ⟨fun e => by cases e⟩
  · unfold fetchElement
    rw [hf]
    cases f <;> rfl

/-- A step of the engine depends on IN only through the bytes it fetches, and on IN_LEN only if it ends in
ERROR (40_bitreader.md R200). -/
theorem step_unread {s t : State} (hm : s.moves = []) (h : step s = .next t) : s.Fetches t ∧
    ∀ m l, s.AgreesBelow m l t.inPos → l = s.inLen ∨ t.fsm ≠ .error → step (s.withIn m l) = .next (t.withIn m l) := by
  cases he : s.engineEnabled with
  | false =>
    have e : ∀ u : State, u.moves = [] → u.engineEnabled = false → step u = .next u := fun u hu he => by
      simp [step_eq, fetchNext, hu, fetchEngine, he, Fetched.outcome]
    rw [e s hm he] at h
    cases h
    exact ⟨State.Fetches.refl s, fun m l _ _ => e (s.withIn m l) hm he⟩
  | true =>
    have e : ∀ u : State, u.moves = [] → u.engineEnabled = true → step u = (fetchElement u).outcome := fun u hu he => by
      simp [step_eq, fetchNext, hu, fetchEngine, he]
    rw [e s hm he] at h
    obtain ⟨h1, e1⟩ := fetchElement_unread.next h
    exact ⟨h1, fun m l ha hl => by rw [e (s.withIn m l) hm he]; exact e1 m l ha hl⟩

end Sys2Proof.Machine
end

