-- ==== Sys2Proof/Tests/Slice0.lean ====
section
/-! SUPPORT. The model's own tests: ill-formed terms, decoding of words written out from the encodings of
30_encoding.md, one-step tests whose results are the spec's worked examples, and a witness for the
hypotheses of every statement that has some. -/

namespace Sys2Proof.Tests

open Sys2Proof.Machine Sys2Proof.Claims

/-! ### WellFormed refuses what is no row -/

/-- 30_encoding.md R120: FLG = 0x20 has FDICT set. -/
theorem test_illFormed_zhdr : (Instr.zhdr 0x78 0x20).illFormed = some .illegalHeader := by decide
/-- 30_encoding.md R120: 0x7801 passes the three checks. -/
theorem test_illFormed_zhdrBad : (Instr.zhdrBad 0x78 0x01).illFormed = some .legalHeader := by decide
/-- 30_encoding.md R127: 4 is Paeth. -/
theorem test_illFormed_rowUnknown : (Instr.rowUnknown 4).illFormed = some .knownFilter := by decide
/-- 30_encoding.md R128: depth 8, colour type 6 is RGBA. -/
theorem test_illFormed_pixelUnsupported : (Instr.pixelUnsupported 8 6).illFormed = some .supportedPixel := by decide
/-- 30_encoding.md R129: OP 0xF is SOFT_RESET. -/
theorem test_illFormed_cmdReserved : (Instr.cmdReserved 0xF).illFormed = some .knownCommand := by decide
/-- Rows of the table next to the refused terms. -/
theorem test_wellFormed : ∀ i ∈ [Instr.zhdr 0x78 0x01, Instr.zhdrBad 0x78 0x20, Instr.rowUnknown 5,
    Instr.pixelUnsupported 16 6, Instr.cmdReserved 0x5], i.WellFormed := by decide

/-! ### Decoding of written-out values -/

/-- The decoder reads each value as its instruction, in one format. -/
def decodes (f : Format) (rows : List (Nat × Instr)) : Bool :=
  rows.all fun r => (decode f r.1).toOption == some r.2

/-- 30_encoding.md R120: CMF = 0111 1000 (CINFO 7, CM 8) in bits 7:0, FLG = 1001 1100 in bits 15:8; FDICT is
bit 13. -/
theorem test_decode_zhdr : decodes .zhdr
    [(0b10011100_01111000, .zhdr 0x78 0x9C), (0b00000001_01111000, .zhdr 0x78 0x01),
     (0b00100000_01111000, .zhdrBad 0x78 0x20), (0b00000010_01111000, .zhdrBad 0x78 0x02),
     (0b10011110_01110111, .zhdrBad 0x77 0x9E)] = true := by decide

/-- 30_encoding.md R121: BFINAL in bit 0, BTYPE in bits 2:1. -/
theorem test_decode_blkhdr : decodes .blkhdr
    [(0b000, .blockStored false), (0b001, .blockStored true), (0b010, .blockFixed false),
     (0b011, .blockFixed true), (0b100, .blockDynamic false), (0b101, .blockDynamic true),
     (0b110, .blockReserved false), (0b111, .blockReserved true)] = true := by decide

/-- 30_encoding.md R122: LEN in bits 15:0, NLEN in bits 31:16. -/
theorem test_decode_stored : decodes .stored
    [(0b1111111111101101_0000000000010010, .stored 0x0012 0xFFED)] = true := by decide

/-- 30_encoding.md R123: HLIT in bits 4:0, HDIST in bits 9:5, HCLEN in bits 13:10; program P4 has HLIT 258,
HDIST 2, HCLEN 18. -/
theorem test_decode_dynhdr : decodes .dynhdr
    [(0b1110_00001_00001, .dynhdr 1 1 14), (0b0000_00000_11111, .dynhdr 31 0 0),
     (0b0000_11111_00000, .dynhdr 0 31 0)] = true := by decide

/-- 30_encoding.md R125, R153. -/
theorem test_decode_clsym : decodes .clsym
    [(0, .clLen 0), (15, .clLen 15), (16, .clRep16), (17, .clRep17), (18, .clRep18)] = true := by decide

/-- 30_encoding.md R153: no other symbol exists. -/
theorem test_decode_clsym_none : (decode .clsym 19).toOption = none := by decide

/-- 30_encoding.md R126, R151. -/
theorem test_decode_sym : decodes .sym
    [(0, .lit 0), (0x61, .lit 0x61), (255, .lit 0xFF), (256, .eob), (286, .symInvalid false),
     (287, .symInvalid true)] = true := by decide

/-- 30_encoding.md R131, the first column. -/
theorem test_decode_lengths : decodes .sym
    ([(257, Instr.len257), (258, Instr.len258), (259, Instr.len259), (260, Instr.len260), (261, Instr.len261), (262, Instr.len262)] ++
     [(263, Instr.len263), (264, Instr.len264), (265, Instr.len265), (266, Instr.len266), (267, Instr.len267), (268, Instr.len268)] ++
     [(269, Instr.len269), (270, Instr.len270), (271, Instr.len271), (272, Instr.len272), (273, Instr.len273), (274, Instr.len274)] ++
     [(275, Instr.len275), (276, Instr.len276), (277, Instr.len277), (278, Instr.len278), (279, Instr.len279), (280, Instr.len280)] ++
     [(281, Instr.len281), (282, Instr.len282), (283, Instr.len283), (284, Instr.len284), (285, Instr.len285)]) = true := by decide

/-- 30_encoding.md R132, the first column, and R152. -/
theorem test_decode_dcode : decodes .dcode
    ([(0, Instr.dist0), (1, Instr.dist1), (2, Instr.dist2), (3, Instr.dist3), (4, Instr.dist4), (5, Instr.dist5), (6, Instr.dist6)] ++
     [(7, Instr.dist7), (8, Instr.dist8), (9, Instr.dist9), (10, Instr.dist10), (11, Instr.dist11), (12, Instr.dist12), (13, Instr.dist13)] ++
     [(14, Instr.dist14), (15, Instr.dist15), (16, Instr.dist16), (17, Instr.dist17), (18, Instr.dist18), (19, Instr.dist19)] ++
     [(20, Instr.dist20), (21, Instr.dist21), (22, Instr.dist22), (23, Instr.dist23), (24, Instr.dist24), (25, Instr.dist25)] ++
     [(26, Instr.dist26), (27, Instr.dist27), (28, Instr.dist28), (29, Instr.dist29), (30, Instr.distInvalid false)] ++
     [(31, Instr.distInvalid true)]) = true := by decide

/-- 30_encoding.md R127, R154. -/
theorem test_decode_row : decodes .row
    [(0, .rowNone), (1, .rowSub), (2, .rowUp), (3, .rowAverage), (4, .rowPaeth), (5, .rowUnknown 5),
     (255, .rowUnknown 255)] = true := by decide

/-- 30_encoding.md R128, R172: DEPTH in bits 7:0, CTYPE in bits 15:8. -/
theorem test_decode_pixel : decodes .pixel
    [(0b00000011_00001000, .pixelPalette), (0b00000000_00001000, .pixelGray),
     (0b00000100_00001000, .pixelGrayAlpha), (0b00000010_00001000, .pixelRgb),
     (0b00000110_00001000, .pixelRgba), (0b00000110_00010000, .pixelUnsupported 16 6)] = true := by decide

/-- 30_encoding.md R129: OP in bits 3:0, bits 31:4 ignored. -/
theorem test_decode_cmdword : decodes .cmdword
    [(0x1, .cmdInflate), (0x2, .cmdDecodePng), (0x3, .cmdResume), (0xF, .cmdSoftReset), (0x0, .cmdReserved 0),
     (0xE, .cmdReserved 14), (0xABCDEF02, .cmdDecodePng)] = true := by decide

/-- The fixed codes as 43_inflate_symbols.md shows them, first stream bit on the left: the example codes of
`lit 0x61`, `eob`, `len 266`, `len 280`, `len 285` and the code of distance 5 (R301, R303, R319, R333,
R338, R345). -/
theorem test_encodeBits :
    encodeBits (.lit 0x61) = some [true, false, false, true, false, false, false, true] ∧
    encodeBits .eob = some [false, false, false, false, false, false, false] ∧
    encodeBits .len266 = some [false, false, false, true, false, true, false] ∧
    encodeBits .len280 = some [true, true, false, false, false, false, false, false] ∧
    encodeBits .len285 = some [true, true, false, false, false, true, false, true] ∧
    encodeBits .dist5 = some [false, false, true, false, true] := by decide

/-! ### One step, against the spec's worked examples -/

/-- The state an outcome goes on in. -/
def nextOf : Outcome → Option State
  | .next s => some s
  | .fault _ => none
  | .refused _ => none

/-- The state a part of an element ends in. -/
def stateOf {α : Type} : Res α → Option State
  | .ok _ s => some s
  | .err _ s => some s
  | .fault _ => none
  | .refused _ => none

/-- The engine in control state `f`, the given bytes in IN, nothing read yet. -/
def inflating (f : Fsm) (bytes : List Nat) : State :=
  { State.reset.withStream bytes 0 with status := Status.running, fsm := f }

/-- DECODE_PNG in control state `f` on a latched image of 8-bit samples, the given bytes in OUT. -/
def imaging (f : Fsm) (w h : Nat) (ctype : Byte) (bytes : List Nat) : State :=
  { State.reset with
    status := Status.running, fsm := f, out := Memory.ofBytes bytes, outLen := bytes.length
    png := { w := w, h := h, depth := 8, ctype := ctype, chan := channels ctype
             bitsPp := bitsPerPixel 8 ctype, bpp := bytesPerPixel 8 ctype, stride := rowStride w 8 ctype
             rowlen := 1 + rowStride w 8 ctype, npal := 0, row := 0, pixI := 0 } }

/-- OUT from address `a` on, `n` bytes. -/
def outFrom (s : State) (a n : Nat) : List Byte := (List.range n).map fun k => s.byteAt .out (a + k)

/-- PIX from address `a` on, `n` bytes. -/
def pixFrom (s : State) (a n : Nat) : List Byte := (List.range n).map fun k => s.byteAt .pix (a + k)

/-- 40_bitreader.md R200: acc = 0b101, cnt = 3, next byte 0xFF, Refill(8): acc = 0x7FD, cnt = 11. -/
theorem test_refill : (stateOf (refill 8 { inflating .symbol [0xFF] with acc := 0b101, cnt := 3 })).map
    (fun t => (t.acc, t.cnt, t.inPos)) = some (0x7FD, 11, 1) := by decide

/-- 40_bitreader.md R201: IN = 12 00, GetBits(16) is 0x0012. -/
theorem test_getBits : (match getBits 16 (inflating .stored [0x12, 0x00]) with
    | .ok v _ => some v | _ => none) = some 0x0012 := by decide

/-- 40_bitreader.md R205: cnt = 14, Align discards 6 bits and keeps one whole byte. -/
theorem test_align : ({ State.reset with acc := 0x2ABF, cnt := 14 } : State).align.cnt = 8 ∧
    ({ State.reset with acc := 0x2ABF, cnt := 14 } : State).align.acc = 0xAA := by decide

/-- 41_huffman.md R220: the lengths [2, 1, 3, 3], entries 0 to 7. -/
theorem test_buildTable : (buildTable [2, 1, 3, 3] true).map
    (fun t => (t.max, t.entries.map fun e => (e.len.toNat, e.sym.toNat))) =
      some (3, [(1, 1), (2, 0), (1, 1), (3, 2), (1, 1), (2, 0), (1, 1), (3, 3)]) := by decide

/-- 95_test_vectors.md H4: [1, 1, 1] is oversubscribed, [1] incomplete, an empty used alphabet an error. -/
theorem test_buildTable_validity : buildTable [1, 1, 1] true = none ∧ buildTable [0, 0] true = none ∧
    (buildTable [1] true).map (fun t => t.entries.map fun e => (e.len.toNat, e.sym.toNat)) =
      some [(1, 0), (0, 0)] := by decide

/-- 42_inflate_blocks.md R250: 78 01 passes. -/
theorem test_zhdr : (nextOf (step (inflating .zhdr [0x78, 0x01]))).map (fun t => (t.fsm, t.inPos, t.cnt)) =
    some (.blkhdr, 2, 0) := by decide

/-- 42_inflate_blocks.md R250: 78 20 has FDICT set. -/
theorem test_zhdrBad : (nextOf (step (inflating .zhdr [0x78, 0x20]))).map (fun t => (t.fsm, t.errcode)) =
    some (.error, 1) := by decide

/-- 42_inflate_blocks.md R255: 0x01 is final and stored. -/
theorem test_blkhdr_stored : (nextOf (step (inflating .blkhdr [0x01]))).map
    (fun t => (t.fsm, t.bfinal, t.btype)) = some (.stored, true, 0) := by decide

/-- 42_inflate_blocks.md R255: 0x07 is ReservedBlockType. -/
theorem test_blkhdr_reserved : (nextOf (step (inflating .blkhdr [0x07]))).map (fun t => (t.fsm, t.errcode)) =
    some (.error, 2) := by decide

/-- 42_inflate_blocks.md R256: after FixedSetup LLT.max = 9 and DT.max = 5. -/
theorem test_blkhdr_fixed : (nextOf (exec (.blockFixed true) State.reset)).map
    (fun t => (t.fsm, t.llt.max, t.dt.max)) = some (.symbol, 9, 5) := by decide +kernel

/-- 42_inflate_blocks.md R260: `01 00 FF FF 41` is LengthCheckMismatch. -/
theorem test_stored_mismatch : (nextOf (step (inflating .stored [0x01, 0x00, 0xFF, 0xFF, 0x41]))).map
    (fun t => (t.fsm, t.errcode)) = some (.error, 4) := by decide

/-- 42_inflate_blocks.md R260, program P3: `02 00 FD FF 63 64` copies two bytes. -/
theorem test_stored : (nextOf (step (inflating .stored [0x02, 0x00, 0xFD, 0xFF, 0x63, 0x64]))).map
    (fun t => (t.fsm, t.outLen, outFrom t 0 2)) = some (.blkend, 2, [0x63, 0x64]) := by decide

/-- 42_inflate_blocks.md R272, R273: after `cl 8`, `cl 16,1` writes four more 8s. -/
theorem test_clRep16 : (nextOf (exec .clRep16 { inflating .dynhdr [0b01] with
    dyn := { hlit := 257, hdist := 1, lens := [8], clt := Table.empty } })).map (fun t => t.dyn.lens) =
      some [8, 8, 8, 8, 8] := by decide

/-- 42_inflate_blocks.md R272: `cl 2` sets one length to 2. -/
theorem test_clLen : (nextOf (exec (.clLen 2) State.reset)).map (fun t => t.dyn.lens) = some [2] := by decide

/-- 42_inflate_blocks.md R274: `cl 17,7` writes 10 zeros. -/
theorem test_clRep17 : (nextOf (exec .clRep17 { inflating .dynhdr [0b111] with
    dyn := { hlit := 257, hdist := 1, lens := [], clt := Table.empty } })).map (fun t => t.dyn.lens) =
      some [0, 0, 0, 0, 0, 0, 0, 0, 0, 0] := by decide

/-- 42_inflate_blocks.md R275: `cl 18,127` writes 138 zeros. -/
theorem test_clRep18 : (nextOf (exec .clRep18 { inflating .dynhdr [0xFF] with
    dyn := { hlit := 257, hdist := 1, lens := [], clt := Table.empty } })).map (fun t => t.dyn.lens.length) =
      some 138 := by decide +kernel

/-- The dynamic header of program P4 (95_test_vectors.md), 19 bits into its stream. -/
def p4Header : State :=
  { inflating .dynhdr [0x78, 0x01, 0x0D, 0xC1, 0x01, 0x01, 0x00, 0x00, 0x00, 0x40, 0xA0, 0xAD, 0xFC, 0x1F, 0x41,
      0xE1, 0x03, 0x05, 0xBA, 0x01, 0xE8] with acc := 1, cnt := 5, inPos := 3 }

/-- 95_test_vectors.md P4: 103 bits of header; LLT = (97: 2, 98: 2, 256: 2, 257: 2), DT = (0: 1, 1: 1). -/
theorem test_dynhdr : (nextOf (step p4Header)).map (fun t =>
      (t.fsm, t.streamPos, t.llt.entries.map fun e => (e.len.toNat, e.sym.toNat))) =
        some (.symbol, 122, [(2, 97), (2, 256), (2, 98), (2, 257)]) := by decide +kernel

/-- 43_inflate_symbols.md R301: `lit 0x61` appends 0x61. -/
theorem test_lit : (nextOf (exec (.lit 0x61) { State.reset with outLen := 2 })).map
    (fun t => (t.fsm, t.outLen, t.byteAt .out 2)) = some (.symbol, 3, 0x61) := by decide

/-- 43_inflate_symbols.md R305, program P2: after `lit 0x61`, `len 259, 0` and `dist 0, 0` give "aaaaaa". -/
theorem test_match : (nextOf (exec .len259 { inflating .symbol [0x00] with
    dt := Table.always 0, out := Memory.ofBytes [0x61], outLen := 1 })).map
      (fun t => (t.outLen, outFrom t 0 6)) = some (6, [0x61, 0x61, 0x61, 0x61, 0x61, 0x61]) := by decide

/-- 43_inflate_symbols.md R319: `len 266, 1` gives len = 14. -/
theorem test_len266 : (nextOf (exec .len266 { inflating .symbol [0x01] with
    dt := Table.always 0, out := Memory.ofBytes [0x61], outLen := 1 })).map (fun t => t.outLen) = some 15 := by
  decide

/-- 43_inflate_symbols.md R344: `dist 4, 1` gives dist = 6; it needs `out_len >= 6`. -/
theorem test_dist4 : (nextOf (exec .dist4 { inflating .symbol [0x01] with
    matchLen := 3, out := Memory.ofBytes [1, 2, 3, 4, 5, 6], outLen := 6 })).map (fun t => outFrom t 6 3) =
      some [1, 2, 3] := by decide

/-- 43_inflate_symbols.md R302, R344: with `out_len` 5 it is InvalidBackReference. -/
theorem test_dist4_short : (nextOf (exec .dist4 { inflating .symbol [0x01] with
    matchLen := 3, out := Memory.ofBytes [1, 2, 3, 4, 5], outLen := 5 })).map (fun t => (t.fsm, t.errcode)) =
      some (.error, 5) := by decide

/-- 42_inflate_blocks.md R258, 46_commands.md R470: BLKEND of a final block with and without CKPT_EN. -/
theorem test_blkend : (nextOf (step { inflating .blkend [] with bfinal := true })).map
      (fun t => (t.fsm, t.readReg .status)) = some (.done, 2) ∧
    (nextOf (step { inflating .blkend [] with ckptEn := true })).map
      (fun t => (t.fsm, t.suspNext, t.readReg .status)) = some (.blkend, .blkhdr, 9) := by decide

/-- 44_png_unfilter.md R400: W = H = 2, FORMAT = 0x608, OUT_LEN = 18: stride = 8, rowlen = 9. -/
theorem test_pngstart : (nextOf (step ({ inflating .pngstart [] with
    width := 2, height := 2, outLen := 18, format := FormatReg.ofWord 0x608 } : State))).map
      (fun t => (t.fsm, t.png.chan, t.png.bitsPp, t.png.bpp, t.png.stride, t.png.rowlen)) =
        some (.row, 4, 32, 4, 8, 9) := by decide

/-- 44_png_unfilter.md R400: OUT_LEN = 17 is TruncatedInput. -/
theorem test_pngstart_short : (nextOf (step ({ inflating .pngstart [] with
    width := 2, height := 2, outLen := 17, format := FormatReg.ofWord 0x608 } : State))).map
      (fun t => (t.fsm, t.errcode)) = some (.error, 8) := by decide

/-- 44_png_unfilter.md R410: `row 0 : 10 20 30` stays. -/
theorem test_rowNone : (nextOf (step (imaging .row 3 1 0 [0, 0x10, 0x20, 0x30]))).map
    (fun t => (t.fsm, outFrom t 0 4)) = some (.asmstart, [0, 0x10, 0x20, 0x30]) := by decide

/-- 44_png_unfilter.md R411: RGB, `row 1 : 01 02 03 01 01 01` gives `01 02 03 02 03 04`. -/
theorem test_rowSub : (nextOf (step (imaging .row 2 1 2 [1, 1, 2, 3, 1, 1, 1]))).map (fun t => outFrom t 1 6) =
    some [1, 2, 3, 2, 3, 4] := by decide

/-- 44_png_unfilter.md R412: above `0A 0F 09`, `01 02 03` gives `0B 11 0C`. -/
theorem test_rowUp : (nextOf (step { imaging .row 3 2 0 [0, 0x0A, 0x0F, 0x09, 2, 1, 2, 3] with
    png := { (imaging .row 3 2 0 []).png with row := 1 } })).map (fun t => outFrom t 5 3) =
      some [0x0B, 0x11, 0x0C] := by decide

/-- 44_png_unfilter.md R413: above `0B 11 0C`, `04 64 C8` gives `09 71 06`. -/
theorem test_rowAverage : (nextOf (step { imaging .row 3 2 0 [0, 0x0B, 0x11, 0x0C, 3, 0x04, 0x64, 0xC8] with
    png := { (imaging .row 3 2 0 []).png with row := 1 } })).map (fun t => outFrom t 5 3) =
      some [0x09, 0x71, 0x06] := by decide

/-- 95_test_vectors.md E5: below `0A 0A`, the Paeth row `00 00` gives `0A 0A`. -/
theorem test_rowPaeth : (nextOf (step { imaging .row 2 2 0 [0, 0x0A, 0x0A, 4, 0, 0] with
    png := { (imaging .row 2 2 0 []).png with row := 1 } })).map (fun t => outFrom t 4 2) =
      some [0x0A, 0x0A] := by decide

/-- 44_png_unfilter.md R415: `05 00` is UnknownFilterType. -/
theorem test_rowUnknown : (nextOf (step (imaging .row 1 1 0 [5, 0]))).map (fun t => (t.fsm, t.errcode)) =
    some (.error, 6) := by decide

/-- 45_pixel_assembler.md R430: depth 16 is UnsupportedFormat. -/
theorem test_asmstart : (nextOf (step { imaging .asmstart 1 1 6 [] with
    png := { (imaging .asmstart 1 1 6 []).png with depth := 16 } })).map (fun t => (t.fsm, t.errcode)) =
      some (.error, 10) := by decide

/-- 45_pixel_assembler.md R434: palette `01 02 03 04 05 06`, index 1 gives `04 05 06 FF`. -/
theorem test_pixelPalette : (nextOf (step { imaging .pixel 2 1 3 [0, 1, 0] with
    pal := Memory.ofBytes [1, 2, 3, 4, 5, 6], png := { (imaging .pixel 2 1 3 []).png with npal := 2 } })).map
      (fun t => (t.fsm, pixFrom t 0 4)) = some (.pixel, [4, 5, 6, 0xFF]) := by decide

/-- 45_pixel_assembler.md R434: without a palette every index is out of range. -/
theorem test_pixelPalette_absent : (nextOf (step (imaging .pixel 2 1 3 [0, 1, 0]))).map
    (fun t => (t.fsm, t.errcode)) = some (.error, 7) := by decide

/-- 45_pixel_assembler.md R435: 0A gives `0A 0A 0A FF`. -/
theorem test_pixelGray : (nextOf (step (imaging .pixel 1 1 0 [0, 0x0A]))).map
    (fun t => (t.fsm, pixFrom t 0 4)) = some (.done, [0x0A, 0x0A, 0x0A, 0xFF]) := by decide

/-- 45_pixel_assembler.md R436: `07 09` gives `07 07 07 09`. -/
theorem test_pixelGrayAlpha : (nextOf (step (imaging .pixel 1 1 4 [0, 7, 9]))).map
    (fun t => pixFrom t 0 4) = some [7, 7, 7, 9] := by decide

/-- 45_pixel_assembler.md R437: `01 02 03` gives `01 02 03 FF`. -/
theorem test_pixelRgb : (nextOf (step (imaging .pixel 1 1 2 [0, 1, 2, 3]))).map
    (fun t => pixFrom t 0 4) = some [1, 2, 3, 0xFF] := by decide

/-- 45_pixel_assembler.md R431: RGBA, W = 2, pixel 1 of row 0 is OUT[5..8]; it is written to PIX[4..7]. -/
theorem test_pixelRgba : (nextOf (step { imaging .pixel 2 1 6 [0, 1, 2, 3, 4, 0x50, 0x60, 0x70, 0x80] with
    png := { (imaging .pixel 2 1 6 []).png with pixI := 1 } })).map (fun t => pixFrom t 4 4) =
      some [0x50, 0x60, 0x70, 0x80] := by decide

/-- 46_commands.md R461: INFLATE from reset with IN_LEN = 7. -/
theorem test_cmdInflate : (nextOf (step { State.reset with inLen := 7, moves := [.regWrite 0x00 0x1] })).map
    (fun t => (t.fsm, t.readReg .status)) = some (.zhdr, 1) := by decide

/-- 60_exceptions.md R630: IN_LEN above IN_CAP is CapacityExceeded at the write. -/
theorem test_cmdInflate_capacity : (nextOf (step { State.reset with
    inLen := 9, caps := { inCap := 8, outCap := 1, pixCap := 4 }, moves := [.regWrite 0x00 0x1] })).map
      (fun t => (t.fsm, t.errcode, t.readReg .status)) = some (.error, 11, 4) := by decide

/-- 46_commands.md R465, R464: CMD = 0x5 leaves STATUS unchanged; CMD = 0xF makes it 0. -/
theorem test_cmdReserved_softReset :
    (nextOf (step { inflating .symbol [] with moves := [.regWrite 0x00 0x5] })).map (fun t => t.readReg .status) = some 1 ∧
    (nextOf (step { inflating .symbol [] with moves := [.regWrite 0x00 0xF] })).map (fun t => t.readReg .status) =
      some 0 := by decide

/-- 46_commands.md R463: RESUME goes on at `susp_next`. -/
theorem test_cmdResume : (nextOf (step { inflating .blkend [] with
    ckptEn := true, susp := true, suspNext := .blkhdr, moves := [.regWrite 0x00 0x3] })).map
      (fun t => (t.fsm, t.readReg .status)) = some (.blkhdr, 1) := by decide

/-! ### Witnesses: states and operands that meet the hypotheses of the statements -/

/-- A state can read `n` bits if its registers say so. -/
theorem canRead_of {s : State} {n : Nat} (hc : s.cnt ≤ 23) (ha : s.acc.toNat < 2 ^ s.cnt) (hn : n ≤ s.bitsLeft)
    (hi : s.inLen.toNat ≤ s.caps.inCap) : s.CanRead n := ⟨⟨hc, ha⟩, hn, hi⟩

/-- The table of the lengths [1]: entry 0 is (1, 0), entry 1 is unfilled. -/
def halfTable : Table := { max := 1, entries := [{ len := 1, sym := 0 }, { len := 0, sym := 0 }] }

/-- RefillFetchesWholeBytes: 16 bits with exactly two bytes left, with one byte left, and nothing to fetch. -/
theorem test_witness_refill :
    (16 ≤ (inflating .stored [1, 2]).bitsLeft ∧ (inflating .stored [1, 2]).BitsOk) ∧
    ((inflating .stored [1]).bitsLeft < 16 ∧ (inflating .stored [1]).BitsOk) ∧
    (inflating .stored [1]).inLen.toNat ≤ (inflating .stored [1]).caps.inCap ∧ 0 ≤ (inflating .stored []).cnt :=
  ⟨⟨by decide, by decide, by decide⟩, ⟨by decide, by decide, by decide⟩, by decide, by decide⟩

/-- GetBitsReadsAndDropsAField: exactly 16 bits, one bit too few, no bit at all. -/
theorem test_witness_getBits :
    (inflating .stored [1, 2]).CanRead 16 ∧ (inflating .stored [1]).bitsLeft < 9 ∧ (inflating .stored []).CanRead 0 :=
  ⟨canRead_of (by decide) (by decide) (by decide) (by decide), by decide,
    canRead_of (by decide) (by decide) (by decide) (by decide)⟩

/-- GetCodeDropsTheDecodedLength: a filled entry, an unfilled entry, too few bits, and the empty table. -/
theorem test_witness_getCode :
    ReadsSymbol halfTable (inflating .symbol [0]) 0 ((inflating .symbol [0]).afterRead 1 1) ∧
    (halfTable.entry ((inflating .symbol [1]).field 0 halfTable.max)).len = 0 ∧
    halfTable.max ≤ (inflating .symbol [1]).bitsLeft ∧ (inflating .symbol []).bitsLeft < halfTable.max ∧
    Table.empty.max = 0 :=
  ⟨⟨by decide, by decide, canRead_of (by decide) (by decide) (by decide) (by decide), by decide, by decide,
    by decide, rfl⟩, by decide, by decide, by decide, rfl⟩

/-- AlignKeepsWholeBytes: 23 buffered bits. -/
theorem test_witness_align : ({ State.reset with acc := 0x7FFFFF, cnt := 23 } : State).BitsOk :=
  ⟨by decide, by decide⟩

/-- ReadsMoveTheStreamPosition: each primitive succeeds somewhere. -/
theorem test_witness_reads :
    (∃ u, refill 16 (inflating .stored [1, 2]) = .ok () u) ∧
    (∃ v u, getBits 16 (inflating .stored [1, 2]) = .ok v u) ∧
    halfTable.Ok 0 ∧ ∃ v u, getCode halfTable (inflating .symbol [0]) = .ok v u :=
  ⟨⟨_, rfl⟩, ⟨_, _, rfl⟩, ⟨by decide, by decide, by decide, by decide⟩, ⟨_, _, rfl⟩⟩

/-- BuildTableRefusesExactlyTheInvalid: 288 lengths of 15 are legal; each clause has lengths that meet it. -/
theorem test_witness_buildTable_refuses :
    legalLengths (List.replicate 288 15) ∧ legalLengths [0, 0] ∧ 2 ^ 15 < kraftSum [1, 1, 1] ∧
      kraftSum [1, 1] = 2 ^ 15 :=
  ⟨⟨by decide +kernel, by decide +kernel⟩, ⟨by decide, by decide⟩, by decide, by decide⟩

/-- BuildTableFillsTheSlotsOfEveryCode: an accepted sequence, an index that a code begins, and one that
none does (95_test_vectors.md H1, H4). -/
theorem test_witness_buildTable_fills :
    legalLengths [2, 1, 3, 3] ∧ (∃ t, buildTable [2, 1, 3, 3] true = some t) ∧
    codeBegins [2, 1, 3, 3] 3 (Nat.testBit 7) ∧ (∃ t, buildTable [1] true = some t) ∧
    ∀ v, ¬ codeBegins [1] v (Nat.testBit 1) := by
  refine ⟨⟨by decide, by decide⟩, ⟨_, rfl⟩, ⟨by decide, by decide, by decide⟩, ⟨_, rfl⟩, ?_⟩
  rintro v ⟨hv, hl, hb⟩
  obtain rfl : v = 0 := by simp at hv; omega
  exact absurd (hb 0 (by decide)) (by decide)

/-- HuffmanCodesRoundTrip: the stream bit 0 is the code of symbol 1 of the lengths [2, 1, 3, 3]. -/
theorem test_witness_roundTrip :
    codeBegins [2, 1, 3, 3] 1 (inflating .symbol [0]).nextBit ∧ (inflating .symbol [0]).CanRead 3 :=
  ⟨⟨by decide, by decide, by decide⟩, canRead_of (by decide) (by decide) (by decide) (by decide)⟩

/-- FixedTablesHaveTheFixedCodes: the stream patterns 11110 and 11111. -/
theorem test_witness_fixed :
    (inflating .symbol [0x0F]).CanRead 5 ∧ (inflating .symbol [0x0F]).field 0 5 = 15 ∧
    (inflating .symbol [0x1F]).CanRead 5 ∧ (inflating .symbol [0x1F]).field 0 5 = 31 :=
  ⟨canRead_of (by decide) (by decide) (by decide) (by decide), by decide,
    canRead_of (by decide) (by decide) (by decide) (by decide), by decide⟩

/-- ContainerHeaderElement: a legal header from the first bit, one that fails each check alone, and one
byte of input. -/
theorem test_witness_zhdr :
    AtElement (inflating .zhdr [0x78, 0x01]) .zhdr ∧ (inflating .zhdr [0x78, 0x01]).CanRead 16 ∧
    (inflating .zhdr [0x78, 0x01]).field 0 8 = 0x78 ∧ (inflating .zhdr [0x78, 0x01]).field 8 8 = 0x01 ∧
    (inflating .zhdr [0x77, 0x01]).field 0 8 % 16 ≠ 8 ∧
    ((inflating .zhdr [0x78, 0x02]).field 0 8 * 256 + (inflating .zhdr [0x78, 0x02]).field 8 8) % 31 ≠ 0 ∧
    (inflating .zhdr [0x78, 0x20]).field 8 8 / 32 % 2 = 1 ∧ (inflating .zhdr [0x78]).bitsLeft < 16 :=
  ⟨⟨rfl, rfl, rfl, rfl⟩, canRead_of (by decide) (by decide) (by decide) (by decide), by decide, by decide,
    by decide, by decide, by decide, by decide⟩

/-- ContainerHeaderInstructions. -/
theorem test_witness_zhdr_wf : (Instr.zhdr 0x78 0x01).WellFormed ∧ (Instr.zhdrBad 0x78 0x20).WellFormed :=
  ⟨by decide, by decide⟩

/-- BlockHeaderElement: each block type, and no input. -/
theorem test_witness_blkhdr :
    AtElement (inflating .blkhdr [0x00]) .blkhdr ∧ (inflating .blkhdr [0x00]).CanRead 3 ∧
    (inflating .blkhdr [0x00]).field 1 2 = 0 ∧ (inflating .blkhdr [0x02]).field 1 2 = 1 ∧
    (inflating .blkhdr [0x04]).field 1 2 = 2 ∧ (inflating .blkhdr [0x06]).field 1 2 = 3 ∧
    (inflating .blkhdr []).BitsOk ∧ (inflating .blkhdr []).bitsLeft < 3 :=
  ⟨⟨rfl, rfl, rfl, rfl⟩, canRead_of (by decide) (by decide) (by decide) (by decide), by decide, by decide,
    by decide, by decide, ⟨by decide, by decide⟩, by decide⟩

/-- BlockEndElement: the four cases. -/
theorem test_witness_blkend : ∀ ckpt final : Bool,
    AtElement { inflating .blkend [] with ckptEn := ckpt, bfinal := final } .blkend :=
  fun _ _ => ⟨rfl, rfl, rfl, rfl⟩

/-- StoredBlockCopiesItsBytes: a header a byte short; two bytes that just fit; a wrong NLEN; a byte too few
of input that just fits in OUT; and a byte too few of OUT, with the input there. -/
theorem test_witness_stored :
    AtElement (inflating .stored [0x00, 0x00, 0xFF]) .stored ∧ (inflating .stored [0x00, 0x00, 0xFF]).BitsOk ∧
    (inflating .stored [0x00, 0x00, 0xFF]).align.bitsLeft = 24 ∧
    (0xFFFD : BitVec 16) = ~~~2 ∧ (inflating .stored [1, 2]).CanRead (8 * (2 : BitVec 16).toNat) ∧
    { inflating .stored [1, 2] with outLen := 65534 }.caps.outCap = 65534 + 2 ∧ (0xFFFF : BitVec 16) ≠ ~~~1 ∧
    (inflating .stored [1]).bitsLeft = 8 ∧ { inflating .stored [1] with outLen := 65535 }.caps.outCap = 65535 + 8 / 8 ∧
    (inflating .stored [1, 2]).bitsLeft = 16 ∧ { inflating .stored [1, 2] with outLen := 65535 }.caps.outCap < 65535 + 16 / 8 :=
  ⟨⟨rfl, rfl, rfl, rfl⟩, ⟨by decide, by decide⟩, by decide, by decide,
    canRead_of (by decide) (by decide) (by decide) (by decide), by decide, by decide, by decide, by decide, by decide,
    by decide⟩

/-- `k` code-length symbols without 16 and 17, none if one of them cannot be read: CodeLengths as a function,
to evaluate. -/
def codeLengthsRun (clt : Table) (total : Nat) : (k : Nat) → State → List Nat → Option (State × List Nat)
  | 0, s, lens => some (s, lens)
  | k + 1, s, lens =>
    let e := clt.entry (s.field 0 clt.max)
    let u := s.afterRead clt.max e.len.toNat
    if lens.length < total ∧ clt.max ≠ 0 ∧ clt.max ≤ 15 ∧ s.cnt ≤ 23 ∧ s.acc.toNat < 2 ^ s.cnt ∧
        clt.max ≤ s.bitsLeft ∧ s.inLen.toNat ≤ s.caps.inCap ∧ e.len ≠ 0 ∧ e.len.toNat ≤ clt.max then
      if e.sym.toNat ≤ 15 then codeLengthsRun clt total k u (lens ++ [e.sym.toNat])
      else if e.sym.toNat = 18 ∧ u.cnt ≤ 23 ∧ u.acc.toNat < 2 ^ u.cnt ∧ 7 ≤ u.bitsLeft ∧
          u.inLen.toNat ≤ u.caps.inCap ∧ lens.length + (11 + u.field 0 7) ≤ total then
        codeLengthsRun clt total k (u.afterRead 7 7) (lens ++ List.replicate (11 + u.field 0 7) 0)
      else none
    else none

theorem codeLengthsRun_sound {clt : Table} {total : Nat} : ∀ {k : Nat} {s t : State} {lens all : List Nat},
    codeLengthsRun clt total k s lens = some (t, all) → CodeLengths clt total s lens t all
  | 0, s, t, lens, all, h => by
    simp only [codeLengthsRun, Option.some.injEq, Prod.mk.injEq] at h
    obtain ⟨rfl, rfl⟩ := h
    exact .none _ _
  | k + 1, s, t, lens, all, h => by
    simp only [codeLengthsRun, Option.ite_none_right_eq_some] at h
    obtain ⟨⟨g1, g2, g3, g4, g5, g6, g7, g8, g9⟩, h⟩ := h
    have hs : ∀ v, v = (clt.entry (s.field 0 clt.max)).sym.toNat → ReadsSymbol clt s v
        (s.afterRead clt.max (clt.entry (s.field 0 clt.max)).len.toNat) := fun v hv =>
      ⟨g2, g3, ⟨⟨g4, g5⟩, g6, g7⟩, g8, g9, hv, rfl⟩
    by_cases hv : (clt.entry (s.field 0 clt.max)).sym.toNat ≤ 15
    · rw [if_pos hv] at h
      exact .literal g1 (hs _ rfl) hv (codeLengthsRun_sound h)
    · rw [if_neg hv, Option.ite_none_right_eq_some] at h
      obtain ⟨⟨f1, f2, f3, f4, f5, f6⟩, h⟩ := h
      exact .manyZeros g1 (hs 18 f1.symm) ⟨⟨f2, f3⟩, f4, f5⟩ f6 (codeLengthsRun_sound h)

/-- The state after the 14 bits of a dynamic header, program P4's bytes with two bytes given. -/
def p4Lengths (hdist last : Nat) : State :=
  { inflating .dynhdr [0x78, 0x01, 0x0D, hdist, 0x01, 0x01, 0x00, 0x00, 0x00, 0x40, 0xA0, 0xAD, 0xFC, 0x1F, 0x41,
      last, 0x03, 0x05, 0xBA, 0x01, 0xE8] with acc := 0, cnt := 7, inPos := 5 }

/-- The code-length table of `p4Lengths`. -/
def p4Clt (hdist last : Nat) : Table :=
  (buildTable (codeLengthLengths (p4Lengths hdist last) 18) true).getD Table.empty

theorem some_of_isSome {α β : Type} {o : Option α} {f : α → β} {b : β} (h : o.map f = some b) :
    ∃ a, o = some a ∧ f a = b := by
  cases o with
  | none => cases h
  | some a => exact ⟨a, rfl, Option.some.inj h⟩

/-- DynamicHeaderBuildsBothTables: the header of program P4. -/
theorem test_witness_dynhdr :
    (p4Lengths 0xC1 0xE1).CanRead (3 * ((14 : BitVec 4).toNat + 4)) ∧
    buildTable (codeLengthLengths (p4Lengths 0xC1 0xE1) 18) true = some (p4Clt 0xC1 0xE1) ∧
    ∃ t lens, CodeLengths (p4Clt 0xC1 0xE1) 260 ((p4Lengths 0xC1 0xE1).afterRead 54 54) [] t lens ∧
      lens.length = 260 ∧ (∃ llt, buildTable (lens.take 258) true = some llt) ∧ ∃ dt, buildTable (lens.drop 258) false = some dt := by
  refine ⟨canRead_of (by decide) (by decide) (by decide) (by decide), by decide +kernel, ?_⟩
  obtain ⟨r, hr, hb⟩ := some_of_isSome (o := codeLengthsRun (p4Clt 0xC1 0xE1) 260 9
    ((p4Lengths 0xC1 0xE1).afterRead 54 54) [])
    (f := fun r => (r.2.length, (buildTable (r.2.take 258) true).isSome, (buildTable (r.2.drop 258) false).isSome))
    (b := (260, true, true)) (by decide +kernel)
  rw [Prod.mk.injEq, Prod.mk.injEq] at hb
  exact ⟨r.1, r.2, codeLengthsRun_sound hr, hb.1, Option.isSome_iff_exists.1 hb.2.1, Option.isSome_iff_exists.1 hb.2.2⟩

/-- The state after the 14 bits of the header V-DYN-HCLEN4 (95_test_vectors.md). -/
def hclen4 : State := { inflating .dynhdr [0x80, 0xE4, 0x7F, 0x1B, 0, 0] with acc := 0x40, cnt := 7, inPos := 1 }

/-- DynamicHeaderErrors: 13 header bits; 11 of the 12 bits of four fields; three code-length codes of
length 1. -/
theorem test_witness_dynhdr_short :
    AtElement { inflating .dynhdr [0] with cnt := 5 } .dynhdr ∧ { inflating .dynhdr [0] with cnt := 5 }.dyn.hlit = 0 ∧
    { inflating .dynhdr [0] with cnt := 5 }.BitsOk ∧ { inflating .dynhdr [0] with cnt := 5 }.bitsLeft = 13 ∧
    { inflating .dynhdr [0] with cnt := 3 }.BitsOk ∧ { inflating .dynhdr [0] with cnt := 3 }.bitsLeft = 11 ∧
    (inflating .dynhdr [0x49, 0x02]).CanRead (3 * ((0 : BitVec 4).toNat + 4)) ∧
    buildTable (codeLengthLengths (inflating .dynhdr [0x49, 0x02]) 4) true = none :=
  ⟨⟨rfl, rfl, rfl, rfl⟩, rfl, ⟨by decide, by decide⟩, by decide, ⟨by decide, by decide⟩, by decide,
    canRead_of (by decide) (by decide) (by decide) (by decide), by decide +kernel⟩

/-- The state after the 14 bits of a dynamic header with HCLEN = 4: the four fields of 16, 17, 18 and 0, then
the codes. `cnt` bits are buffered. -/
def fourFields (acc cnt : Nat) (bytes : List Nat) : State :=
  { inflating .dynhdr bytes with acc := BitVec.ofNat 32 acc, cnt := cnt }

/-- The code-length table of `fourFields`. -/
def fourClt (s : State) : Table := (buildTable (codeLengthLengths s 4) true).getD Table.empty

/-- `s` has four fields that make a code-length code, and reading `k` symbols with it gives a state and
lengths with the property `p`. -/
def loopReaches (s : State) (k : Nat) (p : State → List Nat → Bool) : Bool :=
  decide (s.cnt ≤ 23 ∧ s.acc.toNat < 2 ^ s.cnt ∧ 12 ≤ s.bitsLeft ∧ s.inLen.toNat ≤ s.caps.inCap) &&
    (buildTable (codeLengthLengths s 4) true).isSome &&
    ((codeLengthsRun (fourClt s) 258 k (s.afterRead 12 12) []).map fun r => p r.1 r.2) == some true

theorem loopReaches_sound {s : State} {k : Nat} {p : State → List Nat → Bool} (h : loopReaches s k p = true) :
    s.CanRead (3 * ((0 : BitVec 4).toNat + 4)) ∧ buildTable (codeLengthLengths s 4) true = some (fourClt s) ∧
      ∃ t lens, CodeLengths (fourClt s) 258 (s.afterRead 12 12) [] t lens ∧ p t lens = true := by
  simp only [loopReaches, Bool.and_eq_true, decide_eq_true_eq, beq_iff_eq] at h
  obtain ⟨⟨⟨h1, h2, h3, h4⟩, hb⟩, h⟩ := h
  obtain ⟨r, hr, hp⟩ := some_of_isSome h
  obtain ⟨c, hc⟩ := Option.isSome_iff_exists.1 hb
  exact ⟨⟨⟨h1, h2⟩, h3, h4⟩, by rw [fourClt, hc]; rfl, r.1, r.2, codeLengthsRun_sound hr, hp⟩

/-- Symbol `v` is read ahead, and `left` bits remain after its code. -/
def reads (clt : Table) (s : State) (v left : Nat) : Bool :=
  let e := clt.entry (s.field 0 clt.max)
  decide (clt.max ≠ 0 ∧ clt.max ≤ s.bitsLeft ∧ e.len ≠ 0 ∧ e.len.toNat ≤ clt.max ∧ e.sym.toNat = v ∧
    (s.afterRead clt.max e.len.toNat).bitsLeft = left)

/-- DynamicHeaderErrors, in the loop: no bit for the first code; an unfilled entry; a 16 first; a bit too few
of the extra bits of a 16, a 17 and an 18; an 18 one length past HLIT + HDIST. -/
theorem test_witness_dynhdr_loop :
    loopReaches (fourFields 9 4 [0x00]) 0 (fun t lens => decide (lens.length < 258 ∧ t.bitsLeft = 0)) = true ∧
    (fourClt (fourFields 9 4 [0x00])).max = 1 ∧
    loopReaches (fourFields 0 0 [0x01, 0x10]) 0 (fun t _ => decide (1 ≤ t.bitsLeft ∧ t.field 0 1 = 1)) = true ∧
    ((fourClt (fourFields 0 0 [0x01, 0x10])).entry 1).len = 0 ∧
    loopReaches (fourFields 0 0 [0x01, 0x00]) 0
      (fun t lens => lens == [] && reads (fourClt (fourFields 0 0 [0x01, 0x00])) t 16 3) = true ∧
    loopReaches (fourFields 1 6 [0x41, 0x00]) 1
      (fun t lens => lens != [] && reads (fourClt (fourFields 1 6 [0x41, 0x00])) t 16 1) = true ∧
    loopReaches (fourFields 8 7 [0x00]) 0 (fun t _ => reads (fourClt (fourFields 8 7 [0x00])) t 17 2) = true ∧
    loopReaches (fourFields 0 3 [0x08, 0x00]) 0 (fun t _ => reads (fourClt (fourFields 0 3 [0x08, 0x00])) t 18 6) = true ∧
    loopReaches (fourFields 0 0 [0x40, 0xE0, 0xCF, 0x0D]) 1
      (fun t lens => lens.length == 138 && reads (fourClt (fourFields 0 0 [0x40, 0xE0, 0xCF, 0x0D])) t 18 11 &&
        (t.afterRead 1 1).field 0 7 == 258 + 1 - 138 - 11) = true := by
  decide +kernel

/-- DynamicHeaderErrors, the tables: all literal/length lengths 0 (V-DYN-HCLEN4); an oversubscribed distance
code (program P4 with HDIST = 3 and a third distance length of 1). -/
theorem test_witness_dynhdr_tables :
    loopReaches hclen4 2 (fun _ lens => lens.length == 258 && (buildTable (lens.take 257) true).isNone) = true ∧
    ∃ t lens, (p4Lengths 0xC2 0xE5).CanRead 54 ∧
      buildTable (codeLengthLengths (p4Lengths 0xC2 0xE5) 18) true = some (p4Clt 0xC2 0xE5) ∧
      CodeLengths (p4Clt 0xC2 0xE5) 261 ((p4Lengths 0xC2 0xE5).afterRead 54 54) [] t lens ∧ lens.length = 261 ∧
      (∃ llt, buildTable (lens.take 258) true = some llt) ∧ buildTable (lens.drop 258) false = none := by
  refine ⟨by decide +kernel, ?_⟩
  obtain ⟨r, hr, hb⟩ := some_of_isSome (o := codeLengthsRun (p4Clt 0xC2 0xE5) 261 10
    ((p4Lengths 0xC2 0xE5).afterRead 54 54) [])
    (f := fun r => (r.2.length, (buildTable (r.2.take 258) true).isSome, (buildTable (r.2.drop 258) false).isNone))
    (b := (261, true, true)) (by decide +kernel)
  rw [Prod.mk.injEq, Prod.mk.injEq] at hb
  exact ⟨r.1, r.2, canRead_of (by decide) (by decide) (by decide) (by decide), by decide +kernel,
    codeLengthsRun_sound hr, hb.1, Option.isSome_iff_exists.1 hb.2.1, Option.isNone_iff_eq_none.1 hb.2.2⟩

/-- ShortestDynamicHeaderNeverCompletes: the header V-DYN-HCLEN4 goes on, in ERROR. -/
theorem test_witness_dynhdr_shortest : (nextOf (exec (.dynhdr 0 0 0) hclen4)).map (fun t => (t.fsm, t.errcode)) =
    some (.error, 3) := by decide +kernel

/-- CodeLengthInstructionsAppend: a repeat that ends exactly at N, one that runs past it, and the state
without a previous length. -/
theorem test_witness_clsym :
    let full : State := { inflating .dynhdr [0xFF] with
      dyn := { hlit := 257, hdist := 1, lens := List.replicate 120 1, clt := Table.empty } }
    let past : State := { inflating .dynhdr [0xFF] with
      dyn := { hlit := 257, hdist := 1, lens := List.replicate 257 1, clt := Table.empty } }
    full.CanRead 7 ∧ full.dyn.lens.length + (11 + full.field 0 7) = full.dyn.hlit + full.dyn.hdist ∧
    full.dyn.lens.getLast? = some 1 ∧ past.CanRead 2 ∧ past.CanRead 3 ∧
    past.dyn.hlit + past.dyn.hdist < past.dyn.lens.length + (3 + past.field 0 2) ∧
    (inflating .dynhdr []).dyn.lens = [] := by
  refine ⟨canRead_of ?_ ?_ ?_ ?_, ?_, ?_, canRead_of ?_ ?_ ?_ ?_, canRead_of ?_ ?_ ?_ ?_, ?_, rfl⟩ <;>
    decide +kernel

/-- LiteralAppendsItsByte: the last free byte of OUT, and OUT full. -/
theorem test_witness_lit :
    { State.reset with outLen := 65535 }.outLen < { State.reset with outLen := 65535 }.caps.outCap ∧
    { State.reset with outLen := 65536 }.caps.outCap ≤ { State.reset with outLen := 65536 }.outLen := by
  decide

/-- Three bytes in OUT, the distance table whose every code gives `d`, and one byte of zeros to read. -/
def matching (d : Nat) : State :=
  { inflating .symbol [0x00, 0x00] with dt := Table.always d, out := Memory.ofBytes [1, 2, 3], outLen := 3 }

/-- MatchRepeatsTheLastBytes: length 3 at distance 3, all of OUT. -/
theorem test_witness_match :
    (Instr.len257, 3, 0) ∈ lengthTable ∧ (matching 2).CanRead 0 ∧
    ReadsSymbol (matching 2).dt ((matching 2).afterRead 0 0) 2 (((matching 2).afterRead 0 0).afterRead 1 1) ∧
    distanceTable[2]? = some (Instr.dist2, 3, 0) ∧ (((matching 2).afterRead 0 0).afterRead 1 1).CanRead 0 ∧
    3 + (((matching 2).afterRead 0 0).afterRead 1 1).field 0 0 = (matching 2).outLen ∧
    (matching 2).outLen + (3 + (matching 2).field 0 0) ≤ (matching 2).caps.outCap :=
  ⟨by decide, canRead_of (by decide) (by decide) (by decide) (by decide),
    ⟨by decide, by decide, canRead_of (by decide) (by decide) (by decide) (by decide), by decide, by decide,
      by decide, rfl⟩, by decide, canRead_of (by decide) (by decide) (by decide) (by decide), by decide, by decide⟩

/-- SymbolErrorsInStreamOrder, at the step: no table, no bit for a code, an unfilled entry, the symbol 286. -/
theorem test_witness_symbol_errors :
    AtElement (inflating .symbol []) .symbol ∧ (inflating .symbol []).matchLen = 0 ∧ (inflating .symbol []).BitsOk ∧
    (inflating .symbol []).llt = Table.empty ∧ halfTable.Ok 287 ∧ halfTable.max = 1 ∧
    (inflating .symbol []).bitsLeft = 0 ∧ (halfTable.entry ((inflating .symbol [1]).field 0 1)).len = 0 ∧
    (Table.always 286).Ok 287 ∧ ReadsSymbol (Table.always 286) (inflating .symbol [0]) 286 ((inflating .symbol [0]).afterRead 1 1) :=
  ⟨⟨rfl, rfl, rfl, rfl⟩, rfl, ⟨by decide, by decide⟩, rfl, ⟨by decide, by decide, by decide, by decide⟩, rfl, by decide,
    by decide, ⟨by decide, by decide, by decide, by decide⟩,
    ⟨by decide, by decide, canRead_of (by decide) (by decide) (by decide) (by decide), by decide, by decide, by decide, rfl⟩⟩

/-- SymbolErrorsInStreamOrder, of a match: each error's conditions in some state: no length extra bits, no table, no
distance code, an unfilled entry, code 30, no distance extra bits, a distance above OUT, OUT full. -/
theorem test_witness_match_errors :
    (matching 31).BitsOk ∧ (matching 31).dt.Ok 31 ∧ (inflating .symbol []).bitsLeft < 1 ∧
    (inflating .symbol []).dt.max = 0 ∧
    ({ inflating .symbol [] with dt := halfTable }.afterRead 0 0).bitsLeft < halfTable.max ∧
    (halfTable.entry (({ inflating .symbol [1] with dt := halfTable }.afterRead 0 0).field 0 1)).len = 0 ∧
    ReadsSymbol (matching 30).dt ((matching 30).afterRead 0 0) 30 (((matching 30).afterRead 0 0).afterRead 1 1) ∧
    (({ matching 29 with inLen := 1 }.afterRead 0 0).afterRead 1 1).bitsLeft < 13 ∧
    (matching 3).outLen < 4 + (((matching 3).afterRead 0 0).afterRead 1 1).field 0 0 ∧
    { matching 2 with outLen := 65535 }.caps.outCap < 65535 + 3 :=
  ⟨⟨by decide, by decide⟩, ⟨by decide, by decide, by decide, by decide⟩, by decide, by decide, by decide, by decide,
    ⟨by decide, by decide, canRead_of (by decide) (by decide) (by decide) (by decide), by decide, by decide,
      by decide, rfl⟩, by decide, by decide, by decide⟩

/-- DistanceInstructionsCopy: distance 3 with three bytes in OUT. -/
theorem test_witness_dist :
    (Instr.dist2, 3, 0) ∈ distanceTable ∧ { matching 2 with matchLen := 3 }.CanRead 0 ∧
    3 + (matching 2).field 0 0 ≤ (matching 2).outLen ∧ (matching 2).outLen + 3 ≤ (matching 2).caps.outCap :=
  ⟨by decide, canRead_of (by decide) (by decide) (by decide) (by decide), by decide, by decide⟩

/-- ImageEntryChecksInOrder: each check fails alone at the boundary of its range, and none fails. -/
theorem test_witness_pngstart :
    let s : State := { inflating .pngstart [] with
      width := 2, height := 2, outLen := 18, format := FormatReg.ofWord 0x608 }
    AtElement s .pngstart ∧ entryError s = none ∧
    entryError { s with width := 0 } = some .unsupportedFormat ∧
    entryError { s with format := FormatReg.ofWord 0x603 } = some .unsupportedFormat ∧
    entryError { s with format := FormatReg.ofWord 0x108 } = some .unsupportedFormat ∧
    entryError { s with outLen := 65537 } = some .capacityExceeded ∧
    entryError { s with format := FormatReg.ofWord 0x10608, palLen := 769 } = some .capacityExceeded ∧
    entryError { s with caps := { s.caps with pixCap := 15 } } = some .capacityExceeded ∧
    entryError { s with outLen := 17 } = some .truncatedInput :=
  ⟨⟨rfl, rfl, rfl, rfl⟩, by decide, by decide, by decide, by decide, by decide, by decide, by decide, by decide⟩

/-- The image of one row of three gray samples is inside its memories. -/
theorem imageOk_gray : (imaging .row 3 1 0 [4, 1, 2, 3]).ImageOk :=
  ⟨by decide, by decide, rfl, rfl, rfl, rfl, rfl, by decide, by decide, by decide, by decide⟩

/-- RowsAreReconstructed, RowElementSelectsTheFilter: the last row of an image, its filter byte the last
known one. -/
theorem test_witness_row :
    (imaging .row 3 1 0 [4, 1, 2, 3]).ImageOk ∧
    (imaging .row 3 1 0 [4, 1, 2, 3]).png.row + 1 = (imaging .row 3 1 0 [4, 1, 2, 3]).png.h ∧
    AtElement (imaging .row 3 1 0 [4, 1, 2, 3]) .row ∧ rowTable[4]?.isSome ∧
    ((imaging .row 3 1 0 [4, 1, 2, 3]).byteAt .out 0).toNat = 4 ∧
    ((imaging .row 3 1 0 [5, 1, 2, 3]).byteAt .out 0).toNat = 5 :=
  ⟨imageOk_gray, rfl, ⟨rfl, rfl, rfl, rfl⟩, rfl, by decide, by decide⟩

/-- PaethPicksTheNearestNeighbour: the tie of 95_test_vectors.md E5, and b winning over c. -/
theorem test_witness_paeth : paethPredictor 10 10 10 = 10 ∧
    (((0 : Nat) : Int) + 10 - 0 - 10).natAbs < (((0 : Nat) : Int) + 10 - 0 - (0 : Nat)).natAbs ∧
    paethPredictor 0 10 0 = 10 ∧ paethPredictor 10 0 10 = 0 := by
  decide

/-- FilteredRowsRoundTrip: the row `0A 0F 09` filtered with Sub is `0A 05 FA` (44_png_unfilter.md R402). -/
theorem test_witness_filter :
    let s := imaging .row 3 1 0 [1, 0x0A, 0x05, 0xFA]
    let raw : Nat → Byte := fun x => [0x0A, 0x0F, 0x09].getD x 0
    ∀ x < s.png.stride, ((s.byteAt .out (s.png.row * s.png.rowlen + 1 + x)).toNat : Int) =
      ((raw x).toNat - ((if s.png.bpp ≤ x then (raw (x - s.png.bpp)).toNat else 0 : Nat) : Int)) % 256 := by
  decide

/-- AssemblerAcceptsDepthEightOnly. -/
theorem test_witness_asmstart :
    AtElement (imaging .asmstart 3 1 0 []) .asmstart ∧ (imaging .asmstart 3 1 0 []).png.depth = 8 ∧
    ({ (imaging .asmstart 3 1 0 []).png with depth := 16 } : PngRegs).depth ≠ 8 :=
  ⟨⟨rfl, rfl, rfl, rfl⟩, rfl, by decide⟩

/-- PixelsAreExpanded, PalettePixelsAreLookedUp: the last pixel of an image; the last index of a palette
of one entry and the index after it. -/
theorem test_witness_pixel :
    let s := { imaging .pixel 3 1 0 [4, 1, 2, 3] with png := { (imaging .pixel 3 1 0 []).png with pixI := 2 } }
    let p := { imaging .pixel 2 1 3 [0, 0, 1] with png := { (imaging .pixel 2 1 3 []).png with npal := 1 } }
    s.ImageOk ∧ s.png.depth = 8 ∧ s.png.ctype = 0 ∧ s.png.pixI + 1 = s.png.w * s.png.h ∧
    p.ImageOk ∧ p.png.ctype = 3 ∧ (p.byteAt .out 1).toNat < p.png.npal ∧
    p.png.npal ≤ ({ p with png := { p.png with pixI := 1 } }.byteAt .out 2).toNat :=
  ⟨⟨by decide, by decide, rfl, rfl, rfl, rfl, rfl, by decide, by decide, by decide, by decide⟩, rfl, rfl, rfl,
    ⟨by decide, by decide, rfl, rfl, rfl, rfl, rfl, by decide, by decide, by decide, by decide⟩, rfl, by decide,
    by decide⟩

/-- InflateCommandStarts, OtherCommandsAct: BUSY, IN_LEN at IN_CAP and one above, suspended before DONE
and before BLKHDR. -/
theorem test_witness_commands :
    (inflating .symbol []).status.busy = true ∧ State.reset.status.busy = false ∧
    { State.reset with inLen := 65536 }.inLen.toNat = State.reset.caps.inCap ∧
    State.reset.caps.inCap < { State.reset with inLen := 65537 }.inLen.toNat ∧
    { State.reset with susp := true, suspNext := .done }.susp = true ∧ Fsm.blkhdr ≠ .done := by
  decide

/-- CommandWordUsesItsLowBits: words with bits above OP, for each OP and a reserved one. -/
theorem test_witness_cmdword :
    (0xABCDEF01 : Word).toNat % 16 = 1 ∧ (0x12 : Word).toNat % 16 = 2 ∧ (0x13 : Word).toNat % 16 = 3 ∧
    (0x1F : Word).toNat % 16 = 15 ∧ (0x1E : Word).toNat % 16 ∉ [1, 2, 3, 15] ∧ (0x10 : Word).toNat % 16 ∉ [1, 2, 3, 15] := by
  decide

/-- ResumeContinuesAtTheCheckpoint, IdleAndSuspendedEngineWaits: not suspended and idle; suspended. -/
theorem test_witness_waits : (inflating .blkend []).susp = false ∧ State.reset.moves = [] ∧
    State.reset.status.busy = false ∧ { inflating .blkend [] with susp := true }.susp = true := by decide

/-- RegisterBlockLayout: the last offset, the first above it and a misaligned one. -/
theorem test_witness_registers : (0x3C, Reg.reserved) ∈ registerMap ∧ (∀ r, (0x40, r) ∉ registerMap) ∧
    ∀ r, (0x3D, r) ∉ registerMap :=
  ⟨by decide, fun r => by cases r <;> decide, fun r => by cases r <;> decide⟩

/-- RegistersReadBack: a write to IN_LEN and one to the last reserved offset, while no command runs. -/
theorem test_witness_register_write :
    (0x10, Reg.inLen) ∈ registerMap ∧ Reg.inLen ≠ .cmd ∧ (0x3C, Reg.reserved) ∈ registerMap ∧ Reg.reserved ≠ .cmd ∧
    { State.reset with moves := [.regWrite 0x10 0xFFFFFFFF, .engine] }.moves = .regWrite 0x10 0xFFFFFFFF :: [.engine] ∧
    State.reset.status.busy = false := by decide

/-- RegisterWritesIgnoredWhileBusy, HostReadsHaveNoSideEffect, HostMemoryAccessRules: the last byte of PAL
and the address above it; idle, running, suspended. -/
theorem test_witness_host :
    (0x10, Reg.inLen) ∈ registerMap ∧ 767 < State.reset.caps.size .pal ∧ State.reset.caps.size .pal ≤ 768 ∧
    (∃ t, step { State.reset with
      pal := Memory.ofBytes [7], moves := [.memRead .pal 0] } = .next t) ∧
    (inflating .symbol []).status.busy = true ∧ (inflating .symbol []).susp = false := by
  refine ⟨by decide, by decide, by decide, ⟨_, rfl⟩, rfl, rfl⟩

/-! The invariant holds in small states of every kind. -/

/-- The invariant of a state whose parts are given. -/
theorem inv_of {s : State} (hc : 2 ≤ s.caps.inCap ∧ 1 ≤ s.caps.outCap ∧ 4 ≤ s.caps.pixCap)
    (hb : s.cnt ≤ 23 ∧ s.acc.toNat < 2 ^ s.cnt)
    (hm : ∀ sp, (s.mem sp).wf ∧ (s.mem sp).below (s.caps.size sp) ∧ (s.mem sp).draw < s.draws)
    (hst : s.status.busy = s.fsm.running ∧ s.status.done = (s.fsm == .done) ∧ s.status.err = (s.fsm == .error) ∧
      (s.errcode ≠ 0 ↔ s.fsm = .error) ∧ s.errcode.toNat ≤ 11)
    (hsu : s.SuspOk) (hsc : s.matchLen = 0 ∧ s.dyn = DynScratch.empty) (hl : s.llt.Ok 287) (hd : s.dt.Ok 31)
    (hs : s.fsm.inflating = true → s.StreamOk) (hi : s.fsm.imaging = true → s.ImageOk)
    (hr : s.point = .row → s.png.row < s.png.h)
    (hp : s.point = .pixel → s.png.depth = 8 ∧ s.png.pixI < s.png.w * s.png.h) : s.Inv :=
  ⟨hc, ⟨hb.1, hb.2⟩, ⟨fun sp => (hm sp).1, fun sp => (hm sp).2.1, fun sp => (hm sp).2.2⟩,
    ⟨hst.1, hst.2.1, hst.2.2.1, hst.2.2.2.1, hst.2.2.2.2⟩, hsu, ⟨hsc.1, hsc.2⟩, hl, hd, hs, hi, hr, hp⟩

theorem notSuspended {s : State} (h : s.susp = false) : s.SuspOk :=
  ⟨fun c => absurd (h.symm.trans c) (by decide), fun c => absurd (h.symm.trans c) (by decide)⟩

theorem emptyTable_ok (m : Nat) : Table.empty.Ok m :=
  ⟨by decide, fun h => absurd rfl h, fun _ h => absurd h (by simp), fun _ h => absurd h (by simp)⟩

/-- Program P4 (95_test_vectors.md) at a bit of its stream. -/
def p4 (f : Fsm) (inPos acc cnt : Nat) : State :=
  { inflating f [0x78, 0x01, 0x0D, 0xC1, 0x01, 0x01, 0x00, 0x00, 0x00, 0x40, 0xA0, 0xAD, 0xFC, 0x1F, 0x41, 0xE1, 0x03,
      0x05, 0xBA, 0x01, 0xE8] with inPos := inPos, acc := BitVec.ofNat 32 acc, cnt := cnt }

/-- An outcome whose next control state is `f` goes on. -/
theorem next_of {o : Outcome} {f : Fsm} (h : (nextOf o).map (fun t => t.fsm) = some f) (hf : f ≠ .error) :
    ∃ t, o = .next t ∧ t.fsm ≠ .error := by
  cases o with
  | next t => exact ⟨t, rfl, fun c => hf ((Option.some.inj h).symm.trans c)⟩
  | fault q => cases h
  | refused q => cases h

/-- The engine is running INFLATE in a state of the invariant. -/
structure RunsInflate (s : State) : Prop where
  inv : s.Inv
  element : AtElement s s.fsm
  next : ∃ t, step s = .next t ∧ t.fsm ≠ .error

theorem inflating_inv {s : State} (hcaps : s.caps = State.reset.caps)
    (hm : ∀ sp, (s.mem sp).wf ∧ (s.mem sp).below (s.caps.size sp) ∧ (s.mem sp).draw < s.draws)
    (hf : s.fsm.inflating = true) (hst : s.status = Status.running ∧ s.errcode = 0 ∧ s.susp = false)
    (hsc : s.matchLen = 0 ∧ s.dyn = DynScratch.empty) (hl : s.llt.Ok 287) (hd : s.dt.Ok 31)
    (hb : s.cnt ≤ 23 ∧ s.acc.toNat < 2 ^ s.cnt) (hs : s.StreamOk) : s.Inv := by
  obtain ⟨h1, h2, h3⟩ := hst
  refine inv_of (by rw [hcaps]; decide) hb hm ?_ (notSuspended h3) hsc hl hd (fun _ => hs) ?_ ?_ ?_
  · rw [h1, h2]; cases h : s.fsm <;> rw [h] at hf <;> revert hf <;> decide
  · intro h; cases h' : s.fsm <;> simp [Fsm.inflating, Fsm.imaging, h'] at hf h
  · intro h; cases h' : s.fsm <;> simp [State.point, Fsm.inflating, h3, h'] at hf h
  · intro h; cases h' : s.fsm <;> simp [State.point, Fsm.inflating, h3, h'] at hf h

/-- InflateElementsReadBits, InflateOnlyAppendsToOut, CommandsTerminate, StepKeepsTheInvariant, NoStepFaults:
ZHDR at the first bit of P4. -/
theorem test_witness_inflate_zhdr : RunsInflate (p4 .zhdr 0 0 0) :=
  ⟨inflating_inv rfl (fun sp => by cases sp <;> exact ⟨by decide, by decide, by decide⟩) rfl ⟨rfl, rfl, rfl⟩ ⟨rfl, rfl⟩
    (emptyTable_ok _) (emptyTable_ok _) (by decide) ⟨by decide, by decide, by decide, by decide, by decide⟩,
    ⟨rfl, rfl, rfl, rfl⟩, next_of (f := .blkhdr) (by decide) (by decide)⟩

/-- The same: BLKHDR, 16 bits in. -/
theorem test_witness_inflate_blkhdr : RunsInflate (p4 .blkhdr 2 0 0) :=
  ⟨inflating_inv rfl (fun sp => by cases sp <;> exact ⟨by decide, by decide, by decide⟩) rfl ⟨rfl, rfl, rfl⟩ ⟨rfl, rfl⟩
    (emptyTable_ok _) (emptyTable_ok _) (by decide) ⟨by decide, by decide, by decide, by decide, by decide⟩,
    ⟨rfl, rfl, rfl, rfl⟩, next_of (f := .dynhdr) (by decide) (by decide)⟩

/-- The same: DYNHDR, 19 bits in, with five bits buffered. -/
theorem test_witness_inflate_dynhdr : RunsInflate (p4 .dynhdr 3 1 5) :=
  ⟨inflating_inv rfl (fun sp => by cases sp <;> exact ⟨by decide, by decide, by decide⟩) rfl ⟨rfl, rfl, rfl⟩ ⟨rfl, rfl⟩
    (emptyTable_ok _) (emptyTable_ok _) (by decide) ⟨by decide, by decide, by decide, by decide, by decide⟩,
    ⟨rfl, rfl, rfl, rfl⟩, next_of (f := .symbol) (by decide +kernel) (by decide)⟩

/-- The same: STORED with two bytes, and SYMBOL with a literal. -/
theorem test_witness_inflate_stored : RunsInflate (inflating .stored [0x02, 0x00, 0xFD, 0xFF, 0x63, 0x64]) :=
  ⟨inflating_inv rfl (fun sp => by cases sp <;> exact ⟨by decide, by decide, by decide⟩) rfl ⟨rfl, rfl, rfl⟩ ⟨rfl, rfl⟩
    (emptyTable_ok _) (emptyTable_ok _) (by decide) ⟨by decide, by decide, by decide, by decide, by decide⟩,
    ⟨rfl, rfl, rfl, rfl⟩, next_of (f := .blkend) (by decide) (by decide)⟩

theorem test_witness_inflate_symbol : RunsInflate { inflating .symbol [0] with llt := Table.always 97 } :=
  ⟨inflating_inv rfl (fun sp => by cases sp <;> exact ⟨by decide, by decide, by decide⟩) rfl ⟨rfl, rfl, rfl⟩ ⟨rfl, rfl⟩
    ⟨by decide, by decide, by decide, by decide⟩ (emptyTable_ok _) (by decide)
    ⟨by decide, by decide, by decide, by decide, by decide⟩, ⟨rfl, rfl, rfl, rfl⟩, next_of (f := .symbol) (by decide) (by decide)⟩

/-- DecodePngFootprint, StepKeepsTheInvariant, NoStepFaults, CommandsTerminate: the last row of an image. -/
theorem test_witness_image : (imaging .row 3 1 0 [4, 1, 2, 3]).Inv ∧
    (imaging .row 3 1 0 [4, 1, 2, 3]).fsm.imaging = true ∧
    ∃ t, step (imaging .row 3 1 0 [4, 1, 2, 3]) = .next t ∧ t.fsm ≠ .error :=
  ⟨inv_of (by decide) (by decide) (fun sp => by cases sp <;> exact ⟨by decide, by decide, by decide⟩) (by decide)
    (notSuspended rfl) ⟨rfl, rfl⟩ (emptyTable_ok _) (emptyTable_ok _) (fun h => absurd h (by decide))
    (fun _ => imageOk_gray) (by decide) (by decide), rfl, next_of (f := .asmstart) (by decide) (by decide)⟩

/-- ErrorStateIsQuiescent: the state after the largest error code. -/
theorem test_witness_error : { State.reset with
      fsm := .error, errcode := 11, status := { busy := false, done := false, err := true } }.Inv :=
  inv_of (by decide) (by decide) (fun sp => by cases sp <;> exact ⟨by decide, by decide, by decide⟩) (by decide)
    (notSuspended rfl) ⟨rfl, rfl⟩ (emptyTable_ok _) (emptyTable_ok _) (fun h => absurd h (by decide))
    (fun h => absurd h (by decide)) (by decide) (by decide)

/-- StatusBitsAreExclusive, StepKeepsTheInvariant: suspended after the final block. -/
theorem test_witness_suspended : { inflating .blkend [] with ckptEn := true, susp := true, suspNext := .done }.Inv :=
  inv_of (by decide) (by decide) (fun sp => by cases sp <;> exact ⟨by decide, by decide, by decide⟩) (by decide)
    ⟨fun _ => rfl, fun _ => Or.inl ⟨rfl, Or.inr rfl⟩⟩ ⟨rfl, rfl⟩ (emptyTable_ok _) (emptyTable_ok _)
    (fun _ => ⟨by decide, by decide, by decide, by decide, by decide⟩)
    (fun h => absurd h (by decide)) (by decide) (by decide)

/-- An outcome that goes on, in a state with a value. -/
theorem next_with {α : Type} {o : Outcome} {f : State → α} {x : α} (h : (nextOf o).map f = some x) :
    ∃ t, o = .next t ∧ f t = x := by
  cases o with
  | next t => exact ⟨t, rfl, Option.some.inj h⟩
  | fault q => cases h
  | refused q => cases h

/-- The last symbol of the final block, with two bytes of IN after the one that holds it. -/
def lastSymbol : State := { inflating .symbol [0x00, 0x35, 0x51] with llt := Table.always 256, bfinal := true }

/-- UnreadInputNeverMatters: a run that ends in DONE with `in_pos` 1 of IN_LEN 3, so the bytes 1 and 3 are the
first of their ranges and 1 is the least IN_LEN that holds what it fetched; and the states past the final
block that go on. -/
theorem test_witness_unread :
    lastSymbol.moves = [] ∧ lastSymbol.inLen = 3 ∧
    (∃ t, steps 2 lastSymbol = .next t ∧ (t.fsm, t.inPos) = (.done, 1)) ∧ (1 : Word).toNat = 1 ∧
    (∃ t, steps 1 { lastSymbol with fsm := .blkend } = .next t ∧ t.fsm = .done) ∧
    ∃ t, steps 1 { State.reset with bfinal := true, fsm := .done } = .next t ∧ t.fsm = .done :=
  ⟨rfl, rfl, next_with (f := fun t => (t.fsm, t.inPos)) (by decide), rfl, next_with (f := fun t => t.fsm) (by decide),
    next_with (f := fun t => t.fsm) (by decide)⟩

/-- ResetValues: a reset signal is a move of the host. InputPaletteAndConfigurationKept: an instruction
goes on. -/
theorem test_witness_moves : { State.reset with moves := [.reset] }.moves = .reset :: [] ∧
    ∃ t, exec .eob State.reset = .next t := ⟨rfl, ⟨_, rfl⟩⟩

theorem decode_of {f : Format} {v : Nat} {i : Instr} (h : (decode f v).toOption = some i) : decode f v = .ok i := by
  cases hd : decode f v with
  | ok j => rw [hd] at h; exact congrArg _ (Option.some.inj h)
  | error e => rw [hd] at h; cases h

/-- StepRunsTheDecodedInstruction: every format selects an instruction somewhere. -/
theorem test_witness_selects :
    Selects (inflating .zhdr [0x78, 0x01]) (.zhdr 0x78 0x01) ((inflating .zhdr [0x78, 0x01]).afterRead 16 16) ∧
    Selects (inflating .blkhdr [0x06]) (.blockReserved false)
      { (inflating .blkhdr [0x06]).afterRead 3 3 with bfinal := (inflating .blkhdr [0x06]).nextBit 0 } ∧
    Selects (inflating .stored [0, 0, 0xFF, 0xFF]) (.stored 0 0xFFFF)
      ((inflating .stored [0, 0, 0xFF, 0xFF]).align.afterRead 32 32) ∧
    Selects (inflating .dynhdr [0xFF, 0x3F]) (.dynhdr 31 31 15) ((inflating .dynhdr [0xFF, 0x3F]).afterRead 14 14) :=
  ⟨.zhdr ⟨rfl, rfl, rfl, rfl⟩ (canRead_of (by decide) (by decide) (by decide) (by decide)) (decode_of (by decide)),
    .blkhdr ⟨rfl, rfl, rfl, rfl⟩ (canRead_of (by decide) (by decide) (by decide) (by decide)) (decode_of (by decide)),
    .stored ⟨rfl, rfl, rfl, rfl⟩ ⟨by decide, by decide⟩ (canRead_of (by decide) (by decide) (by decide) (by decide)) (decode_of (by decide)),
    .dynhdr ⟨rfl, rfl, rfl, rfl⟩ rfl (canRead_of (by decide) (by decide) (by decide) (by decide)) (decode_of (by decide))⟩

/-- A table whose every code gives `v` reads `v`. -/
theorem always_reads {s : State} (v : Nat) (h : s.CanRead 1)
    (he : (Table.always v).entry (s.field 0 1) = { len := 1, sym := BitVec.ofNat 16 v })
    (hv : v = (BitVec.ofNat 16 v).toNat) : ReadsSymbol (Table.always v) s v (s.afterRead 1 1) := by
  refine ⟨Nat.one_ne_zero, (by decide : 1 ≤ 15), h, ?_, ?_, ?_, ?_⟩ <;>
    rw [show (Table.always v).max = 1 from rfl, he]
  · exact (by decide : (1 : BitVec 4) ≠ 0)
  · exact Nat.le_refl 1
  · exact hv
  · rfl

/-- StepRunsTheDecodedInstruction, the other formats; StreamBitsSelectTheInstruction reads the same
elements. -/
theorem test_witness_selects_symbols :
    (∃ u, Selects { inflating .dynhdr [0] with
      dyn := { hlit := 257, hdist := 1, lens := [], clt := Table.always 18 } } .clRep18 u) ∧
    (∃ u, Selects { inflating .symbol [0] with llt := Table.always 287 } (.symInvalid true) u) ∧
    (∃ u, Selects { inflating .symbol [0] with matchLen := 258, dt := Table.always 31 } (.distInvalid true) u) ∧
    (∃ u, Selects (imaging .row 3 1 0 [255, 1, 2, 3]) (.rowUnknown 255) u) ∧
    (∃ u, Selects (imaging .pixel 3 1 0 [0, 1, 2, 3]) .pixelGray u) ∧
    (∃ u, Selects { imaging .asmstart 3 1 0 [] with
      png := { (imaging .asmstart 3 1 0 []).png with depth := 16 } } (.pixelUnsupported 16 0) u) ∧
    ∃ u, Selects { State.reset with moves := [.regWrite 0x00 0xFFFFFFFF] } .cmdSoftReset u :=
  ⟨⟨_, .clsym ⟨rfl, rfl, rfl, rfl⟩ (by decide) (by decide)
      (always_reads 18 (canRead_of (by decide) (by decide) (by decide) (by decide)) (by decide) (by decide)) (decode_of (by decide))⟩,
    ⟨_, .sym ⟨rfl, rfl, rfl, rfl⟩ rfl
      (always_reads 287 (canRead_of (by decide) (by decide) (by decide) (by decide)) (by decide) (by decide)) (decode_of (by decide))⟩,
    ⟨_, .dcode ⟨rfl, rfl, rfl, rfl⟩ (by decide)
      (always_reads 31 (canRead_of (by decide) (by decide) (by decide) (by decide)) (by decide) (by decide)) (decode_of (by decide))⟩,
    ⟨_, .row ⟨rfl, rfl, rfl, rfl⟩ (by decide) (by decide) (decode_of (by decide))⟩,
    ⟨_, .pixel ⟨rfl, rfl, rfl, rfl⟩ (by decide) (decode_of (by decide +kernel))⟩, ⟨_, .asmstart ⟨rfl, rfl, rfl, rfl⟩ (by decide)⟩,
    ⟨_, .cmdword rfl (decode_of (by decide))⟩⟩

/-- DecodeInvertsEncode, EncodeInvertsDecode: the largest value of a row of each condition. -/
theorem test_witness_encode : (Instr.rowUnknown 255).WellFormed ∧ encode (.rowUnknown 255) = 255 ∧
    (decode .cmdword 0xFFFFFFFF).toOption = some .cmdSoftReset ∧ encode .cmdSoftReset = 0xFFFFFFFF % 16 := by
  decide

/-- StreamBitsSelectTheInstruction: the bits of `eob`, of `lit 0x61`, of distance code 29 and of the
headers stand at the start of a stream. -/
theorem test_witness_stream :
    BeginsWith (inflating .symbol [0x00, 0x00]) [false, false, false, false, false, false, false] ∧
    encodeBits .eob = some [false, false, false, false, false, false, false] ∧
    (inflating .symbol [0x00, 0x00]).CanRead 9 ∧
    BeginsWith (inflating .symbol [0x17]) [true, true, true, false, true] ∧
    encodeBits .dist29 = some [true, true, true, false, true] ∧ (inflating .symbol [0x17]).CanRead 5 ∧
    BeginsWith (inflating .zhdr [0x78, 0x01]) (fieldBits 16 0x0178) ∧
    BeginsWith (inflating .blkhdr [0x03]) (fieldBits 3 3) ∧
    BeginsWith (inflating .stored [0, 0, 0xFF, 0xFF]).align (fieldBits 32 0xFFFF0000) ∧
    BeginsWith (inflating .dynhdr [0xFF, 0x3F]) (fieldBits 14 0x3FFF) := by
  refine ⟨?_, by decide, canRead_of ?_ ?_ ?_ ?_, ?_, by decide, canRead_of ?_ ?_ ?_ ?_, ?_, ?_, ?_, ?_⟩ <;>
    first
      | decide
      | (unfold BeginsWith; decide)

end Sys2Proof.Tests
end

section
/-! From the bits of the stream to the instruction a step runs: consecutive reads are one read, each
element's fetch is the decoding of one field or one symbol, and the step runs what was decoded. -/

namespace Sys2Proof.Machine

/-! ### Consecutive reads -/

@[simp] theorem Res.ok_bind {α β : Type} (a : α) (s : State) (k : α → State → Res β) :
    (Res.ok a s).bind k = k a s := rfl

/-- A field is its low part and, above it, the field that follows (00_scope.md R13). -/
theorem State.field_add (s : State) (k m n : Nat) :
    s.field k (m + n) = s.field k m + s.field (k + m) n * 2 ^ m := by
  induction m generalizing k with
  | zero => simp [State.field]
  | succ m ih =>
    rw [show m + 1 + n = (m + n) + 1 by omega, State.field, State.field, ih,
      show k + 1 + m = k + (m + 1) by omega, Nat.pow_succ]
    ring

/-- Reading part of the bits that are there leaves the others to be read (40_bitreader.md R209). -/
theorem State.CanRead.afterRead {s : State} {m n : Nat} (h : s.CanRead (m + n)) : (s.afterRead m m).CanRead n := by
  obtain ⟨hb, he, hi⟩ := h
  have hc := hb.cntBound
  have hl := s.fetches_least m
  refine ⟨State.afterRead_bitsOk s (by omega), ?_, hi⟩
  rw [State.afterRead_bitsLeft (by omega) (s.fetches_enough m)]
  omega

theorem State.CanRead.le {s : State} {m n : Nat} (h : s.CanRead n) (hm : m ≤ n) : s.CanRead m :=
  ⟨h.bits, hm.trans h.enough, h.inCapOk⟩

/-- GetBits after a read of `m` bits gives the field `m` bits ahead (40_bitreader.md R201). -/
theorem getBits_afterRead {s : State} {m n : Nat} (h : s.CanRead (m + n)) (hn : n ≤ 16) :
    getBits n (s.afterRead m m) = .ok (s.field m n) (s.afterRead (m + n) (m + n)) := by
  have hl := s.fetches_least m
  have hc := h.bits.cntBound
  rw [getBits_ok h.afterRead hn, State.afterRead_field (s.fetches_enough m) (by omega), Nat.add_zero,
    State.afterRead_afterRead h.bits (State.fetches_enough _ n) (Nat.le_refl n) (by omega)]

/-! ### What each element's fetch decodes -/

theorem decoded_ok {f : Format} {v : Nat} {i : Instr} (h : decode f v = .ok i) (s : State) :
    decoded f v s = .ok i s := by
  rw [decoded, h]

/-- The bytes CMF and FLG are the one field of R120. -/
theorem fetchZhdr_eq {s : State} (h : s.CanRead 16) :
    fetchZhdr s = decoded .zhdr (s.field 0 16) (s.afterRead 16 16) := by
  rw [fetchZhdr, getBits_ok (h.le (by decide)) (by decide), Res.ok_bind,
    getBits_afterRead (m := 8) h (by decide), Res.ok_bind, State.field_add s 0 8 8]
  rfl

/-- The state with another `bfinal`. No bit of the stream depends on it. -/
def State.withBfinal (s : State) (b : Bool) : State := { s with bfinal := b }

theorem State.withBfinal_field (s : State) (b : Bool) (k n : Nat) : (s.withBfinal b).field k n = s.field k n := by
  have hbits : ∀ j, (s.withBfinal b).nextBit j = s.nextBit (0 + j) := fun j => by rw [Nat.zero_add]; rfl
  rw [State.field_congr hbits, Nat.zero_add]

theorem State.withBfinal_afterRead (s : State) (b : Bool) (want n : Nat) :
    (s.withBfinal b).afterRead want n = (s.afterRead want n).withBfinal b := by
  simp only [State.afterRead, State.withBfinal_field]
  rfl

theorem State.withBfinal_canRead {s : State} {n : Nat} (h : s.CanRead n) (b : Bool) : (s.withBfinal b).CanRead n :=
  ⟨⟨h.bits.cntBound, h.bits.accBound⟩, h.enough, h.inCapOk⟩

/-- A one-bit field is the bit. -/
theorem State.field_one (s : State) (k : Nat) : s.field k 1 = (s.nextBit k).toNat := by
  simp [State.field]

/-- BFINAL and BTYPE are the one field of R121, and `bfinal` is the first bit of it. -/
theorem fetchBlkhdr_eq {s : State} (h : s.CanRead 3) :
    fetchBlkhdr s = decoded .blkhdr (s.field 0 3) { s.afterRead 3 3 with bfinal := s.nextBit 0 } := by
  have hbit : (s.field 0 1 == 1) = s.nextBit 0 := by
    rw [State.field_one]; cases s.nextBit 0 <;> rfl
  have htype : getBits 2 ((s.afterRead 1 1).withBfinal (s.nextBit 0)) =
      .ok (s.field 1 2) ((s.afterRead 3 3).withBfinal (s.nextBit 0)) := by
    rw [← State.withBfinal_afterRead, getBits_afterRead (m := 1) (State.withBfinal_canRead h _) (by decide),
      State.withBfinal_field, State.withBfinal_afterRead]
  rw [fetchBlkhdr, getBits_ok (h.le (by decide)) (by decide), Res.ok_bind, hbit]
  change (getBits 2 ((s.afterRead 1 1).withBfinal (s.nextBit 0))).bind _ = _
  rw [htype, Res.ok_bind, State.field_add s 0 1 2]
  rfl

/-- LEN and NLEN are the one field of R122, after Align. -/
theorem fetchStored_eq {s : State} (h : s.align.CanRead 32) :
    fetchStored s = decoded .stored (s.align.field 0 32) (s.align.afterRead 32 32) := by
  rw [fetchStored, getBits_ok (h.le (by decide)) (by decide), Res.ok_bind,
    getBits_afterRead (m := 16) h (by decide), Res.ok_bind, State.field_add s.align 0 16 16]
  rfl

/-- HLIT, HDIST and HCLEN are the one field of R123. -/
theorem fetchDynhdr_eq {s : State} (h : s.CanRead 14) :
    fetchDynhdr s = decoded .dynhdr (s.field 0 14) (s.afterRead 14 14) := by
  rw [fetchDynhdr, getBits_ok (h.le (by decide)) (by decide), Res.ok_bind,
    getBits_afterRead (m := 5) (h.le (by decide)) (by decide), Res.ok_bind,
    getBits_afterRead (m := 10) h (by decide), Res.ok_bind, State.field_add s 0 10 4, State.field_add s 0 5 5]
  rfl

/-- The filter-type byte is the first byte of the row (44_png_unfilter.md R402). -/
theorem fetchRow_eq {s : State} (hr : s.png.row < s.png.h) (ha : s.png.row * s.png.rowlen < s.caps.outCap) :
    fetchRow s = decoded .row (s.byteAt .out (s.png.row * s.png.rowlen)).toNat s := by
  rw [fetchRow, if_pos hr, PngRegs.rowBase, readByte_ok ha]
  rfl

theorem fetchPixel_eq {s : State} (hp : s.png.pixI < s.png.w * s.png.h) :
    fetchPixel s = decoded .pixel (s.png.depth.toNat + s.png.ctype.toNat * 256) s :=
  if_pos hp

end Sys2Proof.Machine

namespace Sys2Proof.Claims

open Sys2Proof.Machine

theorem ReadsSymbol.getCode_eq {t : Table} {s u : State} {v : Nat} (h : ReadsSymbol t s v u) :
    getCode t s = .ok v u := by
  obtain ⟨hmax, hbound, hread, hlen, hle, rfl, rfl⟩ := h
  exact getCode_ok hread hmax (by omega) rfl hlen hle

/-! ### The step at an element -/

theorem AtElement.step_eq {s : State} {f : Fsm} (h : AtElement s f) : step s = (fetchElement s).outcome :=
  step_element h.turn h.busy h.running

/-- A step whose element fetches `i` runs `i`, in the state its bits leave. -/
theorem AtElement.step_of_fetched {s u : State} {f : Fsm} {i : Instr} {r : Res Instr} (h : AtElement s f)
    (hf : fetchElement s = r.fetched) (hr : r = .ok i u) : step s = exec i u := by
  rw [h.step_eq, hf, hr]
  rfl

theorem AtElement.fetch_zhdr {s : State} (h : AtElement s .zhdr) : fetchElement s = (fetchZhdr s).fetched := by
  rw [fetchElement, h.fsm]

theorem AtElement.fetch_blkhdr {s : State} (h : AtElement s .blkhdr) :
    fetchElement s = (fetchBlkhdr s).fetched := by
  rw [fetchElement, h.fsm]

theorem AtElement.fetch_stored {s : State} (h : AtElement s .stored) :
    fetchElement s = (fetchStored s).fetched := by
  rw [fetchElement, h.fsm]

/-- A dynamic header begins with its counts. -/
theorem AtElement.fetch_dynhdr {s : State} (h : AtElement s .dynhdr) (hn : s.dyn.hlit = 0) :
    fetchElement s = (fetchDynhdr s).fetched := by
  rw [fetchElement, h.fsm]
  exact if_pos hn

/-- Inside a dynamic header the element is a code-length symbol (log entry 7). -/
theorem AtElement.fetch_clsym {s : State} (h : AtElement s .dynhdr) (hn : s.dyn.hlit ≠ 0)
    (hl : s.dyn.lens.length < s.lengthTotal) : fetchElement s = (fetchClsym s).fetched := by
  rw [fetchElement, h.fsm]
  exact (if_neg hn).trans (if_pos hl)

theorem AtElement.fetch_sym {s : State} (h : AtElement s .symbol) (hn : s.matchLen = 0) :
    fetchElement s = (fetchSym s).fetched := by
  rw [fetchElement, h.fsm]
  exact if_pos hn

/-- Inside a match the element is a distance code (log entry 6). -/
theorem AtElement.fetch_dcode {s : State} (h : AtElement s .symbol) (hn : s.matchLen ≠ 0) :
    fetchElement s = (fetchDcode s).fetched := by
  rw [fetchElement, h.fsm]
  exact if_neg hn

theorem AtElement.fetch_row {s : State} (h : AtElement s .row) : fetchElement s = (fetchRow s).fetched := by
  rw [fetchElement, h.fsm]

theorem AtElement.fetch_pixel {s : State} (h : AtElement s .pixel) :
    fetchElement s = (fetchPixel s).fetched := by
  rw [fetchElement, h.fsm]

/-- A depth ASMSTART refuses is the row `pixel.unsupported` (log entry 20). -/
theorem AtElement.fetch_asmstart {s : State} (h : AtElement s .asmstart) (hd : s.png.depth ≠ 8) :
    fetchElement s = .instr (.pixelUnsupported s.png.depth s.png.ctype) s := by
  rw [fetchElement, h.fsm]
  exact if_neg hd

/-- A host write to CMD runs the command of its word (46_commands.md R460 (b)). -/
theorem step_of_command {s : State} {i : Instr} {v : Word} {rest : List HostMove}
    (hm : s.moves = .regWrite 0x00 v :: rest) (hd : decode .cmdword v.toNat = .ok i) :
    step s = exec i { s with moves := rest } := by
  have hfetch : fetchNext s = (decoded .cmdword v.toNat { s with moves := rest }).fetched := by
    rw [fetchNext, hm]
    rfl
  rw [Machine.step_eq, hfetch, decoded_ok hd]
  rfl

/-- Settles O56, by the cases of `Selects`: one per format, each its element's fetch. -/
theorem stepRunsTheDecodedInstruction : Obligations.StepRunsTheDecodedInstruction := by
  intro s u i h
  cases h with
  | zhdr h hr hd => exact h.step_of_fetched h.fetch_zhdr (by rw [fetchZhdr_eq hr, decoded_ok hd])
  | blkhdr h hr hd => exact h.step_of_fetched h.fetch_blkhdr (by rw [fetchBlkhdr_eq hr, decoded_ok hd])
  | stored h _ hr hd => exact h.step_of_fetched h.fetch_stored (by rw [fetchStored_eq hr, decoded_ok hd])
  | dynhdr h hn hr hd => exact h.step_of_fetched (h.fetch_dynhdr hn) (by rw [fetchDynhdr_eq hr, decoded_ok hd])
  | clsym h hn hl hs hd =>
    exact h.step_of_fetched (h.fetch_clsym hn hl) (by rw [fetchClsym, hs.getCode_eq, Res.ok_bind, decoded_ok hd])
  | sym h hn hs hd =>
    exact h.step_of_fetched (h.fetch_sym hn) (by rw [fetchSym, hs.getCode_eq, Res.ok_bind, decoded_ok hd])
  | dcode h hn hs hd =>
    exact h.step_of_fetched (h.fetch_dcode hn) (by rw [fetchDcode, hs.getCode_eq, Res.ok_bind, decoded_ok hd])
  | row h hr ha hd => exact h.step_of_fetched h.fetch_row (by rw [fetchRow_eq hr ha, decoded_ok hd])
  | pixel h hp hd => exact h.step_of_fetched h.fetch_pixel (by rw [fetchPixel_eq hp, decoded_ok hd])
  | asmstart h hd =>
    rw [h.step_eq, h.fetch_asmstart hd]
    rfl
  | cmdword hm hd => exact step_of_command hm hd

end Sys2Proof.Claims
end

section
/-! The host's side of the machine: which part of it a move runs, the words the registers read as, and the
register block. -/

namespace Sys2Proof.Machine

/-! ### The engine's turn and the host's moves -/

/-- A host move is the step while moves are left (46_commands.md R460). -/
theorem step_of_move {s : State} {m : HostMove} {rest : List HostMove} (hm : s.moves = m :: rest) :
    step s = (fetchMove m { s with moves := rest }).outcome := by
  rw [step_eq, fetchNext, hm]

/-- Without a host move the step is the engine's turn. -/
theorem step_of_turn {s : State} (hm : s.moves = []) : step s = (fetchEngine s).outcome := by
  rw [step_eq, fetchNext, hm]

/-- A turn of an engine that is not enabled changes nothing (46_commands.md R460). -/
theorem fetchEngine_waiting {s : State} (h : s.engineEnabled = false) : (fetchEngine s).outcome = .next s := by
  rw [fetchEngine, h]; rfl

theorem fetchEngine_enabled {s : State} (h : s.engineEnabled = true) : fetchEngine s = fetchElement s := if_pos h

/-- A word written to CMD is decoded and run. -/
theorem fetchRegWrite_cmd {off : Nat} (hoff : regAt off = some .cmd) (v : Word) (s : State) :
    (fetchRegWrite off v s).outcome = exec (decodeCmdword v.toNat) s := by
  rw [fetchRegWrite, hoff]
  show (decoded .cmdword v.toNat s).fetched.outcome = _
  rw [decoded_ok (Laws.RoundTrip.decode_cmdword v.isLt)]
  rfl

/-- A word written to another register is stored as `writeReg` says. -/
theorem fetchRegWrite_config {off : Nat} {r : Reg} (hoff : regAt off = some r) (hr : r ≠ .cmd) (v : Word) (s : State) :
    (fetchRegWrite off v s).outcome = .next (s.writeReg r v) := by
  rw [fetchRegWrite, hoff]
  cases r <;> first | rfl | exact absurd rfl hr

theorem fetchRegWrite_none {off : Nat} (hoff : regAt off = none) (v : Word) (s : State) :
    (fetchRegWrite off v s).outcome = .refused (.registerOffset off) := by
  rw [fetchRegWrite, hoff]; rfl

/-- A host read that is a move of the machine gives the byte to the host (20_memory.md R85, R94). -/
theorem hostMemRead_next {sp : Space} {a : Nat} {s t : State} (h : hostMemRead sp a s = .next t) :
    t = { s with hostData := (s.byteAt sp a).setWidth 32 } := by
  rw [hostMemRead] at h
  split at h
  · cases h
  split at h
  · cases h; rfl
  · cases h

theorem hostRegRead_some {off : Nat} {r : Reg} (h : regAt off = some r) (s : State) :
    hostRegRead off s = .next { s with hostData := s.readReg r } := by
  rw [hostRegRead, h]

theorem hostRegRead_none {off : Nat} (h : regAt off = none) (s : State) :
    hostRegRead off s = .refused (.registerOffset off) := by
  rw [hostRegRead, h]

/-! ### Commands -/

/-- A code that is no command is reserved (30_encoding.md R160). -/
theorem decodeCmdword_reserved {v : Nat} (h : v % 16 ∉ [1, 2, 3, 15]) :
    decodeCmdword v = .cmdReserved (BitVec.ofNat 4 (v % 16)) := by
  simp only [List.mem_cons, List.not_mem_nil, or_false, not_or] at h
  obtain ⟨h1, h2, h3, h15⟩ := h
  rw [decodeCmdword]
  split
  next h => exact absurd h h1
  next h => exact absurd h h2
  next h => exact absurd h h3
  next h => exact absurd h h15
  next => rfl

/-! ### The words of the registers -/

theorem bitAt_getLsbD (b : Bool) {n : Nat} (hn : n < 32) (i : Nat) :
    (bitAt b n).getLsbD i = (decide (i = n) && b) := by
  rw [bitAt, BitVec.getLsbD_shiftLeft, BitVec.getLsbD_setWidth, BitVec.getLsbD_ofBool]
  by_cases h : i = n
  · subst h; simp [hn]
  · by_cases hlt : i < n
    · simp [h, hlt]
    · simp [h, show i - n ≠ 0 by omega]

/-- STATUS bit by bit (10_state.md R32). -/
theorem State.statusWord_getLsbD (s : State) (k : Nat) : s.statusWord.getLsbD k =
    (decide (k = 0) && s.status.busy || decide (k = 1) && s.status.done || decide (k = 2) && s.status.err ||
      decide (k = 3) && s.susp) := by
  simp only [State.statusWord, BitVec.getLsbD_or, bitAt_getLsbD _ (show 0 < 32 by decide),
    bitAt_getLsbD _ (show 1 < 32 by decide), bitAt_getLsbD _ (show 2 < 32 by decide),
    bitAt_getLsbD _ (show 3 < 32 by decide)]

/-- CTRL keeps bit 0 of what is written (10_state.md R34). -/
theorem bitAt_zero_eq (v : Word) : bitAt (v.getLsbD 0) 0 = v &&& 1 := by
  apply BitVec.eq_of_getLsbD_eq
  intro i hi
  rw [bitAt_getLsbD _ (by decide), BitVec.getLsbD_and]
  by_cases h : i = 0
  · subst h; simp
  · simp [h]

/-- FORMAT keeps bits 16:0 of what is written (10_state.md R38). -/
theorem FormatReg.word_ofWord (v : Word) : (FormatReg.ofWord v).word = v &&& 0x0001FFFF := by
  have hmask (i : Nat) : (0x0001FFFF : Word).getLsbD i = decide (i < 17) := by
    rw [show (0x0001FFFF : Word) = (BitVec.allOnes 17).setWidth 32 from rfl, BitVec.getLsbD_setWidth,
      BitVec.getLsbD_allOnes, ← Bool.decide_and, decide_eq_decide]
    omega
  apply BitVec.eq_of_getLsbD_eq
  intro i hi
  simp only [FormatReg.word, FormatReg.ofWord, BitVec.getLsbD_or, BitVec.getLsbD_and, hmask,
    bitAt_getLsbD _ (show 16 < 32 by decide), BitVec.getLsbD_setWidth, BitVec.getLsbD_shiftLeft,
    BitVec.getLsbD_extractLsb', hi]
  by_cases h8 : i < 8
  · simp [h8, show i ≠ 16 by omega, show i < 17 by omega]
  by_cases h16 : i < 16
  · simp [h8, show i ≠ 16 by omega, show i < 17 by omega, show i - 8 < 32 by omega, show i - 8 < 8 by omega,
      show 8 + (i - 8) = i by omega]
  by_cases h17 : i = 16
  · subst h17; simp
  · simp [h8, h17, show ¬ i < 17 by omega, show ¬ i - 8 < 8 by omega]

/-! ### Register writes -/

/-- What a register write can change: the configuration registers (10_state.md R34..R39). -/
theorem State.writeReg_frame (s : State) (r : Reg) (v : Word) :
    s.writeReg r v = { s with
      ckptEn := (s.writeReg r v).ckptEn, inLen := (s.writeReg r v).inLen, outLen := (s.writeReg r v).outLen
      width := (s.writeReg r v).width, height := (s.writeReg r v).height, format := (s.writeReg r v).format
      palLen := (s.writeReg r v).palLen } := by
  rw [State.writeReg]
  split
  · rfl
  · cases r <;> rfl

/-- While a command runs a register write is ignored (70_reset_and_hazards.md R720). -/
theorem State.writeReg_busy {s : State} (h : s.status.busy = true) (r : Reg) (v : Word) : s.writeReg r v = s :=
  if_pos h

theorem State.writeReg_idle {s : State} (h : s.status.busy = false) (r : Reg) (v : Word) :
    s.writeReg r v = s.setReg r v := by
  rw [State.writeReg, h]; rfl

/-- A write to one register changes the reading of no other. -/
theorem State.readReg_setReg_of_ne (s : State) {r q : Reg} (h : q ≠ r) (v : Word) :
    (s.setReg r v).readReg q = s.readReg q := by
  cases r <;> cases q <;> first | rfl | exact absurd rfl h

theorem State.writeReg_outLen (s : State) {r : Reg} (h : r ≠ .outLen) (v : Word) :
    (s.writeReg r v).outLen = s.outLen := by
  rw [State.writeReg]
  split
  · rfl
  · cases r <;> first | rfl | exact absurd rfl h

end Sys2Proof.Machine

namespace Sys2Proof.Claims

open Sys2Proof.Machine

/-! ### The register block -/

theorem regAt_of_mem : ∀ e ∈ registerMap, regAt e.1 = some e.2 := by decide

/-- The register block has no register but those of the map (10_state.md R30, 20_memory.md R86). -/
theorem mem_of_regAt {off : Nat} {r : Reg} (h : regAt off = some r) : (off, r) ∈ registerMap := by
  have block : ∀ off < 0x40, ∀ r ∈ regAt off, (off, r) ∈ registerMap := by decide
  refine block off ?_ r h
  by_contra hoff
  rw [regAt, if_pos (.inr (by omega))] at h
  cases h

theorem regAt_eq_none {off : Nat} (h : ∀ r, (off, r) ∉ registerMap) : regAt off = none :=
  Option.eq_none_iff_forall_ne_some.2 fun r hr => h r (mem_of_regAt hr)

/-- Settles O35: CMD's word is decoded by its bits 3:0 and the command runs. -/
theorem commandWordUsesItsLowBits : Obligations.CommandWordUsesItsLowBits := by
  intro s v rest hm
  have hstep : step s = exec (decodeCmdword v.toNat) { s with moves := rest } :=
    step_of_command hm (Laws.RoundTrip.decode_cmdword v.isLt)
  rw [hstep]
  refine ⟨fun h => ?_, fun h => ?_, fun h => ?_, fun h => ?_, fun h => ?_⟩
  · rw [decodeCmdword, h]; rfl
  · rw [decodeCmdword, h]; rfl
  · rw [decodeCmdword, h]; rfl
  · rw [decodeCmdword, h]; rfl
  · rw [decodeCmdword_reserved h]; rfl

/-- Settles O40, by the map of the registers and its converse. -/
theorem registerBlockLayout : Obligations.RegisterBlockLayout := by
  refine ⟨regAt_of_mem, fun off h => ⟨regAt_eq_none h, fun s v rest => ⟨fun hm => ?_, fun hm => ?_⟩⟩⟩
  · rw [step_of_move hm]; exact fetchRegWrite_none (regAt_eq_none h) v _
  · rw [step_of_move hm]; exact hostRegRead_none (regAt_eq_none h) _

/-- Settles O41: the step is `writeReg`, and `writeReg` is read back register by register. -/
theorem registersReadBack : Obligations.RegistersReadBack := by
  refine ⟨fun s off r v rest hoff hr hm => ?_, ?_, fun s v hb => ?_⟩
  · rw [step_of_move hm]; exact fetchRegWrite_config (regAt_of_mem _ hoff) hr v _
  · rintro s _ r v rfl
    exact ⟨s.writeReg_frame r v, fun hr => s.writeReg_outLen hr v⟩
  · simp only [State.writeReg_idle hb]
    refine ⟨bitAt_zero_eq v, rfl, BitVec.ofNat_toNat 32 v, rfl, rfl, rfl, FormatReg.word_ofWord v, rfl, ?_, rfl, rfl,
      fun r q hq => s.readReg_setReg_of_ne hq v⟩
    simp [State.setReg]

/-- Settles O37: an engine that is not enabled has no element to run. -/
theorem idleAndSuspendedEngineWaits : Obligations.IdleAndSuspendedEngineWaits := by
  intro s hm hw
  rw [step_of_turn hm]
  refine fetchEngine_waiting ?_
  rcases hw with hb | hs
  · simp [State.engineEnabled, hb]
  · simp [State.engineEnabled, hs]

/-- Settles O44: a host read changes what the host holds alone. -/
theorem hostReadsHaveNoSideEffect : Obligations.HostReadsHaveNoSideEffect := by
  refine fun s rest => ⟨fun off r hoff hm => ?_, fun sp a t hm e => ?_⟩
  · rw [step_of_move hm]; exact hostRegRead_some (regAt_of_mem _ hoff) _
  · rw [step_of_move hm] at e; exact hostMemRead_next e

end Sys2Proof.Claims
end

section
/-! Every move of the machine keeps its invariant. The invariant is what it says in every control state
(`State.Sound`), what a running command adds to it (`State.Working`), and the suspension, the stream and
the image. Each kind of next state is built from these parts once; a step is then one of the kinds. -/

namespace Sys2Proof.Machine

/-! ### The parts of the invariant and the fields they speak of -/

/-- What the invariant says whatever `fsm` is: of the capacities, the BitReader, the memories and the
tables. -/
structure State.Sound (s : State) : Prop where
  capsOk : 2 ≤ s.caps.inCap ∧ 1 ≤ s.caps.outCap ∧ 4 ≤ s.caps.pixCap
  bits : s.BitsOk
  mems : s.MemsOk
  llt : s.llt.Ok 287
  dt : s.dt.Ok 31

/-- A command runs, no error has been raised and no element is half done. -/
structure State.Working (s : State) : Prop where
  status : s.status = Status.running
  errcode : s.errcode = 0
  scratch : s.ScratchOk

/-- The fields `Sound` speaks of, every other one at its reset value. -/
def State.soundPart (s : State) : State :=
  { State.reset with
    acc := s.acc, cnt := s.cnt, llt := s.llt, dt := s.dt, inp := s.inp, out := s.out, pal := s.pal
    pix := s.pix, caps := s.caps, draws := s.draws }

/-- The fields `StreamOk` speaks of. -/
def State.streamPart (s : State) : State :=
  { State.reset with
    inLen := s.inLen, inPos := s.inPos, acc := s.acc, cnt := s.cnt, outLen := s.outLen, inp := s.inp
    caps := s.caps }

/-- The fields `ImageOk` speaks of: not the progress registers. -/
def State.imagePart (s : State) : State :=
  { State.reset with png := { s.png with row := 0, pixI := 0 }, outLen := s.outLen, caps := s.caps }

/-- The fields `Working` speaks of. -/
def State.workingPart (s : State) : State :=
  { State.reset with status := s.status, errcode := s.errcode, matchLen := s.matchLen, dyn := s.dyn }

theorem State.sound_soundPart {s : State} : s.soundPart.Sound ↔ s.Sound :=
  ⟨fun ⟨hc, hb, hm, hl, hd⟩ => ⟨hc, ⟨hb.cntBound, hb.accBound⟩, ⟨hm.wf, hm.below, hm.drawn⟩, hl, hd⟩,
    fun ⟨hc, hb, hm, hl, hd⟩ => ⟨hc, ⟨hb.cntBound, hb.accBound⟩, ⟨hm.wf, hm.below, hm.drawn⟩, hl, hd⟩⟩

theorem State.streamOk_streamPart {s : State} : s.streamPart.StreamOk ↔ s.StreamOk :=
  ⟨fun ⟨hi, hp, hc, ha, ho⟩ => ⟨hi, hp, hc, ha, ho⟩, fun ⟨hi, hp, hc, ha, ho⟩ => ⟨hi, hp, hc, ha, ho⟩⟩

theorem State.imageOk_imagePart {s : State} : s.imagePart.ImageOk ↔ s.ImageOk :=
  ⟨fun ⟨hw, hh, hd, ht, hb, hs, hl, hr, ho, hp, hn⟩ => ⟨hw, hh, hd, ht, hb, hs, hl, hr, ho, hp, hn⟩,
    fun ⟨hw, hh, hd, ht, hb, hs, hl, hr, ho, hp, hn⟩ => ⟨hw, hh, hd, ht, hb, hs, hl, hr, ho, hp, hn⟩⟩

theorem State.working_workingPart {s : State} : s.workingPart.Working ↔ s.Working :=
  ⟨fun ⟨hs, he, hc⟩ => ⟨hs, he, ⟨hc.noMatch, hc.noHeader⟩⟩, fun ⟨hs, he, hc⟩ => ⟨hs, he, ⟨hc.noMatch, hc.noHeader⟩⟩⟩

theorem State.Sound.congr {s t : State} (h : s.Sound) (e : t.soundPart = s.soundPart) : t.Sound :=
  sound_soundPart.1 (e ▸ sound_soundPart.2 h)

theorem State.StreamOk.congr {s t : State} (h : s.StreamOk) (e : t.streamPart = s.streamPart) : t.StreamOk :=
  streamOk_streamPart.1 (e ▸ streamOk_streamPart.2 h)

theorem State.ImageOk.congr {s t : State} (h : s.ImageOk) (e : t.imagePart = s.imagePart) : t.ImageOk :=
  imageOk_imagePart.1 (e ▸ imageOk_imagePart.2 h)

theorem State.Working.congr {s t : State} (h : s.Working) (e : t.workingPart = s.workingPart) : t.Working :=
  working_workingPart.1 (e ▸ working_workingPart.2 h)

theorem State.Inv.sound {s : State} (h : s.Inv) : s.Sound := ⟨h.capsOk, h.bits, h.mems, h.llt, h.dt⟩

theorem State.Good.sound {s : State} (h : s.Good)
    (hc : 2 ≤ s.caps.inCap ∧ 1 ≤ s.caps.outCap ∧ 4 ≤ s.caps.pixCap) : s.Sound := ⟨hc, h.bits, h.mems, h.llt, h.dt⟩

/-- Another legal memory in one of the spaces. -/
theorem State.Sound.setMem {s : State} (h : s.Sound) (sp : Space) {m : Memory} (hw : m.wf)
    (hb : m.below (s.caps.size sp)) (hd : m.draw < s.draws) : (s.setMem sp m).Sound := by
  have hcaps : (s.setMem sp m).caps = s.caps := by cases sp <;> rfl
  have hdraws : (s.setMem sp m).draws = s.draws := by cases sp <;> rfl
  have hm : (s.setMem sp m).MemsOk := by
    refine ⟨fun tp => ?_, fun tp => ?_, fun tp => ?_⟩ <;> rw [State.mem_setMem]
    · split
      · exact hw
      · exact h.mems.wf tp
    · rw [hcaps]
      split
      · rename_i e; rw [e]; exact hb
      · exact h.mems.below tp
    · rw [hdraws]
      split
      · exact hd
      · exact h.mems.drawn tp
  cases sp <;> exact ⟨h.capsOk, ⟨h.bits.cntBound, h.bits.accBound⟩, hm, h.llt, h.dt⟩

/-- The draw counter goes on. -/
theorem State.Sound.nextDraw {s : State} (h : s.Sound) : ({ s with draws := s.draws + 1 } : State).Sound :=
  ⟨h.capsOk, ⟨h.bits.cntBound, h.bits.accBound⟩,
    ⟨h.mems.wf, h.mems.below, fun sp => Nat.lt_succ_of_lt (h.mems.drawn sp)⟩, h.llt, h.dt⟩

/-- A memory of the last draw in one of the spaces (70_reset_and_hazards.md R702). -/
theorem State.Sound.drawMem {s : State} (h : s.Sound) (sp : Space) {d : Nat} (hd : d < s.draws) :
    (s.setMem sp (Memory.drawn d)).Sound :=
  h.setMem sp (Memory.drawn_wf d) (Memory.drawn_below d _) hd

theorem Table.empty_ok (n : Nat) : Table.empty.Ok n :=
  ⟨Nat.zero_le _, fun h => absurd rfl h, fun _ he => absurd he List.not_mem_nil, fun _ he => absurd he List.not_mem_nil⟩

/-! ### Control states, STATUS and the suspension -/

theorem Fsm.running_of_inflating {f : Fsm} : f.inflating = true → f.running = true := by cases f <;> decide

theorem Fsm.running_of_imaging {f : Fsm} : f.imaging = true → f.running = true := by cases f <;> decide

theorem Fsm.not_imaging_of_inflating {f : Fsm} : f.inflating = true → f.imaging = false := by cases f <;> decide

theorem Fsm.not_over_of_running {f : Fsm} : f.running = true → (f == .done) = false ∧ (f == .error) = false := by
  cases f <;> decide

/-- STATUS of a state that meets the invariant while a command runs (10_state.md R32). -/
theorem State.Inv.working {s : State} (h : s.Inv) (hf : s.fsm.running = true) : s.Working where
  status := by
    obtain ⟨hdone, herr⟩ := Fsm.not_over_of_running hf
    calc s.status = ⟨s.status.busy, s.status.done, s.status.err⟩ := rfl
      _ = Status.running := by rw [h.status.busy, h.status.done, h.status.err, hf, hdone, herr]; rfl
  errcode := by
    by_contra hne
    rw [h.status.errcode.1 hne] at hf
    cases hf
  scratch := h.scratch

theorem State.Working.statusOk {s : State} (h : s.Working) (hf : s.fsm.running = true) : s.StatusOk where
  busy := by rw [h.status, hf]; rfl
  done := by rw [h.status, (Fsm.not_over_of_running hf).1]; rfl
  err := by rw [h.status, (Fsm.not_over_of_running hf).2]; rfl
  errcode := by
    rw [h.errcode]
    exact ⟨fun hne => absurd rfl hne, fun he => by rw [he] at hf; cases hf⟩
  errcodeBound := by rw [h.errcode]; decide

theorem State.suspOk_of_going {s : State} (h : s.susp = false) : s.SuspOk :=
  ⟨fun hs => absurd (h.symm.trans hs) Bool.false_ne_true, fun hs => absurd (h.symm.trans hs) Bool.false_ne_true⟩

theorem State.point_of_going {s : State} (h : s.susp = false) : s.point = s.fsm := by
  rw [State.point, h]; rfl

theorem State.point_of_suspended {s : State} (h : s.susp = true) : s.point = s.suspNext := if_pos h

/-- Only a running command is suspended (10_state.md R32). -/
theorem State.SuspOk.running {s : State} (h : s.SuspOk) (hs : s.susp = true) : s.fsm.running = true := by
  rcases h.target hs with ⟨hf, _⟩ | ⟨hf, _⟩ <;> rw [hf] <;> rfl

/-- INFLATE never goes on in an image. -/
theorem State.SuspOk.point_not_imaging {s : State} (h : s.SuspOk) (hf : s.fsm.inflating = true) :
    s.point.imaging = false := by
  by_cases hs : s.susp = true
  · rw [State.point_of_suspended hs]
    rcases h.target hs with ⟨_, hn | hn⟩ | ⟨hrow, _⟩
    · rw [hn]; rfl
    · rw [hn]; rfl
    · rw [hrow] at hf; cases hf
  · rw [State.point_of_going (by simpa using hs)]
    exact Fsm.not_imaging_of_inflating hf

/-! ### The kinds of states that meet the invariant -/

/-- Neither INFLATE nor the image part of DECODE_PNG runs. -/
theorem State.inv_of_quiet {s : State} (h : s.Sound) (hst : s.StatusOk) (hsc : s.ScratchOk)
    (hs : s.susp = false) (hi : s.fsm.inflating = false) (hm : s.fsm.imaging = false) : s.Inv where
  capsOk := h.capsOk
  bits := h.bits
  mems := h.mems
  status := hst
  susp := State.suspOk_of_going hs
  scratch := hsc
  llt := h.llt
  dt := h.dt
  stream hf := by rw [hi] at hf; cases hf
  image hf := by rw [hm] at hf; cases hf
  atRow hp := by rw [State.point_of_going hs] at hp; rw [hp] at hm; cases hm
  atPixel hp := by rw [State.point_of_going hs] at hp; rw [hp] at hm; cases hm

/-- INFLATE runs. -/
theorem State.inv_of_inflating {s : State} (h : s.Sound) (hw : s.Working) (hs : s.SuspOk)
    (hst : s.StreamOk) (hf : s.fsm.inflating = true) : s.Inv where
  capsOk := h.capsOk
  bits := h.bits
  mems := h.mems
  status := hw.statusOk (Fsm.running_of_inflating hf)
  susp := hs
  scratch := hw.scratch
  llt := h.llt
  dt := h.dt
  stream _ := hst
  image hm := by rw [Fsm.not_imaging_of_inflating hf] at hm; cases hm
  atRow hp := by have hn := hs.point_not_imaging hf; rw [hp] at hn; cases hn
  atPixel hp := by have hn := hs.point_not_imaging hf; rw [hp] at hn; cases hn

/-- DECODE_PNG runs and its entry checks have passed. -/
theorem State.inv_of_imaging {s : State} (h : s.Sound) (hw : s.Working) (hs : s.SuspOk) (hi : s.ImageOk)
    (hf : s.fsm.imaging = true) (hr : s.point = .row → s.png.row < s.png.h)
    (hp : s.point = .pixel → s.png.depth = 8 ∧ s.png.pixI < s.png.w * s.png.h) : s.Inv where
  capsOk := h.capsOk
  bits := h.bits
  mems := h.mems
  status := hw.statusOk (Fsm.running_of_imaging hf)
  susp := hs
  scratch := hw.scratch
  llt := h.llt
  dt := h.dt
  stream hm := by rw [Fsm.not_imaging_of_inflating hm] at hf; cases hf
  image _ := hi
  atRow := hr
  atPixel := hp

/-- The host moves still to come and what a host read returned have no part in the invariant. -/
theorem State.Inv.withHost {s : State} (h : s.Inv) (moves : List HostMove) (data : Word) :
    ({ s with moves := moves, hostData := data } : State).Inv where
  capsOk := h.capsOk
  bits := ⟨h.bits.cntBound, h.bits.accBound⟩
  mems := ⟨h.mems.wf, h.mems.below, h.mems.drawn⟩
  status := ⟨h.status.busy, h.status.done, h.status.err, h.status.errcode, h.status.errcodeBound⟩
  susp := ⟨h.susp.enabled, h.susp.target⟩
  scratch := ⟨h.scratch.noMatch, h.scratch.noHeader⟩
  llt := h.llt
  dt := h.dt
  stream hf := (h.stream hf).congr rfl
  image hf := (h.image hf).congr rfl
  atRow := h.atRow
  atPixel := h.atPixel

/-! ### Error entry and the ends of elements -/

theorem ErrorKind.code_ne_zero (k : ErrorKind) : k.code ≠ 0 := by cases k <;> decide

theorem ErrorKind.code_le (k : ErrorKind) : k.code.toNat ≤ 11 := by cases k <;> decide

/-- ERROR ENTRY meets the invariant wherever it is made (60_exceptions.md R610, R612). -/
theorem State.raise_inv {s : State} (h : s.Sound) (k : ErrorKind) : (s.raise k).Inv := by
  have hdraw := (h.nextDraw.drawMem .out (Nat.lt_succ_self s.draws)).drawMem .pix (Nat.lt_succ_self s.draws)
  refine State.inv_of_quiet (hdraw.congr rfl) ⟨rfl, rfl, rfl, ?_, ?_⟩ ⟨rfl, rfl⟩ rfl rfl rfl
  · exact iff_of_true k.code_ne_zero rfl
  · exact k.code_le

/-- A command that ends without error (46_commands.md R467). -/
theorem State.finish_inv {s : State} (h : s.Sound) (hw : s.Working) : s.finish.Inv := by
  have herr : s.finish.status.err = false := by show s.status.err = false; rw [hw.status]; rfl
  have hcode : s.finish.errcode = 0 := hw.errcode
  refine State.inv_of_quiet (h.congr rfl) ⟨rfl, rfl, herr, ?_, ?_⟩
    ⟨hw.scratch.noMatch, hw.scratch.noHeader⟩ rfl rfl rfl
  · rw [hcode]; exact iff_of_false (fun hne => hne rfl) (fun he => by cases he)
  · rw [hcode]; decide

/-- INFLATE goes on or ends. -/
theorem State.goto_inflating_inv {s : State} (h : s.Sound) (hw : s.Working) (hs : s.susp = false)
    (hst : s.StreamOk) {next : Fsm} (hn : next = .done ∨ next.inflating = true) : (s.goto next).Inv := by
  rcases hn with rfl | hn
  · exact State.finish_inv h hw
  · rw [State.goto, if_neg (by rintro rfl; cases hn)]
    exact State.inv_of_inflating (h.congr rfl) (hw.congr rfl)
      (State.suspOk_of_going hs) (hst.congr rfl) hn

/-- DECODE_PNG goes on or ends. -/
theorem State.goto_imaging_inv {s : State} (h : s.Sound) (hw : s.Working) (hs : s.susp = false)
    (hi : s.ImageOk) {next : Fsm} (hn : next = .done ∨ next.imaging = true)
    (hr : next = .row → s.png.row < s.png.h)
    (hp : next = .pixel → s.png.depth = 8 ∧ s.png.pixI < s.png.w * s.png.h) : (s.goto next).Inv := by
  rcases hn with rfl | hn
  · exact State.finish_inv h hw
  · rw [State.goto, if_neg (by rintro rfl; cases hn)]
    have hpoint : State.point { s with fsm := next } = next := State.point_of_going hs
    exact State.inv_of_imaging (h.congr rfl) (hw.congr rfl)
      (State.suspOk_of_going hs) (hi.congr rfl) hn (fun e => hr (hpoint ▸ e)) (fun e => hp (hpoint ▸ e))

/-- The checkpoint after a block (42_inflate_blocks.md R258). -/
theorem State.checkpoint_block_inv {s : State} (h : s.Sound) (hw : s.Working) (hs : s.susp = false)
    (hst : s.StreamOk) (hf : s.fsm = .blkend) {next : Fsm} (hn : next = .blkhdr ∨ next = .done) :
    (s.checkpoint next).Inv := by
  rw [State.checkpoint]
  split
  · rename_i hc
    exact State.inv_of_inflating (h.congr rfl) (hw.congr rfl)
      ⟨fun _ => hc, fun _ => .inl ⟨hf, hn⟩⟩ (hst.congr rfl) (congrArg Fsm.inflating hf)
  · exact State.goto_inflating_inv h hw hs hst (hn.symm.imp_right (congrArg Fsm.inflating))

/-- The checkpoint after a row (44_png_unfilter.md R402). -/
theorem State.checkpoint_row_inv {s : State} (h : s.Sound) (hw : s.Working) (hs : s.susp = false)
    (hi : s.ImageOk) (hf : s.fsm = .row) {next : Fsm} (hn : next = .row ∨ next = .asmstart)
    (hr : next = .row → s.png.row < s.png.h) : (s.checkpoint next).Inv := by
  have hpix : next ≠ .pixel := by rcases hn with rfl | rfl <;> decide
  rw [State.checkpoint]
  split
  · rename_i hc
    exact State.inv_of_imaging (h.congr rfl) (hw.congr rfl)
      ⟨fun _ => hc, fun _ => .inr ⟨hf, hn⟩⟩ (hi.congr rfl) (congrArg Fsm.imaging hf) hr (fun e => absurd e hpix)
  · refine State.goto_imaging_inv h hw hs hi (.inr ?_) hr (fun e => absurd e hpix)
    rcases hn with rfl | rfl <;> rfl

/-! ### The engine's turn -/

/-- If the outcome is a next state, that state meets the invariant. -/
def KeepsInv (o : Outcome) : Prop := ∀ t, o = .next t → t.Inv

theorem KeepsInv.next {t : State} (h : t.Inv) : KeepsInv (.next t) := fun u e => by cases e; exact h

theorem KeepsInv.refused (q : Refusal) : KeepsInv (.refused q) := fun u e => by cases e

/-- An element keeps the invariant if its ends do and its errors are raised in sound states. -/
theorem OutcomeSat.keepsInv {o : Outcome} {P : State → Prop} {E : ErrorKind → State → Prop}
    (h : OutcomeSat o P E) (hp : ∀ t, P t → t.Inv) (he : ∀ k u, E k u → u.Sound) : KeepsInv o := by
  obtain ⟨t, rfl, ht | ⟨k, u, hu, rfl⟩⟩ := h
  · exact KeepsInv.next (hp t ht)
  · exact KeepsInv.next (State.raise_inv (he k u hu) k)

theorem State.Flows.status_eq {s t : State} {n : Nat} (h : s.Flows t n) : t.status = s.status := by rw [h.frame]
theorem State.Flows.errcode_eq {s t : State} {n : Nat} (h : s.Flows t n) : t.errcode = s.errcode := by rw [h.frame]
theorem State.Flows.susp_eq {s t : State} {n : Nat} (h : s.Flows t n) : t.susp = s.susp := by rw [h.frame]
theorem State.Flows.caps_eq {s t : State} {n : Nat} (h : s.Flows t n) : t.caps = s.caps := by rw [h.frame]

theorem InflateNext.inv {s t : State} {n : Nat} (h : InflateNext s n t) (hs : s.Sound) (hw : s.Working)
    (hg : s.susp = false) : t.Inv := by
  obtain ⟨u, l, d, b, ty, f, hu, hl, hd, hf, rfl⟩ := h
  have hgood := hu.good.control l d 0 DynScratch.empty b ty f hl hd
  exact State.inv_of_inflating (hgood.sound (hu.caps_eq ▸ hs.capsOk))
    ⟨hu.status_eq.trans hw.status, hu.errcode_eq.trans hw.errcode, rfl, rfl⟩
    (State.suspOk_of_going (hu.susp_eq.trans hg)) hgood.stream hf

theorem InflateError.sound {s t : State} {k : ErrorKind} (h : InflateError s k t) (hs : s.Sound) : t.Sound := by
  obtain ⟨u, l, b, ty, m, d, hu, hl, rfl⟩ := h
  exact (hu.good.control l u.dt m d b ty u.fsm hl hu.good.dt).sound (hu.caps_eq ▸ hs.capsOk)

/-- The next row is the one to unfilter (44_png_unfilter.md R402). -/
def State.nextRow (s : State) : State := { s with png := { s.png with row := s.png.row + 1 } }

/-- The next pixel is the one to assemble (45_pixel_assembler.md R431). -/
def State.nextPixel (s : State) : State := { s with png := { s.png with pixI := s.png.pixI + 1 } }

theorem State.rowDone_eq (s : State) :
    s.rowDone = s.nextRow.checkpoint (if s.png.row + 1 = s.png.h then .asmstart else .row) := rfl

theorem State.pixelDone_eq (s : State) :
    s.pixelDone = s.nextPixel.goto (if s.png.pixI + 1 = s.png.w * s.png.h then .done else .pixel) := rfl

/-- A row that is done (44_png_unfilter.md R402). -/
theorem State.Inv.rowDone {s : State} (h : s.Inv) (hs : s.susp = false) (hf : s.fsm = .row) {m : Memory}
    (hm : RowWrites s m) : (s.withOut m s.outLen).rowDone.Inv := by
  have hrow : s.png.row < s.png.h := h.atRow ((State.point_of_going hs).trans hf)
  have hmem := h.sound.setMem .out (hm.wf (h.mems.wf .out)) (hm.below (h.mems.below .out))
    (hm.draw ▸ h.mems.drawn .out)
  have hw := h.working (by rw [hf]; rfl)
  have hi := h.image (by rw [hf]; rfl)
  rw [State.rowDone_eq]
  refine State.checkpoint_row_inv (s := (s.withOut m s.outLen).nextRow) (hmem.congr rfl) (hw.congr rfl) hs
    (hi.congr rfl) hf ?_ ?_
  · split
    · exact .inr rfl
    · exact .inl rfl
  · split
    · intro e; cases e
    · rename_i hne; exact fun _ => Nat.lt_of_le_of_ne hrow hne

/-- A pixel that is done (45_pixel_assembler.md R431). -/
theorem State.Inv.pixelDone {s : State} (h : s.Inv) (hs : s.susp = false) (hf : s.fsm = .pixel) {m : Memory}
    (hm : PixelWrites s m) : (s.withPix m).pixelDone.Inv := by
  obtain ⟨hdepth, hpix⟩ := h.atPixel ((State.point_of_going hs).trans hf)
  have hmem := h.sound.setMem .pix (hm.wf (h.mems.wf .pix)) (hm.below (h.mems.below .pix))
    (hm.draw ▸ h.mems.drawn .pix)
  have hw := h.working (by rw [hf]; rfl)
  have hi := h.image (by rw [hf]; rfl)
  rw [State.pixelDone_eq]
  refine State.goto_imaging_inv (s := (s.withPix m).nextPixel) (hmem.congr rfl) (hw.congr rfl) hs
    (hi.congr rfl) ?_ ?_ ?_
  · split
    · exact .inl rfl
    · exact .inr rfl
  · split <;> intro e <;> cases e
  · split
    · intro e; cases e
    · rename_i hne; exact fun _ => ⟨hdepth, Nat.lt_of_le_of_ne hpix hne⟩

/-- PNGSTART (44_png_unfilter.md R400). -/
theorem pngStart_keepsInv {s : State} (h : s.Inv) (hs : s.susp = false) (hf : s.fsm = .pngstart) :
    KeepsInv (pngStart s).run := by
  have hw := h.working (by rw [hf]; rfl)
  refine (Res.Sat.run (pngStart_sat s)).keepsInv (fun t ⟨hi, ht, hrow⟩ => ?_) (fun k t ht => ?_)
  · have hpoint : t.point = .row := by rw [ht]; exact State.point_of_going hs
    rw [ht] at hi hrow hpoint ⊢
    refine State.inv_of_imaging (h.sound.congr rfl) (hw.congr rfl)
      (State.suspOk_of_going hs) hi rfl (fun _ => ?_) (fun e => ?_)
    · rw [hrow]; exact hi.hPos
    · rw [hpoint] at e; cases e
  · rw [ht]; exact h.sound.congr rfl

/-- ASMSTART (45_pixel_assembler.md R430). -/
theorem asmStart_inv {s : State} (h : s.Inv) (hs : s.susp = false) (hf : s.fsm = .asmstart)
    (hd : s.png.depth = 8) : (asmStart s).Inv := by
  have hw := h.working (by rw [hf]; rfl)
  have hi := h.image (by rw [hf]; rfl)
  have hpoint : (asmStart s).point = .pixel := State.point_of_going hs
  refine State.inv_of_imaging (h.sound.congr rfl) (hw.congr rfl)
    (State.suspOk_of_going hs) (hi.congr rfl) rfl (fun e => ?_) (fun _ => ⟨hd, Nat.mul_pos hi.wPos hi.hPos⟩)
  rw [hpoint] at e; cases e

/-- An element of INFLATE (10_state.md R40). -/
theorem inflate_keepsInv {s : State} (h : s.Inv) (hs : s.susp = false) (hf : s.fsm.inflating = true) :
    KeepsInv (fetchElement s).outcome := by
  have hw := h.working (Fsm.running_of_inflating hf)
  by_cases hb : s.fsm = .blkend
  · rw [blkend_step hb]
    refine KeepsInv.next (State.checkpoint_block_inv h.sound hw hs (h.stream hf) hb ?_)
    split
    · exact .inr rfl
    · exact .inl rfl
  · exact (inflate_step h hf hb).keepsInv (fun t ht => ht.inv h.sound hw hs) (fun k u hu => hu.sound h.sound)

/-- BUSY in a control state of no command names no element (log entry 11). -/
theorem fetchElement_none {s : State} (h : s.fsm.running = false) :
    (fetchElement s).outcome = .fault (.noElement s.fsm) := by
  rw [fetchElement]
  cases hf : s.fsm <;> rw [hf] at h <;> first | rfl | cases h

/-- The element of `fsm` (46_commands.md R468). -/
theorem fetchElement_keepsInv {s : State} (h : s.Inv) (hs : s.susp = false) : KeepsInv (fetchElement s).outcome := by
  have stopped (hr : s.fsm.running = false) : KeepsInv (fetchElement s).outcome := fun t e => by
    rw [fetchElement_none hr] at e; cases e
  cases hf : s.fsm with
  | zhdr => exact inflate_keepsInv h hs (by rw [hf]; rfl)
  | blkhdr => exact inflate_keepsInv h hs (by rw [hf]; rfl)
  | stored => exact inflate_keepsInv h hs (by rw [hf]; rfl)
  | dynhdr => exact inflate_keepsInv h hs (by rw [hf]; rfl)
  | symbol => exact inflate_keepsInv h hs (by rw [hf]; rfl)
  | blkend => exact inflate_keepsInv h hs (by rw [hf]; rfl)
  | pngstart => rw [pngstart_step hf]; exact pngStart_keepsInv h hs hf
  | row =>
    refine (row_step (h.image (by rw [hf]; rfl)) hf (h.atRow ((State.point_of_going hs).trans hf))).keepsInv ?_ ?_
    · rintro t ⟨m, hm, rfl⟩; exact h.rowDone hs hf hm
    · rintro k u ⟨-, rfl⟩; exact h.sound
  | asmstart =>
    rw [asmstart_step hf]
    split
    · rename_i hd; exact KeepsInv.next (asmStart_inv h hs hf hd)
    · exact KeepsInv.next (State.raise_inv h.sound _)
  | pixel =>
    obtain ⟨hd, hp⟩ := h.atPixel ((State.point_of_going hs).trans hf)
    refine (pixel_step (h.image (by rw [hf]; rfl)) hf hd hp).keepsInv ?_ ?_
    · rintro t ⟨m, hm, rfl⟩; exact h.pixelDone hs hf hm
    · rintro k u ⟨-, rfl⟩; exact h.sound
  | idle => exact stopped (by rw [hf]; rfl)
  | done => exact stopped (by rw [hf]; rfl)
  | error => exact stopped (by rw [hf]; rfl)

theorem fetchEngine_keepsInv {s : State} (h : s.Inv) : KeepsInv (fetchEngine s).outcome := by
  cases he : s.engineEnabled with
  | false => rw [fetchEngine_waiting he]; exact KeepsInv.next h
  | true =>
    rw [fetchEngine_enabled he]
    refine fetchElement_keepsInv h ?_
    simp only [State.engineEnabled, Bool.and_eq_true, Bool.not_eq_true'] at he
    exact he.2

/-! ### Commands -/

/-- A state in which no command runs is not suspended, and neither of the commands is in it. -/
theorem State.Inv.stopped {s : State} (h : s.Inv) (hb : s.status.busy = false) :
    s.susp = false ∧ s.fsm.inflating = false ∧ s.fsm.imaging = false := by
  have hr : s.fsm.running = false := h.status.busy ▸ hb
  refine ⟨?_, ?_, ?_⟩ <;> by_contra hn <;> rw [Bool.not_eq_false] at hn
  · rw [h.susp.running hn] at hr; cases hr
  · rw [Fsm.running_of_inflating hn] at hr; cases hr
  · rw [Fsm.running_of_imaging hn] at hr; cases hr

theorem State.Sound.startInflate {s : State} (h : s.Sound) : s.startInflate.Sound :=
  ⟨h.capsOk, ⟨Nat.zero_le _, Nat.zero_lt_one⟩, ⟨h.mems.wf, h.mems.below, h.mems.drawn⟩, Table.empty_ok _,
    Table.empty_ok _⟩

theorem execCmdInflate_keepsInv {s : State} (h : s.Inv) : KeepsInv (execCmdInflate s) := by
  rw [execCmdInflate]
  split
  · exact KeepsInv.next h
  split
  · exact KeepsInv.next (State.raise_inv h.sound.startInflate _)
  · rename_i hcap
    have hst : State.StreamOk { s.startInflate with fsm := .zhdr } :=
      ⟨Nat.le_of_not_lt hcap, Nat.zero_le _, Nat.zero_le _, fun k hk => absurd hk (Nat.not_lt_zero k), Nat.zero_le _⟩
    exact KeepsInv.next (State.inv_of_inflating (h.sound.startInflate.congr rfl)
      ⟨rfl, rfl, h.scratch.noMatch, h.scratch.noHeader⟩ (State.suspOk_of_going rfl) hst rfl)

theorem execCmdDecodePng_keepsInv {s : State} (h : s.Inv) : KeepsInv (execCmdDecodePng s) := by
  rw [execCmdDecodePng]
  split
  · exact KeepsInv.next h
  · have hw : State.Working { s with errcode := 0, status := Status.running, susp := false, fsm := .pngstart } :=
      ⟨rfl, rfl, h.scratch.noMatch, h.scratch.noHeader⟩
    exact KeepsInv.next (State.inv_of_quiet (h.sound.congr rfl) (hw.statusOk rfl) hw.scratch rfl rfl rfl)

/-- RESUME goes on where the checkpoint would have gone (46_commands.md R463). -/
theorem execCmdResume_keepsInv {s : State} (h : s.Inv) : KeepsInv (execCmdResume s) := by
  rw [execCmdResume]
  split
  · rename_i hs
    have hw := h.working (h.susp.running hs)
    have hw' : State.Working { s with susp := false } := hw.congr rfl
    have hsound : State.Sound { s with susp := false } := h.sound.congr rfl
    refine KeepsInv.next ?_
    rcases h.susp.target hs with ⟨hf, hn⟩ | ⟨hf, hn⟩
    · exact State.goto_inflating_inv hsound hw' rfl ((h.stream (by rw [hf]; rfl)).congr rfl)
        (hn.symm.imp_right (congrArg Fsm.inflating))
    · refine State.goto_imaging_inv hsound hw' rfl ((h.image (by rw [hf]; rfl)).congr rfl) (.inr ?_)
        (fun e => h.atRow ((State.point_of_suspended hs).trans e)) (fun e => ?_)
      · rcases hn with hn | hn <;> rw [hn] <;> rfl
      · rcases hn with hn | hn <;> rw [hn] at e <;> cases e
  · exact KeepsInv.next h

/-- The registers at their reset values beside sound memories (70_reset_and_hazards.md R700). -/
theorem State.Sound.reset_inv {s t : State} (h : t.Sound)
    (e : s = { State.reset with
      inp := t.inp, out := t.out, pal := t.pal, pix := t.pix, caps := t.caps, draws := t.draws
      moves := s.moves, hostData := s.hostData }) : s.Inv := by
  rw [e]
  refine State.inv_of_quiet ⟨h.capsOk, ⟨Nat.zero_le _, Nat.zero_lt_one⟩,
    ⟨h.mems.wf, h.mems.below, h.mems.drawn⟩, Table.empty_ok _, Table.empty_ok _⟩
    ⟨rfl, rfl, rfl, iff_of_false (fun hne => hne rfl) (fun he => by cases he), Nat.zero_le _⟩ ⟨rfl, rfl⟩ rfl rfl rfl

theorem State.Inv.resetSignal_inv {s : State} (h : s.Inv) : s.resetSignal.Inv := by
  have hd := Nat.lt_succ_self s.draws
  exact ((((h.sound.nextDraw.drawMem .inp hd).drawMem .out hd).drawMem .pal hd).drawMem .pix hd).reset_inv rfl

theorem exec_command_keepsInv {s : State} (h : s.Inv) (v : Nat) : KeepsInv (exec (decodeCmdword v) s) := by
  rw [decodeCmdword]
  split
  · exact execCmdInflate_keepsInv h
  · exact execCmdDecodePng_keepsInv h
  · exact execCmdResume_keepsInv h
  · exact KeepsInv.next (h.sound.reset_inv rfl)
  · exact KeepsInv.next h

/-! ### Host moves -/

/-- A host write while no command runs: it leaves the control state alone. -/
theorem State.Inv.of_idle_write {s t : State} (h : s.Inv) (hb : s.status.busy = false) (ht : t.Sound)
    (hstatus : t.status = s.status) (herr : t.errcode = s.errcode) (hfsm : t.fsm = s.fsm)
    (hsusp : t.susp = s.susp) (hmatch : t.matchLen = s.matchLen) (hdyn : t.dyn = s.dyn) : t.Inv := by
  obtain ⟨hs, hi, hm⟩ := h.stopped hb
  refine State.inv_of_quiet ht ?_ ⟨hmatch.trans h.scratch.noMatch, hdyn.trans h.scratch.noHeader⟩
    (hsusp.trans hs) (hfsm ▸ hi) (hfsm ▸ hm)
  obtain ⟨hbusy, hdone, herror, hcode, hbound⟩ := h.status
  constructor <;> simp only [hstatus, herr, hfsm] <;> assumption

theorem State.Inv.writeReg_inv {s : State} (h : s.Inv) (r : Reg) (v : Word) : (s.writeReg r v).Inv := by
  cases hb : s.status.busy with
  | true => rw [State.writeReg_busy hb]; exact h
  | false =>
    rw [State.writeReg_frame]
    exact h.of_idle_write hb (h.sound.congr rfl) rfl rfl rfl rfl rfl rfl

/-- A byte the host may write, while no command runs (20_memory.md R85, R94). -/
theorem hostMemWrite_keepsInv {s : State} (h : s.Inv) (sp : Space) (a : Nat) (b : Byte) :
    KeepsInv (hostMemWrite sp a b s) := by
  rw [hostMemWrite]
  split
  · exact KeepsInv.refused _
  split
  · rename_i ha hw
    have hmem := h.sound.setMem sp (Memory.write_wf (h.mems.wf sp) a b)
      (Memory.write_below (h.mems.below sp) (Nat.lt_of_not_le ha) b) (h.mems.drawn sp)
    exact KeepsInv.next (h.of_idle_write (by simpa [State.hostMayWrite] using hw) hmem (s.putByte_status sp a b)
      (s.putByte_errcode sp a b) (s.putByte_fsm sp a b) (s.putByte_susp sp a b) (s.putByte_matchLen sp a b)
      (s.putByte_dyn sp a b))
  · exact KeepsInv.refused _

theorem fetchRegWrite_keepsInv {s : State} (h : s.Inv) (off : Nat) (v : Word) :
    KeepsInv (fetchRegWrite off v s).outcome := by
  cases hoff : regAt off with
  | none => rw [fetchRegWrite_none hoff]; exact KeepsInv.refused _
  | some r =>
    by_cases hr : r = .cmd
    · rw [fetchRegWrite_cmd (hr ▸ hoff)]; exact exec_command_keepsInv h _
    · rw [fetchRegWrite_config hoff hr]; exact KeepsInv.next (h.writeReg_inv r v)

/-- A host move keeps the invariant (46_commands.md R460). -/
theorem fetchMove_keepsInv {s : State} (h : s.Inv) (m : HostMove) : KeepsInv (fetchMove m s).outcome := by
  cases m with
  | engine => exact fetchEngine_keepsInv h
  | regWrite off v => exact fetchRegWrite_keepsInv h off v
  | regRead off =>
    show KeepsInv (hostRegRead off s)
    cases hoff : regAt off with
    | none => rw [hostRegRead_none hoff]; exact KeepsInv.refused _
    | some r => rw [hostRegRead_some hoff]; exact KeepsInv.next (h.withHost s.moves _)
  | memWrite sp a b => exact hostMemWrite_keepsInv h sp a b
  | memRead sp a => exact fun t e => hostMemRead_next e ▸ h.withHost s.moves _
  | reset => exact KeepsInv.next h.resetSignal_inv

end Sys2Proof.Machine

namespace Sys2Proof.Claims

open Sys2Proof.Machine

/-- Settles O53: a step is a host move or the engine's turn, and each keeps the invariant. -/
theorem stepKeepsTheInvariant : Obligations.StepKeepsTheInvariant := by
  intro s t h e
  cases hm : s.moves with
  | nil => rw [step_of_turn hm] at e; exact fetchEngine_keepsInv h t e
  | cons m rest => rw [step_of_move hm] at e; exact fetchMove_keepsInv (h.withHost rest s.hostData) m t e

/-- Settles O42: the bits of the word, and STATUS in step with `fsm`. -/
theorem statusBitsAreExclusive : Obligations.StatusBitsAreExclusive := by
  intro s
  have hbits : ∀ k, (s.readReg .status).getLsbD k = _ := s.statusWord_getLsbD
  refine ⟨?_, ?_, ?_, ?_, fun k hk => ?_, fun h => ?_⟩
  · rw [hbits]; simp
  · rw [hbits]; simp
  · rw [hbits]; simp
  · rw [hbits]; simp
  · rw [hbits]
    simp [show k ≠ 0 by omega, show k ≠ 1 by omega, show k ≠ 2 by omega, show k ≠ 3 by omega]
  · obtain ⟨hbusy, hdone, herr, -, -⟩ := h.status
    rw [hbusy, hdone, herr]
    refine ⟨fun ⟨hr, hd⟩ => ?_, fun ⟨hr, he⟩ => ?_, fun ⟨hd, he⟩ => ?_, h.susp.running⟩
    · rw [(Fsm.not_over_of_running hr).1] at hd; cases hd
    · rw [(Fsm.not_over_of_running hr).2] at he; cases he
    · rw [beq_iff_eq] at hd he; rw [hd] at he; cases he

end Sys2Proof.Claims
end

section
/-! No step faults: in a state of the invariant every element has a next state, and a host move has one or is
refused by name. Which host accesses to a memory are moves of the machine, and what they do. -/

namespace Sys2Proof.Machine

/-! ### The engine always goes on -/

theorem OutcomeSat.has_next {o : Outcome} {P : State → Prop} {E : ErrorKind → State → Prop} (h : OutcomeSat o P E) :
    ∃ t, o = .next t :=
  h.imp fun _ ht => ht.1

/-- Every element of a running command has a next state: its addresses lie in its memories (20_memory.md R82)
and the control state names it (46_commands.md R468). -/
theorem State.Inv.element_has_next {s : State} (h : s.Inv) (hr : s.fsm.running = true) (hs : s.susp = false) :
    ∃ t, (fetchElement s).outcome = .next t := by
  cases hf : s.fsm with
  | zhdr | blkhdr | stored | dynhdr | symbol =>
    exact (inflate_step h (by rw [hf]; rfl) (by rw [hf]; decide)).has_next
  | blkend => exact ⟨_, blkend_step hf⟩
  | pngstart => rw [pngstart_step hf]; exact (Res.Sat.run (pngStart_sat s)).has_next
  | row => exact (row_step (h.image (by rw [hf]; rfl)) hf (h.atRow ((State.point_of_going hs).trans hf))).has_next
  | asmstart =>
    rw [asmstart_step hf]
    split
    · exact ⟨_, rfl⟩
    · exact ⟨_, rfl⟩
  | pixel =>
    obtain ⟨hd, hp⟩ := h.atPixel ((State.point_of_going hs).trans hf)
    exact (pixel_step (h.image (by rw [hf]; rfl)) hf hd hp).has_next
  | idle | done | error => rw [hf] at hr; cases hr

/-- The engine's turn has a next state: an element's, or the same one while the engine waits. -/
theorem State.Inv.engine_has_next {s : State} (h : s.Inv) : ∃ t, (fetchEngine s).outcome = .next t := by
  cases he : s.engineEnabled with
  | false => exact ⟨s, fetchEngine_waiting he⟩
  | true =>
    rw [fetchEngine_enabled he]
    simp only [State.engineEnabled, Bool.and_eq_true, Bool.not_eq_true'] at he
    obtain ⟨hbusy, hgoing⟩ := he
    exact h.element_has_next (h.status.busy ▸ hbusy) hgoing

/-! ### No host move faults -/

/-- The outcome is no fault: a next state or a refusal. -/
def Faultless (o : Outcome) : Prop := ∀ f, o ≠ .fault f

theorem Faultless.of_next {o : Outcome} (h : ∃ t, o = .next t) : Faultless o := by
  obtain ⟨t, rfl⟩ := h
  exact fun f e => by cases e

theorem Faultless.next (t : State) : Faultless (.next t) := .of_next ⟨t, rfl⟩

theorem Faultless.refused (q : Refusal) : Faultless (.refused q) := fun f e => by cases e

/-- A command has a next state whatever state it is issued in (46_commands.md R461..R466). -/
theorem exec_command_has_next (v : Nat) (s : State) : ∃ t, exec (decodeCmdword v) s = .next t := by
  rw [decodeCmdword]
  split
  · show ∃ t, execCmdInflate s = .next t
    rw [execCmdInflate]
    split
    · exact ⟨_, rfl⟩
    split
    · exact ⟨_, rfl⟩
    · exact ⟨_, rfl⟩
  · show ∃ t, execCmdDecodePng s = .next t
    rw [execCmdDecodePng]
    split
    · exact ⟨_, rfl⟩
    · exact ⟨_, rfl⟩
  · show ∃ t, execCmdResume s = .next t
    rw [execCmdResume]
    split
    · exact ⟨_, rfl⟩
    · exact ⟨_, rfl⟩
  · exact ⟨_, rfl⟩
  · exact ⟨_, rfl⟩

theorem fetchRegWrite_faultless (off : Nat) (v : Word) (s : State) : Faultless (fetchRegWrite off v s).outcome := by
  cases hoff : regAt off with
  | none => rw [fetchRegWrite_none hoff]; exact .refused _
  | some r =>
    by_cases hr : r = .cmd
    · rw [fetchRegWrite_cmd (hr ▸ hoff)]; exact .of_next (exec_command_has_next _ s)
    · rw [fetchRegWrite_config hoff hr]; exact .next _

theorem hostRegRead_faultless (off : Nat) (s : State) : Faultless (hostRegRead off s) := by
  cases hoff : regAt off with
  | none => rw [hostRegRead_none hoff]; exact .refused _
  | some r => rw [hostRegRead_some hoff]; exact .next _

/-! ### Host accesses to a memory -/

/-- An address the memory does not have is refused by name (20_memory.md R85). -/
theorem hostMemWrite_outside {sp : Space} {a : Nat} {s : State} (h : s.caps.size sp ≤ a) (b : Byte) :
    hostMemWrite sp a b s = .refused (.hostAddress sp a) :=
  if_pos h

theorem hostMemRead_outside {sp : Space} {a : Nat} {s : State} (h : s.caps.size sp ≤ a) :
    hostMemRead sp a s = .refused (.hostAddress sp a) :=
  if_pos h

/-- While no command runs the byte is written (20_memory.md R94). -/
theorem hostMemWrite_idle {sp : Space} {a : Nat} {s : State} (h : a < s.caps.size sp) (hb : s.status.busy = false)
    (b : Byte) : hostMemWrite sp a b s = .next (s.putByte sp a b) := by
  rw [hostMemWrite, if_neg (Nat.not_le.2 h), State.hostMayWrite, hb]; rfl

theorem hostMemWrite_busy {sp : Space} {a : Nat} {s : State} (h : a < s.caps.size sp) (hb : s.status.busy = true)
    (b : Byte) : hostMemWrite sp a b s = .refused (.hostWhileBusy sp a) := by
  rw [hostMemWrite, if_neg (Nat.not_le.2 h), State.hostMayWrite, hb]; rfl

/-- Which reads are moves of the machine: any while no command runs, those of OUT and PIX while it is suspended
(20_memory.md R94, 10_state.md R50). -/
theorem State.hostMayRead_iff {s : State} {sp : Space} :
    s.hostMayRead sp = true ↔ s.status.busy = false ∨ (s.susp = true ∧ (sp = .out ∨ sp = .pix)) := by
  simp [State.hostMayRead]

theorem hostMemRead_allowed {sp : Space} {a : Nat} {s : State} (h : a < s.caps.size sp)
    (hr : s.hostMayRead sp = true) :
    hostMemRead sp a s = .next { s with hostData := (s.byteAt sp a).setWidth 32 } := by
  rw [hostMemRead, if_neg (Nat.not_le.2 h), if_pos hr]

theorem hostMemRead_disallowed {sp : Space} {a : Nat} {s : State} (h : a < s.caps.size sp)
    (hr : ¬ s.hostMayRead sp = true) : hostMemRead sp a s = .refused (.hostWhileBusy sp a) := by
  rw [hostMemRead, if_neg (Nat.not_le.2 h), if_neg hr]

theorem hostMemWrite_faultless (sp : Space) (a : Nat) (b : Byte) (s : State) : Faultless (hostMemWrite sp a b s) := by
  rcases Nat.lt_or_ge a (s.caps.size sp) with h | h
  · cases hb : s.status.busy with
    | false => rw [hostMemWrite_idle h hb]; exact .next _
    | true => rw [hostMemWrite_busy h hb]; exact .refused _
  · rw [hostMemWrite_outside h]; exact .refused _

theorem hostMemRead_faultless (sp : Space) (a : Nat) (s : State) : Faultless (hostMemRead sp a s) := by
  rcases Nat.lt_or_ge a (s.caps.size sp) with h | h
  · by_cases hr : s.hostMayRead sp = true
    · rw [hostMemRead_allowed h hr]; exact .next _
    · rw [hostMemRead_disallowed h hr]; exact .refused _
  · rw [hostMemRead_outside h]; exact .refused _

/-- A host move goes on or is refused by name (46_commands.md R460). -/
theorem fetchMove_faultless {s : State} (h : s.Inv) (m : HostMove) : Faultless (fetchMove m s).outcome := by
  cases m with
  | engine => exact .of_next h.engine_has_next
  | regWrite off v => exact fetchRegWrite_faultless off v s
  | regRead off => exact hostRegRead_faultless off s
  | memWrite sp a b => exact hostMemWrite_faultless sp a b s
  | memRead sp a => exact hostMemRead_faultless sp a s
  | reset => exact .next _

/-- The state with other host moves to come: what a move runs in once it is taken. -/
def State.withMoves (s : State) (moves : List HostMove) : State := { s with moves := moves }

theorem State.withMoves_byteAt (s : State) (moves : List HostMove) (sp : Space) (a : Nat) :
    (s.withMoves moves).byteAt sp a = s.byteAt sp a :=
  State.byteAt_congr (by cases sp <;> rfl) a

/-- A byte put into a memory changes the four memories alone. -/
theorem State.putByte_frame (s : State) (sp : Space) (a : Nat) (b : Byte) :
    s.putByte sp a b = { s with
      inp := (s.putByte sp a b).inp, out := (s.putByte sp a b).out, pal := (s.putByte sp a b).pal
      pix := (s.putByte sp a b).pix } := by
  cases sp <;> rfl

end Sys2Proof.Machine

namespace Sys2Proof.Claims

open Sys2Proof.Machine

/-- Settles O54: the engine's turn always has a next state, and no other host move faults. -/
theorem noStepFaults : Obligations.NoStepFaults := by
  intro s h
  cases hm : s.moves with
  | nil =>
    have hnext : ∃ t, step s = .next t := by rw [step_of_turn hm]; exact h.engine_has_next
    exact ⟨Faultless.of_next hnext, fun _ => hnext⟩
  | cons m rest =>
    refine ⟨fun f => ?_, fun hnil => by cases hnil⟩
    rw [step_of_move hm]
    exact fetchMove_faultless (h.withHost rest s.hostData) m f

/-- Settles O45: the three outcomes of a host write and of a host read, each in the state that has taken the
move. -/
theorem hostMemoryAccessRules : Obligations.HostMemoryAccessRules := by
  intro s sp a b rest
  refine ⟨fun hm => ?_, fun hm => ?_⟩
  · have hstep : step s = hostMemWrite sp a b (s.withMoves rest) := step_of_move hm
    rw [hstep]
    refine ⟨fun ha hb => ?_, fun ha hb => hostMemWrite_busy (s := s.withMoves rest) ha hb b,
      fun ha => hostMemWrite_outside (s := s.withMoves rest) ha b⟩
    refine ⟨_, hostMemWrite_idle (s := s.withMoves rest) ha hb b, fun tp x => ?_,
      State.putByte_frame (s.withMoves rest) sp a b⟩
    rw [State.byteAt_putByte, State.withMoves_byteAt]
  · have hstep : step s = hostMemRead sp a (s.withMoves rest) := step_of_move hm
    rw [hstep]
    refine ⟨fun ha hr => ?_, fun ha hb hr => hostMemRead_disallowed (s := s.withMoves rest) ha ?_,
      fun ha => hostMemRead_outside (s := s.withMoves rest) ha⟩
    · rw [hostMemRead_allowed (s := s.withMoves rest) ha (State.hostMayRead_iff.2 hr), State.withMoves_byteAt]
      rfl
    · rw [State.hostMayRead_iff]
      rintro (hidle | ⟨hs, hsp⟩)
      · cases hidle.symm.trans hb
      · rcases hr with hr | rfl | rfl
        · cases hr.symm.trans hs
        · simp at hsp
        · simp at hsp

end Sys2Proof.Claims
end

section
/-! The footprint of a step that raises no error: INFLATE appends to OUT, DECODE_PNG writes row data in OUT and
the pixels of the image in PIX. -/

namespace Sys2Proof.Machine

/-! ### Going on writes no memory -/

/-- What going on to another control state can change (46_commands.md R467). -/
theorem State.goto_frame (s : State) (f : Fsm) :
    s.goto f = { s with fsm := (s.goto f).fsm, susp := (s.goto f).susp, status := (s.goto f).status } := by
  rw [State.goto]
  split
  · rfl
  · rfl

/-- What a checkpoint can change (46_commands.md R470). -/
theorem State.checkpoint_frame (s : State) (f : Fsm) :
    s.checkpoint f = { s with
      fsm := (s.checkpoint f).fsm, susp := (s.checkpoint f).susp, suspNext := (s.checkpoint f).suspNext
      status := (s.checkpoint f).status } := by
  rw [State.checkpoint]
  split
  · rfl
  · rw [State.goto_frame]

theorem State.rowDone_frame (s : State) :
    s.rowDone = { s with
      png := s.rowDone.png, fsm := s.rowDone.fsm, susp := s.rowDone.susp, suspNext := s.rowDone.suspNext
      status := s.rowDone.status } := by
  rw [State.rowDone_eq, State.checkpoint_frame]
  rfl

theorem State.pixelDone_frame (s : State) :
    s.pixelDone = { s with
      png := s.pixelDone.png, fsm := s.pixelDone.fsm, susp := s.pixelDone.susp, status := s.pixelDone.status } := by
  rw [State.pixelDone_eq, State.goto_frame]
  rfl

/-! ### The engine's turn without an error -/

/-- The engine waits, or it runs the element of `fsm`. -/
theorem step_turn_cases {s t : State} (hm : s.moves = []) (h : step s = .next t) :
    t = s ∨ s.susp = false ∧ (fetchElement s).outcome = .next t := by
  rw [step_of_turn hm] at h
  cases he : s.engineEnabled with
  | false => rw [fetchEngine_waiting he] at h; cases h; exact .inl rfl
  | true =>
    rw [fetchEngine_enabled he] at h
    simp only [State.engineEnabled, Bool.and_eq_true, Bool.not_eq_true'] at he
    exact .inr ⟨he.2, h⟩

/-- A next state that is not in ERROR is one of the element's own. -/
theorem OutcomeSat.of_no_error {o : Outcome} {P : State → Prop} {E : ErrorKind → State → Prop} {t : State}
    (h : OutcomeSat o P E) (ho : o = .next t) (ht : t.fsm ≠ .error) : P t := by
  obtain ⟨u, rfl, hu | ⟨k, v, -, rfl⟩⟩ := h
  · cases ho; exact hu
  · cases ho; exact absurd rfl ht

/-! ### INFLATE -/

/-- OUT grows at its end alone, and no other memory changes. -/
structure AppendsToOut (s t : State) : Prop where
  grows : s.outLen ≤ t.outLen
  kept : ∀ a, a < s.outLen ∨ t.outLen ≤ a → t.byteAt .out a = s.byteAt .out a
  inp : t.inp = s.inp
  pal : t.pal = s.pal
  pix : t.pix = s.pix

theorem AppendsToOut.refl (s : State) : AppendsToOut s s := ⟨Nat.le_refl _, fun _ _ => rfl, rfl, rfl, rfl⟩

theorem State.Flows.inp_eq {s t : State} {n : Nat} (h : s.Flows t n) : t.inp = s.inp := by rw [h.frame]
theorem State.Flows.pal_eq {s t : State} {n : Nat} (h : s.Flows t n) : t.pal = s.pal := by rw [h.frame]
theorem State.Flows.pix_eq {s t : State} {n : Nat} (h : s.Flows t n) : t.pix = s.pix := by rw [h.frame]

theorem InflateNext.appendsToOut {s t : State} {n : Nat} (h : InflateNext s n t) : AppendsToOut s t := by
  obtain ⟨u, l, d, b, ty, f, hu, -, -, -, rfl⟩ := h
  exact ⟨hu.grows, hu.kept, hu.inp_eq, hu.pal_eq, hu.pix_eq⟩

theorem State.checkpoint_appendsToOut (s : State) (f : Fsm) : AppendsToOut s (s.checkpoint f) := by
  rw [State.checkpoint_frame]
  exact ⟨Nat.le_refl _, fun _ _ => rfl, rfl, rfl, rfl⟩

/-! ### DECODE_PNG -/

/-- OUT changes in the row data of the image alone and PIX in the image's pixels alone; no other memory and no
length changes (20_memory.md R98). -/
structure WritesImageOnly (s t : State) : Prop where
  inp : t.inp = s.inp
  pal : t.pal = s.pal
  outLen : t.outLen = s.outLen
  filterTypes : ∀ y < s.png.h, t.byteAt .out (y * s.png.rowlen) = s.byteAt .out (y * s.png.rowlen)
  pastRows : ∀ a, s.png.h * s.png.rowlen ≤ a → t.byteAt .out a = s.byteAt .out a
  pastPixels : ∀ a, 4 * (s.png.w * s.png.h) ≤ a → t.byteAt .pix a = s.byteAt .pix a

theorem WritesImageOnly.refl (s : State) : WritesImageOnly s s :=
  ⟨rfl, rfl, rfl, fun _ _ => rfl, fun _ _ => rfl, fun _ _ => rfl⟩

theorem RowWrites.writesImageOnly {s : State} {m : Memory} (h : RowWrites s m) (hi : s.ImageOk)
    (hr : s.png.row < s.png.h) : WritesImageOnly s (s.withOut m s.outLen).rowDone := by
  have hl := hi.rowlenOk
  rw [State.rowDone_frame]
  refine ⟨rfl, rfl, rfl, fun y _ => h.kept _ ?_, fun a ha => h.kept a (.inr ?_), fun _ _ => rfl⟩
  · rcases Nat.lt_or_ge s.png.row y with hy | hy
    · have := Nat.mul_le_mul_right s.png.rowlen hy
      rw [Nat.succ_mul] at this
      exact .inr (by omega)
    · exact .inl (Nat.mul_le_mul_right _ hy)
  · have := Nat.mul_le_mul_right s.png.rowlen hr
    rw [Nat.succ_mul] at this
    omega

theorem PixelWrites.writesImageOnly {s : State} {m : Memory} (h : PixelWrites s m)
    (hp : s.png.pixI < s.png.w * s.png.h) : WritesImageOnly s (s.withPix m).pixelDone := by
  rw [State.pixelDone_frame]
  exact ⟨rfl, rfl, rfl, fun _ _ => rfl, fun _ _ => rfl, fun a ha => h.kept a (.inr (by omega))⟩

/-- The element of an imaging control state (10_state.md R40). -/
theorem State.Inv.element_writesImageOnly {s t : State} (h : s.Inv) (hs : s.susp = false)
    (hf : s.fsm.imaging = true) (e : (fetchElement s).outcome = .next t) (ht : t.fsm ≠ .error) :
    WritesImageOnly s t := by
  have hi := h.image hf
  cases hx : s.fsm with
  | row =>
    have hr := h.atRow ((State.point_of_going hs).trans hx)
    obtain ⟨m, hm, rfl⟩ := (row_step hi hx hr).of_no_error e ht
    exact hm.writesImageOnly hi hr
  | asmstart =>
    rw [asmstart_step hx] at e
    split at e
    · cases e; exact ⟨rfl, rfl, rfl, fun _ _ => rfl, fun _ _ => rfl, fun _ _ => rfl⟩
    · cases e; exact absurd rfl ht
  | pixel =>
    obtain ⟨hd, hp⟩ := h.atPixel ((State.point_of_going hs).trans hx)
    obtain ⟨m, hm, rfl⟩ := (pixel_step hi hx hd hp).of_no_error e ht
    exact hm.writesImageOnly hp
  | idle | zhdr | blkhdr | stored | dynhdr | symbol | blkend | pngstart | done | error => rw [hx] at hf; cases hf

end Sys2Proof.Machine

namespace Sys2Proof.Claims

open Sys2Proof.Machine

/-- Settles O48: every element of INFLATE flows on, and BLKEND touches no memory. -/
theorem inflateOnlyAppendsToOut : Obligations.InflateOnlyAppendsToOut := by
  intro s t h hm hf hstep ht
  suffices happ : AppendsToOut s t from ⟨happ.grows, happ.kept, happ.inp, happ.pal, happ.pix⟩
  rcases step_turn_cases hm hstep with rfl | ⟨-, e⟩
  · exact .refl t
  by_cases hb : s.fsm = .blkend
  · rw [blkend_step hb] at e
    cases e
    exact State.checkpoint_appendsToOut s _
  · exact ((inflate_step h hf hb).of_no_error e ht).appendsToOut

/-- Settles O49: a row writes its filtered bytes, a pixel its four bytes, ASMSTART nothing. -/
theorem decodePngFootprint : Obligations.DecodePngFootprint := by
  intro s t h hm hf hstep ht
  suffices hw : WritesImageOnly s t from
    ⟨hw.inp, hw.pal, hw.outLen, hw.filterTypes, hw.pastRows, hw.pastPixels⟩
  rcases step_turn_cases hm hstep with rfl | ⟨hs, e⟩
  · exact .refl t
  · exact h.element_writesImageOnly hs hf e ht

end Sys2Proof.Claims
end

section
/-! What the host alone sets: IN, PAL, the configuration registers, the capacities and the host's side. No
operation of the engine writes it, and so no instruction but SOFT_RESET does. -/

namespace Sys2Proof.Machine

/-! ### The host's part of the state -/

/-- The fields that the host alone writes, every other one at its reset value (20_memory.md R95,
70_reset_and_hazards.md R720). -/
def State.hostPart (s : State) : State :=
  { State.reset with
    inp := s.inp, pal := s.pal, caps := s.caps, moves := s.moves, hostData := s.hostData, ckptEn := s.ckptEn
    inLen := s.inLen, width := s.width, height := s.height, format := s.format, palLen := s.palLen }

theorem State.raise_hostPart (s : State) (k : ErrorKind) : (s.raise k).hostPart = s.hostPart := rfl

theorem State.goto_hostPart (s : State) (f : Fsm) : (s.goto f).hostPart = s.hostPart := by
  rw [State.goto_frame]; rfl

theorem State.rowDone_hostPart (s : State) : s.rowDone.hostPart = s.hostPart := by
  rw [State.rowDone_frame]; rfl

theorem State.pixelDone_hostPart (s : State) : s.pixelDone.hostPart = s.hostPart := by
  rw [State.pixelDone_frame]; rfl

/-- A byte put into OUT or PIX is none of the host's part. -/
theorem State.putByte_hostPart (s : State) {sp : Space} (h : sp = .out ∨ sp = .pix) (a : Nat) (b : Byte) :
    (s.putByte sp a b).hostPart = s.hostPart := by
  rcases h with rfl | rfl
  · rfl
  · rfl

/-- A part of an element leaves the host's part of `s` as it is, whether it raises an error or not. -/
def Res.KeepsHost {α : Type} (r : Res α) (s : State) : Prop :=
  match r with
  | .ok _ t => t.hostPart = s.hostPart
  | .err _ t => t.hostPart = s.hostPart
  | .fault _ => True
  | .refused _ => True

/-- The next state, if the outcome is one, has the host's part of `s`. -/
def OutcomeKeepsHost (o : Outcome) (s : State) : Prop := ∀ t, o = .next t → t.hostPart = s.hostPart

theorem Res.KeepsHost.congr {α : Type} {r : Res α} {s t : State} (h : r.KeepsHost t) (e : t.hostPart = s.hostPart) :
    r.KeepsHost s := by
  cases r with
  | ok a u => exact Eq.trans h e
  | err k u => exact Eq.trans h e
  | fault f => trivial
  | refused q => trivial

theorem Res.KeepsHost.bind {α β : Type} {r : Res α} {k : α → State → Res β} {s : State} (h : r.KeepsHost s)
    (hk : ∀ a t, (k a t).KeepsHost t) : (r.bind k).KeepsHost s := by
  cases r with
  | ok a t => exact (hk a t).congr h
  | err e t => exact h
  | fault f => trivial
  | refused q => trivial

theorem OutcomeKeepsHost.next {s t : State} (h : t.hostPart = s.hostPart) : OutcomeKeepsHost (.next t) s :=
  fun u e => by cases e; exact h

theorem OutcomeKeepsHost.raise (s : State) (k : ErrorKind) : OutcomeKeepsHost (.next (s.raise k)) s :=
  .next (s.raise_hostPart k)

theorem Res.KeepsHost.run {r : Res Unit} {s : State} (h : r.KeepsHost s) : OutcomeKeepsHost r.run s := by
  cases r with
  | ok a t => exact .next h
  | err k t => exact .next h
  | fault f => exact fun u e => by cases e
  | refused q => exact fun u e => by cases e

theorem Res.KeepsHost.andThen {α : Type} {r : Res α} {k : α → State → Outcome} {s : State} (h : r.KeepsHost s)
    (hk : ∀ a t, OutcomeKeepsHost (k a t) t) : OutcomeKeepsHost (r.andThen k) s := by
  cases r with
  | ok a t => exact fun u e => (hk a t u e).trans h
  | err k t => exact .next h
  | fault f => exact fun u e => by cases e
  | refused q => exact fun u e => by cases e

/-! ### The operations -/

theorem readByte_keepsHost (sp : Space) (a : Nat) (s : State) : (readByte sp a s).KeepsHost s := by
  rw [readByte]
  split
  · exact rfl
  · trivial

theorem writeByte_keepsHost {sp : Space} (h : sp = .out ∨ sp = .pix) (a : Nat) (b : Byte) (s : State) :
    (writeByte sp a b s).KeepsHost s := by
  rw [writeByte]
  split
  · exact s.putByte_hostPart h a b
  · trivial

theorem refillLoop_keepsHost (k n : Nat) (s : State) : (refillLoop k n s).KeepsHost s := by
  induction k generalizing s with
  | zero => exact rfl
  | succ k ih =>
    rw [refillLoop]
    split
    · split
      · exact rfl
      · exact (readByte_keepsHost .inp _ s).bind fun b t => (ih _).congr rfl
    · exact rfl

theorem refill_keepsHost (n : Nat) (s : State) : (refill n s).KeepsHost s := by
  rw [refill]
  split
  · exact refillLoop_keepsHost 2 n s
  · trivial

theorem getBits_keepsHost (n : Nat) (s : State) : (getBits n s).KeepsHost s := by
  rw [getBits]
  split
  · exact rfl
  · exact (refill_keepsHost n s).bind fun _ _ => rfl

theorem getCode_keepsHost (t : Table) (s : State) : (getCode t s).KeepsHost s := by
  rw [getCode]
  split
  · exact rfl
  · refine (refill_keepsHost _ s).bind fun _ u => ?_
    dsimp only
    split
    · exact rfl
    · exact rfl

theorem outAppend_keepsHost (b : Byte) (s : State) : (outAppend b s).KeepsHost s := by
  rw [outAppend]
  split
  · exact rfl
  · exact (writeByte_keepsHost (.inl rfl) _ b s).bind fun _ _ => rfl

theorem copyBytes_keepsHost (len dist : Nat) (s : State) : (copyBytes len dist s).KeepsHost s := by
  induction len generalizing s with
  | zero => exact rfl
  | succ n ih =>
    exact (readByte_keepsHost .out _ s).bind fun b t => (outAppend_keepsHost b t).bind fun _ u => ih u

theorem backCopy_keepsHost (len dist : Nat) (s : State) : (backCopy len dist s).KeepsHost s := by
  rw [backCopy]
  split
  · exact rfl
  · exact copyBytes_keepsHost len dist s

theorem copyStored_keepsHost (n : Nat) (s : State) : (copyStored n s).KeepsHost s := by
  induction n generalizing s with
  | zero => exact rfl
  | succ n ih =>
    exact (getBits_keepsHost 8 s).bind fun b t => (outAppend_keepsHost _ t).bind fun _ u => ih u

/-! ### The elements of INFLATE -/

theorem storedBody_keepsHost (len nlen : BitVec 16) (s : State) : (storedBody len nlen s).KeepsHost s := by
  rw [storedBody]
  split
  · exact (copyStored_keepsHost _ s).bind fun _ _ => rfl
  · exact rfl

theorem buildTableStep_keepsHost (lens : List Nat) (used : Bool) (s : State) :
    (buildTableStep lens used s).KeepsHost s := by
  rw [buildTableStep]
  split
  · exact rfl
  · exact rfl

theorem readClLengths_keepsHost (n : Nat) (s : State) : (readClLengths n s).KeepsHost s := by
  induction n generalizing s with
  | zero => exact rfl
  | succ n ih => exact (getBits_keepsHost 3 s).bind fun _ t => (ih t).bind fun _ _ => rfl

theorem repeatLength_keepsHost (v base extra : Nat) (s : State) : (repeatLength v base extra s).KeepsHost s := by
  refine (getBits_keepsHost extra s).bind fun e t => ?_
  split
  · exact rfl
  · exact rfl

theorem clRep16Step_keepsHost (s : State) : (clRep16Step s).KeepsHost s := by
  rw [clRep16Step]
  split
  · exact rfl
  · exact repeatLength_keepsHost _ 3 2 s

theorem clStep_keepsHost (v : Nat) (s : State) : (clStep v s).KeepsHost s := by
  rw [clStep]
  split
  · exact rfl
  split
  · exact clRep16Step_keepsHost s
  split
  · exact repeatLength_keepsHost 0 3 3 s
  split
  · exact repeatLength_keepsHost 0 11 7 s
  · trivial

theorem clLoop_keepsHost (k : Nat) (s : State) : (clLoop k s).KeepsHost s := by
  induction k generalizing s with
  | zero => exact rfl
  | succ k ih =>
    rw [clLoop]
    split
    · exact (getCode_keepsHost _ s).bind fun v t => (clStep_keepsHost v t).bind fun _ u => ih u
    · exact rfl

theorem dynamicTables_keepsHost (s : State) : (dynamicTables s).KeepsHost s :=
  (buildTableStep_keepsHost _ true s).bind fun _ _ =>
    ((buildTableStep_keepsHost _ false _).congr rfl).bind fun _ _ => rfl

theorem dynamicHeader_keepsHost (hlit hdist : BitVec 5) (hclen : BitVec 4) (s : State) :
    (dynamicHeader hlit hdist hclen s).KeepsHost s :=
  (readClLengths_keepsHost _ s).bind fun _ t => (buildTableStep_keepsHost _ true t).bind fun _ _ =>
    ((clLoop_keepsHost _ _).congr rfl).bind fun _ u => dynamicTables_keepsHost u

theorem distancePart_keepsHost (base extra : Nat) (s : State) : (distancePart base extra s).KeepsHost s :=
  (getBits_keepsHost extra s).bind fun _ t => (backCopy_keepsHost _ _ t).bind fun _ _ => rfl

theorem runDistance_keepsHost (d : Nat) (s : State) : OutcomeKeepsHost (runDistance d s) s := by
  by_cases hd : d < 30
  · interval_cases d <;> exact (distancePart_keepsHost _ _ s).run
  · rw [runDistance, List.getElem?_eq_none (Nat.le_of_not_lt hd)]
    exact .raise s _

theorem lengthPart_keepsHost (base extra : Nat) (s : State) : OutcomeKeepsHost (lengthPart base extra s) s :=
  (getBits_keepsHost extra s).andThen fun _ _ =>
    ((getCode_keepsHost _ _).congr rfl).andThen fun d u => runDistance_keepsHost d u

/-! ### The elements of DECODE_PNG -/

theorem neighbour_keepsHost (present : Bool) (a : Nat) (s : State) : (neighbour present a s).KeepsHost s := by
  rw [neighbour]
  split
  · exact readByte_keepsHost .out a s
  · exact rfl

theorem unfilterByte_keepsHost (ft : FilterType) (x : Nat) (s : State) : (unfilterByte ft x s).KeepsHost s :=
  (readByte_keepsHost .out _ s).bind fun _ s => (neighbour_keepsHost _ _ s).bind fun _ s =>
    (neighbour_keepsHost _ _ s).bind fun _ s => (neighbour_keepsHost _ _ s).bind fun _ s =>
      writeByte_keepsHost (.inl rfl) _ _ s

theorem unfilterFrom_keepsHost (ft : FilterType) (n x : Nat) (s : State) : (unfilterFrom ft n x s).KeepsHost s := by
  induction n generalizing x s with
  | zero => exact rfl
  | succ n ih => exact (unfilterByte_keepsHost ft x s).bind fun _ t => ih (x + 1) t

theorem unfilterRow_keepsHost (ft : FilterType) (s : State) : (unfilterRow ft s).KeepsHost s :=
  (unfilterFrom_keepsHost ft _ 0 s).bind fun _ t => t.rowDone_hostPart

theorem writePixel_keepsHost (px : Pixel) (s : State) : (writePixel px s).KeepsHost s :=
  (writeByte_keepsHost (.inr rfl) _ _ s).bind fun _ s => (writeByte_keepsHost (.inr rfl) _ _ s).bind fun _ s =>
    (writeByte_keepsHost (.inr rfl) _ _ s).bind fun _ s => writeByte_keepsHost (.inr rfl) _ _ s

theorem assemblePixel_keepsHost {expand : Nat → State → Res Pixel} (h : ∀ src s, (expand src s).KeepsHost s)
    (s : State) : (assemblePixel expand s).KeepsHost s :=
  (h _ s).bind fun px t => (writePixel_keepsHost px t).bind fun _ u => u.pixelDone_hostPart

theorem sourceByte_keepsHost (src k : Nat) (s : State) : (sourceByte src k s).KeepsHost s :=
  readByte_keepsHost .out _ s

theorem expandPalette_keepsHost (src : Nat) (s : State) : (expandPalette src s).KeepsHost s := by
  refine (sourceByte_keepsHost src 0 s).bind fun idx s => ?_
  split
  · exact rfl
  · exact (readByte_keepsHost .pal _ s).bind fun _ s => (readByte_keepsHost .pal _ s).bind fun _ s =>
      (readByte_keepsHost .pal _ s).bind fun _ _ => rfl

theorem expandGray_keepsHost (src : Nat) (s : State) : (expandGray src s).KeepsHost s :=
  (sourceByte_keepsHost src 0 s).bind fun _ _ => rfl

theorem expandGrayAlpha_keepsHost (src : Nat) (s : State) : (expandGrayAlpha src s).KeepsHost s :=
  (sourceByte_keepsHost src 0 s).bind fun _ s => (sourceByte_keepsHost src 1 s).bind fun _ _ => rfl

theorem expandRgb_keepsHost (src : Nat) (s : State) : (expandRgb src s).KeepsHost s :=
  (sourceByte_keepsHost src 0 s).bind fun _ s => (sourceByte_keepsHost src 1 s).bind fun _ s =>
    (sourceByte_keepsHost src 2 s).bind fun _ _ => rfl

theorem expandRgba_keepsHost (src : Nat) (s : State) : (expandRgba src s).KeepsHost s :=
  (sourceByte_keepsHost src 0 s).bind fun _ s => (sourceByte_keepsHost src 1 s).bind fun _ s =>
    (sourceByte_keepsHost src 2 s).bind fun _ s => (sourceByte_keepsHost src 3 s).bind fun _ _ => rfl

/-! ### Commands -/

theorem execCmdInflate_keepsHost (s : State) : OutcomeKeepsHost (execCmdInflate s) s := by
  rw [execCmdInflate]
  split
  · exact .next rfl
  split
  · exact .next rfl
  · exact .next rfl

theorem execCmdDecodePng_keepsHost (s : State) : OutcomeKeepsHost (execCmdDecodePng s) s := by
  rw [execCmdDecodePng]
  split
  · exact .next rfl
  · exact .next rfl

theorem execCmdResume_keepsHost (s : State) : OutcomeKeepsHost (execCmdResume s) s := by
  rw [execCmdResume]
  split
  · exact .next (State.goto_hostPart { s with susp := false } s.suspNext)
  · exact .next rfl

/-! ### Every instruction -/

theorem execZhdr_keepsHost (cmf flg : Byte) (s : State) : OutcomeKeepsHost (execZhdr cmf flg s) s := by
  rw [execZhdr]
  split
  · exact .next rfl
  · exact .raise s _

/-- No instruction but SOFT_RESET writes the host's part. -/
theorem exec_keepsHost {i : Instr} (h : i ≠ .cmdSoftReset) (s : State) : OutcomeKeepsHost (exec i s) s := by
  cases i with
  | zhdr cmf flg => exact execZhdr_keepsHost cmf flg s
  | zhdrBad | symInvalid | distInvalid | rowUnknown | pixelUnsupported => exact .raise s _
  | blockStored | blockFixed | blockDynamic | blockReserved | eob | cmdReserved => exact .next rfl
  | stored len nlen => exact (storedBody_keepsHost len nlen s).run
  | dynhdr hlit hdist hclen => exact (dynamicHeader_keepsHost hlit hdist hclen s).run
  | clLen => exact .next rfl
  | clRep16 => exact (clRep16Step_keepsHost s).run
  | clRep17 => exact (repeatLength_keepsHost 0 3 3 s).run
  | clRep18 => exact (repeatLength_keepsHost 0 11 7 s).run
  | lit b => exact Res.KeepsHost.run ((outAppend_keepsHost b s).bind fun _ _ => rfl)
  | len257 | len258 | len259 | len260 | len261 | len262 | len263 | len264 | len285 => exact lengthPart_keepsHost _ 0 s
  | len265 | len266 | len267 | len268 | len269 | len270 | len271 | len272 | len273 | len274 | len275 | len276
  | len277 | len278 | len279 | len280 | len281 | len282 | len283 | len284 => exact lengthPart_keepsHost _ _ s
  | dist0 | dist1 | dist2 | dist3 | dist4 | dist5 | dist6 | dist7 | dist8 | dist9 | dist10 | dist11 | dist12
  | dist13 | dist14 | dist15 | dist16 | dist17 | dist18 | dist19 | dist20 | dist21 | dist22 | dist23 | dist24
  | dist25 | dist26 | dist27 | dist28 | dist29 => exact (distancePart_keepsHost _ _ s).run
  | rowNone | rowSub | rowUp | rowAverage | rowPaeth => exact (unfilterRow_keepsHost _ s).run
  | pixelPalette => exact (assemblePixel_keepsHost expandPalette_keepsHost s).run
  | pixelGray => exact (assemblePixel_keepsHost expandGray_keepsHost s).run
  | pixelGrayAlpha => exact (assemblePixel_keepsHost expandGrayAlpha_keepsHost s).run
  | pixelRgb => exact (assemblePixel_keepsHost expandRgb_keepsHost s).run
  | pixelRgba => exact (assemblePixel_keepsHost expandRgba_keepsHost s).run
  | cmdInflate => exact execCmdInflate_keepsHost s
  | cmdDecodePng => exact execCmdDecodePng_keepsHost s
  | cmdResume => exact execCmdResume_keepsHost s
  | cmdSoftReset => exact absurd rfl h

end Sys2Proof.Machine

namespace Sys2Proof.Claims

open Sys2Proof.Machine

/-- Settles O47: SOFT_RESET keeps the memories and the host's side, every other instruction the host's part. -/
theorem inputPaletteAndConfigurationKept : Obligations.InputPaletteAndConfigurationKept := by
  intro i s t h
  by_cases hi : i = .cmdSoftReset
  · subst hi
    cases h
    exact ⟨rfl, rfl, rfl, rfl, rfl, fun hne => absurd rfl hne⟩
  · have hkept {α : Type} (field : State → α) : field t.hostPart = field s.hostPart :=
      congrArg field (exec_keepsHost hi s t h)
    exact ⟨hkept State.inp, hkept State.pal, hkept State.caps, hkept State.moves, hkept State.hostData, fun _ =>
      ⟨hkept State.ckptEn, hkept State.inLen, hkept State.width, hkept State.height, hkept State.format,
        hkept State.palLen⟩⟩

end Sys2Proof.Claims
end

section
/-! The decoder and the encoder are inverse to each other, format by format (30_encoding.md R172). -/

namespace Sys2Proof.Laws.RoundTrip

/-! ### Decoding what was encoded -/

theorem decode_blkhdr {v : Nat} (h : v < 8) : decode .blkhdr v = .ok (decodeBlkhdr v) := if_pos h
theorem decode_dcode {v : Nat} (h : v < 65536) : decode .dcode v = decodeDcode v := if_pos h

/-- A value the decoder accepts is no wider than its format (30_encoding.md R172). -/
theorem lt_two_pow_width_of_decode {f : Format} {v : Nat} {i : Instr} (h : decode f v = .ok i) :
    v < 2 ^ f.width := by
  by_contra hv
  have herr : decode f v = .error (.valueTooWide f) := if_neg hv
  cases herr.symm.trans h

/-- The lemmas of the rows with operands, put together; the other rows are single values. -/
theorem decode_encode (i : Instr) : Statement i := by
  cases i with
  | zhdr cmf flg => exact zhdr cmf flg
  | zhdrBad cmf flg => exact zhdrBad cmf flg
  | blockStored bfinal => exact blockStored bfinal
  | blockFixed bfinal => exact blockFixed bfinal
  | blockDynamic bfinal => exact blockDynamic bfinal
  | blockReserved bfinal => exact blockReserved bfinal
  | stored len nlen => exact stored len nlen
  | dynhdr hlit hdist hclen => exact dynhdr hlit hdist hclen
  | clLen len => exact clLen len
  | lit b => exact lit b
  | symInvalid odd => exact symInvalid odd
  | distInvalid odd => exact distInvalid odd
  | rowUnknown ft => exact rowUnknown ft
  | pixelUnsupported depth ctype => exact pixelUnsupported depth ctype
  | cmdReserved op => exact cmdReserved op
  | _ => exact fun _ => rfl

/-! ### Encoding what was decoded -/

/-- The row of format `f` that stands for the value `v`. -/
structure IsRowOf (f : Format) (v : Nat) (i : Instr) : Prop where
  wellFormed : i.WellFormed
  format_eq : i.format = f
  encode_eq : encode i = v

/-- A 16-bit value is its low and its high byte. -/
theorem toNat_two_bytes {v : Nat} (h : v < 65536) :
    (BitVec.ofNat 8 (v % 256)).toNat + (BitVec.ofNat 8 (v / 256)).toNat * 256 = v := by
  rw [BitVec.toNat_ofNat, BitVec.toNat_ofNat]
  omega

theorem decodeZhdr_isRowOf {v : Nat} (h : v < 65536) : IsRowOf .zhdr v (decodeZhdr v) := by
  obtain ⟨cmf, flg, rfl⟩ : ∃ cmf flg : Byte, v = cmf.toNat + flg.toNat * 256 := ⟨_, _, (toNat_two_bytes h).symm⟩
  rw [decodeZhdr_eq]
  by_cases hl : legalHeader cmf flg = true
  · rw [if_pos ((decodeZhdr_legal cmf flg).2 hl)]
    exact ⟨if_pos hl, rfl, rfl⟩
  · rw [if_neg (mt (decodeZhdr_legal cmf flg).1 hl)]
    exact ⟨if_neg hl, rfl, rfl⟩

theorem decodeBlkhdr_isRowOf {v : Nat} (h : v < 8) : IsRowOf .blkhdr v (decodeBlkhdr v) := by
  interval_cases v <;> exact ⟨rfl, rfl, rfl⟩

theorem decodeStored_isRowOf {v : Nat} (h : v < 4294967296) : IsRowOf .stored v (decodeStored v) := by
  refine ⟨rfl, rfl, ?_⟩
  simp only [decodeStored, encode, BitVec.toNat_ofNat]
  omega

theorem decodeDynhdr_isRowOf {v : Nat} (h : v < 16384) : IsRowOf .dynhdr v (decodeDynhdr v) := by
  refine ⟨rfl, rfl, ?_⟩
  simp only [decodeDynhdr, encode, BitVec.toNat_ofNat]
  omega

theorem decodeClsym_isRowOf {v : Nat} {i : Instr} (h : decodeClsym v = .ok i) : IsRowOf .clsym v i := by
  rw [decodeClsym] at h
  split at h
  · cases h
    exact ⟨rfl, rfl, by rw [encode, BitVec.toNat_ofNat]; omega⟩
  · split_ifs at h with h16 h17 h18 <;> cases h
    · exact ⟨rfl, rfl, h16.symm⟩
    · exact ⟨rfl, rfl, h17.symm⟩
    · exact ⟨rfl, rfl, h18.symm⟩

theorem lengthInstrs_isRowOf {v : Nat} (hlo : 257 ≤ v) (hhi : v < 286) :
    IsRowOf .sym v (lengthInstrs.getD (v - 257) .eob) := by
  interval_cases v <;> exact ⟨rfl, rfl, rfl⟩

theorem decodeSym_isRowOf {v : Nat} {i : Instr} (h : decodeSym v = .ok i) : IsRowOf .sym v i := by
  rw [decodeSym] at h
  split_ifs at h with hlit heob hlen hinv
  · cases h
    exact ⟨rfl, rfl, by rw [encode, BitVec.toNat_ofNat]; omega⟩
  · cases h
    exact ⟨rfl, rfl, heob.symm⟩
  · rw [← Except.ok.inj h]
    exact lengthInstrs_isRowOf (by omega) hlen
  · obtain rfl | rfl : v = 286 ∨ v = 287 := by omega
    all_goals cases h; exact ⟨rfl, rfl, rfl⟩

theorem distanceInstrs_isRowOf {v : Nat} (h : v < 30) : IsRowOf .dcode v (distanceInstrs.getD v .dist0) := by
  interval_cases v <;> exact ⟨rfl, rfl, rfl⟩

theorem decodeDcode_isRowOf {v : Nat} {i : Instr} (h : decodeDcode v = .ok i) : IsRowOf .dcode v i := by
  rw [decodeDcode] at h
  split_ifs at h with hdist hinv <;> cases h
  · exact distanceInstrs_isRowOf hdist
  · obtain rfl | rfl : v = 30 ∨ v = 31 := by omega
    all_goals exact ⟨rfl, rfl, rfl⟩

theorem decodeRow_isRowOf {v : Nat} (h : v < 256) : IsRowOf .row v (decodeRow v) := by
  by_cases hk : v ≤ 4
  · interval_cases v <;> exact ⟨rfl, rfl, rfl⟩
  · have hdec : decodeRow v = .rowUnknown (BitVec.ofNat 8 v) := by rw [decodeRow] <;> omega
    have hv : (BitVec.ofNat 8 v).toNat = v := by rw [BitVec.toNat_ofNat]; omega
    rw [hdec]
    exact ⟨if_neg (hv.symm ▸ hk), rfl, hv⟩

/-- The values of the five supported pixel forms: depth 8 below a colour type of 30_encoding.md R128. -/
theorem value_of_supported {depth ctype : Byte} (h : (depth == 8 && legalColourType ctype) = true) :
    depth.toNat + ctype.toNat * 256 ∈ [0x308, 0x008, 0x408, 0x208, 0x608] := by
  simp only [legalColourType, Bool.and_eq_true, Bool.or_eq_true, beq_iff_eq] at h
  obtain ⟨rfl, ((((rfl | rfl) | rfl) | rfl) | rfl)⟩ := h <;> decide

theorem decodePixel_isRowOf {v : Nat} (h : v < 65536) : IsRowOf .pixel v (decodePixel v) := by
  rw [decodePixel]
  split_ifs with hpal hgray hga hrgb hrgba
  · exact ⟨rfl, rfl, hpal.symm⟩
  · exact ⟨rfl, rfl, hgray.symm⟩
  · exact ⟨rfl, rfl, hga.symm⟩
  · exact ⟨rfl, rfl, hrgb.symm⟩
  · exact ⟨rfl, rfl, hrgba.symm⟩
  · have hv := toNat_two_bytes h
    refine ⟨if_neg fun hs => ?_, rfl, hv⟩
    have hmem := value_of_supported hs
    rw [hv] at hmem
    simp [hpal, hgray, hga, hrgb, hrgba] at hmem

/-- CMD's word counts by its bits 3:0 alone (30_encoding.md R129). -/
theorem decodeCmdword_isRowOf (v : Nat) : IsRowOf .cmdword (v % 16) (decodeCmdword v) := by
  have hlt : v % 16 < 16 := Nat.mod_lt v (by decide)
  rw [decodeCmdword]
  generalize v % 16 = op at hlt ⊢
  interval_cases op <;> exact ⟨rfl, rfl, rfl⟩

/-- What the decoder reads is the row of the value it was read from (30_encoding.md R172). -/
theorem isRowOf_of_decode {f : Format} {v : Nat} {i : Instr} (h : decode f v = .ok i) :
    IsRowOf f (if f = .cmdword then v % 16 else v) i := by
  have hv := lt_two_pow_width_of_decode h
  cases f with
  | zhdr => cases (decode_zhdr hv).symm.trans h; exact decodeZhdr_isRowOf hv
  | blkhdr => cases (decode_blkhdr hv).symm.trans h; exact decodeBlkhdr_isRowOf hv
  | stored => cases (decode_stored hv).symm.trans h; exact decodeStored_isRowOf hv
  | dynhdr => cases (decode_dynhdr hv).symm.trans h; exact decodeDynhdr_isRowOf hv
  | clsym => exact decodeClsym_isRowOf ((decode_clsym hv).symm.trans h)
  | sym => exact decodeSym_isRowOf ((decode_sym hv).symm.trans h)
  | dcode => exact decodeDcode_isRowOf ((decode_dcode hv).symm.trans h)
  | row => cases (decode_row hv).symm.trans h; exact decodeRow_isRowOf hv
  | pixel => cases (decode_pixel hv).symm.trans h; exact decodePixel_isRowOf hv
  | cmdword => cases (decode_cmdword hv).symm.trans h; exact decodeCmdword_isRowOf v

end Sys2Proof.Laws.RoundTrip

namespace Sys2Proof.Claims

open Sys2Proof.Laws

/-- Settles O57: the encoding decodes to the instruction, and the decoder accepts no value wider than its format. -/
theorem decodeInvertsEncode : Obligations.DecodeInvertsEncode := by
  intro i h
  have hdec := RoundTrip.decode_encode i h
  exact ⟨RoundTrip.lt_two_pow_width_of_decode hdec, hdec⟩

/-- Settles O58, by the formats: what each decoder reads is the row of its value. -/
theorem encodeInvertsDecode : Obligations.EncodeInvertsDecode := by
  intro f v i h
  obtain ⟨hw, hf, he⟩ := RoundTrip.isRowOf_of_decode h
  exact ⟨hw, hf, he⟩

/-- Settles O60: each word is in range, and the rules of its format are evaluated on it. -/
theorem writtenOutWordsDecode : Obligations.WrittenOutWordsDecode := by
  unfold Obligations.WrittenOutWordsDecode
  decide

end Sys2Proof.Claims
end

section
/-! From written stream bits to the instruction the machine runs: a header's bits are its field, a code's bits
begin the canonical code of its symbol, and the codes of 30_encoding.md R141 are the canonical codes of the fixed
lengths. -/

namespace Sys2Proof.Machine

/-! ### The bits of a field and of a code -/

theorem length_fieldBits (n v : Nat) : (fieldBits n v).length = n := by
  induction n generalizing v with
  | zero => rfl
  | succ n ih => rw [fieldBits, List.length_cons, ih]

/-- Bit `k` of a written field is bit `k` of its value (00_scope.md R13). -/
theorem getD_fieldBits {n k : Nat} (v : Nat) (hk : k < n) : (fieldBits n v).getD k false = v.testBit k := by
  induction n generalizing v k with
  | zero => omega
  | succ n ih =>
    cases k with
    | zero => rw [Nat.testBit_zero]; rfl
    | succ k => rw [fieldBits, List.getD_cons_succ, ih (v / 2) (by omega), Nat.testBit_succ]

theorem length_codeBits (n c : Nat) : (codeBits n c).length = n := by
  rw [codeBits, List.length_reverse, length_fieldBits]

/-- A written code has its most significant bit first (00_scope.md R13). -/
theorem getD_codeBits {n k : Nat} (c : Nat) (hk : k < n) :
    (codeBits n c).getD k false = c.testBit (n - 1 - k) := by
  have hrev : k < (fieldBits n c).length := by rwa [length_fieldBits]
  rw [codeBits, List.getD_eq_getElem?_getD, List.getElem?_reverse hrev, ← List.getD_eq_getElem?_getD, length_fieldBits,
    getD_fieldBits c (by omega)]

/-! ### The codes of the fixed lengths -/

/-- The four runs of the fixed literal/length code lengths (41_huffman.md R230). -/
theorem getD_fixedLitLengths {v : Nat} (hv : v < 288) : fixedLitLengths.getD v 0 =
    if v < 144 then 8 else if v < 256 then 9 else if v < 280 then 7 else 8 := by
  simp only [fixedLitLengths, List.getD_eq_getElem?_getD, List.getElem?_append, List.getElem?_replicate,
    List.length_append, List.length_replicate, apply_ite (fun o => Option.getD o 0), Option.getD_some,
    Option.getD_none]
  split_ifs <;> omega

/-- How many of the first `v` symbols have a fixed code of `L` bits, run by run. -/
theorem count_take_fixedLitLengths (v L : Nat) : (fixedLitLengths.take v).count L =
    (if 8 = L then min v 144 else 0) + (if 9 = L then min (v - 144) 112 else 0) +
      (if 7 = L then min (v - 256) 24 else 0) + (if 8 = L then min (v - 280) 8 else 0) := by
  simp only [fixedLitLengths, List.take_append, List.take_replicate, List.count_append, List.count_replicate,
    List.length_append, List.length_replicate, beq_iff_eq]

theorem length_fixedLitLengths : fixedLitLengths.length = 288 := by
  simp only [fixedLitLengths, List.length_append, List.length_replicate]

theorem lengthCount_fixedLitLengths (L : Nat) : lengthCount fixedLitLengths L =
    if L = 7 then 24 else if L = 8 then 152 else if L = 9 then 112 else 0 := by
  have hcount := count_take_fixedLitLengths 288 L
  rw [List.take_of_length_le length_fixedLitLengths.le] at hcount
  rw [lengthCount, hcount]
  split_ifs <;> omega

/-- The first codes of 7, 8 and 9 bits (30_encoding.md R141). -/
theorem firstCode_fixedLitLengths : firstCode fixedLitLengths 7 = 0 ∧ firstCode fixedLitLengths 8 = 0x30 ∧
    firstCode fixedLitLengths 9 = 0x190 := by
  simp only [firstCode, lengthCount_fixedLitLengths]
  decide

/-- The code R141 gives a symbol is the canonical one of the fixed lengths (30_encoding.md R141, 41_huffman.md R230). -/
theorem fixedLitCode_eq {v : Nat} (hv : v < 288) :
    fixedLitCode v = (fixedLitLengths.getD v 0, canonicalCode fixedLitLengths v) := by
  obtain ⟨h7, h8, h9⟩ := firstCode_fixedLitLengths
  rw [canonicalCode_eq, getD_fixedLitLengths hv, fixedLitCode]
  have c7 : (fixedLitLengths.take v).count 7 = min (v - 256) 24 := by simp [count_take_fixedLitLengths]
  have c8 : (fixedLitLengths.take v).count 8 = min v 144 + min (v - 280) 8 := by simp [count_take_fixedLitLengths]
  have c9 : (fixedLitLengths.take v).count 9 = min (v - 144) 112 := by simp [count_take_fixedLitLengths]
  split_ifs with h144 h256 h280
  · rw [h8, c8]
    exact congrArg (Prod.mk 8) (by omega)
  · rw [h9, c9]
    exact congrArg (Prod.mk 9) (by omega)
  · rw [h7, c7]
    exact congrArg (Prod.mk 7) (by omega)
  · rw [h8, c8]
    exact congrArg (Prod.mk 8) (by omega)

/-- The fixed distance code of `d` is `d` in 5 bits (30_encoding.md R141, 41_huffman.md R231). -/
theorem fixedDistCode_eq {d : Nat} (hd : d < 30) :
    fixedDistLengths.getD d 0 = 5 ∧ canonicalCode fixedDistLengths d = d := by
  have hlen : fixedDistLengths.getD d 0 = 5 := by
    rw [fixedDistLengths, List.getD_replicate (h := hd)]
  have hfirst : firstCode fixedDistLengths 5 = 0 := by decide
  refine ⟨hlen, ?_⟩
  rw [canonicalCode_eq, hlen, hfirst, fixedDistLengths, List.take_replicate, List.count_replicate_self]
  omega

theorem fixedLitTable_max : fixedLitTable.max = 9 := by
  obtain ⟨hmax, -, -⟩ := buildTable_entry fixedLitTable_built
  have hmem : 9 ∈ fixedLitLengths :=
    List.mem_append_left _ (List.mem_append_left _ (List.mem_append_right _ (List.mem_replicate.2 ⟨by decide, rfl⟩)))
  rw [hmax]
  refine Nat.le_antisymm (maxLength_le fun l hl => ?_) (le_maxLength hmem)
  simp only [fixedLitLengths, List.mem_append, List.mem_replicate] at hl
  omega

theorem fixedDistTable_max : fixedDistTable.max = 5 := by
  obtain ⟨hmax, -, -⟩ := buildTable_entry fixedDistTable_built
  rw [hmax]
  decide

end Sys2Proof.Machine

namespace Sys2Proof.Claims

open Sys2Proof.Machine Sys2Proof.Laws

/-! ### The stream ahead -/

/-- A header's bits at the start of the stream are the field the header is read from. -/
theorem BeginsWith.field_eq {s : State} {n v : Nat} (h : BeginsWith s (fieldBits n v)) (hv : v < 2 ^ n) :
    s.field 0 n = v := by
  apply Nat.eq_of_testBit_eq
  intro k
  rw [State.field_testBit, Nat.zero_add]
  by_cases hk : k < n
  · rw [h k (by rwa [length_fieldBits]), getD_fieldBits v hk, decide_eq_true hk, Bool.true_and]
  · rw [decide_eq_false hk, Bool.false_and,
      Nat.testBit_lt_two_pow (hv.trans_le (Nat.pow_le_pow_right (by decide) (by omega)))]

/-- A symbol's canonical code at the start of the stream (41_huffman.md R224). -/
theorem BeginsWith.codeBegins {s : State} {lens : List Nat} {v : Nat} (hv : v < lens.length) (h0 : lens.getD v 0 ≠ 0)
    (h : BeginsWith s (codeBits (lens.getD v 0) (canonicalCode lens v))) : codeBegins lens v s.nextBit :=
  ⟨hv, h0, fun k hk => by rw [h k (by rwa [length_codeBits]), getD_codeBits _ hk]⟩

/-- A table built from legal lengths reads the symbol whose code begins the stream (41_huffman.md R225, R229). -/
theorem readsSymbol_of_codeBegins {lens : List Nat} {used : Bool} {t : Table} {s : State} {v : Nat}
    (hl : legalLengths lens) (hb : buildTable lens used = some t) (hc : codeBegins lens v s.nextBit)
    (hr : s.CanRead t.max) : ReadsSymbol t s v (s.afterRead t.max (lens.getD v 0)) := by
  obtain ⟨hcount, h15⟩ := hl
  obtain ⟨hmax, -, hentry⟩ := buildTable_entry hb
  obtain ⟨hv, h0, hbits⟩ := hc
  have hmem : lens.getD v 0 ∈ lens := by
    rw [List.getD_eq_getElem _ _ hv]
    exact List.getElem_mem hv
  have hle : lens.getD v 0 ≤ t.max := hmax ▸ le_maxLength hmem
  have hle15 : t.max ≤ 15 := hmax ▸ maxLength_le h15
  have hfield : codeBegins lens v (s.field 0 t.max).testBit := by
    refine ⟨hv, h0, fun k hk => ?_⟩
    rw [State.field_testBit, Nat.zero_add, decide_eq_true (by omega), Bool.true_and, hbits k hk]
  have he := (hentry _ (State.field_lt s 0 t.max) (by omega)).1 v hfield
  have hlen : (t.entry (s.field 0 t.max)).len.toNat = lens.getD v 0 := by
    rw [he, BitVec.toNat_ofNat]
    omega
  have hsym : (t.entry (s.field 0 t.max)).sym.toNat = v := by
    rw [he, BitVec.toNat_ofNat]
    omega
  refine ⟨by omega, hle15, hr, fun hz => h0 ?_, by omega, hsym.symm, by rw [hlen]⟩
  rw [← hlen, hz]
  rfl

/-! ### The bits of an instruction -/

/-- A header whose bits begin the stream is what its format's decoder reads there (30_encoding.md R120..R123). -/
theorem decode_header_field {s : State} {i : Instr} {bits : List Bool} {f : Format} (hw : i.WellFormed)
    (hf : i.format = f) (hheader : f ∈ [Format.zhdr, .blkhdr, .stored, .dynhdr]) (he : encodeBits i = some bits)
    (hb : BeginsWith s bits) : decode f (s.field 0 f.width) = .ok i := by
  obtain ⟨hlt, hdec⟩ := decodeInvertsEncode i hw
  have hbits : encodeBits i = some (fieldBits f.width (encode i)) := by
    simp only [List.mem_cons, List.not_mem_nil, or_false] at hheader
    rw [encodeBits, hf]
    obtain rfl | rfl | rfl | rfl := hheader <;> rfl
  cases hbits.symm.trans he
  rw [hf] at hlt hdec
  rw [hb.field_eq hlt, hdec]

/-- A literal/length symbol is below 288 (30_encoding.md R126). -/
theorem lt_of_decode_sym {v : Nat} {i : Instr} (h : decode .sym v = .ok i) : v < 288 := by
  have hd : decodeSym v = .ok i := (RoundTrip.decode_sym (RoundTrip.lt_two_pow_width_of_decode h)).symm.trans h
  by_contra hv
  rw [decodeSym, if_neg (by omega), if_neg (by omega), if_neg (by omega), if_neg hv] at hd
  cases hd

theorem fixedLitLengths_legal : legalLengths fixedLitLengths :=
  ⟨length_fixedLitLengths.le, fixedLitLengths_le⟩

theorem fixedDistLengths_legal : legalLengths fixedDistLengths := by
  refine ⟨?_, fixedDistLengths_le⟩
  rw [fixedDistLengths, List.length_replicate]
  decide

/-- The fixed literal/length table reads the symbol whose code begins the stream (30_encoding.md R141). -/
theorem readsSymbol_fixedLitTable {s : State} {v : Nat} (hv : v < 288) (hr : s.CanRead 9)
    (hb : BeginsWith s (codeBits (fixedLitCode v).1 (fixedLitCode v).2)) :
    ReadsSymbol fixedLitTable s v (s.afterRead 9 (fixedLitCode v).1) := by
  rw [fixedLitCode_eq hv] at hb ⊢
  have h0 : fixedLitLengths.getD v 0 ≠ 0 := by
    rw [getD_fixedLitLengths hv]
    split_ifs <;> decide
  have hc := hb.codeBegins (length_fixedLitLengths ▸ hv) h0
  have hs := readsSymbol_of_codeBegins fixedLitLengths_legal fixedLitTable_built hc (fixedLitTable_max ▸ hr)
  rwa [fixedLitTable_max] at hs

/-- The fixed distance table reads the distance code whose five bits begin the stream (30_encoding.md R141). -/
theorem readsSymbol_fixedDistTable {s : State} {d : Nat} (hd : d < 30) (hr : s.CanRead 5)
    (hb : BeginsWith s (codeBits 5 d)) : ReadsSymbol fixedDistTable s d (s.afterRead 5 5) := by
  obtain ⟨hlen, hcode⟩ := fixedDistCode_eq hd
  have hc : codeBegins fixedDistLengths d s.nextBit := by
    apply BeginsWith.codeBegins
    · rwa [fixedDistLengths, List.length_replicate]
    · rw [hlen]
      decide
    · rwa [hlen, hcode]
  have hs := readsSymbol_of_codeBegins fixedDistLengths_legal fixedDistTable_built hc (fixedDistTable_max ▸ hr)
  rwa [fixedDistTable_max, hlen] at hs

/-- Settles O59: each format's bits are the field or the code the step reads, and the step runs what that decodes to. -/
theorem streamBitsSelectTheInstruction : Obligations.StreamBitsSelectTheInstruction := by
  intro i bits s hw he
  obtain ⟨-, hdec⟩ := decodeInvertsEncode i hw
  refine ⟨fun hf h hr hb => ?_, fun hf h hr hb => ?_, fun hf h hok hr hb => ?_, fun hf h hn hr hb => ?_,
    fun hf h hn ht hr hb => ?_, fun hf h hn ht hr hb => ?_⟩ <;>
    apply stepRunsTheDecodedInstruction
  · exact .zhdr h hr (decode_header_field hw hf (by decide) he hb)
  · exact .blkhdr h hr (decode_header_field hw hf (by decide) he hb)
  · exact .stored h hok hr (decode_header_field hw hf (by decide) he hb)
  · exact .dynhdr h hn hr (decode_header_field hw hf (by decide) he hb)
  · rw [hf] at hdec
    rw [encodeBits, hf] at he
    cases he
    rw [length_codeBits]
    exact .sym h hn (ht ▸ readsSymbol_fixedLitTable (lt_of_decode_sym hdec) hr hb) hdec
  · rw [hf] at hdec
    rw [encodeBits, hf] at he
    obtain ⟨hd, ⟨⟩⟩ := Option.ite_none_right_eq_some.1 he
    exact .dcode h hn (ht ▸ readsSymbol_fixedDistTable hd hr hb) hdec

end Sys2Proof.Claims
end

section
/-! The BitReader primitives (40_bitreader.md): when each succeeds, and what a read does to the stream. -/

namespace Sys2Proof.Machine

/-! ### What a read does to the stream -/

theorem State.cnt_le_bitsLeft (s : State) : s.cnt ≤ s.bitsLeft := Nat.le_add_right _ _

/-- A read of at most 16 bits keeps the BitReader invariant and moves the stream by the bits it drops
(40_bitreader.md R207, R209). -/
theorem State.BitsOk.afterRead_moves {s : State} (h : s.BitsOk) {want n : Nat} (hw : want ≤ 16)
    (hn : n ≤ s.cnt + 8 * s.fetches want) :
    (s.afterRead want n).BitsOk ∧ (s.afterRead want n).streamPos = s.streamPos + n ∧
      ∀ k, (s.afterRead want n).nextBit k = s.nextBit (n + k) := by
  have hc := h.cntBound
  have hl := s.fetches_least want
  exact ⟨State.afterRead_bitsOk s (by omega), State.afterRead_streamPos hn, State.afterRead_nextBit s hn (by omega)⟩

/-- Fetching without dropping keeps the bits already buffered, at their places (40_bitreader.md R200). -/
theorem State.afterRead_keeps_buffered (s : State) {want : Nat} (hc : s.cnt + 8 * s.fetches want ≤ 32) {k : Nat}
    (hk : k < s.cnt) : (s.afterRead want 0).acc.getLsbD k = s.acc.getLsbD k := by
  have hahead := State.afterRead_nextBit s (want := want) (Nat.zero_le _) hc k
  unfold State.nextBit at hahead
  rwa [Nat.zero_add, if_pos hk, if_pos (by rw [State.afterRead_cnt]; omega)] at hahead

/-! ### When a primitive succeeds -/

/-- More than 16 bits are refused, whatever the state (40_bitreader.md R201). -/
theorem refill_wide {n : Nat} (hn : 16 < n) (s : State) : refill n s = .refused (.wideBitCount n) :=
  if_neg (Nat.not_le.2 hn)

theorem getBits_wide {n : Nat} (hn : 16 < n) (s : State) : getBits n s = .refused (.wideBitCount n) := by
  rw [getBits, if_neg (by omega), refill_wide hn]
  rfl

/-- Buffered bits are enough: nothing is fetched (40_bitreader.md R200). -/
theorem refill_buffered {s : State} {n : Nat} (hb : s.BitsOk) (hi : s.inLen.toNat ≤ s.caps.inCap) (hn : n ≤ 16)
    (hc : n ≤ s.cnt) : refill n s = .ok () s := by
  rw [refill_ok ⟨hb, hc.trans s.cnt_le_bitsLeft, hi⟩ hn, State.afterRead_zero hb hc]

section Success

variable {s : State} (hb : s.BitsOk) (hi : s.inLen.toNat ≤ s.caps.inCap)

include hb hi

/-- Refill succeeds only if it is asked for at most 16 bits and they are there. -/
theorem refill_eq_ok {n : Nat} {u : State} (h : refill n s = .ok () u) :
    n ≤ 16 ∧ s.CanRead n ∧ u = s.afterRead n 0 := by
  by_cases hn : n ≤ 16
  · by_cases he : n ≤ s.bitsLeft
    · have hr : s.CanRead n := ⟨hb, he, hi⟩
      rw [refill_ok hr hn] at h
      cases h
      exact ⟨hn, hr, rfl⟩
    · rw [refill_short hb hi (by omega) hn] at h
      cases h
  · rw [refill_wide (by omega)] at h
    cases h

/-- GetBits succeeds only if it is asked for at most 16 bits and they are there. -/
theorem getBits_eq_ok {n v : Nat} {u : State} (h : getBits n s = .ok v u) :
    n ≤ 16 ∧ s.CanRead n ∧ v = s.field 0 n ∧ u = s.afterRead n n := by
  by_cases hn : n ≤ 16
  · by_cases he : n ≤ s.bitsLeft
    · have hr : s.CanRead n := ⟨hb, he, hi⟩
      rw [getBits_ok hr hn] at h
      cases h
      exact ⟨hn, hr, rfl, rfl⟩
    · rw [getBits_short hb hi (by omega) hn] at h
      cases h
  · rw [getBits_wide (by omega)] at h
    cases h

end Success

end Sys2Proof.Machine

namespace Sys2Proof.Claims

open Sys2Proof.Machine

/-- GetCode succeeds only by reading a symbol: the table is not empty, the bits are there and the entry is filled. -/
theorem readsSymbol_of_getCode {s u : State} {t : Table} {m v : Nat} (hb : s.BitsOk)
    (hi : s.inLen.toNat ≤ s.caps.inCap) (ht : t.Ok m) (h : getCode t s = .ok v u) : ReadsSymbol t s v u := by
  have hmax := ht.maxBound
  by_cases h0 : t.max = 0
  · rw [getCode_empty h0] at h
    cases h
  by_cases he : t.max ≤ s.bitsLeft
  · have hr : s.CanRead t.max := ⟨hb, he, hi⟩
    by_cases hl : (t.entry (s.field 0 t.max)).len = 0
    · rw [getCode_unfilled hr h0 (by omega) hl] at h
      cases h
    · have hle := (ht.entry_ok (s.field 0 t.max)).1
      rw [getCode_ok hr h0 (by omega) rfl hl hle] at h
      cases h
      exact ⟨h0, hmax, hr, hl, hle, rfl, rfl⟩
  · rw [getCode_short hb hi (by omega) (by omega)] at h
    cases h

/-- A symbol's code has at least one bit and at most `T.max` (41_huffman.md R225). -/
theorem ReadsSymbol.len_bounds {t : Table} {s u : State} {v : Nat} (h : ReadsSymbol t s v u) :
    1 ≤ (t.entry (s.field 0 t.max)).len.toNat ∧ (t.entry (s.field 0 t.max)).len.toNat ≤ t.max := by
  obtain ⟨-, -, -, hlen, hle, -, -⟩ := h
  exact ⟨Nat.pos_of_ne_zero fun hz => hlen (BitVec.eq_of_toNat_eq hz), hle⟩

/-- Settles O1: the state after a refill is the read that drops nothing, or the short read if bits are missing. -/
theorem refillFetchesWholeBytes : Obligations.RefillFetchesWholeBytes := by
  intro s n hn hb hi
  have hc := hb.cntBound
  refine ⟨?_, refill_buffered hb hi hn, fun he => ⟨refill_ok ⟨hb, he, hi⟩ hn, s.fetches_enough n, fun k => ?_⟩,
    fun he => ⟨_, refill_short hb hi he hn, rfl, Nat.le_add_right _ _, fun k hk => ?_⟩⟩
  · have hleast := s.fetches_least n
    omega
  · obtain ⟨-, -, hahead⟩ := hb.afterRead_moves hn (Nat.zero_le _)
    rw [hahead, Nat.zero_add]
  · have hleast := s.fetches_least s.bitsLeft
    exact s.afterRead_keeps_buffered (by omega) hk

/-- Settles O2: the field read is the one of the next `n` bits, whose bits are the stream's. -/
theorem getBitsReadsAndDropsAField : Obligations.GetBitsReadsAndDropsAField := by
  intro s n
  refine ⟨fun hn hr => getBits_ok hr hn, fun _ _ => ⟨s.field_lt 0 n, fun i hi => ?_⟩,
    fun hn hb hi he => ⟨_, getBits_short hb hi he hn⟩, if_pos rfl, fun hn => getBits_wide hn s⟩
  rw [State.field_testBit, decide_eq_true hi, Bool.true_and, Nat.zero_add]

/-- Settles O3: one outcome for each check of R203 that fails, in its order, and one for the filled entry. -/
theorem getCodeDropsTheDecodedLength : Obligations.GetCodeDropsTheDecodedLength := by
  intro t s hmax hb hi
  exact ⟨getCode_empty, fun _ he => ⟨_, getCode_short hb hi he (by omega)⟩,
    fun h0 he hl => ⟨_, getCode_unfilled ⟨hb, he, hi⟩ h0 (by omega) hl⟩, fun _ _ h => h.getCode_eq⟩

/-- Settles O4: Align is a read that fetches nothing and drops the `cnt mod 8` bits of the byte partly read. -/
theorem alignKeepsWholeBytes : Obligations.AlignKeepsWholeBytes := by
  intro s hb
  have hcnt : s.cnt - s.cnt % 8 = 8 * (s.cnt / 8) := by omega
  obtain ⟨-, -, hahead⟩ := hb.afterRead_moves (want := 0) (n := s.cnt % 8) (by decide) (by omega)
  refine ⟨?_, by rwa [State.align_eq hb], ?_⟩
  · rw [State.align, State.dropBits, hcnt]
  · rw [State.streamPos, State.align, State.dropBits_inPos, State.dropBits_cnt, hcnt]
    omega

/-- Settles O5: each primitive that succeeds is a read of at most 16 bits, and such a read moves the stream. -/
theorem readsMoveTheStreamPosition : Obligations.ReadsMoveTheStreamPosition := by
  intro s hb hi
  refine ⟨fun n u h => ?refill, fun n v u h => ?getBits, fun t m v u ht h => ?getCode, ?align⟩
  case refill =>
    obtain ⟨hn, -, rfl⟩ := refill_eq_ok hb hi h
    simpa using hb.afterRead_moves hn (Nat.zero_le _)
  case getBits =>
    obtain ⟨hn, -, -, rfl⟩ := getBits_eq_ok hb hi h
    exact hb.afterRead_moves hn (s.fetches_enough n)
  case getCode =>
    have hs := readsSymbol_of_getCode hb hi ht h
    obtain ⟨hpos, hle⟩ := hs.len_bounds
    obtain ⟨-, hmax, -, -, -, -, rfl⟩ := hs
    exact ⟨_, hpos, hle, rfl, hb.afterRead_moves (by omega) (hle.trans (s.fetches_enough t.max))⟩
  case align =>
    obtain ⟨hok, hpos, -⟩ := hb.afterRead_moves (want := 0) (n := s.cnt % 8) (by decide) (by omega)
    rw [State.align_eq hb]
    exact ⟨hok, hpos⟩

end Sys2Proof.Claims
end

section
/-! BuildTable and the fixed tables (41_huffman.md): which length sequences are refused, which entry an index
holds, and the round trip of a symbol's code. -/

namespace Sys2Proof.Machine

/-! ### An accepted table -/

/-- The longest length is that of a symbol (41_huffman.md R221). -/
theorem maxLength_mem {lens : List Nat} (h0 : maxLength lens ≠ 0) : maxLength lens ∈ lens := by
  by_contra hnot
  have hlt : ∀ l ∈ lens, l ≤ maxLength lens - 1 := fun l hl => by
    have hle := le_maxLength hl
    have hne : l ≠ maxLength lens := fun he => hnot (he ▸ hl)
    omega
  have hmax := maxLength_le hlt
  omega

/-- The codes of the longest length fit in an accepted table (41_huffman.md R226). -/
theorem buildTable_fits {lens : List Nat} {used : Bool} {t : Table} (hb : buildTable lens used = some t) :
    firstCode lens (maxLength lens) + lengthCount lens (maxLength lens) ≤ 2 ^ maxLength lens := by
  by_cases h0 : maxLength lens = 0
  · rw [h0, firstCode, lengthCount, if_pos rfl]
    decide
  · by_contra hover
    rw [buildTable_over h0 hover] at hb
    cases hb

/-- An accepted alphabet without codes gives the empty table (41_huffman.md R222). -/
theorem buildTable_eq_empty {lens : List Nat} {used : Bool} {t : Table} (h0 : maxLength lens = 0)
    (hb : buildTable lens used = some t) : t = Table.empty := by
  rw [buildTable_empty h0] at hb
  cases used <;> cases hb
  rfl

/-- A symbol with a code has a length of 1 to `T.max` (41_huffman.md R225). -/
theorem codeBegins.len_bounds {lens : List Nat} {v : Nat} {b : Nat → Bool} (h : codeBegins lens v b) :
    1 ≤ lens.getD v 0 ∧ lens.getD v 0 ≤ maxLength lens := by
  obtain ⟨hv, h0, -⟩ := h
  refine ⟨Nat.pos_of_ne_zero h0, le_maxLength ?_⟩
  rw [List.getD_eq_getElem _ _ hv]
  exact List.getElem_mem hv

/-- The entry of an index that a symbol's code begins: its two fields hold the length and the symbol
(41_huffman.md R225). -/
theorem entry_of_codeBegins {lens : List Nat} {used : Bool} {t : Table} {j v : Nat} (hl : legalLengths lens)
    (hb : buildTable lens used = some t) (hj : j < 2 ^ t.max) (hc : codeBegins lens v j.testBit) :
    (t.entry j).len.toNat = lens.getD v 0 ∧ (t.entry j).sym.toNat = v := by
  obtain ⟨hcount, h15⟩ := hl
  obtain ⟨hmax, -, hentry⟩ := buildTable_entry hb
  obtain ⟨hpos, hle⟩ := hc.len_bounds
  have hmax15 := maxLength_le h15
  have ⟨hv, _, _⟩ := hc
  rw [(hentry j hj (by omega)).1 v hc, BitVec.toNat_ofNat, BitVec.toNat_ofNat]
  omega

/-- An index that no code begins is unfilled (41_huffman.md R227). -/
theorem entry_unfilled {lens : List Nat} {used : Bool} {t : Table} {j : Nat} (hb : buildTable lens used = some t)
    (hj : j < 2 ^ t.max) (hno : ∀ v, ¬ codeBegins lens v j.testBit) : t.entry j = Entry.unfilled := by
  obtain ⟨hmax, -, hentry⟩ := buildTable_entry hb
  by_cases h0 : t.max = 0
  · rw [buildTable_eq_empty (hmax.symm.trans h0) hb]
    rfl
  · exact (hentry j hj h0).2 hno

/-! ### The bits of a number, its first the most significant -/

theorem msbFirst_lt (b : Nat → Bool) (n : Nat) : msbFirst b n < 2 ^ n := by
  induction n with
  | zero => exact Nat.one_pos
  | succ n ih =>
    have hbit := Bool.toNat_le (b n)
    rw [msbFirst, Nat.pow_succ]
    omega

theorem msbFirst_testBit (b : Nat → Bool) {n i : Nat} (hi : i < n) : (msbFirst b n).testBit (n - 1 - i) = b i := by
  induction n with
  | zero => omega
  | succ n ih =>
    rw [msbFirst]
    by_cases hlast : i = n
    · subst hlast
      rw [show i + 1 - 1 - i = 0 by omega, Nat.testBit_zero]
      cases b i <;> simp
    · have hbit := Bool.toNat_le (b n)
      rw [show n + 1 - 1 - i = (n - 1 - i) + 1 by omega, Nat.testBit_succ,
        show (2 * msbFirst b n + (b n).toNat) / 2 = msbFirst b n by omega, ih (by omega)]

/-! ### The fixed tables -/

theorem legalLengths_fixedLit : legalLengths fixedLitLengths :=
  ⟨length_fixedLitLengths.le, fixedLitLengths_le⟩

theorem legalLengths_fixedDist : legalLengths fixedDistLengths :=
  ⟨List.length_replicate.trans_le (by decide), fixedDistLengths_le⟩

/-- The fixed literal/length lengths, symbol by symbol (41_huffman.md R230). -/
theorem fixedLitLengths_eq_map : fixedLitLengths =
    (List.range 288).map fun v => if v < 144 then 8 else if v < 256 then 9 else if v < 280 then 7 else 8 := by
  refine List.ext_getElem (by rw [length_fixedLitLengths, List.length_map, List.length_range]) fun v hv _ => ?_
  have hv288 : v < 288 := length_fixedLitLengths ▸ hv
  rw [← List.getD_eq_getElem _ 0 hv, getD_fixedLitLengths hv288, List.getElem_map, List.getElem_range]

/-- The bits that begin with a symbol's fixed code (30_encoding.md R141). -/
theorem codeBegins_fixedLit {v : Nat} (hv : v < 288) (b : Nat → Bool) : codeBegins fixedLitLengths v b ↔
    ∀ i < (fixedLitCode v).1, b i = (fixedLitCode v).2.testBit ((fixedLitCode v).1 - 1 - i) := by
  have hpos : fixedLitLengths.getD v 0 ≠ 0 := by
    rw [getD_fixedLitLengths hv]
    split_ifs <;> decide
  rw [codeBegins, fixedLitCode_eq hv, length_fixedLitLengths]
  exact ⟨fun ⟨_, _, hbits⟩ => hbits, fun hbits => ⟨hv, hpos, hbits⟩⟩

/-- The bits that begin with a fixed distance code: the code's 5 bits (41_huffman.md R231). -/
theorem codeBegins_fixedDist {d : Nat} (b : Nat → Bool) : codeBegins fixedDistLengths d b ↔
    d < 30 ∧ ∀ i < 5, b i = d.testBit (4 - i) := by
  constructor
  · rintro ⟨hd, -, hbits⟩
    obtain ⟨hlen, hcode⟩ := fixedDistCode_eq hd
    rw [hlen, hcode] at hbits
    exact ⟨hd, hbits⟩
  · rintro ⟨hd, hbits⟩
    obtain ⟨hlen, hcode⟩ := fixedDistCode_eq hd
    refine ⟨hd, by omega, ?_⟩
    rw [hlen, hcode]
    exact hbits

/-- The fixed literal/length code is complete: read most significant bit first, the next 9, 8 or 7 bits are a code.
From 0x190 on they are one of 9 bits, below that the first 8 bits are one from 0x30 on, and the first 7 bits are
one below 0x18 (30_encoding.md R141). -/
theorem fixedLitCode_complete (b : Nat → Bool) : ∃ v < 288, ∃ n, fixedLitCode v = (n, msbFirst b n) := by
  have h9 := msbFirst_lt b 9
  have h8 : msbFirst b 9 / 2 = msbFirst b 8 := msbFirst_prefix b 8 1
  have h7 : msbFirst b 9 / 4 = msbFirst b 7 := msbFirst_prefix b 7 2
  by_cases hlong : 0x190 ≤ msbFirst b 9
  · refine ⟨msbFirst b 9 - 0x190 + 144, by omega, 9, ?_⟩
    rw [fixedLitCode, if_neg (by omega), if_pos (by omega)]
    exact congrArg (Prod.mk 9) (by omega)
  by_cases hlast : 0xC0 ≤ msbFirst b 8
  · refine ⟨msbFirst b 8 - 0xC0 + 280, by omega, 8, ?_⟩
    rw [fixedLitCode, if_neg (by omega), if_neg (by omega), if_neg (by omega)]
    exact congrArg (Prod.mk 8) (by omega)
  by_cases hfirst : 0x30 ≤ msbFirst b 8
  · refine ⟨msbFirst b 8 - 0x30, by omega, 8, ?_⟩
    rw [fixedLitCode, if_pos (by omega)]
    exact congrArg (Prod.mk 8) (by omega)
  · refine ⟨msbFirst b 7 + 256, by omega, 7, ?_⟩
    rw [fixedLitCode, if_neg (by omega), if_neg (by omega), if_pos (by omega)]
    exact congrArg (Prod.mk 7) (by omega)

/-- Any bits begin with the fixed code of a literal/length symbol. -/
theorem exists_codeBegins_fixedLit (b : Nat → Bool) : ∃ v, codeBegins fixedLitLengths v b := by
  obtain ⟨v, hv, n, hcode⟩ := fixedLitCode_complete b
  refine ⟨v, (codeBegins_fixedLit hv b).2 fun i hi => ?_⟩
  rw [hcode] at hi ⊢
  rw [msbFirst_testBit b hi]

theorem fixedLitTable_filled {j : Nat} (hj : j < 512) : (fixedLitTable.entry j).len ≠ 0 := by
  obtain ⟨v, hc⟩ := exists_codeBegins_fixedLit j.testBit
  obtain ⟨hlen, -⟩ := entry_of_codeBegins legalLengths_fixedLit fixedLitTable_built (by rwa [fixedLitTable_max]) hc
  obtain ⟨hpos, -⟩ := hc.len_bounds
  intro hz
  have hzero : fixedLitLengths.getD v 0 = 0 := by
    rw [← hlen, hz]
    rfl
  omega

/-- Bits that spell 30 or 31 begin no distance code: the codes are 0 to 29 (41_huffman.md R231). -/
theorem fixedDistTable_unfilled {j : Nat} (hj : j < 32) (hspell : 30 ≤ msbFirst j.testBit 5) :
    (fixedDistTable.entry j).len = 0 := by
  have hno : ∀ d, ¬ codeBegins fixedDistLengths d j.testBit := fun d hc => by
    obtain ⟨hd, hbits⟩ := (codeBegins_fixedDist _).1 hc
    have heq := msbFirst_of_bits (by omega : d < 2 ^ 5) hbits
    omega
  rw [entry_unfilled fixedDistTable_built (by rwa [fixedDistTable_max]) hno]
  rfl

end Sys2Proof.Machine

namespace Sys2Proof.Claims

open Sys2Proof.Machine

/-- Settles O8: the field of the next `T.max` bits is an index that the code begins, so GetCode reads its symbol. -/
theorem huffmanCodesRoundTrip : Obligations.HuffmanCodesRoundTrip := by
  intro lens used t s v hl hb hc hr
  exact (readsSymbol_of_codeBegins hl hb hc hr).getCode_eq

/-- Settles O6, by the closed form of the validity check. -/
theorem buildTableRefusesExactlyTheInvalid : Obligations.BuildTableRefusesExactlyTheInvalid := by
  intro lens used hl
  obtain ⟨-, h15⟩ := hl
  exact ⟨buildTable_eq_none h15, fun hz => buildTable_empty (maxLength_eq_zero.2 hz)⟩

/-- Settles O7: the codes of an accepted table fit, so none begins another and one symbol at most claims an index. -/
theorem buildTableFillsTheSlotsOfEveryCode : Obligations.BuildTableFillsTheSlotsOfEveryCode := by
  intro lens used t hl hb
  obtain ⟨hmax, hsize, -⟩ := buildTable_entry hb
  have hle : ∀ l ∈ lens, l ≤ maxLength lens := fun _ => le_maxLength
  refine ⟨hmax ▸ hle, ?_, hsize, fun j hj => ⟨fun v w => codes_prefix_free (buildTable_fits hb) hle, fun v hc => ?_,
    entry_unfilled hb hj⟩⟩
  · rw [hmax]
    exact or_iff_not_imp_left.2 maxLength_mem
  · obtain ⟨hlen, hsym⟩ := entry_of_codeBegins hl hb hj hc
    exact ⟨hlen, hsym, hc.len_bounds.1⟩

/-- Settles O9: the fixed codes are the canonical ones of the fixed lengths, and each table has the entries of its
codes. -/
theorem fixedTablesHaveTheFixedCodes : Obligations.FixedTablesHaveTheFixedCodes := by
  have h15 : (fixedDistTable.entry 15).len = 0 := fixedDistTable_unfilled (by decide) (by decide)
  have h31 : (fixedDistTable.entry 31).len = 0 := fixedDistTable_unfilled (by decide) (by decide)
  refine ⟨fixedLitLengths_eq_map ▸ fixedLitTable_built, fixedDistTable_built, fixedLitTable_max, fixedDistTable_max,
    fun j => fixedLitTable_filled, fun v hv j hj hbits => ?litEntry, fun d hd j hj hbits => ?distEntry, h15, h31,
    fun s hr hfield => ⟨_, getCode_unfilled (by rwa [fixedDistTable_max]) ?nonempty ?small ?unfilled⟩⟩
  case litEntry =>
    rw [fixedLitCode_eq hv]
    exact entry_of_codeBegins legalLengths_fixedLit fixedLitTable_built (by rwa [fixedLitTable_max])
      ((codeBegins_fixedLit hv _).2 hbits)
  case distEntry =>
    obtain ⟨hlen, -⟩ := fixedDistCode_eq hd
    rw [← hlen]
    exact entry_of_codeBegins legalLengths_fixedDist fixedDistTable_built (by rwa [fixedDistTable_max])
      ((codeBegins_fixedDist _).2 ⟨hd, hbits⟩)
  case nonempty => rw [fixedDistTable_max]; decide
  case small => rw [fixedDistTable_max]; decide
  case unfilled =>
    rw [fixedDistTable_max]
    rcases hfield with h | h <;> rw [h]
    · exact h15
    · exact h31

end Sys2Proof.Claims
end

section
/-! Any number of engine steps and the input they do not fetch (42_inflate_blocks.md R258, R259, 40_bitreader.md
R200). -/

namespace Sys2Proof.Machine

/-! ### The engine's turn in a control state of no command -/

/-- ERROR and DONE are final for the engine: its turn changes nothing or names no element (log entry 11). -/
theorem step_of_stopped {s t : State} (hm : s.moves = []) (hf : s.fsm.running = false) (h : step s = .next t) :
    t = s := by
  obtain rfl | ⟨-, he⟩ := step_turn_cases hm h
  · rfl
  · rw [fetchElement_none hf] at he
    cases he

/-! ### After the final block -/

/-- Another BitReader and another input: all that an engine past the final block does not examine. -/
def State.withReader (s : State) (x : BitVec 32) (c p : Nat) (l : Word) (m : Memory) : State :=
  { s with acc := x, cnt := c, inPos := p, inLen := l, inp := m }

/-- The engine has the turn and no block is left to read: BLKEND or DONE with BFINAL 1. -/
structure State.PastFinalBlock (s : State) : Prop where
  turn : s.moves = []
  bfinal : s.bfinal = true
  fsm : s.fsm = .blkend ∨ s.fsm = .done

theorem State.withReader_checkpoint (s : State) (f : Fsm) (x : BitVec 32) (c p : Nat) (l : Word) (m : Memory) :
    (s.withReader x c p l m).checkpoint f = (s.checkpoint f).withReader x c p l m := by
  rw [State.checkpoint, State.checkpoint, State.goto, State.goto]
  show (if s.ckptEn = true then _ else _) = _
  split
  · rfl
  · split <;> rfl

/-- The checkpoint of the final block stays there or ends the command (42_inflate_blocks.md R258). -/
theorem State.PastFinalBlock.checkpoint_done {s : State} (h : s.PastFinalBlock) :
    (s.checkpoint .done).PastFinalBlock := by
  obtain ⟨turn, bfinal, fsm⟩ := h
  rw [State.checkpoint, State.goto, if_pos rfl]
  split
  · exact ⟨turn, bfinal, fsm⟩
  · exact ⟨turn, bfinal, .inr rfl⟩

/-- A turn of the engine past the final block examines neither the BitReader nor the input, and stays past it
(42_inflate_blocks.md R259). -/
theorem State.PastFinalBlock.step {s t : State} (h : s.PastFinalBlock) (hs : step s = .next t) : t.PastFinalBlock ∧
    ∀ x c p l m, Machine.step (s.withReader x c p l m) = .next (t.withReader x c p l m) := by
  have turn : ∀ x c p l m, (s.withReader x c p l m).moves = [] := fun _ _ _ _ _ => h.turn
  rw [step_of_turn h.turn] at hs
  cases he : s.engineEnabled with
  | false =>
    rw [fetchEngine_waiting he] at hs
    cases hs
    exact ⟨h, fun x c p l m => by rw [step_of_turn (turn x c p l m)]; exact fetchEngine_waiting he⟩
  | true =>
    rw [fetchEngine_enabled he] at hs
    rcases h.fsm with hf | hf
    · rw [blkend_step hf, h.bfinal] at hs
      cases hs
      refine ⟨h.checkpoint_done, fun x c p l m => ?_⟩
      have enabled : (s.withReader x c p l m).engineEnabled = true := he
      have atEnd : (s.withReader x c p l m).fsm = .blkend := hf
      have final : (s.withReader x c p l m).bfinal = true := h.bfinal
      rw [step_of_turn (turn x c p l m), fetchEngine_enabled enabled, blkend_step atEnd, final,
        State.withReader_checkpoint]
    · rw [fetchElement_none (by rw [hf]; rfl)] at hs
      cases hs

end Sys2Proof.Machine

namespace Sys2Proof.Claims

open Sys2Proof.Machine

/-! ### Runs of the engine -/

theorem steps_succ_eq_next {n : Nat} {s t : State} :
    steps (n + 1) s = .next t ↔ ∃ u, step s = .next u ∧ steps n u = .next t := by
  rw [steps]
  cases step s with
  | next u => simp
  | fault f => simp
  | refused q => simp

/-- A run from ERROR ends in ERROR (60_exceptions.md R611). -/
theorem steps_of_error {n : Nat} {s t : State} (hm : s.moves = []) (hf : s.fsm = .error) (h : steps n s = .next t) :
    t.fsm = .error := by
  induction n with
  | zero => cases h; exact hf
  | succ n ih =>
    obtain ⟨u, hu, ht⟩ := steps_succ_eq_next.1 h
    rw [step_of_stopped hm (by rw [hf]; rfl) hu] at ht
    exact ih ht

/-- A run depends on IN only through the bytes it fetches, and on IN_LEN only if it ends in ERROR
(40_bitreader.md R200): `step_unread` step by step. -/
theorem steps_unread {n : Nat} {s t : State} (hm : s.moves = []) (h : steps n s = .next t) : s.Fetches t ∧
    ∀ m l, s.AgreesBelow m l t.inPos → l = s.inLen ∨ t.fsm ≠ .error →
      steps n (s.withIn m l) = .next (t.withIn m l) := by
  induction n generalizing s with
  | zero => cases h; exact ⟨.refl _, fun _ _ _ _ => rfl⟩
  | succ n ih =>
    obtain ⟨u, hu, ht⟩ := steps_succ_eq_next.1 h
    obtain ⟨hsu, first⟩ := step_unread hm hu
    have hum : u.moves = [] := hsu.moves.trans hm
    obtain ⟨hut, others⟩ := ih hum ht
    refine ⟨hsu.trans hut, fun m l ha hl => steps_succ_eq_next.2 ⟨u.withIn m l, ?_, ?_⟩⟩
    · exact first m l (ha.mono hut.inPos) (hl.imp_right fun hne he => hne (steps_of_error hum he ht))
    · exact others m l (ha.later hsu) (hsu.inLen ▸ hl)

theorem steps_pastFinalBlock {n : Nat} {s t : State} (h : s.PastFinalBlock) (hn : steps n s = .next t)
    (x : BitVec 32) (c p : Nat) (l : Word) (m : Memory) :
    steps n (s.withReader x c p l m) = .next (t.withReader x c p l m) := by
  induction n generalizing s with
  | zero => cases hn; rfl
  | succ n ih =>
    obtain ⟨u, hu, ht⟩ := steps_succ_eq_next.1 hn
    obtain ⟨hpast, hstep⟩ := h.step hu
    exact steps_succ_eq_next.2 ⟨_, hstep x c p l m, ih hpast ht⟩

/-- A byte written above what a run fetches, or at or above IN_LEN, leaves the run its input. -/
theorem agreesBelow_write {s : State} {a p : Nat} (b : Byte) (h : s.inLen.toNat ≤ a ∨ p ≤ a) :
    s.AgreesBelow (s.inp.write a b) s.inLen p := fun x hx hl =>
  ⟨hl, Memory.read_write_other s.inp .inp b (by omega)⟩

/-- Settles O55: a run is steps that fetch, so an input that agrees below `in_pos` gives the same run; past the final
block nothing is fetched. -/
theorem unreadInputNeverMatters : Obligations.UnreadInputNeverMatters := by
  refine ⟨fun n s t a b hm h ha => ?_, fun n s t l hm h hd hl => ?_, fun n s t x c p l m hm hb hf h => ?_⟩
  · obtain ⟨hft, run⟩ := steps_unread hm h
    have hrun := run _ _ (agreesBelow_write b ha) (.inl rfl)
    have hs : s.putByte .inp a b = s.withIn (s.inp.write a b) s.inLen := rfl
    have ht : t.putByte .inp a b = t.withIn (s.inp.write a b) s.inLen := by rw [← hft.inp, ← hft.inLen]; rfl
    rw [hs, ht, hrun]
  · obtain ⟨hft, run⟩ := steps_unread hm h
    have hrun := run s.inp l (fun x hx _ => ⟨by omega, rfl⟩) (.inr (by rw [hd]; decide))
    have ht : ({ t with inLen := l } : State) = t.withIn s.inp l := by rw [← hft.inp]; rfl
    rw [ht]
    exact hrun
  · exact steps_pastFinalBlock ⟨hm, hb, hf⟩ h x c p l m

end Sys2Proof.Claims
end

section
/-! What an element that raises an error leaves of the state it began in, said once for every element: the error
entry of 60_exceptions.md R610 from the state before, but for the BitReader registers. -/

namespace Sys2Proof.Claims

open Sys2Proof.Machine

/-- An error raised in `t` is entered as one raised in `s`, but for the BitReader registers: since `s` the element
has touched nothing else that the error entry keeps (60_exceptions.md R610, R612). -/
def RaisesLike (s t : State) : Prop :=
  ∀ k, t.raise k = { s.raise k with acc := t.acc, cnt := t.cnt, inPos := t.inPos }

theorem RaisesLike.refl (s : State) : RaisesLike s s := fun _ => rfl

theorem RaisesLike.trans {s t u : State} (h : RaisesLike s t) (g : RaisesLike t u) : RaisesLike s u := fun k => by
  rw [g k, h k]

theorem raisesLike_afterRead (s : State) (want n : Nat) : RaisesLike s (s.afterRead want n) := fun _ => rfl

/-- The part of an element raises `k`, in a state that the error entry takes for `s`. -/
def Fails {α : Type} (r : Res α) (s : State) (k : ErrorKind) : Prop := ∃ t, r = .err k t ∧ RaisesLike s t

theorem Fails.intro {α : Type} {s t : State} (k : ErrorKind) (h : RaisesLike s t) : Fails (.err k t : Res α) s k :=
  ⟨t, rfl, h⟩

/-- An error ends the element (00_scope.md R12). -/
theorem Fails.bind {α β : Type} {r : Res α} {s : State} {k : ErrorKind} (h : Fails r s k) (f : α → State → Res β) :
    Fails (r.bind f) s k := by
  obtain ⟨t, rfl, ht⟩ := h
  exact .intro k ht

theorem Fails.mono {α : Type} {r : Res α} {s t : State} {k : ErrorKind} (h : Fails r t k) (g : RaisesLike s t) :
    Fails r s k :=
  h.imp fun _ hu => ⟨hu.1, g.trans hu.2⟩

theorem Fails.run {r : Res Unit} {s : State} {k : ErrorKind} (h : Fails r s k) : Raises r.run s k := by
  obtain ⟨t, rfl, ht⟩ := h
  exact ⟨t.raise k, rfl, ht k⟩

/-- An error while the element's own bits are read. -/
theorem Fails.raises_outcome {r : Res Instr} {s : State} {k : ErrorKind} (h : Fails r s k) :
    Raises r.fetched.outcome s k := by
  obtain ⟨t, rfl, ht⟩ := h
  exact ⟨t.raise k, rfl, ht k⟩

/-- Nothing read yet: the BitReader is in order and IN holds the input. -/
theorem canRead_zero {s : State} (hb : s.BitsOk) (hi : s.inLen.toNat ≤ s.caps.inCap) : s.CanRead 0 :=
  ⟨hb, Nat.zero_le _, hi⟩

/-- GetBits raises TruncatedInput if the bits are not there (40_bitreader.md R200). -/
theorem getBits_fails {s : State} {n : Nat} (hr : s.CanRead 0) (he : s.bitsLeft < n) (hn : n ≤ 16) :
    Fails (getBits n s) s .truncatedInput := by
  rw [getBits_short hr.bits hr.inCapOk he hn]
  exact .intro _ (raisesLike_afterRead s _ _)

/-- GetBits in an element that has read `m` bits: either the element goes on, or it raises TruncatedInput
(40_bitreader.md R200). -/
theorem getBits_afterRead_fails {α : Type} {s : State} {m n : Nat} {k : Nat → State → Res α} (hr : s.CanRead m)
    (hn : n ≤ 16)
    (hk : s.CanRead (m + n) → Fails (k (s.field m n) (s.afterRead (m + n) (m + n))) s .truncatedInput) :
    Fails ((getBits n (s.afterRead m m)).bind k) s .truncatedInput := by
  have hleft := State.afterRead_bitsLeft hr.enough (s.fetches_enough m)
  have hm := hr.enough
  by_cases he : m + n ≤ s.bitsLeft
  · have hmn : s.CanRead (m + n) := ⟨hr.bits, he, hr.inCapOk⟩
    rw [getBits_afterRead hmn hn, Res.ok_bind]
    exact hk hmn
  · exact ((getBits_fails (State.CanRead.afterRead (n := 0) hr) (by omega) hn).bind k).mono
      (raisesLike_afterRead s m m)

/-- The first bits of an element. -/
theorem getBits_first_fails {α : Type} {s : State} {n : Nat} {k : Nat → State → Res α} (hr : s.CanRead 0)
    (hn : n ≤ 16) (hk : s.CanRead n → Fails (k (s.field 0 n) (s.afterRead n n)) s .truncatedInput) :
    Fails ((getBits n s).bind k) s .truncatedInput := by
  have h := getBits_afterRead_fails (k := k) hr hn
  rw [State.afterRead_zero hr.bits (Nat.zero_le _), Nat.zero_add] at h
  exact h hk

/-- No more bits can be read than are left. -/
theorem not_canRead {s : State} {n : Nat} (h : s.bitsLeft < n) : ¬ s.CanRead n := fun hr =>
  absurd hr.enough (Nat.not_le.2 h)

end Sys2Proof.Claims
end

section
/-! The container header, the block headers and the end of a block (42_inflate_blocks.md R250..R258). -/

namespace Sys2Proof.Machine

/-! ### The container header -/

/-- The three checks of R250 are those of a legal header in 30_encoding.md R120. -/
theorem headerPasses_eq_legalHeader (cmf flg : Byte) : headerPasses cmf flg = legalHeader cmf flg := by
  have hcm : cmf &&& 0x0F = 8 ↔ cmf.toNat % 16 = 8 := by
    rw [← BitVec.toNat_inj, BitVec.toNat_and]
    show cmf.toNat &&& 2 ^ 4 - 1 = 8 ↔ _
    rw [Nat.and_two_pow_sub_one_eq_mod]
  have hfdict : flg &&& 0x20 = 0 ↔ flg.toNat / 32 % 2 = 0 := by
    rw [← BitVec.toNat_inj, BitVec.toNat_and]
    show flg.toNat &&& 2 ^ 5 = 0 ↔ _
    rw [Nat.and_two_pow, Nat.testBit_eq_decide_div_mod_eq]
    rcases Nat.mod_two_eq_zero_or_one (flg.toNat / 32) with h | h <;> simp [h]
  rw [Bool.eq_iff_iff]
  simp only [headerPasses, legalHeader, Bool.and_eq_true, beq_iff_eq, hcm, hfdict]
  tauto

theorem execZhdr_legal {cmf flg : Byte} (h : legalHeader cmf flg = true) (s : State) :
    execZhdr cmf flg s = .next { s with fsm := .blkhdr } :=
  if_pos ((headerPasses_eq_legalHeader cmf flg).trans h)

/-- The checks in terms of the two bytes' values. -/
theorem legalHeader_iff {cmf flg : Byte} : legalHeader cmf flg = true ↔
    cmf.toNat % 16 = 8 ∧ flg.toNat / 32 % 2 = 0 ∧ (cmf.toNat * 256 + flg.toNat) % 31 = 0 := by
  simp only [legalHeader, Bool.and_eq_true, beq_iff_eq, and_assoc]

/-- The header that is read is `zhdr` if the checks pass, `zhdr.bad` if one does not (30_encoding.md R120). -/
theorem decodeZhdr_eq_ite (cmf flg : Byte) : decodeZhdr (cmf.toNat + flg.toNat * 256) =
    if legalHeader cmf flg = true then .zhdr cmf flg else .zhdrBad cmf flg := by
  rw [Laws.RoundTrip.decodeZhdr_eq]
  exact if_congr (Laws.RoundTrip.decodeZhdr_legal cmf flg) rfl rfl

/-! ### The end of a block -/

theorem State.checkpoint_enabled {s : State} (h : s.ckptEn = true) (f : Fsm) :
    s.checkpoint f = { s with susp := true, suspNext := f } := if_pos h

theorem State.checkpoint_disabled {s : State} (h : s.ckptEn = false) (f : Fsm) : s.checkpoint f = s.goto f := by
  rw [State.checkpoint, h]
  rfl

end Sys2Proof.Machine

namespace Sys2Proof.Claims

open Sys2Proof.Machine Sys2Proof.Laws

/-- Settles O11: a row of the table passes the checks the instruction makes; `zhdr.bad` makes none. -/
theorem containerHeaderInstructions : Obligations.ContainerHeaderInstructions := by
  intro cmf flg s
  refine ⟨fun hw => execZhdr_legal ?_ s, fun _ => rfl⟩
  by_contra hl
  rw [Instr.WellFormed, Instr.illFormed, if_neg hl] at hw
  cases hw

/-- The step at ZHDR reads CMF and FLG and goes on, or raises BadContainerHeader (42_inflate_blocks.md R250). -/
theorem AtElement.step_zhdr {s : State} (h : AtElement s .zhdr) (hr : s.CanRead 16) : step s =
    if s.field 0 8 % 16 = 8 ∧ s.field 8 8 / 32 % 2 = 0 ∧ (s.field 0 8 * 256 + s.field 8 8) % 31 = 0 then
      .next { s.afterRead 16 16 with fsm := .blkhdr }
    else .next ((s.afterRead 16 16).raise .badContainerHeader) := by
  obtain ⟨cmf, hcmf⟩ : ∃ cmf : Byte, s.field 0 8 = cmf.toNat := ⟨⟨s.field 0 8, s.field_lt 0 8⟩, rfl⟩
  obtain ⟨flg, hflg⟩ : ∃ flg : Byte, s.field 8 8 = flg.toNat := ⟨⟨s.field 8 8, s.field_lt 8 8⟩, rfl⟩
  have hdec : decode .zhdr (s.field 0 16) = .ok (decodeZhdr (cmf.toNat + flg.toNat * 256)) := by
    rw [← hcmf, ← hflg]
    exact State.field_add s 0 8 8 ▸ RoundTrip.decode_zhdr (s.field_lt 0 16)
  rw [hcmf, hflg, stepRunsTheDecodedInstruction _ _ _ (.zhdr h hr hdec), decodeZhdr_eq_ite]
  by_cases hl : legalHeader cmf flg = true
  · rw [if_pos hl, if_pos (legalHeader_iff.1 hl)]
    exact execZhdr_legal hl _
  · rw [if_neg hl, if_neg (mt legalHeader_iff.2 hl)]
    rfl

theorem fetchZhdr_fails {s : State} (hr : s.CanRead 0) (he : s.bitsLeft < 16) :
    Fails (fetchZhdr s) s .truncatedInput :=
  getBits_first_fails hr (by decide) fun h8 => getBits_afterRead_fails h8 (by decide) fun h16 =>
    absurd h16 (not_canRead he)

/-- Settles O10, by the step at ZHDR and the two reads of its fetch. -/
theorem containerHeaderElement : Obligations.ContainerHeaderElement := by
  intro s h
  refine ⟨fun hr hcm hcheck hdict => ⟨?_, fun hp hc => ?_⟩, fun hr hbad => ?_, fun hb hi he => ?_⟩
  · rw [h.step_zhdr hr, if_pos ⟨hcm, hdict, hcheck⟩]
  · simp [State.fetches, ceilDiv, hp, hc]
  · rw [h.step_zhdr hr, if_neg (by omega)]
  · rw [h.step_eq, h.fetch_zhdr]
    exact (fetchZhdr_fails (canRead_zero hb hi) he).raises_outcome

/-- Settles O13, by the meanings of the instructions. -/
theorem blockControlInstructions : Obligations.BlockControlInstructions :=
  fun _ _ => ⟨rfl, rfl, rfl, rfl, rfl⟩

/-- The step at BLKHDR runs the block instruction of BTYPE, with `bfinal` already written. -/
theorem AtElement.step_blkhdr {s : State} (h : AtElement s .blkhdr) (hr : s.CanRead 3) : step s =
    exec (decodeBlkhdr ((s.nextBit 0).toNat + s.field 1 2 * 2)) { s.afterRead 3 3 with bfinal := s.nextBit 0 } := by
  have hdec : decode .blkhdr (s.field 0 3) = .ok (decodeBlkhdr (s.field 0 3)) :=
    RoundTrip.decode_blkhdr (s.field_lt 0 3)
  rw [stepRunsTheDecodedInstruction _ _ _ (.blkhdr h hr hdec), State.field_add s 0 1 2, State.field_one]
  rfl

/-- `bfinal` may already be written when BTYPE is not there (log entry 17). -/
theorem fetchBlkhdr_truncated {s : State} (hr : s.CanRead 0) (he : s.bitsLeft < 3) :
    ∃ t, fetchBlkhdr s = .err .truncatedInput t := by
  rw [fetchBlkhdr]
  by_cases h1 : 1 ≤ s.bitsLeft
  · have hfirst : s.CanRead 1 := ⟨hr.bits, h1, hr.inCapOk⟩
    have hleft := State.afterRead_bitsLeft h1 (s.fetches_enough 1)
    have hsecond := State.withBfinal_canRead (State.CanRead.afterRead (n := 0) hfirst) (s.field 0 1 == 1)
    have hshort : ((s.afterRead 1 1).withBfinal (s.field 0 1 == 1)).bitsLeft < 2 := by
      show (s.afterRead 1 1).bitsLeft < 2
      omega
    rw [getBits_ok hfirst (by decide), Res.ok_bind]
    change ∃ t, (getBits 2 ((s.afterRead 1 1).withBfinal (s.field 0 1 == 1))).bind _ = .err .truncatedInput t
    rw [getBits_short hsecond.bits hsecond.inCapOk hshort (by decide)]
    exact ⟨_, rfl⟩
  · rw [getBits_short hr.bits hr.inCapOk (by omega) (by decide)]
    exact ⟨_, rfl⟩

/-- Settles O12: the step at BLKHDR, and the instruction of each BTYPE. -/
theorem blockHeaderElement : Obligations.BlockHeaderElement := by
  intro s h
  refine ⟨fun hr => ?_, fun hb hi he => ?_⟩
  · rw [h.step_blkhdr hr]
    refine ⟨fun ht => ?_, fun ht => ?_, fun ht => ?_, fun ht => ?_⟩
    all_goals rw [ht]; cases s.nextBit 0 <;> rfl
  · obtain ⟨t, ht⟩ := fetchBlkhdr_truncated (canRead_zero hb hi) he
    rw [h.step_eq, h.fetch_blkhdr, ht]
    exact ⟨_, rfl, rfl, rfl⟩

/-- Settles O14: the step is the checkpoint of the end of the block. -/
theorem blockEndElement : Obligations.BlockEndElement := by
  intro s h
  have hstep := h.step_eq.trans (blkend_step h.fsm)
  have final (hf : s.bfinal = true) : step s = .next (s.checkpoint .done) := by rw [hstep, if_pos hf]
  have inner (hf : s.bfinal = false) : step s = .next (s.checkpoint .blkhdr) := by
    rw [hstep, if_neg (Bool.eq_false_iff.1 hf)]
  refine ⟨fun hc hf => ?_, fun hc hf => ?_, fun hc hf => ?_, fun hc hf => ?_⟩
  · rw [final hf, State.checkpoint_enabled hc]
  · rw [inner hf, State.checkpoint_enabled hc]
  · rw [final hf, State.checkpoint_disabled hc]
    rfl
  · rw [inner hf, State.checkpoint_disabled hc]
    rfl

end Sys2Proof.Claims
end

section
/-! Stored blocks (42_inflate_blocks.md R260): the bytes copied, and the error that ends the copy. -/

namespace Sys2Proof.Claims

open Sys2Proof.Machine

/-! ### The header of a stored block -/

theorem raisesLike_align (s : State) : RaisesLike s s.align := fun _ => rfl

/-- Align drops bits of one byte and keeps the BitReader in order (40_bitreader.md R205). -/
theorem canRead_align {s : State} (hr : s.CanRead 0) : s.align.CanRead 0 := by
  obtain ⟨hok, -, -⟩ := hr.bits.afterRead_moves (want := 0) (n := s.cnt % 8) (by decide) (by omega)
  exact canRead_zero (State.align_eq hr.bits ▸ hok) hr.inCapOk

theorem fetchStored_fails {s : State} (hr : s.CanRead 0) (he : s.align.bitsLeft < 32) :
    Fails (fetchStored s) s .truncatedInput := by
  refine Fails.mono ?_ (raisesLike_align s)
  exact getBits_first_fails (canRead_align hr) (by decide) fun hlen => getBits_afterRead_fails hlen (by decide)
    fun hnlen => absurd hnlen (not_canRead he)

/-! ### The copy -/

/-- The state after one byte of the stream is appended to OUT. -/
def storedByte (s : State) : State :=
  (s.afterRead 8 8).withOut (s.out.write s.outLen (BitVec.ofNat 8 (s.field 0 8))) (s.outLen + 1)

theorem raisesLike_storedByte (s : State) : RaisesLike s (storedByte s) := fun _ => rfl

/-- A byte that is there and has room is copied, and the others follow. -/
theorem copyStored_succ {s : State} (n : Nat) (hr : s.CanRead 8) (hroom : s.outLen < s.caps.outCap) :
    copyStored (n + 1) s = copyStored n (storedByte s) := by
  rw [copyStored, getBits_ok hr (by decide), Res.ok_bind, outAppend_ok (s := s.afterRead 8 8) _ hroom,
    Res.ok_bind]
  rfl

theorem canRead_storedByte {s : State} (hr : s.CanRead 8) : (storedByte s).CanRead 0 :=
  State.withOut_canRead (State.CanRead.afterRead (n := 0) hr) _ _

theorem bitsLeft_storedByte {s : State} (hr : s.CanRead 8) : (storedByte s).bitsLeft = s.bitsLeft - 8 :=
  State.afterRead_bitsLeft hr.enough (s.fetches_enough 8)

/-- The input ends before OUT is full (42_inflate_blocks.md R260). -/
theorem copyStored_short {n : Nat} {s : State} (hr : s.CanRead 0) (he : s.bitsLeft < 8 * n)
    (hroom : s.outLen + s.bitsLeft / 8 ≤ s.caps.outCap) : Fails (copyStored n s) s .truncatedInput := by
  induction n generalizing s with
  | zero => omega
  | succ n ih =>
    by_cases h8 : 8 ≤ s.bitsLeft
    · have hr8 : s.CanRead 8 := ⟨hr.bits, h8, hr.inCapOk⟩
      have hleft := bitsLeft_storedByte hr8
      rw [copyStored_succ n hr8 (by omega)]
      refine (ih (canRead_storedByte hr8) (by omega) ?_).mono (raisesLike_storedByte s)
      show s.outLen + 1 + (storedByte s).bitsLeft / 8 ≤ s.caps.outCap
      omega
    · exact (getBits_fails hr (by omega) (by decide)).bind _

/-- OUT is full before the input ends (42_inflate_blocks.md R260). -/
theorem copyStored_full {n : Nat} {s : State} (hr : s.CanRead 0) (ho : s.outLen ≤ s.caps.outCap)
    (hn : s.caps.outCap < s.outLen + n) (hleft : s.caps.outCap < s.outLen + s.bitsLeft / 8) :
    Fails (copyStored n s) s .capacityExceeded := by
  induction n generalizing s with
  | zero => omega
  | succ n ih =>
    have hr8 : s.CanRead 8 := ⟨hr.bits, by omega, hr.inCapOk⟩
    by_cases hroom : s.outLen < s.caps.outCap
    · have hnext := bitsLeft_storedByte hr8
      rw [copyStored_succ n hr8 hroom]
      refine (ih (canRead_storedByte hr8) hroom ?_ ?_).mono (raisesLike_storedByte s)
      · show s.caps.outCap < s.outLen + 1 + n
        omega
      · show s.caps.outCap < s.outLen + 1 + (storedByte s).bitsLeft / 8
        omega
    · rw [copyStored, getBits_ok hr8 (by decide), Res.ok_bind,
        outAppend_full (s := s.afterRead 8 8) _ (Nat.not_lt.1 hroom)]
      exact .intro _ (raisesLike_afterRead s 8 8)

/-! ### The instruction -/

theorem storedBody_of_complement {len nlen : BitVec 16} (h : nlen = ~~~len) (s : State) :
    storedBody len nlen s = (copyStored len.toNat s).bind fun _ s => .ok () { s with fsm := .blkend } :=
  if_pos (beq_iff_eq.2 h)

theorem storedBody_of_mismatch {len nlen : BitVec 16} (h : nlen ≠ ~~~len) (s : State) :
    storedBody len nlen s = .err .lengthCheckMismatch s :=
  if_neg (mt beq_iff_eq.1 h)

/-- Settles O15: the copy reads LEN bytes, or ends at the first byte that is missing or has no room. -/
theorem storedBlockCopiesItsBytes : Obligations.StoredBlockCopiesItsBytes := by
  refine ⟨fun s h hb hi he => ?_, fun len nlen s => ⟨fun hc hr hroom => ?_, fun hc => ?_,
    fun hc hb hi he hroom => ?_, fun hc hb hi ho hn hleft => ?_⟩⟩
  · rw [h.step_eq, h.fetch_stored]
    exact (fetchStored_fails (canRead_zero hb hi) he).raises_outcome
  · obtain ⟨m, hcopy, hbytes, hframe⟩ := copyStored_ok hr hroom
    have hrun : exec (.stored len nlen) s = .next { (s.afterRead (8 * len.toNat) (8 * len.toNat)).withOut m
        (s.outLen + len.toNat) with fsm := .blkend } := by
      show (storedBody len nlen s).run = _
      rw [storedBody_of_complement hc, hcopy]
      rfl
    refine ⟨_, hrun, rfl, fun k hk => ?_, hframe⟩
    show (m.read .out (s.outLen + k)).toNat = _
    rw [hbytes k hk, BitVec.toNat_ofNat, Nat.mod_eq_of_lt (s.field_lt _ 8)]
  · show (storedBody len nlen s).run = _
    rw [storedBody_of_mismatch hc]
    rfl
  · apply Fails.run
    rw [storedBody_of_complement hc]
    exact (copyStored_short (canRead_zero hb hi) he hroom).bind _
  · apply Fails.run
    rw [storedBody_of_complement hc]
    exact (copyStored_full (canRead_zero hb hi) ho hn hleft).bind _

end Sys2Proof.Claims
end

section
/-! The dynamic header (42_inflate_blocks.md R270..R277): its code-length code, the turns of its loop, the two
tables, and the error of each part. -/

namespace Sys2Proof.Machine

/-! ### The code-length instructions -/

/-- A repeat within the header's total appends its copies (42_inflate_blocks.md R273..R276). -/
theorem repeatLength_ok {s : State} {v base extra : Nat} (hr : s.CanRead extra) (he : extra ≤ 16)
    (hn : s.dyn.lens.length + (base + s.field 0 extra) ≤ s.lengthTotal) :
    repeatLength v base extra s = .ok () ((s.afterRead extra extra).pushLengths (base + s.field 0 extra) v) := by
  rw [repeatLength, getBits_ok hr he, Res.ok_bind]
  exact if_neg (Nat.not_lt.2 hn)

/-- A repeat past the header's total (42_inflate_blocks.md R276). -/
theorem repeatLength_past {s : State} {v base extra : Nat} (hr : s.CanRead extra) (he : extra ≤ 16)
    (hn : s.lengthTotal < s.dyn.lens.length + (base + s.field 0 extra)) :
    repeatLength v base extra s = .err .invalidHuffmanTable (s.afterRead extra extra) := by
  rw [repeatLength, getBits_ok hr he, Res.ok_bind]
  exact if_pos hn

theorem repeatLength_run_ok {s : State} {v base extra : Nat} (hr : s.CanRead extra) (he : extra ≤ 16)
    (hn : s.dyn.lens.length + (base + s.field 0 extra) ≤ s.lengthTotal) : (repeatLength v base extra s).run =
      .next ((s.afterRead extra extra).pushLengths (base + s.field 0 extra) v) := by
  rw [repeatLength_ok hr he hn]
  rfl

theorem repeatLength_run_past {s : State} {v base extra : Nat} (hr : s.CanRead extra) (he : extra ≤ 16)
    (hn : s.lengthTotal < s.dyn.lens.length + (base + s.field 0 extra)) :
    (repeatLength v base extra s).run = .next ((s.afterRead extra extra).raise .invalidHuffmanTable) := by
  rw [repeatLength_past hr he hn]
  rfl

theorem clRep16Step_some {s : State} {v : Nat} (h : s.dyn.lens.getLast? = some v) :
    clRep16Step s = repeatLength v 3 2 s := by
  rw [clRep16Step, h]

theorem clRep16Step_nil {s : State} (h : s.dyn.lens = []) : clRep16Step s = .err .invalidHuffmanTable s := by
  rw [clRep16Step, h]
  rfl

/-- Symbols up to 15 stand for themselves (42_inflate_blocks.md R272). -/
theorem clStep_literal {v : Nat} (hv : v ≤ 15) (s : State) : clStep v s = .ok () (s.pushLengths 1 v) := by
  have hval : (BitVec.ofNat 4 v).toNat = v := by rw [BitVec.toNat_ofNat]; omega
  rw [clStep, if_pos (by omega), clLenStep, hval]

/-! ### The code-length code -/

theorem clCount_le (hclen : BitVec 4) : clCount hclen ≤ 19 := by
  have := hclen.isLt
  unfold clCount
  omega

end Sys2Proof.Machine

namespace Sys2Proof.Claims

open Sys2Proof.Machine

/-- Settles O19: each repeat within the total and past it, and a 16 with no length before it. -/
theorem codeLengthInstructionsAppend : Obligations.CodeLengthInstructionsAppend := by
  intro s
  refine ⟨fun len => rfl, fun v hv hr hn => ?_, fun hr => repeatLength_run_ok hr (by decide),
    fun hr => repeatLength_run_ok hr (by decide), fun hnil => ?_, fun hne hr hn => ?_,
    fun hr => repeatLength_run_past hr (by decide), fun hr => repeatLength_run_past hr (by decide)⟩
  · show (clRep16Step s).run = _
    rw [clRep16Step_some hv]
    exact repeatLength_run_ok hr (by decide) hn
  · show (clRep16Step s).run = _
    rw [clRep16Step_nil hnil]
    rfl
  · show (clRep16Step s).run = _
    rw [clRep16Step_some (List.getLast?_eq_some_getLast hne)]
    exact repeatLength_run_past hr (by decide) hn

/-! ### A state inside a header -/

/-- The state inside a header whose fields and code-length code are those of `d`, with `lens` read so far
(log entry 7). -/
def inHeader (s : State) (d : DynScratch) (lens : List Nat) : State := s.withDyn { d with lens := lens }

theorem inHeader_field (s : State) (d : DynScratch) (lens : List Nat) (k n : Nat) :
    (inHeader s d lens).field k n = s.field k n := State.withDyn_field s _ k n

theorem inHeader_afterRead (s : State) (d : DynScratch) (lens : List Nat) (want n : Nat) :
    (inHeader s d lens).afterRead want n = inHeader (s.afterRead want n) d lens := State.withDyn_afterRead s _ want n

theorem inHeader_canRead {s : State} {n : Nat} (h : s.CanRead n) (d : DynScratch) (lens : List Nat) :
    (inHeader s d lens).CanRead n := State.withDyn_canRead h _

/-- The scratch of a header does not show in its error. -/
theorem raisesLike_inHeader (s : State) (d : DynScratch) (lens : List Nat) : RaisesLike s (inHeader s d lens) :=
  fun _ => rfl

theorem ReadsSymbol.inHeader {c : Table} {s u : State} {v : Nat} (h : ReadsSymbol c s v u) (d : DynScratch)
    (lens : List Nat) : ReadsSymbol c (inHeader s d lens) v (inHeader u d lens) := by
  obtain ⟨hmax, hbound, hread, hlen, hle, hv, rfl⟩ := h
  simp only [ReadsSymbol, inHeader_field, inHeader_afterRead]
  exact ⟨hmax, hbound, inHeader_canRead hread d lens, hlen, hle, hv, trivial⟩

/-- A symbol that has been read leaves the BitReader in order. -/
theorem ReadsSymbol.canRead_zero {c : Table} {s u : State} {v : Nat} (h : ReadsSymbol c s v u) : u.CanRead 0 := by
  obtain ⟨-, hbound, hread, -, hle, -, rfl⟩ := h
  obtain ⟨hok, -, -⟩ := hread.bits.afterRead_moves (want := c.max) (by omega) (hle.trans (s.fetches_enough c.max))
  exact ⟨hok, Nat.zero_le _, hread.inCapOk⟩

theorem ReadsSymbol.raisesLike {c : Table} {s u : State} {v : Nat} (h : ReadsSymbol c s v u) : RaisesLike s u := by
  obtain ⟨-, -, -, -, -, -, rfl⟩ := h
  exact raisesLike_afterRead s _ _

/-! ### The loop -/

section Loop

variable {d : DynScratch} {s u t : State} {lens all : List Nat} {v : Nat}

/-- A turn of the loop while lengths are missing (42_inflate_blocks.md R270). -/
theorem clLoop_missing (hl : lens.length < d.hlit + d.hdist) (k : Nat) : clLoop (k + 1) (inHeader s d lens) =
    (getCode d.clt (inHeader s d lens)).bind fun v w => (clStep v w).bind fun _ w => clLoop k w :=
  if_pos hl

/-- A turn of the loop that reads a symbol runs its instruction. -/
theorem clLoop_turn (hl : lens.length < d.hlit + d.hdist) (hs : ReadsSymbol d.clt s v u) (k : Nat) :
    clLoop (k + 1) (inHeader s d lens) = (clStep v (inHeader u d lens)).bind fun _ w => clLoop k w := by
  rw [clLoop_missing hl, (hs.inHeader d lens).getCode_eq, Res.ok_bind]

/-- The loop is over when all lengths are read. -/
theorem clLoop_over (hl : d.hlit + d.hdist ≤ lens.length) (k : Nat) :
    clLoop k (inHeader s d lens) = .ok () (inHeader s d lens) := by
  cases k with
  | zero => rfl
  | succ k => rw [clLoop]; exact if_neg (Nat.not_lt.2 hl)

/-- A repeat inside a header, within its total. -/
theorem repeatLength_inHeader {base extra : Nat} (hr : u.CanRead extra) (he : extra ≤ 16)
    (hn : lens.length + (base + u.field 0 extra) ≤ d.hlit + d.hdist) :
    repeatLength v base extra (inHeader u d lens) =
      .ok () (inHeader (u.afterRead extra extra) d (lens ++ List.replicate (base + u.field 0 extra) v)) := by
  have hfield := inHeader_field u d lens 0 extra
  rw [repeatLength_ok (inHeader_canRead hr d lens) he (by rw [hfield]; exact hn), hfield, inHeader_afterRead]
  rfl

/-- With turns enough for the lengths still to be read, the loop gets from `lens` read in `s` to `all` read in `t`,
with turns enough left. -/
def LoopReaches (d : DynScratch) (s : State) (lens : List Nat) (t : State) (all : List Nat) : Prop :=
  ∀ k, d.hlit + d.hdist ≤ lens.length + k →
    ∃ j, d.hlit + d.hdist ≤ all.length + j ∧ clLoop k (inHeader s d lens) = clLoop j (inHeader t d all)

/-- A turn that appends `n` lengths, before turns that reach `all`. -/
theorem LoopReaches.turn {w : State} {n x : Nat} (hl : lens.length < d.hlit + d.hdist) (hs : ReadsSymbol d.clt s v u)
    (hstep : clStep v (inHeader u d lens) = .ok () (inHeader w d (lens ++ List.replicate n x))) (hn : 1 ≤ n)
    (rest : LoopReaches d w (lens ++ List.replicate n x) t all) : LoopReaches d s lens t all := by
  intro k hk
  obtain ⟨k, rfl⟩ : ∃ j, k = j + 1 := ⟨k - 1, by omega⟩
  obtain ⟨j, hj, hloop⟩ := rest k (by rw [List.length_append, List.length_replicate]; omega)
  exact ⟨j, hj, by rw [clLoop_turn hl hs, hstep, Res.ok_bind, hloop]⟩

/-- The turns of R270 are turns of the machine's loop. -/
theorem CodeLengths.loopReaches (h : CodeLengths d.clt (d.hlit + d.hdist) s lens t all) :
    LoopReaches d s lens t all := by
  induction h with
  | none s lens => exact fun k hk => ⟨k, hk, rfl⟩
  | @literal s u t lens all v hl hs hv rest ih =>
    exact .turn (n := 1) hl hs (clStep_literal hv _) (Nat.le_refl 1) ih
  | @previous s u t lens all v hl hs hv hr hn rest ih =>
    exact .turn hl hs ((clRep16Step_some hv).trans (repeatLength_inHeader hr (by decide) hn)) (by omega) ih
  | zeros hl hs hr hn rest ih => exact .turn hl hs (repeatLength_inHeader hr (by decide) hn) (by omega) ih
  | manyZeros hl hs hr hn rest ih => exact .turn hl hs (repeatLength_inHeader hr (by decide) hn) (by omega) ih

end Loop

/-! ### The parts of a header -/

/-- The code-length code lengths are the fields of the header, put in CL_ORDER (42_inflate_blocks.md R271). -/
theorem codeLengthLengths_eq (s : State) {n : Nat} (hn : n ≤ 19) :
    codeLengthLengths s n = clLengths ((List.range n).map fun i => s.field (3 * i) 3) := by
  rw [clLengths_eq (by simpa using hn)]
  refine List.map_congr_left fun v _ => ?_
  show (if clOrder.idxOf v < n then s.field (3 * clOrder.idxOf v) 3 else 0) = _
  simp only [List.length_map, List.length_range]
  split
  next h => rw [List.getD_eq_getElem _ _ (by simpa using h), List.getElem_map, List.getElem_range]
  next => rfl

theorem codeLengthLengths_le (s : State) (n : Nat) : ∀ l ∈ codeLengthLengths s n, l ≤ 15 := by
  intro l hl
  obtain ⟨v, -, rfl⟩ := List.mem_map.1 hl
  split
  · have := s.field_lt (3 * clOrder.idxOf v) 3
    show s.field (3 * clOrder.idxOf v) 3 ≤ 15
    omega
  · exact Nat.zero_le _

/-- The code-length code has at most 15 bits (41_huffman.md R221). -/
theorem max_le_of_codeLengthLengths {s : State} {n : Nat} {clt : Table}
    (h : buildTable (codeLengthLengths s n) true = some clt) : clt.max ≤ 15 := by
  obtain ⟨hmax, -, -⟩ := buildTable_entry h
  exact hmax ▸ maxLength_le (codeLengthLengths_le s n)

theorem buildTableStep_some {lens : List Nat} {used : Bool} {c : Table} (h : buildTable lens used = some c)
    (s : State) : buildTableStep lens used s = .ok c s := by
  rw [buildTableStep, h]

theorem buildTableStep_none {lens : List Nat} {used : Bool} (h : buildTable lens used = none) (s : State) :
    buildTableStep lens used s = .err .invalidHuffmanTable s := by
  rw [buildTableStep, h]

/-- Too few bits for the code-length fields (42_inflate_blocks.md R270). -/
theorem readClLengths_fails {n : Nat} {s : State} (hr : s.CanRead 0) (he : s.bitsLeft < 3 * n) :
    Fails (readClLengths n s) s .truncatedInput := by
  induction n generalizing s with
  | zero => omega
  | succ n ih =>
    refine getBits_first_fails hr (by decide) fun h3 => ?_
    have henough := h3.enough
    have hleft := State.afterRead_bitsLeft henough (s.fetches_enough 3)
    exact ((ih (State.CanRead.afterRead (n := 0) h3) (by omega)).bind _).mono (raisesLike_afterRead s 3 3)

/-- The scratch of a header before its first code length. -/
def headerStart (hlit hdist : BitVec 5) (clt : Table) : DynScratch :=
  { hlit := litCount hlit, hdist := distCount hdist, lens := [], clt := clt }

section Header

variable {hlit hdist : BitVec 5} {hclen : BitVec 4} {s t : State} {lens : List Nat} {clt : Table}

/-- The code-length fields are read before the code-length code is built. -/
theorem dynamicHeader_fields (hr : s.CanRead (3 * clCount hclen)) : dynamicHeader hlit hdist hclen s =
    (buildTableStep (codeLengthLengths s (clCount hclen)) true
      (s.afterRead (3 * clCount hclen) (3 * clCount hclen))).bind fun clt w =>
        (clLoop (litCount hlit + distCount hdist) (inHeader w (headerStart hlit hdist clt) [])).bind
          fun _ w => dynamicTables w := by
  rw [dynamicHeader, readClLengths_ok hr, Res.ok_bind, codeLengthLengths_eq s (clCount_le hclen)]
  rfl

/-- The lengths `lens` have been read from the header that begins in `s`, and `t` has those after them to read
(42_inflate_blocks.md R270). -/
structure HeaderReads (hlit hdist : BitVec 5) (hclen : BitVec 4) (s : State) (clt : Table) (t : State)
    (lens : List Nat) : Prop where
  fields : s.CanRead (3 * clCount hclen)
  code : buildTable (codeLengthLengths s (clCount hclen)) true = some clt
  turns : CodeLengths clt (litCount hlit + distCount hdist)
    (s.afterRead (3 * clCount hclen) (3 * clCount hclen)) [] t lens

/-- The header goes on with the lengths still missing, with turns enough for them. -/
theorem HeaderReads.dynamicHeader_eq (h : HeaderReads hlit hdist hclen s clt t lens) :
    ∃ j, litCount hlit + distCount hdist ≤ lens.length + j ∧ dynamicHeader hlit hdist hclen s =
      (clLoop j (inHeader t (headerStart hlit hdist clt) lens)).bind fun _ w => dynamicTables w := by
  have hreach := CodeLengths.loopReaches (d := headerStart hlit hdist clt) h.turns
  obtain ⟨j, hj, hloop⟩ := hreach (litCount hlit + distCount hdist) (Nat.le_add_left _ _)
  exact ⟨j, hj, by rw [dynamicHeader_fields h.fields, buildTableStep_some h.code, Res.ok_bind, hloop]⟩

/-- All lengths are read: the tables are built. -/
theorem HeaderReads.dynamicHeader_over (h : HeaderReads hlit hdist hclen s clt t lens)
    (hl : lens.length = litCount hlit + distCount hdist) : dynamicHeader hlit hdist hclen s =
      dynamicTables (inHeader t (headerStart hlit hdist clt) lens) := by
  obtain ⟨j, -, hdyn⟩ := h.dynamicHeader_eq
  rw [hdyn, clLoop_over (d := headerStart hlit hdist clt) hl.ge, Res.ok_bind]

/-- An invalid or empty literal/length code (42_inflate_blocks.md R277). -/
theorem dynamicTables_lit_invalid (hb : buildTable (lens.take (litCount hlit)) true = none) :
    dynamicTables (inHeader t (headerStart hlit hdist clt) lens) =
      .err .invalidHuffmanTable (inHeader t (headerStart hlit hdist clt) lens) := by
  show (buildTableStep (lens.take (litCount hlit)) true _).bind _ = _
  rw [buildTableStep_none hb]
  rfl

/-- The literal/length table is written before the distance code is built (log entry 15). -/
theorem dynamicTables_lit {llt : Table} (hb : buildTable (lens.take (litCount hlit)) true = some llt) :
    dynamicTables (inHeader t (headerStart hlit hdist clt) lens) =
      (buildTableStep (lens.drop (litCount hlit)) false
        (inHeader { t with llt := llt } (headerStart hlit hdist clt) lens)).bind fun dt w =>
          .ok () { w with dt := dt, dyn := DynScratch.empty, fsm := .symbol } := by
  show (buildTableStep (lens.take (litCount hlit)) true _).bind _ = _
  rw [buildTableStep_some hb]
  rfl

end Header

/-- Settles O16: the loop reads all lengths, and the tables are built from its two parts of them. -/
theorem dynamicHeaderBuildsBothTables : Obligations.DynamicHeaderBuildsBothTables := by
  intro hlit hdist hclen s t lens clt llt dt hr hclt hturns hl hllt hdt
  have hreads : HeaderReads hlit hdist hclen s clt t lens := ⟨hr, hclt, hturns⟩
  show (dynamicHeader hlit hdist hclen s).run = _
  rw [hreads.dynamicHeader_over hl, dynamicTables_lit hllt, buildTableStep_some (lens := lens.drop (litCount hlit)) hdt]
  rfl

/-! ### The errors of a header -/

theorem fetchDynhdr_fails {s : State} (hr : s.CanRead 0) (he : s.bitsLeft < 14) :
    Fails (fetchDynhdr s) s .truncatedInput :=
  getBits_first_fails hr (by decide) fun h5 => getBits_afterRead_fails h5 (by decide) fun h10 =>
    getBits_afterRead_fails h10 (by decide) fun h14 => absurd h14 (not_canRead he)

/-- The turns of the loop leave the BitReader in order, and touch nothing else that an error keeps. -/
theorem CodeLengths.reader {clt : Table} {total : Nat} {s t : State} {lens all : List Nat}
    (h : CodeLengths clt total s lens t all) (hr : s.CanRead 0) : t.CanRead 0 ∧ RaisesLike s t := by
  have extra {u : State} {n : Nat} (hn : u.CanRead n) : (u.afterRead n n).CanRead 0 := State.CanRead.afterRead hn
  induction h with
  | none s lens => exact ⟨hr, .refl s⟩
  | literal hl hs hv rest ih =>
    obtain ⟨ht, hlike⟩ := ih hs.canRead_zero
    exact ⟨ht, hs.raisesLike.trans hlike⟩
  | previous hl hs hv hx hn rest ih | zeros hl hs hx hn rest ih | manyZeros hl hs hx hn rest ih =>
    obtain ⟨ht, hlike⟩ := ih (extra hx)
    exact ⟨ht, hs.raisesLike.trans ((raisesLike_afterRead _ _ _).trans hlike)⟩

/-- GetCode raises TruncatedInput if the table's bits are not there (40_bitreader.md R203). -/
theorem getCode_fails {c : Table} {s : State} (hr : s.CanRead 0) (hc : c.max ≤ 15) (he : s.bitsLeft < c.max) :
    Fails (getCode c s) s .truncatedInput := by
  rw [getCode_short hr.bits hr.inCapOk he (by omega)]
  exact .intro _ (raisesLike_afterRead s _ _)

/-- GetCode raises InvalidHuffmanTable on an unfilled entry, and on an empty table (40_bitreader.md R203). -/
theorem getCode_unfilled_fails {c : Table} {s : State} (hr : s.CanRead c.max) (hc : c.max ≤ 15)
    (hu : (c.entry (s.field 0 c.max)).len = 0) : Fails (getCode c s) s .invalidHuffmanTable := by
  by_cases h0 : c.max = 0
  · rw [getCode_empty h0]
    exact .intro _ (.refl s)
  · rw [getCode_unfilled hr h0 (by omega) hu]
    exact .intro _ (raisesLike_afterRead s _ _)

/-- A repeat symbol's instruction repeats something, if a length is there to be repeated. -/
theorem clStep_repeat {r : Nat × Nat × Nat} (hmem : r ∈ repeatTable) (s : State) (hlens : r.1 = 16 → s.dyn.lens ≠ []) :
    ∃ v, clStep r.1 s = repeatLength v r.2.1 r.2.2 s := by
  simp only [repeatTable, List.mem_cons, List.not_mem_nil, or_false] at hmem
  obtain rfl | rfl | rfl := hmem
  · exact ⟨_, clRep16Step_some (List.getLast?_eq_some_getLast (hlens rfl))⟩
  · exact ⟨0, rfl⟩
  · exact ⟨0, rfl⟩

theorem repeatTable_extra_le : ∀ r ∈ repeatTable, r.2.2 ≤ 16 := by decide

/-- A table written after the state an error is taken from, in both. -/
theorem RaisesLike.withLlt {s t : State} (h : RaisesLike s t) (l : Table) :
    RaisesLike { s with llt := l } { t with llt := l } := fun k => by
  show ({ t.raise k with llt := l } : State) = _
  rw [h k]
  rfl

section HeaderErrors

variable {hlit hdist : BitVec 5} {hclen : BitVec 4} {s t u : State} {lens : List Nat} {clt : Table} {k : ErrorKind}

theorem HeaderReads.reader (h : HeaderReads hlit hdist hclen s clt t lens) : t.CanRead 0 ∧ RaisesLike s t := by
  obtain ⟨ht, hlike⟩ := h.turns.reader (State.CanRead.afterRead (n := 0) h.fields)
  exact ⟨ht, (raisesLike_afterRead s _ _).trans hlike⟩

/-- An error of the next turn is the header's. -/
theorem HeaderReads.fails_of_turn (h : HeaderReads hlit hdist hclen s clt t lens)
    (hl : lens.length < litCount hlit + distCount hdist)
    (hturn : ∀ j, Fails (clLoop (j + 1) (inHeader t (headerStart hlit hdist clt) lens)) t k) :
    Raises (exec (.dynhdr hlit hdist hclen) s) s k := by
  obtain ⟨j, hj, hdyn⟩ := h.dynamicHeader_eq
  obtain ⟨-, hlike⟩ := h.reader
  obtain ⟨j, rfl⟩ : ∃ i, j = i + 1 := ⟨j - 1, by omega⟩
  apply Fails.run
  rw [hdyn]
  exact ((hturn j).bind _).mono hlike

/-- An error of the next GetCode is the header's. -/
theorem HeaderReads.fails_of_getCode (h : HeaderReads hlit hdist hclen s clt t lens)
    (hl : lens.length < litCount hlit + distCount hdist)
    (hcode : Fails (getCode clt (inHeader t (headerStart hlit hdist clt) lens)) t k) :
    Raises (exec (.dynhdr hlit hdist hclen) s) s k := by
  refine h.fails_of_turn hl fun j => ?_
  rw [clLoop_missing (d := headerStart hlit hdist clt) hl]
  exact hcode.bind _

/-- An error of the next symbol's instruction is the header's. -/
theorem HeaderReads.fails_of_clStep {v : Nat} (h : HeaderReads hlit hdist hclen s clt t lens)
    (hl : lens.length < litCount hlit + distCount hdist) (hs : ReadsSymbol clt t v u)
    (hstep : Fails (clStep v (inHeader u (headerStart hlit hdist clt) lens)) u k) :
    Raises (exec (.dynhdr hlit hdist hclen) s) s k := by
  refine h.fails_of_turn hl fun j => ?_
  rw [clLoop_turn (d := headerStart hlit hdist clt) hl hs]
  exact (hstep.bind _).mono hs.raisesLike

theorem dynamicHeader_fields_missing (hlit hdist : BitVec 5) (hr : s.CanRead 0) (he : s.bitsLeft < 3 * clCount hclen) :
    Raises (exec (.dynhdr hlit hdist hclen) s) s .truncatedInput :=
  ((readClLengths_fails hr he).bind _).run

theorem dynamicHeader_code_invalid (hlit hdist : BitVec 5) (hr : s.CanRead (3 * clCount hclen))
    (hb : buildTable (codeLengthLengths s (clCount hclen)) true = none) :
    Raises (exec (.dynhdr hlit hdist hclen) s) s .invalidHuffmanTable := by
  apply Fails.run
  rw [dynamicHeader_fields hr, buildTableStep_none hb]
  exact .intro _ (raisesLike_afterRead s _ _)

section Missing

variable (h : HeaderReads hlit hdist hclen s clt t lens) (hl : lens.length < litCount hlit + distCount hdist)

include h hl

theorem HeaderReads.code_missing (he : t.bitsLeft < clt.max) :
    Raises (exec (.dynhdr hlit hdist hclen) s) s .truncatedInput := by
  obtain ⟨ht, -⟩ := h.reader
  have hread := inHeader_canRead ht (headerStart hlit hdist clt) lens
  have hfail := getCode_fails hread (max_le_of_codeLengthLengths h.code) he
  exact h.fails_of_getCode hl (hfail.mono (raisesLike_inHeader t _ _))

theorem HeaderReads.entry_unfilled (he : clt.max ≤ t.bitsLeft) (hu : (clt.entry (t.field 0 clt.max)).len = 0) :
    Raises (exec (.dynhdr hlit hdist hclen) s) s .invalidHuffmanTable := by
  obtain ⟨ht, -⟩ := h.reader
  have hr : t.CanRead clt.max := ⟨ht.bits, he, ht.inCapOk⟩
  have hread := inHeader_canRead hr (headerStart hlit hdist clt) lens
  rw [← inHeader_field t (headerStart hlit hdist clt) lens] at hu
  have hfail := getCode_unfilled_fails hread (max_le_of_codeLengthLengths h.code) hu
  exact h.fails_of_getCode hl (hfail.mono (raisesLike_inHeader t _ _))

theorem HeaderReads.nothing_to_repeat (hs : ReadsSymbol clt t 16 u) (hnil : lens = []) :
    Raises (exec (.dynhdr hlit hdist hclen) s) s .invalidHuffmanTable := by
  refine h.fails_of_clStep hl hs ?_
  show Fails (clRep16Step (inHeader u (headerStart hlit hdist clt) lens)) u _
  rw [clRep16Step_nil hnil]
  exact .intro _ (raisesLike_inHeader u _ _)

theorem HeaderReads.extra_missing {r : Nat × Nat × Nat} (hr : r ∈ repeatTable) (hs : ReadsSymbol clt t r.1 u)
    (hlens : r.1 = 16 → lens ≠ []) (he : u.bitsLeft < r.2.2) :
    Raises (exec (.dynhdr hlit hdist hclen) s) s .truncatedInput := by
  obtain ⟨v, hstep⟩ := clStep_repeat hr (inHeader u (headerStart hlit hdist clt) lens) hlens
  refine h.fails_of_clStep hl hs ?_
  rw [hstep]
  have hread := inHeader_canRead hs.canRead_zero (headerStart hlit hdist clt) lens
  have hfail := getBits_fails hread he (repeatTable_extra_le r hr)
  exact (hfail.bind _).mono (raisesLike_inHeader u _ _)

theorem HeaderReads.repeat_past {r : Nat × Nat × Nat} (hr : r ∈ repeatTable) (hs : ReadsSymbol clt t r.1 u)
    (hlens : r.1 = 16 → lens ≠ []) (he : r.2.2 ≤ u.bitsLeft)
    (hpast : litCount hlit + distCount hdist < lens.length + (r.2.1 + u.field 0 r.2.2)) :
    Raises (exec (.dynhdr hlit hdist hclen) s) s .invalidHuffmanTable := by
  obtain ⟨v, hstep⟩ := clStep_repeat hr (inHeader u (headerStart hlit hdist clt) lens) hlens
  have hextra : u.CanRead r.2.2 := ⟨hs.canRead_zero.bits, he, hs.canRead_zero.inCapOk⟩
  refine h.fails_of_clStep hl hs ?_
  rw [← inHeader_field u (headerStart hlit hdist clt) lens] at hpast
  rw [hstep, repeatLength_past (inHeader_canRead hextra _ _) (repeatTable_extra_le r hr) hpast]
  exact .intro _ ((raisesLike_inHeader u _ _).trans (raisesLike_afterRead _ _ _))

end Missing

theorem HeaderReads.lit_invalid (h : HeaderReads hlit hdist hclen s clt t lens)
    (hl : lens.length = litCount hlit + distCount hdist) (hb : buildTable (lens.take (litCount hlit)) true = none) :
    Raises (exec (.dynhdr hlit hdist hclen) s) s .invalidHuffmanTable := by
  obtain ⟨-, hlike⟩ := h.reader
  apply Fails.run
  rw [h.dynamicHeader_over hl, dynamicTables_lit_invalid hb]
  exact .intro _ (hlike.trans (raisesLike_inHeader t _ _))

theorem HeaderReads.dist_invalid (h : HeaderReads hlit hdist hclen s clt t lens)
    (hl : lens.length = litCount hlit + distCount hdist) {llt : Table}
    (hb : buildTable (lens.take (litCount hlit)) true = some llt)
    (hd : buildTable (lens.drop (litCount hlit)) false = none) :
    Raises (exec (.dynhdr hlit hdist hclen) s) { s with llt := llt } .invalidHuffmanTable := by
  obtain ⟨-, hlike⟩ := h.reader
  apply Fails.run
  rw [h.dynamicHeader_over hl, dynamicTables_lit hb, buildTableStep_none hd]
  exact .intro _ ((hlike.withLlt llt).trans (raisesLike_inHeader _ _ _))

end HeaderErrors

/-- Settles O17: each part of a header in turn, with what is read before it as `HeaderReads`. -/
theorem dynamicHeaderErrors : Obligations.DynamicHeaderErrors := by
  refine ⟨fun s h hn hb hi he => ?_, fun hlit hdist hclen s hb hi =>
    ⟨dynamicHeader_fields_missing hlit hdist (canRead_zero hb hi), fun he =>
      ⟨dynamicHeader_code_invalid hlit hdist ⟨hb, he, hi⟩, fun t lens clt hclt hturns => ?_⟩⟩⟩
  · rw [h.step_eq, h.fetch_dynhdr hn]
    exact (fetchDynhdr_fails (canRead_zero hb hi) he).raises_outcome
  · have hreads : HeaderReads hlit hdist hclen s clt t lens := ⟨⟨hb, he, hi⟩, hclt, hturns⟩
    exact ⟨fun hl => ⟨hreads.code_missing hl, hreads.entry_unfilled hl, fun u => hreads.nothing_to_repeat hl,
        fun r hr u hs hlens => ⟨hreads.extra_missing hl hr hs hlens, hreads.repeat_past hl hr hs hlens⟩⟩,
      fun hl => ⟨hreads.lit_invalid hl, fun llt => hreads.dist_invalid hl⟩⟩

end Sys2Proof.Claims
end

section
/-! A dynamic header with HCLEN = 4 never completes (42_inflate_blocks.md R278): its code-length code has codes for 0
and the three repeats alone, so every length it reads is 0, and the literal/length code is empty. -/

namespace Sys2Proof.Machine

/-! ### Parts of a header, in any state -/

/-- The errors a dynamic header can raise. -/
def ErrorKind.OfHeader (k : ErrorKind) : Prop := k = .invalidHuffmanTable ∨ k = .truncatedInput

/-- If the part goes on it does so with `P`, and if it raises an error, one of a header. -/
def Res.HeaderSat {α : Type} (r : Res α) (P : α → State → Prop) : Prop :=
  match r with
  | .ok a s => P a s
  | .err k _ => k.OfHeader
  | .fault _ | .refused _ => True

theorem Res.HeaderSat.bind {α β : Type} {r : Res α} {f : α → State → Res β} {P : α → State → Prop}
    {Q : β → State → Prop} (h : r.HeaderSat P) (hf : ∀ a s, P a s → (f a s).HeaderSat Q) : (r.bind f).HeaderSat Q := by
  cases r with
  | ok a s => exact hf a s h
  | err k s => exact h
  | fault q => trivial
  | refused q => trivial

theorem readByte_headerSat (sp : Space) (a : Nat) (s : State) : (readByte sp a s).HeaderSat fun _ t => t = s := by
  rw [readByte]
  split
  · rfl
  · trivial

theorem refillLoop_headerSat (k n : Nat) (s : State) : (refillLoop k n s).HeaderSat fun _ t => t.dyn = s.dyn := by
  induction k generalizing s with
  | zero => rfl
  | succ k ih =>
    rw [refillLoop]
    split
    · split
      · exact .inr rfl
      · refine (readByte_headerSat .inp s.inPos s).bind fun b t ht => ?_
        subst ht
        exact ih _
    · rfl

theorem refill_headerSat (n : Nat) (s : State) : (refill n s).HeaderSat fun _ t => t.dyn = s.dyn := by
  rw [refill]
  split
  · exact refillLoop_headerSat 2 n s
  · trivial

theorem getBits_headerSat (n : Nat) (s : State) : (getBits n s).HeaderSat fun _ t => t.dyn = s.dyn := by
  rw [getBits]
  split
  · rfl
  · exact (refill_headerSat n s).bind fun _ t ht => ht

/-- The symbols a table can give. -/
def Table.Gives (c : Table) (v : Nat) : Prop :=
  ∃ j < 2 ^ c.max, c.max ≠ 0 ∧ (c.entry j).len ≠ 0 ∧ v = (c.entry j).sym.toNat

theorem getCode_headerSat (c : Table) (s : State) :
    (getCode c s).HeaderSat fun v t => c.Gives v ∧ t.dyn = s.dyn := by
  rw [getCode]
  split
  · exact .inl rfl
  next h0 =>
    refine (refill_headerSat c.max s).bind fun _ t ht => ?_
    show Res.HeaderSat (if _ then _ else _) _
    split
    · exact .inl rfl
    next hlen => exact ⟨⟨t.lowBits c.max, Nat.mod_lt _ (Nat.two_pow_pos _), h0, hlen, rfl⟩, ht⟩

theorem readClLengths_headerSat (n : Nat) (s : State) :
    (readClLengths n s).HeaderSat fun read _ => read.length = n := by
  induction n generalizing s with
  | zero => rfl
  | succ n ih =>
    refine (getBits_headerSat 3 s).bind fun v t _ => (ih t).bind fun read u hread => ?_
    exact congrArg (· + 1) hread

/-! ### The code-length code of a header with HCLEN = 4 -/

/-- A filled entry is that of a symbol with a code (41_huffman.md R225). -/
theorem Table.Gives.symbol {lens : List Nat} {used : Bool} {c : Table} {v : Nat} (h : c.Gives v)
    (hb : buildTable lens used = some c) : ∃ w < lens.length, lens.getD w 0 ≠ 0 ∧ v = w % 2 ^ 16 := by
  obtain ⟨j, hj, h0, hlen, rfl⟩ := h
  obtain ⟨-, -, hentry⟩ := buildTable_entry hb
  by_cases hcode : ∃ w, codeBegins lens w j.testBit
  · obtain ⟨w, hw⟩ := hcode
    rw [(hentry j hj h0).1 w hw, BitVec.toNat_ofNat]
    exact ⟨w, hw.1, hw.2.1, rfl⟩
  · rw [entry_unfilled hb hj (not_exists.1 hcode)] at hlen
    exact absurd rfl hlen

/-- The first four places of CL_ORDER are those of the repeats and of 0 (30_encoding.md R124). -/
theorem clOrder_first_four : ∀ v < 19, clOrder.idxOf v < 4 → v = 0 ∨ 16 ≤ v := by decide

/-- With four code lengths the code has symbols for 0 and the repeats alone. -/
theorem gives_of_four {read : List Nat} {c : Table} {v : Nat} (hread : read.length = 4)
    (hb : buildTable (clLengths read) true = some c) (h : c.Gives v) : v = 0 ∨ 16 ≤ v := by
  obtain ⟨w, hw, hcode, rfl⟩ := h.symbol hb
  have hcl := clLengths_eq (read := read) (by omega)
  have hw19 : w < 19 := by rwa [hcl, List.length_map, List.length_range] at hw
  rw [List.getD_eq_getElem _ _ hw] at hcode
  simp only [hcl, List.getElem_map, List.getElem_range, hread] at hcode
  have hplace : clOrder.idxOf w < 4 := by
    by_contra hnot
    exact hcode (if_neg hnot)
  rw [Nat.mod_eq_of_lt (by omega)]
  exact clOrder_first_four w hw19 hplace

/-! ### The loop of such a header -/

/-- Inside a header whose code `c` gives 0 and the repeats alone, every length read so far is 0. -/
structure ReadsZeros (c : Table) (s : State) : Prop where
  clt : s.dyn.clt = c
  zeros : ∀ l ∈ s.dyn.lens, l = 0

theorem ReadsZeros.congr {c : Table} {s t : State} (h : ReadsZeros c s) (e : t.dyn = s.dyn) : ReadsZeros c t :=
  ⟨e ▸ h.clt, e ▸ h.zeros⟩

theorem ReadsZeros.push {c : Table} {s : State} (h : ReadsZeros c s) (n : Nat) : ReadsZeros c (s.pushLengths n 0) where
  clt := h.clt
  zeros l hl := by
    rw [State.pushLengths_lens, List.mem_append] at hl
    exact hl.elim (h.zeros l) List.eq_of_mem_replicate

theorem repeatLength_zeros {c : Table} {s : State} (h : ReadsZeros c s) (base extra : Nat) :
    (repeatLength 0 base extra s).HeaderSat fun _ t => ReadsZeros c t := by
  refine (getBits_headerSat extra s).bind fun e t ht => ?_
  show Res.HeaderSat (if _ then _ else _) _
  split
  · exact .inl rfl
  · exact (h.congr ht).push _

theorem clStep_zeros {c : Table} {s : State} {v : Nat} (h : ReadsZeros c s) (hv : v = 0 ∨ 16 ≤ v) :
    (clStep v s).HeaderSat fun _ t => ReadsZeros c t := by
  rcases hv with rfl | hv
  · exact h.push 1
  · rw [clStep, if_neg (by omega)]
    split
    · cases hlast : s.dyn.lens.getLast? with
      | none => rw [clRep16Step, hlast]; exact .inl rfl
      | some w =>
        obtain rfl : w = 0 := h.zeros w (List.mem_of_getLast? hlast)
        rw [clRep16Step_some hlast]
        exact repeatLength_zeros h 3 2
    · split
      · exact repeatLength_zeros h 3 3
      · split
        · exact repeatLength_zeros h 11 7
        · trivial

theorem clLoop_zeros {c : Table} (hc : ∀ v, c.Gives v → v = 0 ∨ 16 ≤ v) (k : Nat) {s : State} (h : ReadsZeros c s) :
    (clLoop k s).HeaderSat fun _ t => ReadsZeros c t := by
  induction k generalizing s with
  | zero => exact h
  | succ k ih =>
    rw [clLoop]
    split
    · rw [h.clt]
      refine (getCode_headerSat c s).bind fun v t ⟨hv, ht⟩ => ?_
      exact (clStep_zeros (h.congr ht) (hc v hv)).bind fun _ u hu => ih hu
    · exact h

/-- Lengths that are all 0 make no literal/length code (41_huffman.md R222). -/
theorem dynamicTables_zeros {c : Table} {s : State} (h : ReadsZeros c s) :
    (dynamicTables s).HeaderSat fun _ _ => False := by
  have hempty : buildTable (s.dyn.lens.take s.dyn.hlit) true = none :=
    buildTable_empty (maxLength_eq_zero.2 fun l hl => h.zeros l (List.mem_of_mem_take hl))
  rw [dynamicTables, buildTableStep, hempty]
  exact .inl rfl

/-- With HCLEN = 4 a header does not go on (42_inflate_blocks.md R278). -/
theorem dynamicHeader_shortest (hlit hdist : BitVec 5) (s : State) :
    (dynamicHeader hlit hdist 0 s).HeaderSat fun _ _ => False := by
  refine (readClLengths_headerSat (clCount 0) s).bind fun read t hread => ?_
  cases hb : buildTable (clLengths read) true with
  | none => rw [buildTableStep, hb]; exact .inl rfl
  | some c =>
    rw [buildTableStep, hb]
    exact (clLoop_zeros (fun v => gives_of_four hread hb) _ ⟨rfl, by simp⟩).bind fun _ u hu => dynamicTables_zeros hu

end Sys2Proof.Machine

namespace Sys2Proof.Claims

open Sys2Proof.Machine

/-- Settles O18: the header ends in an error of a header, or stops. -/
theorem shortestDynamicHeaderNeverCompletes : Obligations.ShortestDynamicHeaderNeverCompletes := by
  intro hlit hdist s t h
  replace h : (dynamicHeader hlit hdist 0 s).run = .next t := h
  have hnever := dynamicHeader_shortest hlit hdist s
  cases hr : dynamicHeader hlit hdist 0 s with
  | ok a u => rw [hr] at hnever; exact hnever.elim
  | err k u =>
    rw [hr] at h hnever
    cases h
    refine ⟨rfl, ?_⟩
    rcases hnever with rfl | rfl
    · exact .inl rfl
    · exact .inr rfl
  | fault q => rw [hr] at h; cases h
  | refused q => rw [hr] at h; cases h

end Sys2Proof.Claims
end

section
/-! The symbols of a block (43_inflate_symbols.md R300..R307): a literal, a match and its distance code, and the errors
of each in the order the bits are read. -/

namespace Sys2Proof.Machine

/-! ### A literal -/

theorem execLit_ok {s : State} (b : Byte) (h : s.outLen < s.caps.outCap) :
    execLit b s = .next { s.withOut (s.out.write s.outLen b) (s.outLen + 1) with fsm := .symbol } := by
  rw [execLit, outAppend_ok b h]
  rfl

theorem execLit_full {s : State} (b : Byte) (h : s.caps.outCap ≤ s.outLen) :
    execLit b s = .next (s.raise .capacityExceeded) := by
  rw [execLit, outAppend_full b h]
  rfl

/-! ### The copy of a match -/

/-- After its extra bits the last part of a match is the copy, which then ends the element
(43_inflate_symbols.md R302, R305). -/
theorem distancePart_eq {s : State} {extra : Nat} (base : Nat) (hr : s.CanRead extra) (he : extra ≤ 16) :
    distancePart base extra s = (backCopy s.matchLen (base + s.field 0 extra) (s.afterRead extra extra)).bind
      fun _ u => .ok () { u with matchLen := 0, fsm := .symbol } := by
  rw [distancePart, getBits_ok hr he]
  rfl

theorem backCopy_far {s : State} {dist : Nat} (len : Nat) (h : s.outLen < dist) :
    backCopy len dist s = .err .invalidBackReference s :=
  if_pos h

theorem backCopy_near {s : State} {dist : Nat} (len : Nat) (h : dist ≤ s.outLen) :
    backCopy len dist s = copyBytes len dist s :=
  if_neg (Nat.not_lt.2 h)

/-- After its extra bits a match latches its length and reads its distance code (43_inflate_symbols.md R305,
log entry 6). -/
theorem lengthPart_eq {s : State} {extra : Nat} (base : Nat) (hr : s.CanRead extra) (he : extra ≤ 16) :
    lengthPart base extra s =
      (getCode s.dt ((s.afterRead extra extra).withMatchLen (base + s.field 0 extra))).andThen runDistance := by
  rw [lengthPart, getBits_ok hr he]
  rfl

end Sys2Proof.Machine

namespace Sys2Proof.Claims

open Sys2Proof.Machine

/-! ### The rows of the tables -/

/-- A length instruction is a match with its row's base and extra bits (30_encoding.md R131). -/
theorem exec_lengthTable {e : Instr × Nat × Nat} (he : e ∈ lengthTable) (s : State) :
    exec e.1 s = lengthPart e.2.1 e.2.2 s := by
  have hmap : lengthTable.map (fun e => exec e.1) = lengthTable.map fun e => lengthPart e.2.1 e.2.2 := rfl
  exact congrFun (List.map_inj_left.1 hmap e he) s

theorem lengthTable_extra_le : ∀ e ∈ lengthTable, e.2.2 ≤ 16 := by decide

/-- A distance instruction is the last part of a match, with its row's base and extra bits (30_encoding.md R132). -/
theorem exec_distanceTable {f : Instr × Nat × Nat} (hf : f ∈ distanceTable) (s : State) :
    exec f.1 s = (distancePart f.2.1 f.2.2 s).run := by
  have hmap : distanceTable.map (fun f => exec f.1) =
      distanceTable.map fun f s => (distancePart f.2.1 f.2.2 s).run := rfl
  exact congrFun (List.map_inj_left.1 hmap f hf) s

theorem distanceTable_bounds : ∀ f ∈ distanceTable, 1 ≤ f.2.1 ∧ f.2.2 ≤ 16 := by decide

theorem distanceMeanings_eq : distanceMeanings = distanceTable.map fun f => exec f.1 := rfl

/-- A distance code below 30 runs the instruction of its row (43_inflate_symbols.md R305). -/
theorem runDistance_of_row {d : Nat} {f : Instr × Nat × Nat} (h : distanceTable[d]? = some f) (s : State) :
    runDistance d s = exec f.1 s := by
  rw [runDistance, distanceMeanings_eq, List.getElem?_map, h]
  rfl

/-- From 30 on a distance code has no row (43_inflate_symbols.md R305, R307). -/
theorem runDistance_of_no_row {d : Nat} (h : 30 ≤ d) (s : State) :
    runDistance d s = .next (s.raise .invalidSymbol) := by
  rw [runDistance, List.getElem?_eq_none h]

/-! ### Errors -/

/-- An error in a part of an element is the element's. -/
theorem Raises.mono {o : Outcome} {s t : State} {k : ErrorKind} (h : Raises o t k) (g : RaisesLike s t) :
    Raises o s k := by
  obtain ⟨w, rfl, hw⟩ := h
  exact ⟨w, rfl, by rw [hw, g k]⟩

/-- An instruction that raises its error at once. -/
theorem Raises.intro (s : State) (k : ErrorKind) : Raises (.next (s.raise k)) s k := ⟨_, rfl, rfl⟩

theorem Fails.andThen {α : Type} {r : Res α} {s : State} {k : ErrorKind} (h : Fails r s k)
    (f : α → State → Outcome) : Raises (r.andThen f) s k := by
  obtain ⟨t, rfl, ht⟩ := h
  exact ⟨t.raise k, rfl, ht k⟩

/-- OUT and `out_len` do not show in an error (60_exceptions.md R612). -/
theorem raisesLike_withOut (s : State) (m : Memory) (l : Nat) : RaisesLike s (s.withOut m l) := fun _ => rfl

/-- GetCode raises InvalidHuffmanTable on an empty table (40_bitreader.md R203). -/
theorem getCode_empty_fails {c : Table} (s : State) (h0 : c.max = 0) : Fails (getCode c s) s .invalidHuffmanTable := by
  rw [getCode_empty h0]
  exact .intro _ (.refl s)

/-! ### A symbol that was read -/

/-- A table gives no symbol above its alphabet (10_state.md R46). -/
theorem ReadsSymbol.le {c : Table} {s u : State} {m v : Nat} (h : ReadsSymbol c s v u) (hc : c.Ok m) : v ≤ m := by
  obtain ⟨-, -, -, -, -, rfl, -⟩ := h
  exact (hc.entry_ok _).2

/-! ### The last part of a match -/

section Distance

variable {s : State} {f : Instr × Nat × Nat} (hf : f ∈ distanceTable)

include hf

/-- The distance extra bits are not there (43_inflate_symbols.md R305). -/
theorem distance_short (hr : s.CanRead 0) (hshort : s.bitsLeft < f.2.2) : Raises (exec f.1 s) s .truncatedInput := by
  obtain ⟨-, hextra⟩ := distanceTable_bounds f hf
  rw [exec_distanceTable hf]
  exact ((getBits_fails hr hshort hextra).bind _).run

/-- The distance is above `out_len` (43_inflate_symbols.md R302). -/
theorem distance_far (hr : s.CanRead f.2.2) (hfar : s.outLen < f.2.1 + s.field 0 f.2.2) :
    Raises (exec f.1 s) s .invalidBackReference := by
  obtain ⟨-, hextra⟩ := distanceTable_bounds f hf
  rw [exec_distanceTable hf]
  apply Fails.run
  rw [distancePart_eq f.2.1 hr hextra, backCopy_far (s := s.afterRead f.2.2 f.2.2) _ hfar]
  exact .intro _ (raisesLike_afterRead s _ _)

/-- The copy has no room (40_bitreader.md R214). -/
theorem distance_full (hr : s.CanRead f.2.2) (hnear : f.2.1 + s.field 0 f.2.2 ≤ s.outLen)
    (ho : s.outLen ≤ s.caps.outCap) (hfull : s.caps.outCap < s.outLen + s.matchLen) :
    Raises (exec f.1 s) s .capacityExceeded := by
  obtain ⟨hbase, hextra⟩ := distanceTable_bounds f hf
  obtain ⟨m, l, hcopy⟩ := copyBytes_full (s := s.afterRead f.2.2 f.2.2) (by omega) hnear ho hfull
  rw [exec_distanceTable hf]
  apply Fails.run
  rw [distancePart_eq f.2.1 hr hextra, backCopy_near (s := s.afterRead f.2.2 f.2.2) _ hnear, hcopy]
  exact .intro _ ((raisesLike_afterRead s _ _).trans (raisesLike_withOut _ m l))

end Distance

/-- Settles O23, by the copy of the last part of a match. -/
theorem distanceInstructionsCopy : Obligations.DistanceInstructionsCopy := by
  intro f hf s hr hnear hroom
  obtain ⟨hbase, hextra⟩ := distanceTable_bounds f hf
  obtain ⟨m, hcopy, hbytes, hframe⟩ := distancePart_ok hr hextra hbase hnear hroom
  rw [exec_distanceTable hf, hcopy]
  exact ⟨_, rfl, rfl, hbytes, hframe⟩

/-! ### A match -/

/-- The length extra bits are not there (43_inflate_symbols.md R305). -/
theorem length_short {s : State} {e : Instr × Nat × Nat} (he : e ∈ lengthTable) (hr : s.CanRead 0)
    (hshort : s.bitsLeft < e.2.2) : Raises (exec e.1 s) s .truncatedInput := by
  rw [exec_lengthTable he]
  exact (getBits_fails hr hshort (lengthTable_extra_le e he)).andThen _

section Match

variable {s u : State} {e f : Instr × Nat × Nat} {d : Nat} {k : ErrorKind}

/-- State `u` with the length latched that the match of row `e`, begun in `s`, has (log entry 6). -/
def latched (e : Instr × Nat × Nat) (s u : State) : State := u.withMatchLen (e.2.1 + s.field 0 e.2.2)

theorem latched_field (k n : Nat) : (latched e s u).field k n = u.field k n := State.withMatchLen_field u _ k n

/-- The latched length does not show in an error (60_exceptions.md R610). -/
theorem raisesLike_latched : RaisesLike u (latched e s u) := fun _ => rfl

/-- The distance code is read from the stream and leaves the output as it was. -/
theorem ReadsSymbol.latched_outLen (hs : ReadsSymbol s.dt (s.afterRead e.2.2 e.2.2) d u) :
    (latched e s u).outLen = s.outLen := by
  obtain ⟨-, -, -, -, -, -, rfl⟩ := hs
  rfl

theorem ReadsSymbol.latched_caps (hs : ReadsSymbol s.dt (s.afterRead e.2.2 e.2.2) d u) :
    (latched e s u).caps = s.caps := by
  obtain ⟨-, -, -, -, -, -, rfl⟩ := hs
  rfl

theorem ReadsSymbol.latched_canRead {c : Table} {t : State} {n : Nat} (hs : ReadsSymbol c t d u)
    (hn : n ≤ u.bitsLeft) : (latched e s u).CanRead n :=
  State.withMatchLen_canRead ⟨hs.canRead_zero.bits, hn, hs.canRead_zero.inCapOk⟩ _

/-- A symbol is read alike with the length latched. -/
theorem ReadsSymbol.latched {c : Table} {t : State} (h : ReadsSymbol c t d u) :
    ReadsSymbol c (latched e s t) d (latched e s u) := by
  obtain ⟨hmax, hbound, hread, hlen, hle, hv, rfl⟩ := h
  simp only [ReadsSymbol, Claims.latched, State.withMatchLen_field, State.withMatchLen_afterRead]
  exact ⟨hmax, hbound, State.withMatchLen_canRead hread _, hlen, hle, hv, trivial⟩

variable (he : e ∈ lengthTable) (hr : s.CanRead e.2.2)

include hr

theorem latched_canRead {n : Nat} (hn : n ≤ (s.afterRead e.2.2 e.2.2).bitsLeft) :
    (latched e s (s.afterRead e.2.2 e.2.2)).CanRead n := by
  obtain ⟨hok, -, hcap⟩ := State.CanRead.afterRead (n := 0) hr
  exact State.withMatchLen_canRead ⟨hok, hn, hcap⟩ _

include he

theorem length_eq : exec e.1 s = (getCode s.dt (latched e s (s.afterRead e.2.2 e.2.2))).andThen runDistance := by
  rw [exec_lengthTable he, lengthPart_eq e.2.1 hr (lengthTable_extra_le e he)]
  rfl

/-- An error of GetCode is the match's. -/
theorem length_code_fails (hcode : Fails (getCode s.dt (latched e s (s.afterRead e.2.2 e.2.2)))
    (latched e s (s.afterRead e.2.2 e.2.2)) k) : Raises (exec e.1 s) s k := by
  rw [length_eq he hr]
  exact (hcode.andThen _).mono ((raisesLike_afterRead s _ _).trans raisesLike_latched)

/-- A match that has read its distance code goes on with that code. -/
theorem length_of_code (hs : ReadsSymbol s.dt (s.afterRead e.2.2 e.2.2) d u) :
    exec e.1 s = runDistance d (latched e s u) := by
  rw [length_eq he hr, hs.latched.getCode_eq]
  rfl

variable (hs : ReadsSymbol s.dt (s.afterRead e.2.2 e.2.2) d u)

include hs

/-- An error of the distance code is the match's. -/
theorem length_code_raises (hcode : Raises (runDistance d (latched e s u)) (latched e s u) k) :
    Raises (exec e.1 s) s k := by
  rw [length_of_code he hr hs]
  exact hcode.mono ((raisesLike_afterRead s _ _).trans (hs.raisesLike.trans raisesLike_latched))

theorem length_code_invalid (hd : 30 ≤ d) : Raises (exec e.1 s) s .invalidSymbol := by
  refine length_code_raises he hr hs ?_
  rw [runDistance_of_no_row hd]
  exact .intro _ _

variable (hf : distanceTable[d]? = some f)

include hf

/-- An error of the distance instruction is the match's. -/
theorem length_distance_raises (hdist : Raises (exec f.1 (latched e s u)) (latched e s u) k) :
    Raises (exec e.1 s) s k := by
  refine length_code_raises he hr hs ?_
  rw [runDistance_of_row hf]
  exact hdist

theorem length_distance_short (hshort : u.bitsLeft < f.2.2) : Raises (exec e.1 s) s .truncatedInput :=
  length_distance_raises he hr hs hf
    (distance_short (List.mem_of_getElem? hf) (hs.latched_canRead (Nat.zero_le _)) hshort)

theorem length_distance_far (hbits : f.2.2 ≤ u.bitsLeft) (hfar : s.outLen < f.2.1 + u.field 0 f.2.2) :
    Raises (exec e.1 s) s .invalidBackReference := by
  refine length_distance_raises he hr hs hf (distance_far (List.mem_of_getElem? hf) (hs.latched_canRead hbits) ?_)
  rwa [latched_field, hs.latched_outLen]

theorem length_distance_full (hbits : f.2.2 ≤ u.bitsLeft) (hnear : f.2.1 + u.field 0 f.2.2 ≤ s.outLen)
    (ho : s.outLen ≤ s.caps.outCap) (hfull : s.caps.outCap < s.outLen + (e.2.1 + s.field 0 e.2.2)) :
    Raises (exec e.1 s) s .capacityExceeded := by
  refine length_distance_raises he hr hs hf
    (distance_full (List.mem_of_getElem? hf) (hs.latched_canRead hbits) ?_ ?_ ?_)
  · rwa [latched_field, hs.latched_outLen]
  · rwa [hs.latched_outLen, hs.latched_caps]
  · rw [hs.latched_outLen, hs.latched_caps]
    exact hfull

end Match

/-- Settles O21: the match is the distance instruction of its code, run with the length latched. -/
theorem matchRepeatsTheLastBytes : Obligations.MatchRepeatsTheLastBytes := by
  intro e he s u d f hr hs hf hru hnear hroom
  have hrun := (length_of_code he hr hs).trans (runDistance_of_row hf _)
  have hcopy := distanceInstructionsCopy f (List.mem_of_getElem? hf) (latched e s u) (hs.latched_canRead hru.enough)
  obtain ⟨-, -, -, -, -, -, rfl⟩ := hs
  rw [latched_field, latched, State.withMatchLen_afterRead] at hcopy
  rw [hrun]
  exact hcopy hnear hroom

/-! ### The step at SYMBOL -/

/-- An error of GetCode is the step's (43_inflate_symbols.md R300). -/
theorem AtElement.symbol_fails {s : State} {k : ErrorKind} (h : AtElement s .symbol) (hm : s.matchLen = 0)
    (hcode : Fails (getCode s.llt s) s k) : Raises (step s) s k := by
  rw [h.step_eq, h.fetch_sym hm]
  exact (hcode.bind _).raises_outcome

/-- The symbols 286 and 287 (30_encoding.md R126, 43_inflate_symbols.md R304). -/
theorem decode_sym_invalid {v : Nat} (h1 : 286 ≤ v) (h2 : v ≤ 287) : decode .sym v = .ok (.symInvalid (v == 287)) := by
  rw [Laws.RoundTrip.decode_sym (by omega), decodeSym, if_neg (by omega), if_neg (by omega), if_neg (by omega),
    if_pos (by omega)]

theorem AtElement.symbol_invalid {s u : State} {v : Nat} (h : AtElement s .symbol) (hm : s.matchLen = 0)
    (hs : ReadsSymbol s.llt s v u) (h1 : 286 ≤ v) (h2 : v ≤ 287) : Raises (step s) s .invalidSymbol := by
  rw [stepRunsTheDecodedInstruction _ _ _ (.sym h hm hs (decode_sym_invalid h1 h2))]
  exact (Raises.intro u _).mono hs.raisesLike

/-- Settles O22: GetCode's errors and the invalid symbols at the step, then the parts of a match in turn. -/
theorem symbolErrorsInStreamOrder : Obligations.SymbolErrorsInStreamOrder := by
  refine ⟨fun s h hm hb hi hllt => ?step, fun e he s hb hi hdt =>
    ⟨length_short he (canRead_zero hb hi), fun hle => ?_⟩⟩
  case step =>
    exact ⟨fun h0 => h.symbol_fails hm (getCode_empty_fails s h0),
      fun _ hshort => h.symbol_fails hm (getCode_fails (canRead_zero hb hi) hllt.maxBound hshort),
      fun _ hbits hu => h.symbol_fails hm (getCode_unfilled_fails ⟨hb, hbits, hi⟩ hllt.maxBound hu),
      fun v u hs hv => h.symbol_invalid hm hs hv (hs.le hllt)⟩
  have hr : s.CanRead e.2.2 := ⟨hb, hle, hi⟩
  refine ⟨fun h0 => ?empty, fun _ hshort => ?short, fun _ hbits hu => ?unfilled, fun u d hs =>
    ⟨length_code_invalid he hr hs, fun f hf => ⟨length_distance_short he hr hs hf, length_distance_far he hr hs hf,
      length_distance_full he hr hs hf⟩⟩⟩
  case empty => exact length_code_fails he hr (getCode_empty_fails _ h0)
  case short =>
    exact length_code_fails he hr (getCode_fails (latched_canRead hr (Nat.zero_le _)) hdt.maxBound hshort)
  case unfilled =>
    rw [← latched_field (e := e) (s := s)] at hu
    exact length_code_fails he hr (getCode_unfilled_fails (latched_canRead hr hbits) hdt.maxBound hu)

/-! ### A literal and the instructions that raise -/

/-- Settles O20, by the append of one byte. -/
theorem literalAppendsItsByte : Obligations.LiteralAppendsItsByte := by
  refine fun b s => ⟨fun h => ⟨_, execLit_ok b h, rfl, fun a => ?_⟩, execLit_full b⟩
  show (s.putByte .out s.outLen b).byteAt .out a = _
  simp [State.byteAt_putByte]

/-- Settles O24, by the meanings of the instructions. -/
theorem errorInstructionsRaise : Obligations.ErrorInstructionsRaise :=
  fun _ => ⟨fun _ => rfl, fun _ => rfl, fun _ => rfl, fun _ _ => rfl⟩

end Sys2Proof.Claims
end

section
/-! DECODE_PNG's entry and its rows, said once for the statements about them: PNGSTART against its list of
checks, and a row byte by byte (44_png_unfilter.md). -/

namespace Sys2Proof.Machine

/-! ### The entry checks -/

theorem depthPasses_iff {d : Byte} : depthPasses d = true ↔ d.toNat ∈ [1, 2, 4, 8, 16] := by
  simp [depthPasses, ← BitVec.toNat_inj, or_assoc]

theorem ctypePasses_iff {c : Byte} : ctypePasses c = true ↔ c.toNat ∈ [0, 2, 3, 4, 6] := by
  simp [ctypePasses, ← BitVec.toNat_inj, or_assoc]

/-! ### A row -/

/-- Byte `x` of row `row` after the row's element with filter `ft`, the left neighbour read from the
reconstructed OUT `m` (44_png_unfilter.md R402). -/
def State.rowByte (s : State) (ft : FilterType) (m : Memory) (x : Nat) : Byte :=
  BitVec.ofNat 8 (((s.byteAt .out (s.png.row * s.png.rowlen + 1 + x)).toNat
    + predictor ft (s.leftByte m x) (s.upByte x) (s.upLeftByte x)) % 256)

theorem State.rowByte_toNat (s : State) (ft : FilterType) (m : Memory) (x : Nat) :
    (s.rowByte ft m x).toNat = ((s.byteAt .out (s.png.row * s.png.rowlen + 1 + x)).toNat
      + predictor ft (s.leftByte m x) (s.upByte x) (s.upLeftByte x)) % 256 := by
  rw [State.rowByte, BitVec.toNat_ofNat]
  omega

/-- A row inside the image is reconstructed from its first byte to its last, and nothing else in OUT changes. -/
theorem unfilterRow_reconstructs {s : State} (hi : s.ImageOk) (hr : s.png.row < s.png.h) (ft : FilterType) :
    ∃ m, unfilterRow ft s = .ok () (s.withOut m s.outLen).rowDone ∧
      (∀ x < s.png.stride, m.read .out (s.png.row * s.png.rowlen + 1 + x) = s.rowByte ft m x) ∧
      ∀ a, a ≤ s.png.row * s.png.rowlen ∨ s.png.row * s.png.rowlen + s.png.stride < a →
        m.read .out a = s.byteAt .out a := by
  have hfit := hi.row_fits hr
  have hlen := hi.rowlenOk
  obtain ⟨m, hrun, hbytes, hkept, -⟩ :=
    unfilterFrom_ok (s := s) ft (n := s.png.stride) (x := 0) hi.bpp_pos (by omega) (by omega)
  refine ⟨m, ?_, fun x hx => hbytes x (Nat.zero_le x) (by omega), fun a ha => hkept a (by omega)⟩
  rw [unfilterRow, hrun]
  rfl

theorem State.byteAt_out (s : State) (a : Nat) : s.byteAt .out a = s.out.read .out a := rfl

theorem State.rowDone_out (s : State) : s.rowDone.out = s.out := by
  rw [State.rowDone_frame]

/-- The left neighbour lies in the same row, `bpp` bytes back (44_png_unfilter.md R402). -/
theorem State.leftByte_of_le {s : State} (m : Memory) {x : Nat} (h : s.png.bpp ≤ x) :
    s.leftByte m x = (m.read .out (s.png.row * s.png.rowlen + 1 + (x - s.png.bpp))).toNat := by
  rw [State.leftByte, if_pos h, Nat.add_sub_assoc h]

/-- A byte from which its predictor was taken modulo 256 comes back when it is added (44_png_unfilter.md
R416). -/
theorem add_predicted_mod {f p r : Nat} (hr : r < 256) (hf : (f : Int) = ((r : Int) - p) % 256) :
    (f + p) % 256 = r := by
  omega

/-! ### The Paeth predictor -/

/-- How far `q` is from the estimate `a + b - c` (44_png_unfilter.md R414). -/
def paethDistance (a b c q : Nat) : Nat := ((a : Int) + b - c - q).natAbs

/-- Which neighbour the predictor is, and what the comparisons that chose it say. -/
theorem paethPredictor_cases (a b c : Nat) :
    (paethPredictor a b c = a ∧ paethDistance a b c a ≤ paethDistance a b c b ∧
      paethDistance a b c a ≤ paethDistance a b c c) ∨
    (paethPredictor a b c = b ∧ paethDistance a b c b ≤ paethDistance a b c c ∧
      paethDistance a b c b < paethDistance a b c a) ∨
    (paethPredictor a b c = c ∧ paethDistance a b c c < paethDistance a b c b ∧
      paethDistance a b c c < paethDistance a b c a) := by
  have hpred : paethPredictor a b c =
      if paethDistance a b c a ≤ paethDistance a b c b ∧ paethDistance a b c a ≤ paethDistance a b c c then a
      else if paethDistance a b c b ≤ paethDistance a b c c then b else c := rfl
  split_ifs at hpred with hleft hup
  · exact .inl ⟨hpred, hleft⟩
  · exact .inr (.inl ⟨hpred, hup, by omega⟩)
  · exact .inr (.inr ⟨hpred, by omega, by omega⟩)

/-- No neighbour is nearer to the estimate. -/
theorem paethPredictor_nearest (a b c : Nat) {q : Nat} (hq : q = a ∨ q = b ∨ q = c) :
    paethDistance a b c (paethPredictor a b c) ≤ paethDistance a b c q := by
  obtain ⟨hp, h⟩ | ⟨hp, h⟩ | ⟨hp, h⟩ := paethPredictor_cases a b c
  all_goals
    rw [hp]
    obtain rfl | rfl | rfl := hq <;> omega

/-- The left neighbour wins every tie. -/
theorem paethPredictor_left {a b c : Nat} (hb : paethDistance a b c a ≤ paethDistance a b c b)
    (hc : paethDistance a b c a ≤ paethDistance a b c c) : paethPredictor a b c = a := if_pos ⟨hb, hc⟩

/-- The upper neighbour wins its tie with the upper-left one. -/
theorem paethPredictor_up {a b c : Nat} (ha : paethDistance a b c b < paethDistance a b c a)
    (hc : paethDistance a b c b ≤ paethDistance a b c c) : paethPredictor a b c = b :=
  (if_neg fun h => Nat.not_lt.2 h.1 ha).trans (if_pos hc)

/-- In row 0 the missing neighbours are 0 and the estimate is the left byte (44_png_unfilter.md R414). -/
theorem paethPredictor_row_zero (a : Nat) : paethPredictor a 0 0 = a := by
  have hzero : paethDistance a 0 0 a = 0 := by rw [paethDistance]; omega
  exact paethPredictor_left (by omega) (by omega)

/-! ### Decoding the filter-type byte -/

theorem decodeRow_unknown {v : Nat} (h : 4 < v) : decodeRow v = .rowUnknown (BitVec.ofNat 8 v) := by
  rw [decodeRow] <;> omega

end Sys2Proof.Machine

namespace Sys2Proof.Claims

open Sys2Proof.Machine

/-! ### PNGSTART -/

theorem channels_eq_channelCount (c : Byte) : channels c = channelCount c := by
  rw [channelCount]
  split
  next h => obtain rfl : c = 2 := BitVec.eq_of_toNat_eq h; rfl
  next h => obtain rfl : c = 4 := BitVec.eq_of_toNat_eq h; rfl
  next h => obtain rfl : c = 6 := BitVec.eq_of_toNat_eq h; rfl
  next h2 h4 h6 =>
    rw [channels, if_neg fun h => h2 (congrArg _ h), if_neg fun h => h4 (congrArg _ h),
      if_neg fun h => h6 (congrArg _ h)]

theorem rowStride_eq_headerStride (s : State) :
    rowStride s.width.toNat s.format.depth s.format.ctype = headerStride s := by
  rw [rowStride, bitsPerPixel, channels_eq_channelCount]
  rfl

/-- The PNG registers of an image that passes the checks (44_png_unfilter.md R400, R401). -/
def imageRegs (s : State) : PngRegs where
  w := s.width.toNat
  h := s.height.toNat
  depth := s.format.depth
  ctype := s.format.ctype
  chan := channelCount s.format.ctype
  bitsPp := s.format.depth.toNat * channelCount s.format.ctype
  bpp := (s.format.depth.toNat * channelCount s.format.ctype + 7) / 8
  stride := headerStride s
  rowlen := 1 + headerStride s
  npal := if s.format.palPresent then s.palLen.toNat / 3 else 0
  row := 0
  pixI := 0

/-- PNGSTART's outcome `r` answers the first failing check `o`: its error, or the latched image
(44_png_unfilter.md R400). -/
def EntryAgrees (s : State) (o : Option ErrorKind) (r : Res Unit) : Prop :=
  match o with
  | some k => ∃ p, r = .err k { s with png := p }
  | none => r = .ok () { s with png := imageRegs s, fsm := .row }

/-- One more check in front: both fail on it with the same error, or both go on. -/
theorem EntryAgrees.check {s : State} {o : Option ErrorKind} {r : Res Unit} {c d : Prop} [Decidable c] [Decidable d]
    {k : ErrorKind} {p : PngRegs} (hcd : d ↔ c) (h : EntryAgrees s o r) :
    EntryAgrees s (if c then some k else o) (if d then .err k { s with png := p } else r) := by
  by_cases hc : c
  · rw [if_pos hc, if_pos (hcd.2 hc)]
    exact ⟨p, rfl⟩
  · rw [if_neg hc, if_neg (mt hcd.1 hc)]
    exact h

/-- After the checks the derived quantities are those of the image. -/
theorem derive_eq_imageRegs (s : State) :
    { s.latchHeader.png.derive (paletteEntries s.format.palPresent s.palLen.toNat) with row := 0, pixI := 0 } =
      imageRegs s := by
  simp only [State.latchHeader, PngRegs.derive, bitsPerPixel, bytesPerPixel, rowStride_eq_headerStride,
    channels_eq_channelCount]
  rfl

theorem pngStart_agrees (s : State) : EntryAgrees s (entryError s) (pngStart s) := by
  have hdepth : (!depthPasses s.format.depth) = true ↔ s.format.depth.toNat ∉ [1, 2, 4, 8, 16] := by
    rw [Bool.not_eq_true', ← Bool.not_eq_true, depthPasses_iff]
  have hctype : (!ctypePasses s.format.ctype) = true ↔ s.format.ctype.toNat ∉ [0, 2, 3, 4, 6] := by
    rw [Bool.not_eq_true', ← Bool.not_eq_true, ctypePasses_iff]
  have hrows : s.outLen < s.height.toNat * (1 + rowStride s.width.toNat s.format.depth s.format.ctype) ↔
      s.outLen < s.height.toNat * (1 + headerStride s) := by rw [rowStride_eq_headerStride]
  exact .check .rfl (.check hdepth (.check hctype (.check .rfl (.check .rfl (.check .rfl (.check hrows
    (congrArg (fun p => Res.ok () { s with png := p, fsm := .row }) (derive_eq_imageRegs s))))))))

/-- Settles O25: PNGSTART's checks against the rule's list, one by one. -/
theorem imageEntryChecksInOrder : Obligations.ImageEntryChecksInOrder := by
  intro s h
  have hstep : step s = (pngStart s).run := h.step_eq.trans (pngstart_step h.fsm)
  have hagrees := pngStart_agrees s
  refine ⟨fun k hk => ?_, fun hk => ?_⟩
  · rw [hk] at hagrees
    obtain ⟨p, hp⟩ := hagrees
    exact ⟨_, by rw [hstep, hp]; rfl, rfl⟩
  · rw [hk] at hagrees
    rw [hstep, show pngStart s = _ from hagrees]
    rfl

/-! ### Rows -/

/-- Every row of the table is one filter's reconstruction with that filter's predictor (30_encoding.md R127,
44_png_unfilter.md R410..R414). -/
theorem exec_rowTable {e : Instr × (Nat → Nat → Nat → Nat)} (he : e ∈ rowTable) :
    ∃ ft, predictor ft = e.2 ∧ ∀ s, exec e.1 s = (unfilterRow ft s).run := by
  simp only [rowTable, List.mem_cons, List.not_mem_nil, or_false] at he
  obtain rfl | rfl | rfl | rfl | rfl := he
  · exact ⟨.none, rfl, fun _ => rfl⟩
  · exact ⟨.sub, rfl, fun _ => rfl⟩
  · exact ⟨.up, rfl, fun _ => rfl⟩
  · exact ⟨.average, rfl, fun _ => rfl⟩
  · exact ⟨.paeth, rfl, fun _ => rfl⟩

/-- Settles O26, by the reconstruction of a row with the filter of its instruction. -/
theorem rowsAreReconstructed : Obligations.RowsAreReconstructed := by
  intro e he s hi hr
  obtain ⟨ft, hpred, hexec⟩ := exec_rowTable he
  obtain ⟨m, hrun, hbytes, hkept⟩ := unfilterRow_reconstructs hi hr ft
  have hout : (s.withOut m s.outLen).rowDone.out = m := State.rowDone_out _
  refine ⟨_, by rw [hexec, hrun]; rfl, ?_, fun x hx => ?_, fun a ha => ?_⟩
  · rw [hout]
    rfl
  · rw [State.byteAt_out, hout, hbytes x hx, State.rowByte_toNat, hpred]
  · rw [State.byteAt_out, hout, hkept a ha]

/-- Settles O28, by strong induction on the byte: the left neighbour is already the raw one, so the predictor
added is the predictor taken. -/
theorem filteredRowsRoundTrip : Obligations.FilteredRowsRoundTrip := by
  intro e he s raw hi hr hfiltered
  obtain ⟨t, hrun, -, hbytes, -⟩ := rowsAreReconstructed e he s hi hr
  refine ⟨t, hrun, fun x => ?_⟩
  induction x using Nat.strong_induction_on with
  | _ x ih =>
    intro hx
    have hleft : s.leftByte t.out x = if s.png.bpp ≤ x then (raw (x - s.png.bpp)).toNat else 0 := by
      by_cases hb : s.png.bpp ≤ x
      · have hpos := hi.bpp_pos
        rw [State.leftByte_of_le _ hb, if_pos hb, ← State.byteAt_out, ih (x - s.png.bpp) (by omega) (by omega)]
      · rw [State.leftByte, if_neg hb, if_neg hb]
    apply BitVec.eq_of_toNat_eq
    rw [hbytes x hx, hleft]
    exact add_predicted_mod (raw x).isLt (hfiltered x hx)

/-- Settles O27: the neighbour the predictor picks, and the order in which ties go. -/
theorem paethPicksTheNearestNeighbour : Obligations.PaethPicksTheNearestNeighbour := by
  intro a b c
  refine ⟨(paethPredictor_cases a b c).imp And.left (Or.imp And.left And.left),
    fun q => paethPredictor_nearest a b c, fun h => ?_, paethPredictor_up, paethPredictor_row_zero a⟩
  exact paethPredictor_left (h b (.inl rfl)) (h c (.inr rfl))

/-! ### The ROW element -/

/-- The rows stand in the order of their filter-type bytes (30_encoding.md R127). -/
theorem decodeRow_of_rowTable {k : Nat} {e : Instr × (Nat → Nat → Nat → Nat)} (h : rowTable[k]? = some e) :
    decodeRow k = e.1 := by
  obtain ⟨hk, rfl⟩ := List.getElem?_eq_some_iff.1 h
  have hrow : k < 5 := hk
  interval_cases k <;> rfl

/-- A ROW element runs the instruction of its filter-type byte (44_png_unfilter.md R402). -/
theorem AtElement.step_row {s : State} (h : AtElement s .row) (hi : s.ImageOk) (hr : s.png.row < s.png.h) :
    step s = exec (decodeRow (s.byteAt .out (s.png.row * s.png.rowlen)).toNat) s := by
  have hfit := hi.row_fits hr
  have hlen := hi.rowlenOk
  exact stepRunsTheDecodedInstruction _ _ _
    (.row h hr (by omega) (Laws.RoundTrip.decode_row (s.byteAt .out (s.png.row * s.png.rowlen)).isLt))

/-- Settles O29, by the decoding of the filter-type byte. -/
theorem rowElementSelectsTheFilter : Obligations.RowElementSelectsTheFilter := by
  intro s h hi hr
  refine ⟨fun k e he hk => ?_, fun hk => ?_⟩
  · rw [h.step_row hi hr, hk, decodeRow_of_rowTable he]
  · obtain ⟨-, -, hunknown, -⟩ := errorInstructionsRaise s
    rw [h.step_row hi hr, decodeRow_unknown hk, hunknown]

end Sys2Proof.Claims
end

section
/-! The pixel assembler, said once for the statements about it: the expansion of each colour type and what a
PIXEL element then does (45_pixel_assembler.md). -/

namespace Sys2Proof.Machine

/-- The bytes of a pixel in the order in which PIX holds them (45_pixel_assembler.md R431). -/
def Pixel.bytes (px : Pixel) : List Byte := [px.r, px.g, px.b, px.al]

/-- At depth 8 the source bytes of a pixel, one per channel, lie in OUT. -/
theorem State.ImageOk.channels_fit {s : State} (h : s.ImageOk) (hd : s.png.depth = 8)
    (hp : s.png.pixI < s.png.w * s.png.h) :
    ∀ k < channels s.png.ctype, pixelSource s.png + k < s.caps.outCap := by
  intro k hk
  rw [← (h.stride8 hd).1] at hk
  exact h.source_fits hd hp hk

/-! ### The expansions -/

theorem expandGray_ok {s : State} {src : Nat} (h : ∀ k < 1, src + k < s.caps.outCap) :
    expandGray src s = .ok ⟨s.byteAt .out (src + 0), s.byteAt .out (src + 0), s.byteAt .out (src + 0), 255⟩ s := by
  rw [expandGray, sourceByte_ok (h 0 (by omega)), Res.ok_bind]

theorem expandGrayAlpha_ok {s : State} {src : Nat} (h : ∀ k < 2, src + k < s.caps.outCap) :
    expandGrayAlpha src s =
      .ok ⟨s.byteAt .out (src + 0), s.byteAt .out (src + 0), s.byteAt .out (src + 0), s.byteAt .out (src + 1)⟩ s := by
  rw [expandGrayAlpha, sourceByte_ok (h 0 (by omega)), Res.ok_bind, sourceByte_ok (h 1 (by omega)), Res.ok_bind]

theorem expandRgb_ok {s : State} {src : Nat} (h : ∀ k < 3, src + k < s.caps.outCap) :
    expandRgb src s = .ok ⟨s.byteAt .out (src + 0), s.byteAt .out (src + 1), s.byteAt .out (src + 2), 255⟩ s := by
  rw [expandRgb, sourceByte_ok (h 0 (by omega)), Res.ok_bind, sourceByte_ok (h 1 (by omega)), Res.ok_bind,
    sourceByte_ok (h 2 (by omega)), Res.ok_bind]

theorem expandRgba_ok {s : State} {src : Nat} (h : ∀ k < 4, src + k < s.caps.outCap) :
    expandRgba src s =
      .ok ⟨s.byteAt .out (src + 0), s.byteAt .out (src + 1), s.byteAt .out (src + 2), s.byteAt .out (src + 3)⟩ s := by
  rw [expandRgba, sourceByte_ok (h 0 (by omega)), Res.ok_bind, sourceByte_ok (h 1 (by omega)), Res.ok_bind,
    sourceByte_ok (h 2 (by omega)), Res.ok_bind, sourceByte_ok (h 3 (by omega)), Res.ok_bind]

/-- An index below `npal` has its entry in the palette memory (45_pixel_assembler.md R434). -/
theorem expandPalette_ok {s : State} {src idx : Nat} (hsrc : src < s.caps.outCap)
    (hidx : (s.byteAt .out src).toNat = idx) (hlt : idx < s.png.npal) (hpal : 3 * s.png.npal ≤ Config.palCap) :
    expandPalette src s =
      .ok ⟨s.byteAt .pal (3 * idx), s.byteAt .pal (3 * idx + 1), s.byteAt .pal (3 * idx + 2), 255⟩ s := by
  have hread : ∀ a < 3 * idx + 3, readByte .pal a s = .ok (s.byteAt .pal a) s := fun a ha =>
    readByte_ok (show a < Config.palCap by omega)
  rw [expandPalette, sourceByte_ok (k := 0) hsrc, Res.ok_bind, Nat.add_zero, hidx, if_neg (by omega),
    hread _ (by omega), Res.ok_bind, hread _ (by omega), Res.ok_bind, hread _ (by omega), Res.ok_bind]

theorem expandPalette_outOfRange {s : State} {src : Nat} (hsrc : src < s.caps.outCap)
    (hge : s.png.npal ≤ (s.byteAt .out src).toNat) : expandPalette src s = .err .paletteIndexOutOfRange s := by
  rw [expandPalette, sourceByte_ok (k := 0) hsrc, Res.ok_bind, Nat.add_zero, if_pos hge]

/-- An expansion that raises ends the element before a byte is written. -/
theorem assemblePixel_err {s : State} {expand : Nat → State → Res Pixel} {k : ErrorKind}
    (he : expand (pixelSource s.png) s = .err k s) : (assemblePixel expand s).run = .next (s.raise k) := by
  rw [assemblePixel, he]
  rfl

/-- The PIXEL element's outcome `o` from `s`: `bytes` stand at `4 * pix_i` of PIX, and nothing else changes but
`pix_i`, `fsm` and STATUS at the end (45_pixel_assembler.md R431). -/
def AssemblesPixel (s : State) (bytes : List Byte) (o : Outcome) : Prop :=
  ∃ t, o = .next t ∧
    t = State.goto { s with pix := t.pix, png := { s.png with pixI := s.png.pixI + 1 } }
      (if s.png.pixI + 1 = s.png.w * s.png.h then .done else .pixel) ∧
    (∀ k < 4, t.byteAt .pix (4 * s.png.pixI + k) = bytes.getD k 0) ∧
    ∀ a, a < 4 * s.png.pixI ∨ 4 * s.png.pixI + 4 ≤ a → t.byteAt .pix a = s.byteAt .pix a

theorem State.byteAt_pix (s : State) (a : Nat) : s.byteAt .pix a = s.pix.read .pix a := rfl

theorem State.pixelDone_pix (s : State) : s.pixelDone.pix = s.pix := by
  rw [State.pixelDone_frame]

/-- Inside the image, a pixel whose expansion gives `px` is assembled to the bytes of `px`. -/
theorem assemblePixel_assembles {s : State} {expand : Nat → State → Res Pixel} {px : Pixel} (hi : s.ImageOk)
    (hp : s.png.pixI < s.png.w * s.png.h) (he : expand (pixelSource s.png) s = .ok px s) :
    AssemblesPixel s px.bytes (assemblePixel expand s).run := by
  obtain ⟨m, hrun, hr, hg, hb, hal, hkept, -⟩ := assemblePixel_ok he (hi.target_fits hp)
  have hpix : (s.withPix m).pixelDone.pix = m := State.pixelDone_pix _
  refine ⟨(s.withPix m).pixelDone, by rw [hrun]; rfl, ?frame, fun k hk => ?bytes, fun a ha => ?kept⟩
  case frame => rw [hpix]; rfl
  case bytes =>
    rw [State.byteAt_pix, hpix]
    interval_cases k
    · exact hr
    · exact hg
    · exact hb
    · exact hal
  case kept => rw [State.byteAt_pix, hpix, hkept a ha]

end Sys2Proof.Machine

namespace Sys2Proof.Claims

open Sys2Proof.Machine

/-- Every row of the table is one expansion, which makes the row's bytes of as many source bytes as the colour
type has channels (45_pixel_assembler.md R435..R438). -/
theorem exec_pixelTable {e : Instr × Byte × ((Nat → Byte) → List Byte)} (he : e ∈ pixelTable) :
    ∃ expand, (∀ s, exec e.1 s = (assemblePixel expand s).run) ∧
      ∀ s src, (∀ k < channels e.2.1, src + k < s.caps.outCap) →
        ∃ px : Pixel, expand src s = .ok px s ∧ px.bytes = e.2.2 fun j => s.byteAt .out (src + j) := by
  simp only [pixelTable, List.mem_cons, List.not_mem_nil, or_false] at he
  obtain rfl | rfl | rfl | rfl := he
  · exact ⟨expandGray, fun _ => rfl, fun _ _ h => ⟨_, expandGray_ok h, rfl⟩⟩
  · exact ⟨expandGrayAlpha, fun _ => rfl, fun _ _ h => ⟨_, expandGrayAlpha_ok h, rfl⟩⟩
  · exact ⟨expandRgb, fun _ => rfl, fun _ _ h => ⟨_, expandRgb_ok h, rfl⟩⟩
  · exact ⟨expandRgba, fun _ => rfl, fun _ _ h => ⟨_, expandRgba_ok h, rfl⟩⟩

/-- Settles O31, by the expansion of each row and the four writes. -/
theorem pixelsAreExpanded : Obligations.PixelsAreExpanded := by
  intro e he s hi hd hc hp
  obtain ⟨expand, hexec, hexpand⟩ := exec_pixelTable he
  obtain ⟨px, hpx, hbytes⟩ := hexpand s (pixelSource s.png) (hc ▸ hi.channels_fit hd hp)
  have hassembles := assemblePixel_assembles hi hp hpx
  rw [hbytes, ← hexec] at hassembles
  exact hassembles

/-- A palette pixel has one source byte (44_png_unfilter.md R401). -/
theorem pixelSource_palette {s : State} (hi : s.ImageOk) (hd : s.png.depth = 8) (hc : s.png.ctype = 3) :
    pixelSource s.png = s.png.pixI / s.png.w * s.png.rowlen + 1 + s.png.pixI % s.png.w := by
  have hbpp : s.png.bpp = 1 := by rw [(hi.stride8 hd).1, hc]; rfl
  rw [pixelSource, hbpp, Nat.mul_one]

/-- Settles O32: the palette's expansion, with the index below `npal` and not. -/
theorem palettePixelsAreLookedUp : Obligations.PalettePixelsAreLookedUp := by
  intro s hi hd hc hp idx hidx
  rw [← pixelSource_palette hi hd hc] at hidx
  have hsrc : pixelSource s.png < s.caps.outCap := hi.channels_fit hd hp 0 (channels_pos _)
  refine ⟨fun hlt => ?_, fun hge => assemblePixel_err (expandPalette_outOfRange hsrc (hidx ▸ hge))⟩
  obtain ⟨t, hrun, hframe, hbytes, hkept⟩ :=
    assemblePixel_assembles hi hp (expandPalette_ok hsrc hidx hlt hi.npalOk)
  refine ⟨t, hrun, hframe, fun k hk => ?_, hbytes 3 (by omega), hkept⟩
  rw [hbytes k (by omega)]
  interval_cases k <;> rfl

/-- Settles O30, by the two outcomes of ASMSTART. -/
theorem assemblerAcceptsDepthEightOnly : Obligations.AssemblerAcceptsDepthEightOnly := by
  intro s h
  have hstep := h.step_eq.trans (asmstart_step h.fsm)
  exact ⟨fun hd => by rw [hstep, if_pos hd]; rfl, fun hd => by rw [hstep, if_neg hd]⟩

end Sys2Proof.Claims
end

section
/-! The commands (46_commands.md): what each command word does, the bits the elements of INFLATE read, and that
a command that is never suspended ends, because every element leaves it less work. -/

namespace Sys2Proof.Machine

/-! ### Command words -/

theorem State.goto_done (s : State) : s.goto .done = s.finish := if_pos rfl

theorem State.goto_of_ne {f : Fsm} (h : f ≠ .done) (s : State) : s.goto f = { s with fsm := f } := if_neg h

theorem execCmdInflate_busy {s : State} (h : s.status.busy = true) : execCmdInflate s = .next s := if_pos h

theorem execCmdInflate_fits {s : State} (h : s.status.busy = false) (hl : s.inLen.toNat ≤ s.caps.inCap) :
    execCmdInflate s = .next { s.startInflate with fsm := .zhdr } := by
  rw [execCmdInflate, if_neg (Bool.eq_false_iff.1 h), if_neg (Nat.not_lt.2 hl)]

theorem execCmdInflate_tooLong {s : State} (h : s.status.busy = false) (hl : s.caps.inCap < s.inLen.toNat) :
    execCmdInflate s = .next (s.startInflate.raise .capacityExceeded) := by
  rw [execCmdInflate, if_neg (Bool.eq_false_iff.1 h), if_pos hl]

theorem execCmdDecodePng_busy {s : State} (h : s.status.busy = true) : execCmdDecodePng s = .next s := if_pos h

theorem execCmdDecodePng_idle {s : State} (h : s.status.busy = false) : execCmdDecodePng s =
    .next { s with errcode := 0, status := Status.running, susp := false, fsm := .pngstart } :=
  if_neg (Bool.eq_false_iff.1 h)

theorem execCmdResume_going {s : State} (h : s.susp = false) : execCmdResume s = .next s :=
  if_neg (Bool.eq_false_iff.1 h)

theorem execCmdResume_suspended {s : State} (h : s.susp = true) :
    execCmdResume s = .next (State.goto { s with susp := false } s.suspNext) := if_pos h

/-! ### The work left to a command -/

/-- The bits still to be read shrink by as many as are read, within IN_LEN (40_bitreader.md R209). -/
theorem State.Flows.bitsLeft_le {s t : State} {n : Nat} (h : s.Flows t n) (hs : s.StreamOk) :
    t.bitsLeft + n ≤ s.bitsLeft := by
  have hlen : t.inLen = s.inLen := by rw [h.frame]
  have hfwd := h.forward
  have hs1 := hs.inPosOk
  have hs2 := hs.cntOk
  have ht1 := h.good.stream.inPosOk
  have ht2 := h.good.stream.cntOk
  rw [hlen] at ht1
  simp only [State.streamPos, State.bitsLeft, hlen] at hfwd ⊢
  omega

/-- Without CKPT_EN nothing is suspended (46_commands.md R470). -/
theorem State.SuspOk.going {s : State} (h : s.SuspOk) (hc : s.ckptEn = false) : s.susp = false :=
  Bool.eq_false_iff.2 fun hs => Bool.eq_false_iff.1 hc (h.enabled hs)

/-- A bound on the elements a command still runs if it is not suspended. INFLATE: two for every bit still to be
read, since of its elements BLKEND alone reads none and a header follows it (46_commands.md R469). DECODE_PNG:
the rows and the pixels still to come (44_png_unfilter.md R402, 45_pixel_assembler.md R431). -/
def State.work (s : State) : Nat :=
  match s.fsm with
  | .zhdr | .blkhdr | .stored | .dynhdr | .symbol => 2 * s.bitsLeft
  | .blkend => 2 * s.bitsLeft + 1
  | .pngstart => s.height.toNat + s.width.toNat * s.height.toNat + 2
  | .row => s.png.h - s.png.row + s.png.w * s.png.h + 1
  | .asmstart => s.png.w * s.png.h + 1
  | .pixel => s.png.w * s.png.h - s.png.pixI
  | .idle | .done | .error => 0

theorem State.work_blkend {s : State} (hf : s.fsm = .blkend) : s.work = 2 * s.bitsLeft + 1 := by
  rw [State.work, hf]

theorem State.work_pngstart {s : State} (hf : s.fsm = .pngstart) :
    s.work = s.height.toNat + s.width.toNat * s.height.toNat + 2 := by
  rw [State.work, hf]

theorem State.work_row {s : State} (hf : s.fsm = .row) :
    s.work = s.png.h - s.png.row + s.png.w * s.png.h + 1 := by
  rw [State.work, hf]

theorem State.work_asmstart {s : State} (hf : s.fsm = .asmstart) : s.work = s.png.w * s.png.h + 1 := by
  rw [State.work, hf]

theorem State.work_pixel {s : State} (hf : s.fsm = .pixel) : s.work = s.png.w * s.png.h - s.png.pixI := by
  rw [State.work, hf]

theorem State.work_reading {s : State} (hf : s.fsm.inflating = true) (hb : s.fsm ≠ .blkend) :
    s.work = 2 * s.bitsLeft := by
  rw [State.work]
  cases h : s.fsm with
  | zhdr | blkhdr | stored | dynhdr | symbol => rfl
  | blkend => exact absurd h hb
  | pngstart | row | asmstart | pixel | idle | done | error => rw [h] at hf; cases hf

theorem State.work_inflating {s : State} (hf : s.fsm.inflating = true) : s.work ≤ 2 * s.bitsLeft + 1 := by
  by_cases hb : s.fsm = .blkend
  · exact (State.work_blkend hb).le
  · exact (State.work_reading hf hb).le.trans (Nat.le_succ _)

/-- An element ends its command or leaves it less work, and writes nothing of the host's part. -/
structure State.Advances (s t : State) : Prop where
  host : t.hostPart = s.hostPart
  less : t.status.busy = true → t.work < s.work

theorem State.Advances.raise {s u : State} (h : u.hostPart = s.hostPart) (k : ErrorKind) : s.Advances (u.raise k) :=
  ⟨h, fun hb => by cases hb⟩

theorem State.Advances.finish {s u : State} (h : u.hostPart = s.hostPart) : s.Advances u.finish :=
  ⟨h, fun hb => by cases hb⟩

/-- An element advances if its ends do and its errors are raised with the host's part unchanged. -/
theorem OutcomeSat.advances {o : Outcome} {P : State → Prop} {E : ErrorKind → State → Prop} {s : State}
    (h : OutcomeSat o P E) (hp : ∀ t, P t → s.Advances t) (he : ∀ k u, E k u → u.hostPart = s.hostPart) :
    ∃ t, o = .next t ∧ s.Advances t := by
  obtain ⟨t, rfl, ht | ⟨k, u, hu, rfl⟩⟩ := h
  · exact ⟨t, rfl, hp t ht⟩
  · exact ⟨_, rfl, .raise (he k u hu) k⟩

/-! ### Elements of INFLATE -/

theorem State.Flows.hostPart_eq {s t : State} {n : Nat} (h : s.Flows t n) : t.hostPart = s.hostPart := by
  rw [h.frame]; rfl

theorem InflateError.hostPart_eq {s t : State} {k : ErrorKind} (h : InflateError s k t) :
    t.hostPart = s.hostPart := by
  obtain ⟨u, l, b, ty, m, d, hu, -, rfl⟩ := h
  exact hu.hostPart_eq

theorem InflateNext.streamPos_le {s t : State} {n : Nat} (h : InflateNext s n t) : s.streamPos + n ≤ t.streamPos := by
  obtain ⟨u, l, d, b, ty, f, hu, -, -, -, rfl⟩ := h
  exact hu.forward

/-- Every element of INFLATE but BLKEND reads a bit (46_commands.md R469). -/
theorem Fsm.minBits_pos {f : Fsm} : f.inflating = true → f ≠ .blkend → 0 < f.minBits := by cases f <;> decide

theorem InflateNext.advances {s t : State} (h : InflateNext s s.fsm.minBits t) (hs : s.StreamOk)
    (hf : s.fsm.inflating = true) (hb : s.fsm ≠ .blkend) : s.Advances t := by
  obtain ⟨u, l, d, b, ty, f, hu, -, -, hinf, rfl⟩ := h
  refine ⟨hu.hostPart_eq, fun _ => ?_⟩
  have hread := Fsm.minBits_pos hf hb
  have hleft := hu.bitsLeft_le hs
  have hnext := State.work_inflating (s := { u with
    llt := l, dt := d, bfinal := b, btype := ty, matchLen := 0, dyn := DynScratch.empty, fsm := f }) hinf
  rw [State.work_reading hf hb]
  change _ ≤ 2 * u.bitsLeft + 1 at hnext
  omega

/-- The end of a block without CKPT_EN: the stream is over, or the next header is read
(42_inflate_blocks.md R258). -/
theorem State.Advances.blockEnd {s : State} (hf : s.fsm = .blkend) (hc : s.ckptEn = false) :
    s.Advances (s.checkpoint (if s.bfinal then .done else .blkhdr)) := by
  rw [State.checkpoint_disabled hc]
  split
  · rw [State.goto_done]
    exact .finish rfl
  · rw [State.goto_of_ne (by decide)]
    refine ⟨rfl, fun _ => ?_⟩
    rw [State.work_blkend hf, State.work_reading rfl fun e => by cases e]
    exact Nat.lt_succ_self (2 * s.bitsLeft)

/-! ### Elements of DECODE_PNG -/

/-- A row is done: one row fewer, or the assembler starts (44_png_unfilter.md R402). -/
theorem State.Advances.rowDone {s : State} (hf : s.fsm = .row) (hc : s.ckptEn = false) (hr : s.png.row < s.png.h)
    (m : Memory) : s.Advances (s.withOut m s.outLen).rowDone := by
  refine ⟨State.rowDone_hostPart _, fun _ => ?_⟩
  rw [State.rowDone_eq, State.checkpoint_disabled (s := (s.withOut m s.outLen).nextRow) hc, State.work_row hf]
  split
  · rw [State.goto_of_ne (by decide), State.work_asmstart rfl]
    show s.png.w * s.png.h + 1 < _
    omega
  · rw [State.goto_of_ne (by decide), State.work_row rfl]
    show s.png.h - (s.png.row + 1) + s.png.w * s.png.h + 1 < _
    omega

/-- A pixel is done: one pixel fewer, or the image is complete (45_pixel_assembler.md R431). -/
theorem State.Advances.pixelDone {s : State} (hf : s.fsm = .pixel) (hp : s.png.pixI < s.png.w * s.png.h)
    (m : Memory) : s.Advances (s.withPix m).pixelDone := by
  rw [State.pixelDone_eq]
  split
  · rw [State.goto_done]
    exact .finish rfl
  · rw [State.goto_of_ne (by decide)]
    refine ⟨rfl, fun _ => ?_⟩
    rw [State.work_pixel hf, State.work_pixel rfl]
    show s.png.w * s.png.h - (s.png.pixI + 1) < s.png.w * s.png.h - s.png.pixI
    omega

theorem State.Advances.asmStart {s : State} (hf : s.fsm = .asmstart) : s.Advances (asmStart s) := by
  refine ⟨rfl, fun _ => ?_⟩
  rw [State.work_asmstart hf, State.work_pixel rfl]
  exact Nat.lt_succ_self (s.png.w * s.png.h)

end Sys2Proof.Machine

namespace Sys2Proof.Claims

open Sys2Proof.Machine

/-- The entry checks raise an error, or the image has the registers' size (44_png_unfilter.md R400). -/
theorem pngStart_advances {s : State} (hf : s.fsm = .pngstart) : ∃ t, (pngStart s).run = .next t ∧ s.Advances t := by
  have hagrees := pngStart_agrees s
  cases he : entryError s with
  | some k =>
    rw [he] at hagrees
    obtain ⟨p, hp⟩ := hagrees
    refine ⟨_, congrArg Res.run hp, .raise ?_ k⟩
    rfl
  | none =>
    rw [he] at hagrees
    refine ⟨_, congrArg Res.run hagrees, rfl, fun _ => ?_⟩
    rw [State.work_pngstart hf, State.work_row rfl]
    exact Nat.lt_succ_self (s.height.toNat + s.width.toNat * s.height.toNat + 1)

/-- Without CKPT_EN every element of a running command ends it or leaves it less work (46_commands.md R468). -/
theorem element_advances {s : State} (h : s.Inv) (hr : s.fsm.running = true) (hs : s.susp = false)
    (hc : s.ckptEn = false) : ∃ t, (fetchElement s).outcome = .next t ∧ s.Advances t := by
  cases hf : s.fsm with
  | zhdr | blkhdr | stored | dynhdr | symbol =>
    have hinf : s.fsm.inflating = true := by rw [hf]; rfl
    have hb : s.fsm ≠ .blkend := by rw [hf]; decide
    exact (inflate_step h hinf hb).advances (fun t ht => ht.advances (h.stream hinf) hinf hb)
      fun k u hu => hu.hostPart_eq
  | blkend => exact ⟨_, blkend_step hf, .blockEnd hf hc⟩
  | pngstart => rw [pngstart_step hf]; exact pngStart_advances hf
  | row =>
    have hrow : s.png.row < s.png.h := h.atRow ((State.point_of_going hs).trans hf)
    refine (row_step (h.image (by rw [hf]; rfl)) hf hrow).advances ?_ ?_
    · rintro t ⟨m, -, rfl⟩
      exact .rowDone hf hc hrow m
    · rintro k u ⟨-, rfl⟩
      rfl
  | asmstart =>
    rw [asmstart_step hf]
    split
    · exact ⟨_, rfl, .asmStart hf⟩
    · exact ⟨_, rfl, .raise rfl _⟩
  | pixel =>
    obtain ⟨hd, hp⟩ := h.atPixel ((State.point_of_going hs).trans hf)
    refine (pixel_step (h.image (by rw [hf]; rfl)) hf hd hp).advances ?_ ?_
    · rintro t ⟨m, -, rfl⟩
      exact .pixelDone hf hp m
    · rintro k u ⟨-, rfl⟩
      rfl
  | idle | done | error => rw [hf] at hr; cases hr

/-- Settles O51, by induction on the work left: every turn of the engine leaves less of it. -/
theorem commandsTerminate : Obligations.CommandsTerminate := by
  intro s h hm hc
  induction hw : s.work using Nat.strong_induction_on generalizing s with
  | _ w ih =>
    cases hb : s.status.busy with
    | false => exact ⟨0, s, rfl, hb⟩
    | true =>
      have hs := h.susp.going hc
      obtain ⟨t, he, hadv⟩ := element_advances h (h.status.busy ▸ hb) hs hc
      have hstep : step s = .next t := (step_element hm hb hs).trans he
      cases hbt : t.status.busy with
      | false => exact ⟨1, t, steps_succ_eq_next.2 ⟨t, hstep, rfl⟩, hbt⟩
      | true =>
        obtain ⟨n, u, hrun, hend⟩ := ih t.work (hw ▸ hadv.less hbt) t (stepKeepsTheInvariant s t h hstep)
          ((congrArg State.moves hadv.host).trans hm) ((congrArg State.ckptEn hadv.host).trans hc) rfl
        exact ⟨n + 1, u, steps_succ_eq_next.2 ⟨t, hstep, hrun⟩, hend⟩

/-! ### The bits an element reads -/

theorem zhdr_moves {s t : State} (h : AtElement s .zhdr) (hr : s.CanRead 0) (hstep : step s = .next t)
    (ht : t.fsm ≠ .error) : t.streamPos = s.streamPos + 16 := by
  by_cases hbits : 16 ≤ s.bitsLeft
  · rw [h.step_zhdr ⟨hr.bits, hbits, hr.inCapOk⟩] at hstep
    split at hstep
    · cases hstep
      exact State.afterRead_streamPos (s.fetches_enough 16)
    · cases hstep
      exact absurd rfl ht
  · obtain ⟨-, -, hshort⟩ := containerHeaderElement s h
    obtain ⟨u, hu, he⟩ := hshort hr.bits hr.inCapOk (by omega)
    rw [hu] at hstep
    cases hstep
    exact absurd (congrArg State.fsm he) ht

theorem blkhdr_moves {s t : State} (h : AtElement s .blkhdr) (hr : s.CanRead 0) (hstep : step s = .next t)
    (ht : t.fsm ≠ .error) : t.streamPos = s.streamPos + 3 := by
  by_cases hbits : 3 ≤ s.bitsLeft
  · have hmove := State.afterRead_streamPos (s.fetches_enough 3)
    rw [h.step_blkhdr ⟨hr.bits, hbits, hr.inCapOk⟩, decodeBlkhdr] at hstep
    split at hstep
    · cases hstep; exact hmove
    · cases hstep; exact hmove
    · cases hstep; exact hmove
    · cases hstep; exact absurd rfl ht
  · obtain ⟨-, hshort⟩ := blockHeaderElement s h
    obtain ⟨u, hu, he, -⟩ := hshort hr.bits hr.inCapOk (by omega)
    rw [hu] at hstep
    cases hstep
    exact absurd he ht

/-- Settles O50: the two headers read exactly their bits, the other elements at least `Fsm.minBits`. -/
theorem inflateElementsReadBits : Obligations.InflateElementsReadBits := by
  intro s t h hat hstep ht
  have hread (f : Fsm) (hf : s.fsm = f) (hinf : f.inflating = true) (hb : f ≠ .blkend) :
      s.streamPos + f.minBits ≤ t.streamPos := by
    subst hf
    exact ((inflate_step h hinf hb).of_no_error (hat.step_eq ▸ hstep) ht).streamPos_le
  have hzero (hinf : s.fsm.inflating = true) : s.CanRead 0 := canRead_zero h.bits (h.stream hinf).inCapOk
  refine ⟨fun hf => ?_, fun hf => ?_, fun hf => hread _ hf rfl (by decide), fun hf => hread _ hf rfl (by decide),
    fun hf => hread _ hf rfl (by decide)⟩
  · exact zhdr_moves (hf ▸ hat) (hzero (by rw [hf]; rfl)) hstep ht
  · exact blkhdr_moves (hf ▸ hat) (hzero (by rw [hf]; rfl)) hstep ht

/-! ### Command words -/

/-- Settles O36: RESUME goes on to the target the checkpoint would have gone on to. -/
theorem resumeContinuesAtTheCheckpoint : Obligations.ResumeContinuesAtTheCheckpoint := by
  intro s next hs
  rw [State.checkpoint_enabled rfl, State.checkpoint_disabled rfl]
  refine ⟨_, execCmdResume_suspended rfl, ?_⟩
  by_cases hn : next = .done
  · subst hn
    rfl
  · simp only [State.goto_of_ne hn, hs]

/-- Settles O33: ignored, started, or ended at once by its capacity check. -/
theorem inflateCommandStarts : Obligations.InflateCommandStarts :=
  fun _ => ⟨execCmdInflate_busy, fun hb hl => ⟨_, execCmdInflate_fits hb hl, rfl, rfl, rfl⟩,
    fun hb hl => ⟨_, execCmdInflate_tooLong hb hl, rfl, rfl, rfl⟩⟩

/-- Settles O34, by the outcome of each command word. -/
theorem otherCommandsAct : Obligations.OtherCommandsAct := by
  intro s
  refine ⟨execCmdDecodePng_busy, execCmdDecodePng_idle, execCmdResume_going, fun hs hn => ?_, fun hs hn => ?_, rfl,
    fun _ => rfl⟩
  · exact (execCmdResume_suspended hs).trans (congrArg _ (State.goto_of_ne hn _))
  · exact (execCmdResume_suspended hs).trans (by rw [hn, State.goto_done]; rfl)

end Sys2Proof.Claims
end

section
/-! Errors and reset: what error entry leaves, why nothing but a command or a reset ends it, the register writes
that are ignored, and the state after reset. -/

namespace Sys2Proof.Machine

/-! ### The ERROR state -/

/-- STATUS in ERROR: ERR alone (60_exceptions.md R610). -/
theorem State.StatusOk.status_of_error {s : State} (h : s.StatusOk) (hf : s.fsm = .error) :
    s.status = { busy := false, done := false, err := true } :=
  calc s.status = ⟨s.status.busy, s.status.done, s.status.err⟩ := rfl
    _ = ⟨false, false, true⟩ := by rw [h.busy, h.done, h.err, hf]; rfl

/-- Only a running command is suspended, so ERROR is not (10_state.md R41). -/
theorem State.SuspOk.going_of_error {s : State} (h : s.SuspOk) (hf : s.fsm = .error) : s.susp = false := by
  by_contra hs
  have hrun := h.running (Bool.eq_true_of_not_eq_false hs)
  rw [hf] at hrun
  cases hrun

/-- The word STATUS reads as where neither BUSY nor DONE nor SUSP is set (10_state.md R32). -/
theorem State.statusWord_err_alone {s : State} (hst : s.status = { busy := false, done := false, err := true })
    (hs : s.susp = false) : s.statusWord = 4 := by
  rw [State.statusWord, hst, hs]
  rfl

/-- ERRCODE reads as the code itself (10_state.md R33). -/
theorem State.readReg_errcode_toNat (s : State) : (s.readReg .errcode).toNat = s.errcode.toNat :=
  BitVec.toNat_setWidth_of_le (by decide)

/-! ### Register writes that are ignored -/

/-- STATUS, ERRCODE and the reserved registers store nothing (10_state.md R30, R32, R33). -/
theorem State.setReg_readOnly (s : State) {r : Reg} (h : r = .status ∨ r = .errcode ∨ r = .reserved) (v : Word) :
    s.setReg r v = s := by
  rcases h with rfl | rfl | rfl <;> rfl

/-- A write while BUSY, or to a register that stores nothing, is ignored (70_reset_and_hazards.md R720). -/
theorem State.writeReg_ignored {s : State} {r : Reg}
    (h : s.status.busy = true ∨ r = .status ∨ r = .errcode ∨ r = .reserved) (v : Word) : s.writeReg r v = s := by
  cases hb : s.status.busy with
  | true => exact State.writeReg_busy hb r v
  | false => rw [State.writeReg_idle hb, s.setReg_readOnly (h.resolve_left (Bool.eq_false_iff.1 hb))]

/-! ### Reset -/

/-- The memories after reset hold no written byte (70_reset_and_hazards.md R702). -/
theorem State.reset_mem (sp : Space) : State.reset.mem sp = Memory.drawn 0 := by cases sp <;> rfl

theorem State.resetSignal_mem (s : State) (sp : Space) : s.resetSignal.mem sp = Memory.drawn s.draws := by
  cases sp <;> rfl

/-- The registers after reset all read 0 (70_reset_and_hazards.md R700). -/
theorem State.reset_readReg (r : Reg) : State.reset.readReg r = 0 := by cases r <;> rfl

theorem State.reset_sound : State.reset.Sound where
  capsOk := by decide
  bits := ⟨Nat.zero_le _, Nat.zero_lt_one⟩
  mems := ⟨fun sp => State.reset_mem sp ▸ Memory.drawn_wf 0, fun sp => State.reset_mem sp ▸ Memory.drawn_below 0 _,
    fun sp => State.reset_mem sp ▸ Nat.zero_lt_one⟩
  llt := Table.empty_ok _
  dt := Table.empty_ok _

end Sys2Proof.Machine

namespace Sys2Proof.Claims

open Sys2Proof.Machine

/-- The codes of R600 are those error entry records. -/
theorem code_of_mem_errorCodes : ∀ e ∈ errorCodes, e.1.code = e.2 := by decide

/-- Settles O39: the engine waits because BUSY is 0, RESUME because `susp` is, and the code is one of R600's. -/
theorem errorStateIsQuiescent : Obligations.ErrorStateIsQuiescent := by
  intro s h hf
  have hst := h.status.status_of_error hf
  have hs := h.susp.going_of_error hf
  refine ⟨fun hm => ?_, execCmdResume_going hs, State.statusWord_err_alone hst hs, ?_, ?_⟩
  · exact idleAndSuspendedEngineWaits s hm (.inl (congrArg Status.busy hst))
  · have hcode : s.errcode ≠ 0 := h.status.errcode.2 hf
    rw [s.readReg_errcode_toNat]
    exact Nat.one_le_iff_ne_zero.2 fun hzero => hcode (BitVec.eq_of_toNat_eq hzero)
  · rw [s.readReg_errcode_toNat]
    exact h.status.errcodeBound

/-- Settles O38: error entry records the code R600 gives the kind. -/
theorem errorEntryRecordsTheKindOnly : Obligations.ErrorEntryRecordsTheKindOnly := by
  intro e he s
  rw [← code_of_mem_errorCodes e he]
  rfl

/-- Settles O43: the step is `writeReg`, and the write is one that `writeReg` ignores. -/
theorem registerWritesIgnoredWhileBusy : Obligations.RegisterWritesIgnoredWhileBusy := by
  intro s off r v rest hoff hr hm hignored
  obtain ⟨hstep, -⟩ := registersReadBack
  rw [hstep s off r v rest hoff hr hm, State.writeReg_ignored (s := { s with moves := rest }) hignored v]

/-- Settles O46: the registers one by one, and the reset signal as a move of the host. -/
theorem resetValues : Obligations.ResetValues := by
  refine ⟨State.reset_readReg, rfl, rfl, rfl, rfl, rfl, rfl, rfl, rfl, rfl, rfl, rfl, rfl, fun s rest hm => ?_⟩
  refine ⟨State.resetSignal { s with moves := rest }, step_of_move hm, fun sp => ?_, rfl⟩
  rw [State.resetSignal_mem]

/-- Settles O52: the state after reset is its own registers at their reset values beside its own memories. -/
theorem resetMeetsTheInvariant : Obligations.ResetMeetsTheInvariant := State.reset_sound.reset_inv rfl

end Sys2Proof.Claims
end
